-- ==== Sys2Proof/Word.lean ====
section
/-! DEFINITION. The byte of the member input and of the window, and the code length of a Huffman symbol. -/

namespace Sys2Proof

/-- One byte of the member input, of the window or of the output stream (R60). -/
abbrev Byte := BitVec 8

/-- One code length of a length array: 0 to 15, where 0 means an absent symbol (R150). -/
abbrev Len := BitVec 4

end Sys2Proof
end

