-- ==== Sys2Proof/Syntax.lean ====
section
/-! DEFINITION. The names the spec fixes (generations, block types, error codes) and the instructions: one
constructor of `Instr` per row of spec/opcode_table.json, whose arguments are the row's decoded fields. -/

namespace Sys2Proof

/-- The generation of a member (R21). -/
inductive Gen where
  | v15 | v20 | v29 | v50
  deriving DecidableEq, Repr

/-- The two v29 block types (R41). -/
inductive BlockType where
  | lz | ppm
  deriving DecidableEq, Repr

/-- The error and refusal codes of R400. -/
inductive ErrCode where
  /-- BAD_TABLE: a code-length array that oversubscribes the code space. -/
  | e1
  /-- BAD_REPEAT: a repeat code at position 0 of a length description. -/
  | e2
  /-- BAD_BLOCK_HEADER: byte count 4 or a checksum mismatch. -/
  | e3
  /-- NO_TABLES: a v50 block while no v50 table has been read. -/
  | e4
  /-- BAD_VM_CODE: a VM code of length 0. -/
  | e5
  /-- PPM_CORRUPT: the PPMd coder fails to start, or answers EOF inside a token. -/
  | e6
  /-- TRUNCATED: the input ended before the step's outcome and before the declared size. -/
  | e7
  /-- FILTER_REJECTED: the FilterScheduler answers reject. -/
  | e8
  /-- BAD_SYMBOL: reserved, a main symbol with no rule. -/
  | e9
  /-- REFUSED_GENERATION: a member start with generation V15. -/
  | e10
  /-- REFUSED_CONFIG: a member start the configuration rules refuse. -/
  | e11
  deriving DecidableEq, Repr

/-- One element of a `PL4E` pre-table description (R92). -/
inductive PreCode where
  /-- `XB(4)` other than 15: the next pre-length. -/
  | len (l : Len)
  /-- 15 and then `XB(4)` = z: the length 15 when z = 0, else z + 2 zero lengths. -/
  | esc (z : BitVec 4)
  deriving DecidableEq, Repr

/-- One element of a `LENCODE5` length description (R94). -/
inductive LenCode5 where
  | lit (n : Len)
  | rep3 (n : BitVec 3)
  | rep7 (n : BitVec 7)
  | zero3 (n : BitVec 3)
  | zero7 (n : BitVec 7)
  deriving DecidableEq, Repr

/-- One element of a `LENCODE2` length description (R95). -/
inductive LenCode2 where
  | lit (n : Len)
  | rep2 (n : BitVec 2)
  | zero3 (n : BitVec 3)
  | zero7 (n : BitVec 7)
  deriving DecidableEq, Repr

/-- A table description of v50 or v29: the pre-lengths, then the lengths (R96, R97). -/
structure TableDesc5 where
  pre  : List PreCode
  lens : List LenCode5
  deriving DecidableEq, Repr

/-- A `V50_BLOCK_HEADER` (R96). A header the decoder stops reading at an illegal field holds zeros and
no tables after it. -/
structure BlockHeader where
  flags  : BitVec 8
  check  : BitVec 8
  size   : BitVec 24
  tables : Option TableDesc5
  deriving DecidableEq, Repr

/-- A `V29_TABLES` header (R97): the PPM form carries the coder's answer to `PpmInit` (R284). -/
inductive V29Header where
  | ppm (ok : Bool) (esc : Byte)
  | lz (keep : Bool) (desc : TableDesc5)
  deriving DecidableEq, Repr

/-- A `V20_TABLES` header (R98): `audio` holds the channel count minus 1 when the audio bit is set. -/
structure V20Header where
  audio : Option (BitVec 2)
  keep  : Bool
  pre   : List Len
  lens  : List LenCode2
  deriving DecidableEq, Repr

/-- What the v20 tail step found after the last token (R350): no further read, a symbol that is no reload
symbol, or the reload symbol and the table description after it. -/
inductive TailProbe where
  | stop
  | ignored (symbol : Nat)
  | reload (h : V20Header)
  deriving DecidableEq, Repr

/-- The bits of `V29_EOB` (R288): N = 1, or N = 0 and then T. -/
inductive EobForm where
  | newTables
  | endMember (t : Bool)
  deriving DecidableEq, Repr

/-- The operand fields of `V50_FILTER` (R100, R251): the byte counts minus 1 of the two `ReadFilterData`
fields, their values, the type, and channels minus 1 when the type is 0. -/
structure FilterFields where
  startCount  : BitVec 2
  start       : BitVec 32
  lengthCount : BitVec 2
  length      : BitVec 32
  type        : BitVec 3
  channels    : Option (BitVec 5)
  deriving DecidableEq, Repr

/-- The operand fields of a VM-code token (R289, R300): the first byte, the length extension (one byte
or a big-endian pair, 0 when the form has none) and the code bytes. -/
structure VmCode where
  first : Byte
  ext   : Nat
  code  : List Byte
  deriving DecidableEq, Repr

/-- A distance operand (R99): the slot, its raw extra bits (only the high part when a low-distance code
follows) and the low-distance symbol when one is read. -/
structure DistField where
  slot  : Nat
  extra : Nat
  low   : Option Nat
  deriving DecidableEq, Repr

/-- The instructions: one constructor per row of spec/opcode_table.json. -/
inductive Instr where
  -- structural steps
  | v50FirstHeader (h : BlockHeader)
  | v50NextBlock (h : BlockHeader)
  | v50End
  | v29Init
  | v29Tables (h : V29Header)
  | v20Init
  | v20Tables (h : V20Header)
  | v20SizeDone
  | v20Tail (p : TailProbe)
  | v15Stream
  -- v50 tokens
  | v50Lit (b : Byte)
  | v50Filter (f : FilterFields)
  | v50RepLast
  | v50RepOld (i : Fin 4) (slot extra : Nat)
  | v50Match (slot extra : Nat) (d : DistField)
  -- v29 LZ tokens
  | v29Lit (b : Byte)
  | v29Eob (e : EobForm)
  | v29VmCode (v : VmCode)
  | v29RepLast
  | v29RepOld (i : Fin 4) (slot extra : Nat)
  | v29Short (n : Fin 8) (extra : Nat)
  | v29Match (slot extra : Nat) (d : DistField)
  -- v29 PPM tokens
  | ppmLit (c : Byte)
  | ppmEscReload
  | ppmEscLit (x : Byte)
  | ppmEscEnd
  | ppmEscVmCode (v : VmCode)
  | ppmEscLz (d2 d1 d0 l : Byte)
  | ppmEscRle (l : Byte)
  -- v20 tokens
  | v20Lit (b : Byte)
  | v20RepLast
  | v20RepOld (i : Fin 4) (slot extra : Nat)
  | v20Short (n : Fin 8) (extra : Nat)
  | v20Reload
  | v20Match (slot extra dslot dextra : Nat)
  | v20AudSample (delta : Byte)
  | v20AudReload
  -- elements of a length description
  | pl4eLen (l : Len)
  | pl4eEsc (z : BitVec 4)
  | pl4Len (l : Len)
  | len5Lit (n : Len)
  | len5Rep3 (n : BitVec 3)
  | len5Rep7 (n : BitVec 7)
  | len5Zero3 (n : BitVec 3)
  | len5Zero7 (n : BitVec 7)
  | len2Lit (n : Len)
  | len2Rep2 (n : BitVec 2)
  | len2Zero3 (n : BitVec 3)
  | len2Zero7 (n : BitVec 7)
  deriving DecidableEq, Repr

end Sys2Proof
end

