-- ==== Sys2Proof/Machine/Operands.lean ====
section
/-! DEFINITION. Operand assembly (R99): the base and extra-bit tables, slots, distances, the length bonus,
the block header fields and the VM-code length. -/

namespace Sys2Proof.Machine

/-- 1 when the comparison holds, else 0 (R217). -/
def one (b : Bool) : Nat := if b then 1 else 0

/-! ### v50 (44_v50.md) -/

/-- The byte count `bc` of a v50 block header: flags bits 4:3 plus 1 (R242). -/
def headerByteCount (flags : BitVec 8) : Nat := ((flags.toNat >>> 3) &&& 3) + 1

/-- R243 `Check5(flags, size)`. -/
def check5 (flags : BitVec 8) (size : Nat) : Nat :=
  (0x5A ^^^ flags.toNat ^^^ size ^^^ (size >>> 8) ^^^ (size >>> 16)) &&& 0xFF

/-- The count of extra bits of a v50 length slot (R255). -/
def lengthBits5 (slot : Nat) : Nat := if slot < 8 then 0 else slot / 4 - 1

/-- R255 `SlotToLength`: the length of a v50 slot and its extra bits. -/
def slotToLength (slot extra : Nat) : Nat :=
  if slot < 8 then slot + 2 else 2 + ((4 ||| (slot &&& 3)) <<< lengthBits5 slot) + extra

/-- The count `db` of extra bits of a v50 distance slot (R256). -/
def distBits5 (slot : Nat) : Nat := if slot < 4 then 0 else slot / 2 - 1

/-- The base distance of a v50 distance slot (R256). -/
def distBase5 (slot : Nat) : Nat :=
  if slot < 4 then 1 + slot else 1 + ((2 ||| (slot &&& 1)) <<< distBits5 slot)

/-- R256 `Distance5`: with 4 or more extra bits the raw part is shifted left 4 and the low-distance symbol
added. -/
def distance5 (d : DistField) : Nat :=
  if distBits5 d.slot ≥ 4 then distBase5 d.slot + (d.extra <<< 4) + d.low.getD 0
  else distBase5 d.slot + d.extra

/-- R217, `V50_MATCH`. -/
def bonus5 (dist : Nat) : Nat := one (dist > 0x100) + one (dist > 0x2000) + one (dist > 0x40000)

/-- `MAX_FILTER_LEN` of R240. -/
def maxFilterLen : Nat := 0x400000

/-- R259: a filter length above `MAX_FILTER_LEN` becomes 0. -/
def capFilterLen (l : BitVec 32) : BitVec 32 := if l.toNat > maxFilterLen then 0 else l

/-! ### v29 and v20 (R281, R331) -/

/-- `LDecode[0..27]` of R281. -/
def lDecode : List Nat :=
  [0, 1, 2, 3, 4, 5, 6, 7, 8, 10, 12, 14, 16, 20, 24, 28, 32, 40, 48, 56, 64, 80, 96, 112, 128, 160, 192, 224]

/-- `LBits[0..27]` of R281. -/
def lBits : List Nat := [0, 0, 0, 0, 0, 0, 0, 0, 1, 1, 1, 1, 2, 2, 2, 2, 3, 3, 3, 3, 4, 4, 4, 4, 5, 5, 5, 5]

/-- `SDDecode[0..7]` of R281. -/
def sdDecode : List Nat := [0, 4, 8, 16, 32, 64, 128, 192]

/-- `SDBits[0..7]` of R281. -/
def sdBits : List Nat := [2, 2, 3, 4, 5, 6, 6, 6]

/-- `DDecode[0..59]` of R281. -/
def dDecode : List Nat :=
  [0, 1, 2, 3, 4, 6, 8, 12, 16, 24, 32, 48, 64, 96, 128,
   192, 256, 384, 512, 768, 1024, 1536, 2048, 3072, 4096, 6144, 8192, 12288, 16384, 24576,
   32768, 49152, 65536, 98304, 131072, 196608, 262144, 327680, 393216, 458752, 524288, 589824, 655360, 720896, 786432,
   851968, 917504, 983040, 1048576, 1310720, 1572864, 1835008, 2097152, 2359296, 2621440, 2883584, 3145728, 3407872,
   3670016, 3932160]

/-- `DBits[0..59]` of R281. -/
def dBits : List Nat :=
  [0, 0, 0, 0, 1, 1, 2, 2, 3, 3, 4, 4, 5, 5, 6,
   6, 7, 7, 8, 8, 9, 9, 10, 10, 11, 11, 12, 12, 13, 13,
   14, 14, 15, 15, 16, 16, 16, 16, 16, 16, 16, 16, 16, 16, 16,
   16, 16, 16, 18, 18, 18, 18, 18, 18, 18, 18, 18, 18,
   18, 18]

/-- `LBits[n]`. -/
def lengthBits (n : Nat) : Nat := lBits.getD n 0

/-- `LDecode[n]`. -/
def lengthBase (n : Nat) : Nat := lDecode.getD n 0

/-- `SDBits[n]`. -/
def shortBits (n : Nat) : Nat := sdBits.getD n 0

/-- `DBits[dn]`. -/
def distBits (dn : Nat) : Nat := dBits.getD dn 0

/-- `DDecode[dn]`. -/
def distBase (dn : Nat) : Nat := dDecode.getD dn 0

/-- The length of a v29 or v20 repeat-old token (R291, R338), before any bonus. -/
def repeatLength (slot extra : Nat) : Nat := lengthBase slot + 2 + extra

/-- The length of a v29 or v20 match token (R293, R341), before the bonus. -/
def matchLength (slot extra : Nat) : Nat := lengthBase slot + 3 + extra

/-- The distance of a short match (R292, R339). -/
def shortDistance (n extra : Nat) : Nat := sdDecode.getD n 0 + 1 + extra

/-- The raw extra bits a v29 distance slot reads (R294): all of `DBits` up to slot 9, `DBits - 4` above. -/
def rawDistBits3 (dn : Nat) : Nat := if dn > 9 then distBits dn - 4 else distBits dn

/-- Whether a v29 distance slot splits off its low 4 bits (R294). -/
def splitsLow3 (dn : Nat) : Bool := decide (distBits dn > 0) && decide (dn > 9)

/-- The part of a v29 distance that its raw bits give (R294). -/
def rawDistance3 (d : DistField) : Nat :=
  distBase d.slot + 1 + (if splitsLow3 d.slot then d.extra <<< 4 else d.extra)

/-- R217, `V29_MATCH` and `V20_MATCH`. -/
def bonus3 (dist : Nat) : Nat := one (dist ≥ 0x2000) + one (dist ≥ 0x40000)

/-- R217 and R343, `V20_REP_OLD`. -/
def bonusRepeat2 (dist : Nat) : Nat := one (dist ≥ 0x101) + one (dist ≥ 0x2000) + one (dist ≥ 0x40000)

/-- R289 and R300: the code length of a VM-code token from its first byte and its length extension. -/
def vmLength (first : Byte) (ext : Nat) : Nat :=
  let l := (first.toNat &&& 7) + 1
  if l = 7 then ext + 7 else if l = 8 then ext else l

/-- How many bytes the length extension of a VM-code token has (R289). -/
def vmExtBytes (first : Byte) : Nat :=
  let l := (first.toNat &&& 7) + 1
  if l = 7 then 1 else if l = 8 then 2 else 0

/-- R91 `BE(k)`: byte fields assembled big-endian. -/
def bigEndian (bs : List Byte) : Nat := bs.foldl (fun v b => v * 256 + b.toNat) 0

/-- The length count of a v20 table description (R98, R333). -/
def v20LensCount : Option (BitVec 2) → Nat
  | some c => 257 * (c.toNat + 1)
  | none => 374

/-! ### Alphabet sizes (R38, R240, R280, R330) and MAXOUT (R213) -/

/-- `MAXOUT` of R213; V15 has no decoder step. -/
def maxOut : Gen → Nat
  | .v50 => 4100
  | .v29 => 287
  | .v20 => 260
  | .v15 => 0

end Sys2Proof.Machine
end

