-- ==== Sys2Proof/Config.lean ====
section
/-! DEFINITION. The parameters of R5 that an implementation fixes, and the values the spec leaves open
(the draws and the external coder), which have no body: a claim holds whatever they are. -/

namespace Sys2Proof

/-- The answer of `PpmInit(e)` (R71): whether the coder could start, the escape byte, and its new private
state. -/
structure PpmInitAnswer where
  ok    : Bool
  esc   : Byte
  state : Nat
  deriving DecidableEq, Repr, Inhabited

/-- The answer of `PpmChar()` (R71): a character or EOF (`none`), and its new private state. -/
structure PpmCharAnswer where
  char  : Option Byte
  state : Nat
  deriving DecidableEq, Repr, Inhabited

/-- A request to the coder as a reader of input bytes: it answers, or takes the next byte. What it has taken
when it answers is its exact consumption (R450), so no byte behind it can change the answer (R136, log 21). -/
inductive PpmReader (α : Type) where
  | done (answer : α)
  | more (next : Byte → PpmReader α)
  deriving Inhabited

/-- A PPMd coder (R71): for each PPMSTATE and request, the reader of the input bytes from POS_BYTE on. `init`
also takes the escape byte in force and the byte that holds the block type flag, from which the
initialisation reads (R284). -/
structure Ppmd where
  init : (state : Nat) → (esc : Byte) → (flagByte : Byte) → PpmReader PpmInitAnswer
  char : (state : Nat) → PpmReader PpmCharAnswer
  deriving Inhabited

namespace Config

/-- `PPMD` of R5 and D24: the external coder, an open parameter (log 6). -/
opaque ppmd : Ppmd

/-- `WINDOW_INIT` of R5 and D13: the byte that draw number `n` gives window position `a` (log 4). -/
opaque windowInit : (n a : Nat) → Byte

/-- `ERROR_FLUSH_COUNT` of R5 and D21: the number that draw number `n` gives; the machine reduces it
into 0..PENDING (log 5). -/
opaque errorFlushCount : (n : Nat) → Nat

/-- `REJECT_INCOMPLETE` of R5 and D9: false for this hardware (90_conflicts.md C2). -/
def rejectIncomplete : Bool := false

end Config

end Sys2Proof
end

