-- ==== Sys2Proof/Machine/BitCursor.lean ====
section
/-! DEFINITION. The BitCursor primitives (40_bitcursor.md) over the zero-extended input. A position is the
stream bit number BITPOS = 8*POS_BYTE + POS_BIT (R24); a reading primitive takes the position it reads at,
and its caller goes on at the position after the bits it consumed. -/

namespace Sys2Proof.Machine

/-- The zero-extended input `Z` of R130: bit `k` of the stream. -/
abbrev Bits := Nat → Bool

/-- R9 and R130: stream bit `k` is bit `7 - k mod 8` of input byte `k div 8`, and 0 past the input. -/
def inputBit (input : List Byte) (k : Nat) : Bool :=
  (input.getD (k / 8) 0).getMsbD (k % 8)

/-- R131 `PeekBits(n)` at position `p`: the next `n` bits, the first one most significant. -/
def peekBits (z : Bits) (p : Nat) : Nat → Nat
  | 0 => 0
  | n + 1 => 2 * peekBits z p n + (z (p + n)).toNat

/-- R134 `AlignByte()`: the next byte boundary at or after position `p`. -/
def alignByte (p : Nat) : Nat :=
  if p % 8 = 0 then p else p + (8 - p % 8)

/-- The byte at input byte index `j` of the zero-extended input, as the PPMd port sees it (R71). -/
def inputByte (z : Bits) (j : Nat) : Byte :=
  BitVec.ofNat 8 (peekBits z (8 * j) 8)

/-- R91 `LE(k)` at position `p`: `k` byte fields, the first least significant. -/
def peekLE (z : Bits) (p : Nat) : Nat → Nat
  | 0 => 0
  | k + 1 => peekBits z p 8 + 256 * peekLE z (p + 8) k

/-- `k` consecutive `BYTE` fields (R91) from position `p`, in stream order. -/
def peekBytes (z : Bits) (p : Nat) : Nat → List Byte
  | 0 => []
  | k + 1 => BitVec.ofNat 8 (peekBits z p 8) :: peekBytes z (p + 8) k

/-- The `n` bits of the value `v` in stream order, most significant first (R9): the encoder's view of a
field `XB(n)`. -/
def bitsOf : (n v : Nat) → List Bool
  | 0, _ => []
  | n + 1, v => v.testBit n :: bitsOf n v

/-- `k` byte fields holding `v` little-endian (R91 `LE(k)`). -/
def bitsOfLE : (k v : Nat) → List Bool
  | 0, _ => []
  | k + 1, v => bitsOf 8 v ++ bitsOfLE k (v / 256)

/-- Byte fields in stream order (R91). -/
def bitsOfBytes (bs : List Byte) : List Bool :=
  bs.flatMap fun b => bitsOf 8 b.toNat

/-- A bit string cut into bytes, each most significant bit first (R9); a last incomplete byte is filled
with zero bits. -/
def packBits : List Bool → List Byte
  | b7 :: b6 :: b5 :: b4 :: b3 :: b2 :: b1 :: b0 :: rest =>
    BitVec.ofNat 8 (peekBits (fun i => [b7, b6, b5, b4, b3, b2, b1, b0].getD i false) 0 8) :: packBits rest
  | [] => []
  | bs => [BitVec.ofNat 8 (peekBits (fun i => bs.getD i false) 0 8)]

end Sys2Proof.Machine
end

