-- ==== Sys2Proof/Machine/Huffman.lean ====
section
/-! DEFINITION. The HuffmanTable register file, `BuildTable` and `HuffDecode` (41_huffman.md), and the
encoder's view of a canonical code (R157). -/

namespace Sys2Proof.Machine

/-- A HuffmanTable register file (R37). `T.MaxNum` is the length of `decodeNum`. -/
structure HuffTable where
  decodeLen : List (BitVec 17)
  decodePos : List (BitVec 16)
  decodeNum : List (BitVec 16)
  nAssigned : Nat
  deriving DecidableEq, Repr

/-- `T.DecodeLen[i]`. -/
def HuffTable.bound (t : HuffTable) (i : Nat) : Nat := (t.decodeLen.getD i 0).toNat

/-- `T.DecodePos[i]` for i = 0..15, and the number of assigned symbols for i = 16. -/
def HuffTable.position (t : HuffTable) (i : Nat) : Nat :=
  if i < 16 then (t.decodePos.getD i 0).toNat else t.nAssigned

/-- `cnt[1..15]` of R151: how many symbols have each code length. -/
def lenCounts (lens : List Len) : List Nat :=
  (List.range' 1 15).map fun i => lens.countP fun l => l.toNat == i

/-- The loop of R151 from length `i` on, `upper` being the bound before the counts of length `i` are
added: `DecodeLen[i..15]`, or nothing when the code space is oversubscribed (R152). -/
def leftBounds : (i upper : Nat) → List Nat → Option (List Nat)
  | _, _, [] => some []
  | i, upper, c :: cs =>
    if upper + c > 2 ^ i then none
    else (leftBounds (i + 1) (2 * (upper + c)) cs).map (min ((upper + c) * 2 ^ (16 - i)) 0x10000 :: ·)

/-- `DecodePos[i..15]` of R151 from `pos = DecodePos[i]`. -/
def cumulative : (pos : Nat) → List Nat → List Nat
  | _, [] => []
  | pos, c :: cs => pos :: cumulative (pos + c) cs

/-- `upper` after the loop of R151: 2^16 exactly when the code space is filled. -/
def finalUpper (cs : List Nat) : Nat := cs.foldl (fun u c => 2 * (u + c)) 0

/-- The symbols whose code length is `l`, in increasing order, from symbol `s` on. -/
def symbolsOf (l : Nat) : (s : Nat) → List Len → List Nat
  | _, [] => []
  | s, x :: xs => if x.toNat = l then s :: symbolsOf l (s + 1) xs else symbolsOf l (s + 1) xs

/-- R154: the assigned symbols by increasing code length, and by increasing value within one length. -/
def symbolOrder (lens : List Len) : List Nat :=
  (List.range' 1 15).flatMap fun l => symbolsOf l 0 lens

/-- R151 to R154 `BuildTable`, with the parameter REJECT_INCOMPLETE of R5. -/
def buildTableWith (rejectIncomplete : Bool) (lens : List Len) : Except ErrCode HuffTable :=
  let cs := lenCounts lens
  match leftBounds 1 0 cs with
  | none => .error .e1
  | some bounds =>
    if rejectIncomplete && cs.sum != 0 && finalUpper cs != 2 ^ 16 then .error .e1
    else .ok {
      decodeLen := 0 :: bounds.map (BitVec.ofNat 17)
      decodePos := 0 :: (cumulative 0 cs).map (BitVec.ofNat 16)
      decodeNum := ((symbolOrder lens).map (BitVec.ofNat 16)) ++ List.replicate (lens.length - cs.sum) 0
      nAssigned := cs.sum }

/-- `BuildTable` of this hardware (R151, R153). -/
def buildTable (lens : List Len) : Except ErrCode HuffTable :=
  buildTableWith Config.rejectIncomplete lens

/-- The reset contents of a table of `n` symbols (R37): what `BuildTable` gives for all-zero lengths. -/
def emptyTable (n : Nat) : HuffTable :=
  { decodeLen := List.replicate 16 0, decodePos := List.replicate 16 0
    decodeNum := List.replicate n 0, nAssigned := 0 }

/-- The length search of R155: the first of 1..14 whose bound lies above the lookahead, else 15. -/
def codeLength (t : HuffTable) (la : Nat) : Nat :=
  ((List.range' 1 14).find? fun i => la < t.bound i).getD 15

/-- The table index of R155 for lookahead `la` and code length `l`. -/
def codeIndex (t : HuffTable) (la l : Nat) : Nat :=
  t.position l + ((la - t.bound (l - 1)) >>> (16 - l))

/-- R155 and R156 `HuffDecode(T)` at position `p`: the symbol and the position after its code. -/
def huffDecode (t : HuffTable) (z : Bits) (p : Nat) : Nat × Nat :=
  let la := peekBits z p 16
  let l := codeLength t la
  let idx := codeIndex t la l
  (if idx ≥ t.nAssigned then 0 else (t.decodeNum.getD idx 0).toNat, p + l)

/-- Whether the table gives symbol `s` a code. -/
def HuffTable.hasCode (t : HuffTable) (s : Nat) : Bool :=
  (t.decodeNum.take t.nAssigned).any fun x => x.toNat == s

/-- The index of symbol `s` among the assigned symbols (R154). -/
def HuffTable.indexOf (t : HuffTable) (s : Nat) : Nat :=
  t.decodeNum.findIdx fun x => x.toNat == s

/-- The code length of the assigned symbol at index `idx`. -/
def HuffTable.lengthAt (t : HuffTable) (idx : Nat) : Nat :=
  ((List.range' 1 14).find? fun l => idx < t.position (l + 1)).getD 15

/-- R157: the code word of the assigned symbol `s`, in stream order. -/
def encodeSymbol (t : HuffTable) (s : Nat) : List Bool :=
  let idx := t.indexOf s
  let l := t.lengthAt idx
  bitsOf l ((t.bound (l - 1) >>> (16 - l)) + (idx - t.position l))

/-- What every table that `BuildTable` makes for `maxNum` symbols satisfies (R150, R151): the bounds and
positions are those of a canonical code that fits the code space, and every entry is a symbol. -/
def HuffTable.canonical (maxNum : Nat) (t : HuffTable) : Bool :=
  t.decodeLen.length == 16 && t.decodePos.length == 16 && t.decodeNum.length == maxNum
    && decide (t.nAssigned ≤ maxNum) && t.bound 0 == 0 && t.position 0 == 0 && t.position 1 == 0
    && (List.range' 1 15).all (fun i => decide (t.position i ≤ t.position (i + 1))
        && t.bound i == t.bound (i - 1) + (t.position (i + 1) - t.position i) * 2 ^ (16 - i))
    && decide (t.bound 15 ≤ 0x10000)
    && t.decodeNum.all fun x => decide (x.toNat < maxNum)

end Sys2Proof.Machine
end

