-- ==== Sys2Proof/Machine/Lengths.lean ====
section
/-! DEFINITION. A length array being read (R92, R93, R159): its working values and what one length code
does to them. -/

namespace Sys2Proof.Machine

/-- The working values of a length description: `N` (`total`), the old lengths the literals are added to
(`OLD`, empty for none) and the lengths read so far (`t[0..i-1]`, so `i` is their count). -/
structure Desc where
  total : Nat
  old   : List Len
  lens  : List Len
  deriving DecidableEq, Repr

/-- No description is being read. -/
def Desc.closed : Desc := { total := 0, old := [], lens := [] }

/-- A description of `n` lengths, delta-coded against `old`, of which nothing has been read. -/
def Desc.opened (n : Nat) (old : List Len) : Desc := { total := n, old := old, lens := [] }

/-- `r` copies of the length `l`, cut at the end of the array (R161). -/
def Desc.run (r : Nat) (l : Len) (d : Desc) : Desc :=
  { d with lens := d.lens ++ List.replicate (min r (d.total - d.lens.length)) l }

/-- R159, a literal symbol: the next length is `(n + OLD[i]) mod 16`, or `n` where there is no old array. -/
def Desc.literal (n : Len) (d : Desc) : Desc :=
  d.run 1 (n + d.old.getD d.lens.length 0)

/-- R159 and R160: `r` copies of the new previous length, an error E2 at position 0. -/
def Desc.repeatLast (r : Nat) (d : Desc) : Except ErrCode Desc :=
  match d.lens.getLast? with
  | none => .error .e2
  | some l => .ok (d.run r l)

/-- The zero run of a `PL4E` escape with operand `z` (R92): one length 15 when `z = 0`. -/
def Desc.preEscape (z : BitVec 4) (d : Desc) : Desc :=
  if z = 0 then d.run 1 15 else d.run (z.toNat + 2) 0

/-- R92: what one `PL4E` element does. -/
def preCodeRun (c : PreCode) (d : Desc) : Desc :=
  match c with
  | .len l => d.literal l
  | .esc z => d.preEscape z

/-- The pre-lengths a list of `PL4E` elements describes (R92). -/
def preLens (cs : List PreCode) : List Len :=
  (cs.foldl (fun d c => preCodeRun c d) (Desc.opened 20 [])).lens

/-- How many lengths a `PL4E` element gives before the cut (R92). -/
def preCodeCount : PreCode → Nat
  | .len _ => 1
  | .esc z => if z = 0 then 1 else z.toNat + 2

/-- How many lengths a `LENCODE5` element gives before the cut (R94). -/
def lenCode5Count : LenCode5 → Nat
  | .lit _ => 1
  | .rep3 n => n.toNat + 3
  | .rep7 n => n.toNat + 11
  | .zero3 n => n.toNat + 3
  | .zero7 n => n.toNat + 11

/-- How many lengths a `LENCODE2` element gives before the cut (R95). -/
def lenCode2Count : LenCode2 → Nat
  | .lit _ => 1
  | .rep2 n => n.toNat + 3
  | .zero3 n => n.toNat + 3
  | .zero7 n => n.toNat + 11

/-- Whether the element repeats the previous length (R94). -/
def lenCode5Repeats : LenCode5 → Bool
  | .rep3 _ | .rep7 _ => true
  | _ => false

/-- Whether the element repeats the previous length (R95). -/
def lenCode2Repeats : LenCode2 → Bool
  | .rep2 _ => true
  | _ => false

/-- `n` lengths of the array `t` from index `a` on, absent ones 0. -/
def lensSlice (t : List Len) (a n : Nat) : List Len :=
  (List.range n).map fun i => t.getD (a + i) 0

end Sys2Proof.Machine
end

