-- ==== Sys2Proof/Machine/State.lean ====
section
/-! DEFINITION. The machine's state as plain data (10_state.md), the state right after session creation
(R443), and the reasons a step can stop. -/

namespace Sys2Proof.Machine

/-- `STATUS` (R34). -/
inductive Status where
  | idle | running | drain | done | error | cancelled | refused
  deriving DecidableEq, Repr

/-- `PHASE` (R36). -/
inductive Phase where
  | init | tables | token | tail
  deriving DecidableEq, Repr

/-- The window's contents: the bytes written since the last non-solid reset, as pairs of position and
byte, positions strictly rising. A position that is not listed has not been written since then (R184). -/
abbrev Memory := List Host.Cell

/-- `OLD_DIST[0..3]`, most recent first (R32). -/
structure OldDist where
  d0 : BitVec 64
  d1 : BitVec 64
  d2 : BitVec 64
  d3 : BitVec 64
  deriving DecidableEq, Repr

/-- A filter descriptor as sent on the filter port (R73). -/
inductive FilterDesc where
  | v50Filter (relStart : BitVec 32) (absStart : BitVec 64) (length : BitVec 32) (type : BitVec 3)
      (channels : Option Nat) (wrAbs : BitVec 64)
  | v29VmCode (firstByte : Byte) (code : List Byte) (wrAbs : BitVec 64) (source : BlockType)
  deriving DecidableEq, Repr

/-- One v20 audio predictor record (R46): `K[0..4]`, `D[0..3]`, `LAST_DELTA` and `LAST_CHAR` are signed,
`DIF[0..10]` and `BYTE_COUNT` unsigned. -/
structure AudRec where
  k         : List (BitVec 32)
  d         : List (BitVec 32)
  lastDelta : BitVec 32
  lastChar  : BitVec 32
  dif       : List (BitVec 32)
  byteCount : BitVec 32
  deriving DecidableEq, Repr

/-- The v50 tables and registers (R38 to R40). -/
structure V50Regs where
  ld : HuffTable
  dd : HuffTable
  ldd : HuffTable
  rd : HuffTable
  bd : HuffTable
  tablesRead : Bool
  blkStart   : BitVec 64
  blkSize    : BitVec 24
  blkBitSize : BitVec 4
  blkLast    : Bool
  blkTables  : Bool
  deriving DecidableEq, Repr

/-- The v29 tables and registers (R38, R41 to R43). -/
structure V29Regs where
  ld : HuffTable
  dd : HuffTable
  ldd : HuffTable
  rd : HuffTable
  bd : HuffTable
  tablesRead  : Bool
  blockType   : BlockType
  ppmEsc      : Byte
  oldLens     : List Len
  prevLowDist : BitVec 4
  lowDistRep  : BitVec 4
  deriving DecidableEq, Repr

/-- The v20 tables and registers (R38, R44 to R46). -/
structure V20Regs where
  ld : HuffTable
  dd : HuffTable
  rd : HuffTable
  md : List HuffTable
  bd : HuffTable
  tablesRead   : Bool
  audio        : Bool
  channels     : Nat
  curChannel   : Nat
  channelDelta : BitVec 32
  oldLens      : List Len
  aud          : List AudRec
  deriving DecidableEq, Repr

/-- A move that the environment schedules (log 1): a step of the host, a change of an input, or the
choice of the agent that moves next. -/
inductive Event where
  /-- Host step `MemberStart(gen, solid, declared_size, window_log2)` (R440). -/
  | memberStart (gen : Gen) (solid : Bool) (declaredSize : BitVec 64) (windowLog2 : Nat)
  /-- Host step `Deliver(b)` (R61). -/
  | deliver (b : Byte)
  /-- Host step `EndInput()` (R62). -/
  | endInput
  /-- Host step `Cancel()` (R76). -/
  | cancel
  /-- The decoder core moves. -/
  | core
  /-- The flush engine moves. -/
  | flush
  /-- The sink becomes ready to accept bytes, or refuses them (R70). -/
  | sinkReady (ready : Bool)
  /-- The FilterScheduler sets `FLUSH_LIMIT`, none for +infinity (R74). -/
  | flushLimit (limit : Option (BitVec 64))
  /-- The FilterScheduler's verdict on the next descriptors (R72). -/
  | filterAccept (accept : Bool)
  deriving DecidableEq, Repr

/-- Why a step stops with a fault. -/
inductive Fault where
  /-- Raised by the decoder core when `STATUS` is RUNNING and no row of the dispatch table R214 selects a
  rule (no generation, or a phase the generation does not have). Safe: no run reaches such a state, and the
  model stops where the spec gives no rule. -/
  | noDispatchRule
  deriving DecidableEq, Repr

/-- Why a step is refused. -/
inductive Refusal where
  /-- Raised by `exec` for an instruction that has no meaning yet. Safe: the model stops. No arm of `exec`
  answers it. -/
  | notModelled (mnemonic : String)
  deriving DecidableEq, Repr

/-- The state of the machine. -/
structure State where
  -- configuration (R21 to R23, R27)
  cfgGen          : Option Gen
  cfgSolid        : Bool
  cfgDeclaredSize : BitVec 64
  cfgWindowLog2   : Option Nat
  -- BitCursor and member input (R24 to R26); IN_AVAIL is the length of `input`
  posByte : BitVec 64
  posBit  : BitVec 3
  input   : List Byte
  inEnded : Bool
  -- window (R28 to R31)
  win        : Memory
  wrAbs      : BitVec 64
  flAbs      : BitVec 64
  memberBase : BitVec 64
  -- OldDistanceCache and last length (R32, R33)
  oldDist : OldDist
  lastLen : BitVec 32
  -- status and control (R34 to R36, R52)
  status       : Status
  errCode      : Option ErrCode
  phase        : Phase
  errFlushLeft : BitVec 64
  -- tables and registers of each generation (R37 to R46)
  v50 : V50Regs
  v29 : V29Regs
  v20 : V20Regs
  -- the sequences of the output and filter ports (R70, R72)
  out  : List Byte
  filt : List FilterDesc
  -- the inputs of the sink and of the FilterScheduler (R70, R72, R74)
  sinkReady    : Bool
  flushLimit   : Option (BitVec 64)
  filterAccept : Bool
  -- PPMSTATE, the external coder's private state (R47, R71)
  ppmState : Nat
  -- the model's own fields: pending moves, draws, the length array being read
  events  : List Event
  draws   : Nat
  winDraw : Nat
  desc    : Desc
  deriving DecidableEq, Repr

/-- The reset value of an audio record (R46). -/
def AudRec.zero : AudRec :=
  { k := List.replicate 5 0, d := List.replicate 4 0, lastDelta := 0, lastChar := 0
    dif := List.replicate 11 0, byteCount := 0 }

/-- The reset values of R38 to R40. -/
def V50Regs.reset : V50Regs :=
  { ld := emptyTable 306, dd := emptyTable 64, ldd := emptyTable 16, rd := emptyTable 44, bd := emptyTable 20
    tablesRead := false, blkStart := 0, blkSize := 0, blkBitSize := 0, blkLast := false, blkTables := false }

/-- The reset values of R38 and R41 to R43. -/
def V29Regs.reset : V29Regs :=
  { ld := emptyTable 299, dd := emptyTable 60, ldd := emptyTable 17, rd := emptyTable 28, bd := emptyTable 20
    tablesRead := false, blockType := .lz, ppmEsc := 2, oldLens := List.replicate 404 0
    prevLowDist := 0, lowDistRep := 0 }

/-- The reset values of R38 and R44 to R46. -/
def V20Regs.reset : V20Regs :=
  { ld := emptyTable 298, dd := emptyTable 48, rd := emptyTable 28, md := List.replicate 4 (emptyTable 257)
    bd := emptyTable 19, tablesRead := false, audio := false, channels := 1, curChannel := 0
    channelDelta := 0, oldLens := List.replicate 1028 0, aud := List.replicate 4 AudRec.zero }

/-- The machine right after session creation (R443). The registers R443 leaves without a value hold the
value R441 gives them (log 3); no scheduler is attached (R445) and the sink is ready (log 7). -/
def State.reset : State :=
  { cfgGen := none, cfgSolid := false, cfgDeclaredSize := 0, cfgWindowLog2 := none
    posByte := 0, posBit := 0, input := [], inEnded := false
    win := [], wrAbs := 0, flAbs := 0, memberBase := 0
    oldDist := { d0 := 0, d1 := 0, d2 := 0, d3 := 0 }, lastLen := 0
    status := .idle, errCode := none, phase := .init, errFlushLeft := 0
    v50 := V50Regs.reset, v29 := V29Regs.reset, v20 := V20Regs.reset
    out := [], filt := []
    sinkReady := true, flushLimit := none, filterAccept := true
    ppmState := 0
    events := [], draws := 0, winDraw := 0, desc := Desc.closed }

end Sys2Proof.Machine
end

