-- ==== Sys2Proof/Machine/Flags.lean ====
section
/-! DEFINITION. The block has no condition codes (R50). This file holds the derived quantities of R48 and the
tests on status and position that decide what a step does. -/

namespace Sys2Proof.Machine

/-- `WINDOW_SIZE` (R27). While CFG_WINDOW_LOG2 is NONE, for which R27 and R443 give no size, it is 1
(DESIGN CHOICE, log 22). -/
def windowSize (s : State) : Nat := 2 ^ s.cfgWindowLog2.getD 0

/-- The window position of an absolute position: `a & WINDOW_MASK` (R65). -/
def windowIndex (s : State) (a : BitVec 64) : Nat := a.toNat % windowSize s

/-- `PENDING` (R48). The differences of cursors are 0 where the cursors stand in the wrong order, which no run
reaches (R189; DESIGN CHOICE, log 23). -/
def pending (s : State) : Nat := s.wrAbs.toNat - s.flAbs.toNat

/-- `PRODUCED` (R48). -/
def produced (s : State) : Nat := s.wrAbs.toNat - s.memberBase.toNat

/-- `EMITTED` (R48). -/
def emitted (s : State) : Nat := s.flAbs.toNat - s.memberBase.toNat

/-- `BITPOS` (R24). -/
def bitPos (s : State) : Nat := 8 * s.posByte.toNat + s.posBit.toNat

/-- `IN_AVAIL` (R25). -/
def inAvail (s : State) : Nat := s.input.length

/-- `AVAIL_BITS` (R48). -/
def availBits (s : State) : Nat := 8 * inAvail s

/-- `PRODUCED >= CFG_DECLARED_SIZE`, the test of R138 and R349. -/
def sizeReached (s : State) : Bool := decide (s.cfgDeclaredSize.toNat ≤ produced s)

/-- The hazard gate of R212: `FREE >= MAXOUT[CFG_GEN]`. -/
def gateOpen (s : State) : Bool :=
  match s.cfgGen with
  | none => false
  | some g => decide (pending s + maxOut g ≤ windowSize s)

/-- R247 `PastEnd()`, the v50 block-end test, on integers. -/
def pastEnd (s : State) : Bool :=
  let last : Int := (s.v50.blkStart.toNat : Int) + s.v50.blkSize.toNat - 1
  decide ((s.posByte.toNat : Int) > last)
    || (decide ((s.posByte.toNat : Int) = last) && decide (s.posBit.toNat ≥ s.v50.blkBitSize.toNat))

/-- A member has been started and is not over (R61): the statuses in which input is taken. -/
def memberActive (s : State) : Bool := s.status == .running || s.status == .drain

/-- The statuses in which a member start is enabled (R440). -/
def startEnabled (s : State) : Bool :=
  s.status == .idle || s.status == .done || s.status == .error || s.status == .refused

/-- The enabling condition of a flush step (R185, R187, R188). -/
def flushEnabled (s : State) : Bool :=
  decide (s.flAbs.toNat < s.wrAbs.toNat)
    && (match s.flushLimit with
        | none => true
        | some l => decide (s.flAbs.toNat < l.toNat))
    && (memberActive s || (s.status == .error && decide (0 < s.errFlushLeft.toNat)))
    && (decide (s.cfgDeclaredSize.toNat ≤ emitted s) || s.sinkReady)

end Sys2Proof.Machine
end

