-- ==== Sys2Proof/Machine/Ops.lean ====
section
/-! DEFINITION. The named operations over the window, the cache, the ports and the status, and the taking of
an error (R402), which every meaning shares. -/

namespace Sys2Proof.Machine

/-! ### The window as a list of cells -/

/-- The byte listed at position `k`, none where nothing has been written. -/
def Memory.read : Memory → Nat → Option Byte
  | [], _ => none
  | (a, b) :: m, k => if a = k then some b else Memory.read m k

/-- Write byte `v` at position `k`, keeping the positions strictly rising. -/
def Memory.write : Memory → Nat → Byte → Memory
  | [], k, v => [(k, v)]
  | (a, b) :: m, k, v =>
    if k < a then (k, v) :: (a, b) :: m
    else if k = a then (k, v) :: m
    else (a, b) :: Memory.write m k v

/-- The canonical form: positions strictly rising. -/
def Memory.wf : Memory → Bool
  | [] => true
  | [_] => true
  | (a, _) :: (b, y) :: m => decide (a < b) && Memory.wf ((b, y) :: m)

/-- `MemRead(a, 1)` (R65): the byte at absolute position `a`, the draw WINDOW_INIT where nothing has been
written since the last non-solid reset (R184). -/
def memRead (s : State) (a : BitVec 64) : Byte :=
  ((Memory.read s.win (windowIndex s a))).getD (Config.windowInit s.winDraw (windowIndex s a))

/-- `MemWrite(a, 1, v)` (R65). -/
def memWrite (a : BitVec 64) (v : Byte) (s : State) : State :=
  { s with win := Memory.write s.win (windowIndex s a) v }

/-- The window-peek port (R73, R451): a pending byte, none outside the pending range. -/
def windowPeek (s : State) (a : BitVec 64) : Option Byte :=
  if s.flAbs.toNat ≤ a.toNat ∧ a.toNat < s.wrAbs.toNat then some (memRead s a) else none

/-- R180 `PutByte(b)`. -/
def putByte (b : Byte) (s : State) : State :=
  { memWrite s.wrAbs b s with wrAbs := s.wrAbs + 1 }

/-- R181 `CopyMatch(len, dist)`, one byte at a time; the source position wraps modulo 2^64, of which
WINDOW_SIZE is a divisor. -/
def copyMatch : (len : Nat) → (dist : BitVec 64) → State → State
  | 0, _, s => s
  | n + 1, dist, s => copyMatch n dist (putByte (memRead s (s.wrAbs - dist)) s)

/-! ### OldDistanceCache -/

/-- `OLD_DIST[i]`. -/
def OldDist.get (c : OldDist) (i : Fin 4) : BitVec 64 :=
  match i with
  | 0 => c.d0
  | 1 => c.d1
  | 2 => c.d2
  | 3 => c.d3

/-- R191 `CacheInsert(d)`. -/
def OldDist.insert (d : BitVec 64) (c : OldDist) : OldDist :=
  { d0 := d, d1 := c.d0, d2 := c.d1, d3 := c.d2 }

/-- R192 `CacheRotate(i)`: the cache after it; the distance it returns is `OLD_DIST[i]`. -/
def OldDist.rotate (i : Fin 4) (c : OldDist) : OldDist :=
  match i with
  | 0 => c
  | 1 => { d0 := c.d1, d1 := c.d0, d2 := c.d2, d3 := c.d3 }
  | 2 => { d0 := c.d2, d1 := c.d0, d2 := c.d1, d3 := c.d3 }
  | 3 => { d0 := c.d3, d1 := c.d0, d2 := c.d1, d3 := c.d2 }

/-- R191 on the state. -/
def cacheInsert (d : BitVec 64) (s : State) : State := { s with oldDist := s.oldDist.insert d }

/-- R192 on the state. -/
def cacheRotate (i : Fin 4) (s : State) : State := { s with oldDist := s.oldDist.rotate i }

/-- `LAST_LEN <- len` (R33). -/
def setLastLen (len : Nat) (s : State) : State := { s with lastLen := BitVec.ofNat 32 len }

/-- The copy of the tokens that set `LAST_LEN` (R218, R219): `LAST_LEN <- len`, then `CopyMatch`. -/
def copyNew (len : Nat) (dist : BitVec 64) (s : State) : State := copyMatch len dist (setLastLen len s)

/-- The repeat-last copy of v50 and v29 (R252, R290): nothing is written while `LAST_LEN` is 0. -/
def copyLast (s : State) : State :=
  if s.lastLen = 0 then s else copyMatch s.lastLen.toNat s.oldDist.d0 s

/-! ### Errors and member end -/

/-- The draw ERROR_FLUSH_COUNT, a number in 0..PENDING (R52). -/
def errorDraw (s : State) : Nat := Config.errorFlushCount s.draws % (pending s + 1)

/-- TAKING AN ERROR (R402, R403, R420): the only writes of the failing step. The pc is saved nowhere: the
position stays that of the failing token, which is the faulting address (R407). -/
def raiseError (e : ErrCode) (s : State) : State :=
  { s with
    status := .error
    errCode := some e
    errFlushLeft := BitVec.ofNat 64 (errorDraw s)
    draws := s.draws + 1 }

/-- R404 `raise Refused(code)`: nothing but the status and the code changes. -/
def raiseRefused (e : ErrCode) (s : State) : State :=
  { s with status := .refused, errCode := some e }

/-- R221 `EndMember()`. There is no return from an error (R408): a member is left only by a new start. -/
def endMember (s : State) : State :=
  { s with status := if pending s = 0 then .done else .drain }

/-- R138: what a step that needs bits past the ended input does instead of its outcome. -/
def exhaust (s : State) : State :=
  if sizeReached s then endMember s else raiseError .e7 s

/-- R211, the outcome of a step's pseudocode run from `s`: all its writes, or an error with none of
them. -/
def outcome (s : State) (r : Except ErrCode State) : Host.Outcome State Fault Refusal :=
  match r with
  | .ok t => .next t
  | .error e => .next (raiseError e s)

/-- R72 and R420 `EmitFilter(desc)` and the scheduler's verdict in the same step. -/
def emitFilter (d : FilterDesc) (s : State) : Except ErrCode State :=
  if s.filterAccept then .ok { s with filt := s.filt ++ [d] } else .error .e8

/-- `PHASE <- p`. -/
def setPhase (p : Phase) (s : State) : State := { s with phase := p }

/-! ### The length array of a table description -/

/-- Open a description of `n` lengths against `old` (R159). -/
def openDesc (n : Nat) (old : List Len) (s : State) : State := { s with desc := Desc.opened n old }

/-- The description has been read. -/
def closeDesc (s : State) : State := { s with desc := Desc.closed }

end Sys2Proof.Machine
end

