-- ==== Sys2Proof/Machine/LengthCodes.lean ====
section
/-! DEFINITION. The meanings of the length codes (R92, R93, R159): each adds lengths to the length array
being read. A table read (R245, R285, R333) runs them one after another. -/

namespace Sys2Proof.Machine

/-- The lengths a code writes: `r` copies of `l`. -/
def runLens (r : Nat) (l : Len) (s : State) : State := { s with desc := s.desc.run r l }

/-- A literal length, added to the old length where there is one (R159). -/
def literalLen (n : Len) (s : State) : State := { s with desc := s.desc.literal n }

/-- R159 and R160: `r` copies of the previous length, E2 at position 0. -/
def repeatLen (r : Nat) (s : State) : Except ErrCode State :=
  match s.desc.repeatLast r with
  | .ok d => .ok { s with desc := d }
  | .error e => .error e

/-- R92, a pre-length. -/
def pl4eLen (l : Len) (s : State) : State := { s with desc := preCodeRun (.len l) s.desc }

/-- R92, the escape 15 and its zero run. -/
def pl4eEsc (z : BitVec 4) (s : State) : State := { s with desc := preCodeRun (.esc z) s.desc }

/-- R93, a plain pre-length, 15 included. -/
def pl4Len (l : Len) (s : State) : State := literalLen l s

/-- R94 symbol 0..15. -/
def len5Lit (n : Len) (s : State) : State := literalLen n s
/-- R94 symbol 16. -/
def len5Rep3 (n : BitVec 3) (s : State) : Except ErrCode State := repeatLen (lenCode5Count (.rep3 n)) s
/-- R94 symbol 17. -/
def len5Rep7 (n : BitVec 7) (s : State) : Except ErrCode State := repeatLen (lenCode5Count (.rep7 n)) s
/-- R94 symbol 18. -/
def len5Zero3 (n : BitVec 3) (s : State) : State := runLens (lenCode5Count (.zero3 n)) 0 s
/-- R94 symbol 19. -/
def len5Zero7 (n : BitVec 7) (s : State) : State := runLens (lenCode5Count (.zero7 n)) 0 s

/-- R95 symbol 0..15. -/
def len2Lit (n : Len) (s : State) : State := literalLen n s
/-- R95 symbol 16. -/
def len2Rep2 (n : BitVec 2) (s : State) : Except ErrCode State := repeatLen (lenCode2Count (.rep2 n)) s
/-- R95 symbol 17. -/
def len2Zero3 (n : BitVec 3) (s : State) : State := runLens (lenCode2Count (.zero3 n)) 0 s
/-- R95 symbol 18. -/
def len2Zero7 (n : BitVec 7) (s : State) : State := runLens (lenCode2Count (.zero7 n)) 0 s

/-- What one `PL4E` element of a table description does. -/
def preCodeStep (c : PreCode) (s : State) : State :=
  match c with
  | .len l => pl4eLen l s
  | .esc z => pl4eEsc z s

/-- What one `LENCODE5` element of a table description does. -/
def lenCode5Step (c : LenCode5) (s : State) : Except ErrCode State :=
  match c with
  | .lit n => .ok (len5Lit n s)
  | .rep3 n => len5Rep3 n s
  | .rep7 n => len5Rep7 n s
  | .zero3 n => .ok (len5Zero3 n s)
  | .zero7 n => .ok (len5Zero7 n s)

/-- What one `LENCODE2` element of a table description does. -/
def lenCode2Step (c : LenCode2) (s : State) : Except ErrCode State :=
  match c with
  | .lit n => .ok (len2Lit n s)
  | .rep2 n => len2Rep2 n s
  | .zero3 n => .ok (len2Zero3 n s)
  | .zero7 n => .ok (len2Zero7 n s)

/-- `PL4E` (R92): the elements of a pre-table, into an array of 20. -/
def readPl4e (cs : List PreCode) (s : State) : State :=
  cs.foldl (fun t c => preCodeStep c t) (openDesc 20 [] s)

/-- `PL4` (R93): 19 plain pre-lengths. -/
def readPl4 (ls : List Len) (s : State) : State :=
  ls.foldl (fun t l => pl4Len l t) (openDesc 19 [] s)

/-- `ReadLengths` in `LENCODE5` form (R159): `n` lengths against `old`, code by code. -/
def readLens5 (n : Nat) (old : List Len) (cs : List LenCode5) (s : State) : Except ErrCode State :=
  cs.foldlM (fun t c => lenCode5Step c t) (openDesc n old s)

/-- `ReadLengths` in `LENCODE2` form (R159). -/
def readLens2 (n : Nat) (old : List Len) (cs : List LenCode2) (s : State) : Except ErrCode State :=
  cs.foldlM (fun t c => lenCode2Step c t) (openDesc n old s)

/-! ### The meanings -/

/-- PL4E_LEN (R92). -/
def execPl4eLen (l : Len) (s : State) : Host.Outcome State Fault Refusal := .next (pl4eLen l s)
/-- PL4E_ESC (R92). -/
def execPl4eEsc (z : BitVec 4) (s : State) : Host.Outcome State Fault Refusal := .next (pl4eEsc z s)
/-- PL4_LEN (R93). -/
def execPl4Len (l : Len) (s : State) : Host.Outcome State Fault Refusal := .next (pl4Len l s)
/-- LEN_LIT of LENCODE5 (R94, R159). -/
def execLen5Lit (n : Len) (s : State) : Host.Outcome State Fault Refusal := .next (len5Lit n s)
/-- LEN_REP3 (R94, R159, R160). -/
def execLen5Rep3 (n : BitVec 3) (s : State) : Host.Outcome State Fault Refusal := outcome s (len5Rep3 n s)
/-- LEN_REP7 (R94, R159, R160). -/
def execLen5Rep7 (n : BitVec 7) (s : State) : Host.Outcome State Fault Refusal := outcome s (len5Rep7 n s)
/-- LEN_ZERO3 of LENCODE5 (R94, R159). -/
def execLen5Zero3 (n : BitVec 3) (s : State) : Host.Outcome State Fault Refusal := .next (len5Zero3 n s)
/-- LEN_ZERO7 of LENCODE5 (R94, R159). -/
def execLen5Zero7 (n : BitVec 7) (s : State) : Host.Outcome State Fault Refusal := .next (len5Zero7 n s)
/-- LEN_LIT of LENCODE2 (R95, R159). -/
def execLen2Lit (n : Len) (s : State) : Host.Outcome State Fault Refusal := .next (len2Lit n s)
/-- LEN_REP2 (R95, R159, R160). -/
def execLen2Rep2 (n : BitVec 2) (s : State) : Host.Outcome State Fault Refusal := outcome s (len2Rep2 n s)
/-- LEN_ZERO3 of LENCODE2 (R95, R159). -/
def execLen2Zero3 (n : BitVec 3) (s : State) : Host.Outcome State Fault Refusal := .next (len2Zero3 n s)
/-- LEN_ZERO7 of LENCODE2 (R95, R159). -/
def execLen2Zero7 (n : BitVec 7) (s : State) : Host.Outcome State Fault Refusal := .next (len2Zero7 n s)

end Sys2Proof.Machine
end

