-- ==== Sys2Proof/Machine/V29.lean ====
section
/-! DEFINITION. The v29 rules (45_v29.md): the member's first step, the table header, and the LZ tokens. -/

namespace Sys2Proof.Machine

/-- R285 and R286 `ReadTables3()`. -/
def readTables3 (t : TableDesc5) (s : State) : Except ErrCode State := do
  let s1 := readPl4e t.pre s
  let bd ← buildTable (lensSlice s1.desc.lens 0 20)
  let s2 ← readLens5 404 s.v29.oldLens t.lens { s1 with v29.bd := bd }
  let ld ← buildTable (lensSlice s2.desc.lens 0 299)
  let dd ← buildTable (lensSlice s2.desc.lens 299 60)
  let ldd ← buildTable (lensSlice s2.desc.lens 359 17)
  let rd ← buildTable (lensSlice s2.desc.lens 376 28)
  .ok (closeDesc { s2 with
    v29.ld := ld, v29.dd := dd, v29.ldd := ldd, v29.rd := rd, v29.tablesRead := true
    v29.oldLens := lensSlice s2.desc.lens 0 404 })

/-- R283, the start of an LZ table read: the block type, the low-distance state, and the old lengths when
the keep bit is 0. -/
def startTables3 (keep : Bool) (s : State) : State :=
  { s with
    v29.blockType := .lz
    v29.prevLowDist := 0
    v29.lowDistRep := 0
    v29.oldLens := if keep then s.v29.oldLens else List.replicate 404 0 }

/-- R284 `PpmBlockStart()`, with the coder's answer. -/
def ppmBlockStart (ok : Bool) (esc : Byte) (s : State) : Except ErrCode State :=
  if ok then .ok { s with v29.blockType := .ppm, v29.ppmEsc := esc } else .error .e6

/-- R294, the low part of a v29 distance: what it adds, and the low-distance state after it. -/
def lowDistance3 (d : DistField) (s : State) : Nat × State :=
  if splitsLow3 d.slot then
    if s.v29.lowDistRep ≠ 0 then
      (s.v29.prevLowDist.toNat, { s with v29.lowDistRep := s.v29.lowDistRep - 1 })
    else if d.low.getD 0 = 16 then
      (s.v29.prevLowDist.toNat, { s with v29.lowDistRep := 15 })
    else (d.low.getD 0, { s with v29.prevLowDist := BitVec.ofNat 4 (d.low.getD 0) })
  else (0, s)

/-- The descriptor of a VM-code token (R73, R289, R300). -/
def vmCodeDesc (v : VmCode) (source : BlockType) (s : State) : FilterDesc :=
  .v29VmCode v.first v.code s.wrAbs source

/-- R289 and R300: E5 on the illegal length 0, else the descriptor is emitted. -/
def emitVmCode (v : VmCode) (source : BlockType) (s : State) : Except ErrCode State :=
  if vmLength v.first v.ext = 0 then .error .e5 else emitFilter (vmCodeDesc v source s) s

/-! ### The meanings -/

/-- V29_INIT (R282). -/
def execV29Init (s : State) : Host.Outcome State Fault Refusal :=
  .next (setPhase (if s.cfgSolid && s.v29.tablesRead then .token else .tables) s)

/-- V29_TABLES (R283). -/
def execV29Tables (h : V29Header) (s : State) : Host.Outcome State Fault Refusal :=
  outcome s (do
    let t ← match h with
      | .ppm ok esc => ppmBlockStart ok esc s
      | .lz keep d => readTables3 d (startTables3 keep s)
    .ok (setPhase .token t))

/-- V29_LIT (R287). -/
def execV29Lit (b : Byte) (s : State) : Host.Outcome State Fault Refusal := .next (putByte b s)

/-- V29_EOB (R288). -/
def execV29Eob (e : EobForm) (s : State) : Host.Outcome State Fault Refusal :=
  match e with
  | .newTables => .next (setPhase .tables { s with v29.tablesRead := false })
  | .endMember t => .next (endMember { s with v29.tablesRead := !t })

/-- V29_VMCODE (R289). -/
def execV29VmCode (v : VmCode) (s : State) : Host.Outcome State Fault Refusal :=
  outcome s (emitVmCode v .lz s)

/-- V29_REP_LAST (R290). -/
def execV29RepLast (s : State) : Host.Outcome State Fault Refusal := .next (copyLast s)

/-- V29_REP_OLD (R291). -/
def execV29RepOld (i : Fin 4) (slot extra : Nat) (s : State) : Host.Outcome State Fault Refusal :=
  .next (copyNew (repeatLength slot extra) (s.oldDist.get i) (cacheRotate i s))

/-- V29_SHORT (R292). -/
def execV29Short (n : Fin 8) (extra : Nat) (s : State) : Host.Outcome State Fault Refusal :=
  let dist := BitVec.ofNat 64 (shortDistance n.val extra)
  .next (copyNew 2 dist (cacheInsert dist s))

/-- V29_MATCH (R293, R294, R295). -/
def execV29Match (slot extra : Nat) (d : DistField) (s : State) : Host.Outcome State Fault Refusal :=
  let low := lowDistance3 d s
  let dist := rawDistance3 d + low.1
  .next (copyNew (matchLength slot extra + bonus3 dist) (BitVec.ofNat 64 dist)
    (cacheInsert (BitVec.ofNat 64 dist) low.2))

end Sys2Proof.Machine
end

