-- ==== Sys2Proof/Machine/Ppm.lean ====
section
/-! DEFINITION. The v29 tokens of the PPM block type (45_v29.md R296 to R302). -/

namespace Sys2Proof.Machine

/-- PPM_LIT (R296). -/
def execPpmLit (c : Byte) (s : State) : Host.Outcome State Fault Refusal := .next (putByte c s)

/-- PPM_ESC_RELOAD (R297). -/
def execPpmEscReload (s : State) : Host.Outcome State Fault Refusal := .next (setPhase .tables s)

/-- PPM_ESC_LIT (R298): the follow-up `x` is discarded and the escape byte written. -/
def execPpmEscLit (_x : Byte) (s : State) : Host.Outcome State Fault Refusal :=
  .next (putByte s.v29.ppmEsc s)

/-- PPM_ESC_END (R299). -/
def execPpmEscEnd (s : State) : Host.Outcome State Fault Refusal := .next (endMember s)

/-- PPM_ESC_VMCODE (R300). -/
def execPpmEscVmCode (v : VmCode) (s : State) : Host.Outcome State Fault Refusal :=
  outcome s (emitVmCode v .ppm s)

/-- PPM_ESC_LZ (R301): the distance is big-endian. -/
def execPpmEscLz (d2 d1 d0 l : Byte) (s : State) : Host.Outcome State Fault Refusal :=
  .next (copyMatch (l.toNat + 32) (BitVec.ofNat 64 (bigEndian [d2, d1, d0] + 2)) s)

/-- PPM_ESC_RLE (R302). -/
def execPpmEscRle (l : Byte) (s : State) : Host.Outcome State Fault Refusal :=
  .next (copyMatch (l.toNat + 4) 1 s)

end Sys2Proof.Machine
end

