-- ==== Sys2Proof/Machine/V15.lean ====
section
/-! DEFINITION. The one v15 row (47_v15.md R370): a member start with generation V15 is refused. -/

namespace Sys2Proof.Machine

/-- V15_STREAM (R370, R404): `STATUS <- REFUSED`, `ERR_CODE <- E10`, and nothing else. -/
def execV15Stream (s : State) : Host.Outcome State Fault Refusal := .next (raiseRefused .e10 s)

end Sys2Proof.Machine
end

