-- ==== Sys2Proof/Machine/Audio.lean ====
section
/-! DEFINITION. The v20 audio predictor (46_v20.md R346, R347), on integers; a value is reduced when it is
stored (R8). -/

namespace Sys2Proof.Machine

/-- `s8(x)` of R8: the low 8 bits of `x` as a two's-complement byte. -/
def s8 (x : Int) : Int := (BitVec.ofInt 8 x).toInt

/-- Element `i` of a list of signed 32-bit registers; past its end, which no run reaches, 0 (DESIGN CHOICE,
log 23). -/
def s32At (l : List (BitVec 32)) (i : Nat) : Int := (l.getD i 0).toInt

/-- R346, the `D` terms after their update, from the record before it. -/
def nextDeltas (v : AudRec) : List (BitVec 32) :=
  [v.lastDelta, v.lastDelta - v.d.getD 0 0, v.d.getD 1 0, v.d.getD 2 0]

/-- R346, the predicted byte, from the record, its updated `D` terms and CHANNEL_DELTA2. -/
def predict (v : AudRec) (d : List (BitVec 32)) (channelDelta : Int) : Int :=
  ((8 * v.lastChar.toInt + s32At v.k 0 * s32At d 0 + s32At v.k 1 * s32At d 1 + s32At v.k 2 * s32At d 2
    + s32At v.k 3 * s32At d 3 + s32At v.k 4 * channelDelta) / 8) % 256

/-- R346, the amounts added to `DIF[0..10]`: the absolute errors without and with each term. -/
def errorTerms (e : Int) (d : List (BitVec 32)) (channelDelta : Int) : List Nat :=
  e.natAbs :: [s32At d 0, s32At d 1, s32At d 2, s32At d 3, channelDelta].flatMap fun op =>
    [(e - op).natAbs, (e + op).natAbs]

/-- `DIF` after a sample (R346). -/
def nextDif (dif : List (BitVec 32)) (terms : List Nat) : List (BitVec 32) :=
  List.zipWith (fun x t => x + BitVec.ofNat 32 t) dif terms

/-- The index of the first smallest accumulator (R347), from index `i` with the best so far at `m`. -/
def firstMin : (i m : Nat) → (best : Nat) → List (BitVec 32) → Nat
  | _, m, _, [] => m
  | i, m, best, x :: xs => if x.toNat < best then firstMin (i + 1) i x.toNat xs else firstMin (i + 1) m best xs

/-- R347, the coefficient `c` moved down (`m` odd) or up (`m` even), within -17..16. -/
def nudge (m : Nat) (k : List (BitVec 32)) : List (BitVec 32) :=
  let c := (m - 1) / 2
  if m % 2 = 1 then (if s32At k c ≥ -16 then k.set c (k.getD c 0 - 1) else k)
  else if s32At k c < 16 then k.set c (k.getD c 0 + 1) else k

/-- R347 `Adapt(V)`. -/
def adapt (v : AudRec) : AudRec :=
  let m := firstMin 1 0 (v.dif.getD 0 0).toNat (v.dif.drop 1)
  { v with
    dif := List.replicate 11 0
    k := if m = 0 then v.k else nudge m v.k }

/-- R346 `DecodeAudio(delta)` on one record: the record after it and the output value `ch`, of which
CHANNEL_DELTA2 is the record's new `LAST_DELTA`. -/
def decodeAudio (delta : Byte) (channelDelta : Int) (v : AudRec) : AudRec × Int :=
  let d := nextDeltas v
  let ch := predict v d channelDelta - delta.toNat
  let e := 8 * s8 delta.toNat
  let u : AudRec := {
    k := v.k
    d := d
    lastDelta := BitVec.ofInt 32 (s8 (ch - v.lastChar.toInt))
    lastChar := BitVec.ofInt 32 ch
    dif := nextDif v.dif (errorTerms e d channelDelta)
    byteCount := v.byteCount + 1 }
  (if u.byteCount.toNat % 32 = 0 then adapt u else u, ch)

/-- R344: the sample of the current channel, its byte, and the channel rotation (R348). -/
def audioSample (delta : Byte) (s : State) : State :=
  let c := s.v20.curChannel
  let r := decodeAudio delta s.v20.channelDelta.toInt (s.v20.aud.getD c AudRec.zero)
  let t := putByte (BitVec.ofInt 8 r.2) s
  { t with
    v20.aud := s.v20.aud.set c r.1
    v20.channelDelta := r.1.lastDelta
    v20.curChannel := (c + 1) % s.v20.channels }

end Sys2Proof.Machine
end

