-- ==== Sys2Proof/Machine/V20.lean ====
section
/-! DEFINITION. The v20 rules (46_v20.md): the structural steps, the LZ tokens, and the audio tokens. -/

namespace Sys2Proof.Machine

/-- R333, what the header writes before the table read. -/
def startTables2 (h : V20Header) (s : State) : State :=
  let t : State := { s with
    v20.audio := h.audio.isSome
    v20.oldLens := if h.keep then s.v20.oldLens else List.replicate 1028 0 }
  match h.audio with
  | none => t
  | some c => { t with
      v20.channels := c.toNat + 1
      v20.curChannel := if t.v20.curChannel ≥ c.toNat + 1 then 0 else t.v20.curChannel }

/-- R335, the audio tables: `MD2[c]` for `c < channels`, the others kept. -/
def buildAudioTables (t : List Len) : (c n : Nat) → List HuffTable → Except ErrCode (List HuffTable)
  | _, 0, md => .ok md
  | c, n + 1, md => do
    let m ← buildTable (lensSlice t (257 * c) 257)
    buildAudioTables t (c + 1) n (md.set c m)

/-- R335 `BuildTables2(t)`. -/
def buildTables2 (t : List Len) (s : State) : Except ErrCode State :=
  if s.v20.audio then do
    let md ← buildAudioTables t 0 s.v20.channels s.v20.md
    .ok { s with v20.md := md }
  else do
    let ld ← buildTable (lensSlice t 0 298)
    let dd ← buildTable (lensSlice t 298 48)
    let rd ← buildTable (lensSlice t 346 28)
    .ok { s with v20.ld := ld, v20.dd := dd, v20.rd := rd }

/-- R333 `ReadTables2()`: the body of `V20_TABLES` without its PHASE write. -/
def readTables2 (h : V20Header) (s : State) : Except ErrCode State := do
  let s0 := startTables2 h s
  let n := v20LensCount h.audio
  let s1 := readPl4 h.pre s0
  let bd ← buildTable (lensSlice s1.desc.lens 0 19)
  let s2 ← readLens2 n s0.v20.oldLens h.lens { s1 with v20.bd := bd }
  let t := lensSlice s2.desc.lens 0 n
  let s3 ← buildTables2 t { s2 with v20.tablesRead := true }
  .ok (closeDesc { s3 with v20.oldLens := t ++ s0.v20.oldLens.drop n })

/-- R342 `Copy20(len, dist)`. -/
def copy20 (len : Nat) (dist : BitVec 64) (s : State) : State := copyNew len dist (cacheInsert dist s)

/-! ### The meanings -/

/-- V20_INIT (R332). -/
def execV20Init (s : State) : Host.Outcome State Fault Refusal :=
  .next (setPhase (if !s.cfgSolid || !s.v20.tablesRead then .tables else .token) s)

/-- V20_TABLES (R333). -/
def execV20Tables (h : V20Header) (s : State) : Host.Outcome State Fault Refusal :=
  outcome s (do
    let t ← readTables2 h s
    .ok (setPhase .token t))

/-- V20_SIZE_DONE (R349). -/
def execV20SizeDone (s : State) : Host.Outcome State Fault Refusal := .next (setPhase .tail s)

/-- V20_TAIL (R350). -/
def execV20Tail (p : TailProbe) (s : State) : Host.Outcome State Fault Refusal :=
  match p with
  | .stop => .next (endMember s)
  | .ignored _ => .next (endMember s)
  | .reload h => outcome s (do
      let t ← readTables2 h s
      .ok (endMember t))

/-- V20_LIT (R336). -/
def execV20Lit (b : Byte) (s : State) : Host.Outcome State Fault Refusal := .next (putByte b s)

/-- V20_REP_LAST (R337): the distance is inserted again, also when `LAST_LEN` is 0. -/
def execV20RepLast (s : State) : Host.Outcome State Fault Refusal :=
  .next (copy20 s.lastLen.toNat s.oldDist.d0 s)

/-- V20_REP_OLD (R338, R343): the entry is read, not rotated. -/
def execV20RepOld (i : Fin 4) (slot extra : Nat) (s : State) : Host.Outcome State Fault Refusal :=
  let dist := s.oldDist.get i
  .next (copy20 (repeatLength slot extra + bonusRepeat2 dist.toNat) dist s)

/-- V20_SHORT (R339). -/
def execV20Short (n : Fin 8) (extra : Nat) (s : State) : Host.Outcome State Fault Refusal :=
  .next (copy20 2 (BitVec.ofNat 64 (shortDistance n.val extra)) s)

/-- V20_RELOAD (R340). -/
def execV20Reload (s : State) : Host.Outcome State Fault Refusal := .next (setPhase .tables s)

/-- V20_MATCH (R341, R343). -/
def execV20Match (slot extra dslot dextra : Nat) (s : State) : Host.Outcome State Fault Refusal :=
  let dist := distBase dslot + 1 + dextra
  .next (copy20 (matchLength slot extra + bonus3 dist) (BitVec.ofNat 64 dist) s)

/-- V20_AUD_SAMPLE (R344). -/
def execV20AudSample (delta : Byte) (s : State) : Host.Outcome State Fault Refusal :=
  .next (audioSample delta s)

/-- V20_AUD_RELOAD (R345). -/
def execV20AudReload (s : State) : Host.Outcome State Fault Refusal := .next (setPhase .tables s)

end Sys2Proof.Machine
end

