-- ==== Sys2Proof/Machine/V50.lean ====
section
/-! DEFINITION. The v50 rules (44_v50.md): block headers with their tables, and the tokens. -/

namespace Sys2Proof.Machine

/-- R245 `ReadTables5()`. -/
def readTables5 (t : TableDesc5) (s : State) : Except ErrCode State := do
  let s1 := readPl4e t.pre s
  let bd ← buildTable (lensSlice s1.desc.lens 0 20)
  let s2 ← readLens5 430 [] t.lens { s1 with v50.bd := bd }
  let ld ← buildTable (lensSlice s2.desc.lens 0 306)
  let dd ← buildTable (lensSlice s2.desc.lens 306 64)
  let ldd ← buildTable (lensSlice s2.desc.lens 370 16)
  let rd ← buildTable (lensSlice s2.desc.lens 386 44)
  .ok (closeDesc { s2 with v50.ld := ld, v50.dd := dd, v50.ldd := ldd, v50.rd := rd, v50.tablesRead := true })

/-- The byte index after a block header read from position `p` (R242): the next byte boundary, then the
flags, the check byte and the size bytes. -/
def headerEnd (p : Nat) (h : BlockHeader) : Nat := alignByte p / 8 + 2 + headerByteCount h.flags

/-- The block registers a valid header writes (R242). -/
def setBlock (h : BlockHeader) (s : State) : State :=
  { s with
    v50.blkStart := BitVec.ofNat 64 (headerEnd (bitPos s) h)
    v50.blkSize := h.size
    v50.blkBitSize := BitVec.ofNat 4 ((h.flags.toNat &&& 7) + 1)
    v50.blkLast := h.flags.getLsbD 6
    v50.blkTables := h.flags.getLsbD 7 }

/-- R242 `BlockHeader()`, with the checks of R243 and R244 in stream order. -/
def blockHeader (h : BlockHeader) (s : State) : Except ErrCode State :=
  if headerByteCount h.flags = 4 then .error .e3
  else if h.check.toNat ≠ check5 h.flags h.size.toNat then .error .e3
  else if h.flags.getLsbD 7 then readTables5 (h.tables.getD { pre := [], lens := [] }) (setBlock h s)
  else .ok (setBlock h s)

/-- R246: a block may not be decoded while no v50 table has been read. -/
def requireTables5 (s : State) : Except ErrCode State :=
  if s.v50.tablesRead then .ok s else .error .e4

/-- The descriptor of a `V50_FILTER` token (R251, R258, R259). -/
def v50FilterDesc (f : FilterFields) (s : State) : FilterDesc :=
  .v50Filter f.start (s.wrAbs + f.start.setWidth 64) (capFilterLen f.length) f.type
    (if f.type = 0 then some ((f.channels.getD 0).toNat + 1) else none) s.wrAbs

/-! ### The meanings -/

/-- V50_FIRST_HEADER (R241). -/
def execV50FirstHeader (h : BlockHeader) (s : State) : Host.Outcome State Fault Refusal :=
  outcome s (do
    let t ← blockHeader h s
    let u ← requireTables5 t
    .ok (setPhase .token u))

/-- V50_NEXT_BLOCK (R248). -/
def execV50NextBlock (h : BlockHeader) (s : State) : Host.Outcome State Fault Refusal :=
  outcome s (do
    let t ← blockHeader h s
    requireTables5 t)

/-- V50_END (R249). -/
def execV50End (s : State) : Host.Outcome State Fault Refusal := .next (endMember s)

/-- V50_LIT (R250). -/
def execV50Lit (b : Byte) (s : State) : Host.Outcome State Fault Refusal := .next (putByte b s)

/-- V50_FILTER (R251). -/
def execV50Filter (f : FilterFields) (s : State) : Host.Outcome State Fault Refusal :=
  outcome s (emitFilter (v50FilterDesc f s) s)

/-- V50_REP_LAST (R252). -/
def execV50RepLast (s : State) : Host.Outcome State Fault Refusal := .next (copyLast s)

/-- V50_REP_OLD (R253). -/
def execV50RepOld (i : Fin 4) (slot extra : Nat) (s : State) : Host.Outcome State Fault Refusal :=
  .next (copyNew (slotToLength slot extra) (s.oldDist.get i) (cacheRotate i s))

/-- V50_MATCH (R254). -/
def execV50Match (slot extra : Nat) (d : DistField) (s : State) : Host.Outcome State Fault Refusal :=
  let dist := distance5 d
  .next (copyNew (slotToLength slot extra + bonus5 dist) (BitVec.ofNat 64 dist)
    (cacheInsert (BitVec.ofNat 64 dist) s))

end Sys2Proof.Machine
end

