-- ==== Sys2Proof/Machine/Dispatch.lean ====
section
/-! DEFINITION. The meaning of each instruction, one arm per constructor. -/

namespace Sys2Proof.Machine

def exec (i : Instr) (s : State) : Host.Outcome State Fault Refusal :=
  match i with
  | .v50FirstHeader h => Sys2Proof.Machine.execV50FirstHeader h s
  | .v50NextBlock h => Sys2Proof.Machine.execV50NextBlock h s
  | .v50End => Sys2Proof.Machine.execV50End s
  | .v29Init => Sys2Proof.Machine.execV29Init s
  | .v29Tables h => Sys2Proof.Machine.execV29Tables h s
  | .v20Init => Sys2Proof.Machine.execV20Init s
  | .v20Tables h => Sys2Proof.Machine.execV20Tables h s
  | .v20SizeDone => Sys2Proof.Machine.execV20SizeDone s
  | .v20Tail p => Sys2Proof.Machine.execV20Tail p s
  | .v15Stream => Sys2Proof.Machine.execV15Stream s
  | .v50Lit b => Sys2Proof.Machine.execV50Lit b s
  | .v50Filter f => Sys2Proof.Machine.execV50Filter f s
  | .v50RepLast => Sys2Proof.Machine.execV50RepLast s
  | .v50RepOld idx slot extra => Sys2Proof.Machine.execV50RepOld idx slot extra s
  | .v50Match slot extra d => Sys2Proof.Machine.execV50Match slot extra d s
  | .v29Lit b => Sys2Proof.Machine.execV29Lit b s
  | .v29Eob e => Sys2Proof.Machine.execV29Eob e s
  | .v29VmCode v => Sys2Proof.Machine.execV29VmCode v s
  | .v29RepLast => Sys2Proof.Machine.execV29RepLast s
  | .v29RepOld idx slot extra => Sys2Proof.Machine.execV29RepOld idx slot extra s
  | .v29Short n extra => Sys2Proof.Machine.execV29Short n extra s
  | .v29Match slot extra d => Sys2Proof.Machine.execV29Match slot extra d s
  | .ppmLit c => Sys2Proof.Machine.execPpmLit c s
  | .ppmEscReload => Sys2Proof.Machine.execPpmEscReload s
  | .ppmEscLit x => Sys2Proof.Machine.execPpmEscLit x s
  | .ppmEscEnd => Sys2Proof.Machine.execPpmEscEnd s
  | .ppmEscVmCode v => Sys2Proof.Machine.execPpmEscVmCode v s
  | .ppmEscLz d2 d1 d0 l => Sys2Proof.Machine.execPpmEscLz d2 d1 d0 l s
  | .ppmEscRle l => Sys2Proof.Machine.execPpmEscRle l s
  | .v20Lit b => Sys2Proof.Machine.execV20Lit b s
  | .v20RepLast => Sys2Proof.Machine.execV20RepLast s
  | .v20RepOld idx slot extra => Sys2Proof.Machine.execV20RepOld idx slot extra s
  | .v20Short n extra => Sys2Proof.Machine.execV20Short n extra s
  | .v20Reload => Sys2Proof.Machine.execV20Reload s
  | .v20Match slot extra dslot dextra => Sys2Proof.Machine.execV20Match slot extra dslot dextra s
  | .v20AudSample delta => Sys2Proof.Machine.execV20AudSample delta s
  | .v20AudReload => Sys2Proof.Machine.execV20AudReload s
  | .pl4eLen l => Sys2Proof.Machine.execPl4eLen l s
  | .pl4eEsc z => Sys2Proof.Machine.execPl4eEsc z s
  | .pl4Len l => Sys2Proof.Machine.execPl4Len l s
  | .len5Lit n => Sys2Proof.Machine.execLen5Lit n s
  | .len5Rep3 n => Sys2Proof.Machine.execLen5Rep3 n s
  | .len5Rep7 n => Sys2Proof.Machine.execLen5Rep7 n s
  | .len5Zero3 n => Sys2Proof.Machine.execLen5Zero3 n s
  | .len5Zero7 n => Sys2Proof.Machine.execLen5Zero7 n s
  | .len2Lit n => Sys2Proof.Machine.execLen2Lit n s
  | .len2Rep2 n => Sys2Proof.Machine.execLen2Rep2 n s
  | .len2Zero3 n => Sys2Proof.Machine.execLen2Zero3 n s
  | .len2Zero7 n => Sys2Proof.Machine.execLen2Zero7 n s

end Sys2Proof.Machine
end

