-- ==== Sys2Proof/Decode.lean ====
section
/-! DEFINITION. The decoder: from the zero-extended input and the tables in force to the instruction of
the next step, total on any input (an unreadable one is rejected by its error code), and after it the
encoder. -/

namespace Sys2Proof

open Sys2Proof.Machine

/-- Which decoder rule is due: the rows of the dispatch table R214 (the tail row is split by what its
availability test finds, R350). -/
inductive Ctx where
  | v50First | v50Next | v50End | v50Token
  | v29Init | v29Tables | v29Lz | v29Ppm
  | v20Init | v20Tables | v20SizeDone | v20Lz | v20Audio
  /-- 5 bytes are available: the tail step reads a symbol. -/
  | v20TailRead
  /-- Fewer, and the input has ended: the tail step ends the member. -/
  | v20TailStop
  /-- Fewer, and the input has not ended: the tail step holds. -/
  | v20TailWait
  deriving DecidableEq, Repr

/-- What decoding depends on besides the bits (R108, R109). -/
structure Env where
  ld5 : HuffTable
  dd5 : HuffTable
  ldd5 : HuffTable
  rd5 : HuffTable
  ld3 : HuffTable
  dd3 : HuffTable
  ldd3 : HuffTable
  rd3 : HuffTable
  lowDistRep : Nat
  ld2 : HuffTable
  dd2 : HuffTable
  rd2 : HuffTable
  /-- `MD2[CUR_CHANNEL2]`. -/
  md2 : HuffTable
  audio : Bool
  ppmEsc : Byte
  ppmState : Nat
  ppmd : Ppmd

/-- What decoding one step finds: the instruction, or the error of a reading that forms none; the position
after its fields; the step's `NEED` (R130); and the coder's state after its requests. -/
structure Decoded where
  res : Except ErrCode Instr
  pos : Nat
  need : Nat
  ppm : Nat

/-! ### Fields -/

/-- R133 `GetBits(n)`: the value and the position after it. -/
def getBits (z : Bits) (p n : Nat) : Nat × Nat := (peekBits z p n, p + n)

/-- One `PL4E` element (R92). -/
def decodePreCode (z : Bits) (p : Nat) : PreCode × Nat :=
  if peekBits z p 4 = 15 then (.esc (BitVec.ofNat 4 (peekBits z (p + 4) 4)), p + 8)
  else (.len (BitVec.ofNat 4 (peekBits z p 4)), p + 4)

/-- R92 `PL4E`: elements until 20 pre-lengths are described; `i` counts them and `fuel` is at least the
number still missing. -/
def decodePreCodes (z : Bits) : (fuel i p : Nat) → List PreCode × Nat
  | 0, _, p => ([], p)
  | fuel + 1, i, p =>
    if i ≥ 20 then ([], p)
    else
      let c := decodePreCode z p
      let r := decodePreCodes z fuel (i + preCodeCount c.1) c.2
      (c.1 :: r.1, r.2)

/-- R93 `PL4`: `n` plain pre-lengths. -/
def decodePlainLens (z : Bits) : (n p : Nat) → List Len × Nat
  | 0, p => ([], p)
  | n + 1, p =>
    let r := decodePlainLens z n (p + 4)
    (BitVec.ofNat 4 (peekBits z p 4) :: r.1, r.2)

/-- One `LENCODE5` element (R94, R159). -/
def decodeLenCode5 (bd : HuffTable) (z : Bits) (p : Nat) : LenCode5 × Nat :=
  let s := huffDecode bd z p
  if s.1 < 16 then (.lit (BitVec.ofNat 4 s.1), s.2)
  else if s.1 = 16 then (.rep3 (BitVec.ofNat 3 (peekBits z s.2 3)), s.2 + 3)
  else if s.1 = 17 then (.rep7 (BitVec.ofNat 7 (peekBits z s.2 7)), s.2 + 7)
  else if s.1 = 18 then (.zero3 (BitVec.ofNat 3 (peekBits z s.2 3)), s.2 + 3)
  else (.zero7 (BitVec.ofNat 7 (peekBits z s.2 7)), s.2 + 7)

/-- One `LENCODE2` element (R95, R159). -/
def decodeLenCode2 (bd : HuffTable) (z : Bits) (p : Nat) : LenCode2 × Nat :=
  let s := huffDecode bd z p
  if s.1 < 16 then (.lit (BitVec.ofNat 4 s.1), s.2)
  else if s.1 = 16 then (.rep2 (BitVec.ofNat 2 (peekBits z s.2 2)), s.2 + 2)
  else if s.1 = 17 then (.zero3 (BitVec.ofNat 3 (peekBits z s.2 3)), s.2 + 3)
  else (.zero7 (BitVec.ofNat 7 (peekBits z s.2 7)), s.2 + 7)

/-- R159 `ReadLengths` in `LENCODE5` form: elements until `n` lengths are described. A repeat at position 0
ends the reading (R160). -/
def decodeLens5 (bd : HuffTable) (z : Bits) (n : Nat) : (fuel i p : Nat) → List LenCode5 × Nat
  | 0, _, p => ([], p)
  | fuel + 1, i, p =>
    if i ≥ n then ([], p)
    else
      let c := decodeLenCode5 bd z p
      if i = 0 && lenCode5Repeats c.1 then ([c.1], c.2)
      else
        let r := decodeLens5 bd z n fuel (i + lenCode5Count c.1) c.2
        (c.1 :: r.1, r.2)

/-- R159 `ReadLengths` in `LENCODE2` form. -/
def decodeLens2 (bd : HuffTable) (z : Bits) (n : Nat) : (fuel i p : Nat) → List LenCode2 × Nat
  | 0, _, p => ([], p)
  | fuel + 1, i, p =>
    if i ≥ n then ([], p)
    else
      let c := decodeLenCode2 bd z p
      if i = 0 && lenCode2Repeats c.1 then ([c.1], c.2)
      else
        let r := decodeLens2 bd z n fuel (i + lenCode2Count c.1) c.2
        (c.1 :: r.1, r.2)

/-- A v50 or v29 table description of `n` lengths (R96, R97). Pre-lengths that oversubscribe end the
reading (E1 is raised by the step, R162). -/
def decodeTableDesc5 (z : Bits) (n p : Nat) : TableDesc5 × Nat :=
  let pre := decodePreCodes z 20 0 p
  match buildTable (preLens pre.1) with
  | .error _ => ({ pre := pre.1, lens := [] }, pre.2)
  | .ok bd =>
    let lens := decodeLens5 bd z n n 0 pre.2
    ({ pre := pre.1, lens := lens.1 }, lens.2)

/-- `V50_BLOCK_HEADER` (R96, R242), read from the next byte boundary. A reserved byte count (R244) or a
failed checksum (R243) ends the reading. -/
def decodeBlockHeader (z : Bits) (p0 : Nat) : BlockHeader × Nat :=
  let p := alignByte p0
  let flags := BitVec.ofNat 8 (peekBits z p 8)
  let bc := headerByteCount flags
  if bc = 4 then ({ flags := flags, check := 0, size := 0, tables := none }, p + 8)
  else
    let check := BitVec.ofNat 8 (peekBits z (p + 8) 8)
    let size := peekLE z (p + 16) bc
    let q := p + 16 + 8 * bc
    if check.toNat ≠ check5 flags size then
      ({ flags := flags, check := check, size := BitVec.ofNat 24 size, tables := none }, q)
    else if flags.getLsbD 7 then
      let t := decodeTableDesc5 z 430 q
      ({ flags := flags, check := check, size := BitVec.ofNat 24 size, tables := some t.1 }, t.2)
    else ({ flags := flags, check := check, size := BitVec.ofNat 24 size, tables := none }, q)

/-- `V20_TABLES` (R98, R333), not aligned. -/
def decodeV20Header (z : Bits) (p : Nat) : V20Header × Nat :=
  let bf := peekBits z p 16
  let keep := bf.testBit 14
  let audio : Option (BitVec 2) := if bf.testBit 15 then some (BitVec.ofNat 2 (bf >>> 12)) else none
  let q := if bf.testBit 15 then p + 4 else p + 2
  let pre := decodePlainLens z 19 q
  match buildTable pre.1 with
  | .error _ => ({ audio := audio, keep := keep, pre := pre.1, lens := [] }, pre.2)
  | .ok bd =>
    let n := v20LensCount audio
    let lens := decodeLens2 bd z n n 0 pre.2
    ({ audio := audio, keep := keep, pre := pre.1, lens := lens.1 }, lens.2)

/-- R257 `ReadFilterData`: the byte count minus 1, the value, and the position after it. -/
def decodeFilterData (z : Bits) (p : Nat) : BitVec 2 × BitVec 32 × Nat :=
  let a := BitVec.ofNat 2 (peekBits z p 2)
  (a, BitVec.ofNat 32 (peekLE z (p + 2) (a.toNat + 1)), p + 2 + 8 * (a.toNat + 1))

/-- The operand fields of `V50_FILTER` (R251, R258). -/
def decodeFilterFields (z : Bits) (p : Nat) : FilterFields × Nat :=
  let start := decodeFilterData z p
  let length := decodeFilterData z start.2.2
  let q := length.2.2
  let type := BitVec.ofNat 3 (peekBits z q 3)
  let ch := if type = 0 then some (BitVec.ofNat 5 (peekBits z (q + 3) 5)) else none
  ({ startCount := start.1, start := start.2.1, lengthCount := length.1, length := length.2.1
     type := type, channels := ch }, if type = 0 then q + 8 else q + 3)

/-- The distance field of `V50_MATCH` (R256). -/
def decodeDist5 (env : Env) (z : Bits) (p : Nat) : DistField × Nat :=
  let ds := huffDecode env.dd5 z p
  let db := distBits5 ds.1
  if db ≥ 4 then
    let hi := getBits z ds.2 (db - 4)
    let lo := huffDecode env.ldd5 z hi.2
    ({ slot := ds.1, extra := hi.1, low := some lo.1 }, lo.2)
  else
    let x := getBits z ds.2 db
    ({ slot := ds.1, extra := x.1, low := none }, x.2)

/-- The distance field of `V29_MATCH` (R294): no low-distance code is read while `LOW_DIST_REP > 0`. -/
def decodeDist3 (env : Env) (z : Bits) (p : Nat) : DistField × Nat :=
  let dn := huffDecode env.dd3 z p
  let x := getBits z dn.2 (rawDistBits3 dn.1)
  if splitsLow3 dn.1 && env.lowDistRep == 0 then
    let lo := huffDecode env.ldd3 z x.2
    ({ slot := dn.1, extra := x.1, low := some lo.1 }, lo.2)
  else ({ slot := dn.1, extra := x.1, low := none }, x.2)

/-- The operand fields of `V29_VMCODE` (R289). A length 0 ends the reading. -/
def decodeVmCode (z : Bits) (p : Nat) : VmCode × Nat :=
  let first := BitVec.ofNat 8 (peekBits z p 8)
  let k := vmExtBytes first
  let ext := bigEndian (peekBytes z (p + 8) k)
  let n := vmLength first ext
  ({ first := first, ext := ext, code := peekBytes z (p + 8 + 8 * k) n }, p + 8 + 8 * k + 8 * n)

/-! ### Tokens by main symbol -/

/-- A decoding that forms the instruction `i` and reads no coder character. -/
def Decoded.instr (env : Env) (i : Instr) (p : Nat) : Decoded :=
  { res := .ok i, pos := p, need := p, ppm := env.ppmState }

/-- A decoding that forms no instruction. -/
def Decoded.failed (env : Env) (e : ErrCode) (p : Nat) : Decoded :=
  { res := .error e, pos := p, need := p, ppm := env.ppmState }

/-- The v50 opcode map (R100). -/
def decodeV50 (env : Env) (z : Bits) (p : Nat) : Decoded :=
  let s := huffDecode env.ld5 z p
  if s.1 < 256 then .instr env (.v50Lit (BitVec.ofNat 8 s.1)) s.2
  else if s.1 = 256 then
    let f := decodeFilterFields z s.2
    .instr env (.v50Filter f.1) f.2
  else if s.1 = 257 then .instr env .v50RepLast s.2
  else if s.1 < 262 then
    let ls := huffDecode env.rd5 z s.2
    let x := getBits z ls.2 (lengthBits5 ls.1)
    .instr env (.v50RepOld (Fin.ofNat 4 (s.1 - 258)) ls.1 x.1) x.2
  else if s.1 < 306 then
    let x := getBits z s.2 (lengthBits5 (s.1 - 262))
    let d := decodeDist5 env z x.2
    .instr env (.v50Match (s.1 - 262) x.1 d.1) d.2
  else .failed env .e9 s.2

/-- The v29 LZ opcode map (R101). -/
def decodeV29 (env : Env) (z : Bits) (p : Nat) : Decoded :=
  let s := huffDecode env.ld3 z p
  if s.1 < 256 then .instr env (.v29Lit (BitVec.ofNat 8 s.1)) s.2
  else if s.1 = 256 then
    if peekBits z s.2 1 = 1 then .instr env (.v29Eob .newTables) (s.2 + 1)
    else .instr env (.v29Eob (.endMember (peekBits z (s.2 + 1) 1 == 1))) (s.2 + 2)
  else if s.1 = 257 then
    let v := decodeVmCode z s.2
    .instr env (.v29VmCode v.1) v.2
  else if s.1 = 258 then .instr env .v29RepLast s.2
  else if s.1 < 263 then
    let n := huffDecode env.rd3 z s.2
    let x := getBits z n.2 (lengthBits n.1)
    .instr env (.v29RepOld (Fin.ofNat 4 (s.1 - 259)) n.1 x.1) x.2
  else if s.1 < 271 then
    let x := getBits z s.2 (shortBits (s.1 - 263))
    .instr env (.v29Short (Fin.ofNat 8 (s.1 - 263)) x.1) x.2
  else if s.1 < 299 then
    let x := getBits z s.2 (lengthBits (s.1 - 271))
    let d := decodeDist3 env z x.2
    .instr env (.v29Match (s.1 - 271) x.1 d.1) d.2
  else .failed env .e9 s.2

/-- The v20 LZ opcode map (R103). -/
def decodeV20 (env : Env) (z : Bits) (p : Nat) : Decoded :=
  let s := huffDecode env.ld2 z p
  if s.1 < 256 then .instr env (.v20Lit (BitVec.ofNat 8 s.1)) s.2
  else if s.1 = 256 then .instr env .v20RepLast s.2
  else if s.1 < 261 then
    let n := huffDecode env.rd2 z s.2
    let x := getBits z n.2 (lengthBits n.1)
    .instr env (.v20RepOld (Fin.ofNat 4 (s.1 - 257)) n.1 x.1) x.2
  else if s.1 < 269 then
    let x := getBits z s.2 (shortBits (s.1 - 261))
    .instr env (.v20Short (Fin.ofNat 8 (s.1 - 261)) x.1) x.2
  else if s.1 = 269 then .instr env .v20Reload s.2
  else if s.1 < 298 then
    let x := getBits z s.2 (lengthBits (s.1 - 270))
    let dn := huffDecode env.dd2 z x.2
    let y := getBits z dn.2 (distBits dn.1)
    .instr env (.v20Match (s.1 - 270) x.1 dn.1 y.1) y.2
  else .failed env .e9 s.2

/-- The v20 audio opcode map (R104). -/
def decodeAudioSymbol (env : Env) (z : Bits) (p : Nat) : Decoded :=
  let s := huffDecode env.md2 z p
  if s.1 < 256 then .instr env (.v20AudSample (BitVec.ofNat 8 s.1)) s.2
  else if s.1 = 256 then .instr env .v20AudReload s.2
  else .failed env .e9 s.2

/-- The read of the v20 tail step (R350). -/
def decodeTail (env : Env) (z : Bits) (p : Nat) : Decoded :=
  let s := huffDecode (if env.audio then env.md2 else env.ld2) z p
  if s.1 = (if env.audio then 256 else 269) then
    let h := decodeV20Header z s.2
    .instr env (.v20Tail (.reload h.1)) h.2
  else .instr env (.v20Tail (.ignored s.1)) s.2

/-! ### PPM characters -/

/-- The answer of a coder's reader on the bytes `f 0, f 1, ...`, and how many of them it took (R71). -/
def runReader {α : Type} : PpmReader α → (f : Nat → Byte) → α × Nat
  | .done a, _ => (a, 0)
  | .more next, f =>
    let r := runReader (next (f 0)) fun j => f (j + 1)
    (r.1, r.2 + 1)

/-- One `PpmInit(esc)` request at position `p` with the coder in state `st`: its answer and the bytes it
used (R71, R284). -/
def askInit (ppmd : Ppmd) (z : Bits) (p st : Nat) (esc : Byte) : PpmInitAnswer × Nat :=
  runReader (.more (ppmd.init st esc)) fun j => inputByte z (p / 8 + j)

/-- One `PpmChar()` request at position `p` with the coder in state `st`: its answer and the bytes it used
(R71). -/
def askChar (ppmd : Ppmd) (z : Bits) (p st : Nat) : PpmCharAnswer × Nat :=
  runReader (ppmd.char st) fun j => inputByte z (p / 8 + j)

/-- `n` characters in order, with the position and coder state after them; none at the first EOF (R303). -/
def readChars (ppmd : Ppmd) (z : Bits) : (n p st : Nat) → Option (List Byte) × Nat × Nat
  | 0, p, st => (some [], p, st)
  | n + 1, p, st =>
    let a := askChar ppmd z p st
    match a.1.char with
    | none => (none, p + 8 * a.2, a.1.state)
    | some c =>
      let r := readChars ppmd z n (p + 8 * a.2) a.1.state
      (r.1.map (c :: ·), r.2)

/-- A PPM decoding that ends after a character request: an instruction, or E6 at EOF (R303). -/
def Decoded.chars (i : Option Instr) (p st : Nat) : Decoded :=
  { res := match i with | some i => .ok i | none => .error .e6
    pos := p, need := p, ppm := st }

/-- The characters of `PPM_ESC_VMCODE` after `PPM_ESC, 3` (R300). -/
def decodePpmVmCode (ppmd : Ppmd) (z : Bits) (p st : Nat) : Decoded :=
  match readChars ppmd z 1 p st with
  | (some [first], p1, st1) =>
    match readChars ppmd z (vmExtBytes first) p1 st1 with
    | (some ext, p2, st2) =>
      let r := readChars ppmd z (vmLength first (bigEndian ext)) p2 st2
      .chars (r.1.map fun code => .ppmEscVmCode { first := first, ext := bigEndian ext, code := code }) r.2.1 r.2.2
    | (none, p2, st2) => .chars none p2 st2
  | (_, p1, st1) => .chars none p1 st1

/-- The PPM opcode map (R102). -/
def decodePpm (env : Env) (z : Bits) (p : Nat) : Decoded :=
  match readChars env.ppmd z 1 p env.ppmState with
  | (some [c], p1, st1) =>
    if c ≠ env.ppmEsc then .chars (some (.ppmLit c)) p1 st1
    else
      match readChars env.ppmd z 1 p1 st1 with
      | (some [x], p2, st2) =>
        if x = 0 then .chars (some .ppmEscReload) p2 st2
        else if x = 2 then .chars (some .ppmEscEnd) p2 st2
        else if x = 3 then decodePpmVmCode env.ppmd z p2 st2
        else if x = 4 then
          match readChars env.ppmd z 4 p2 st2 with
          | (some [d2, d1, d0, l], p3, st3) => .chars (some (.ppmEscLz d2 d1 d0 l)) p3 st3
          | (_, p3, st3) => .chars none p3 st3
        else if x = 5 then
          match readChars env.ppmd z 1 p2 st2 with
          | (some [l], p3, st3) => .chars (some (.ppmEscRle l)) p3 st3
          | (_, p3, st3) => .chars none p3 st3
        else .chars (some (.ppmEscLit x)) p2 st2
      | (_, p2, st2) => .chars none p2 st2
  | (_, p1, st1) => .chars none p1 st1

/-- `V29_TABLES` (R97, R283, R284). -/
def decodeV29Tables (env : Env) (z : Bits) (p0 : Nat) : Decoded :=
  let p := alignByte p0
  let bf := peekBits z p 16
  if bf.testBit 15 then
    let a := askInit env.ppmd z p env.ppmState env.ppmEsc
    { res := .ok (.v29Tables (.ppm a.1.ok a.1.esc)), pos := p + 8 * a.2, need := p + 8 * a.2, ppm := a.1.state }
  else
    let t := decodeTableDesc5 z 404 (p + 2)
    .instr env (.v29Tables (.lz (bf.testBit 14) t.1)) t.2

/-- The decoding of the step that rule `ctx` of the dispatch table selects (R214), from position `p`. -/
def decodeIn (ctx : Ctx) (env : Env) (z : Bits) (p : Nat) : Decoded :=
  match ctx with
  | .v50First => .instr env (.v50FirstHeader (decodeBlockHeader z p).1) (decodeBlockHeader z p).2
  | .v50Next => .instr env (.v50NextBlock (decodeBlockHeader z p).1) (decodeBlockHeader z p).2
  | .v50End => .instr env .v50End p
  | .v50Token => decodeV50 env z p
  | .v29Init => .instr env .v29Init p
  | .v29Tables => decodeV29Tables env z p
  | .v29Lz => decodeV29 env z p
  | .v29Ppm => decodePpm env z p
  | .v20Init => .instr env .v20Init p
  | .v20Tables => .instr env (.v20Tables (decodeV20Header z p).1) (decodeV20Header z p).2
  | .v20SizeDone => .instr env .v20SizeDone p
  | .v20Lz => decodeV20 env z p
  | .v20Audio => decodeAudioSymbol env z p
  | .v20TailRead => decodeTail env z p
  | .v20TailStop => .instr env (.v20Tail .stop) p
  | .v20TailWait =>
    { res := .ok (.v20Tail .stop), pos := p, need := 8 * (p / 8 + 5), ppm := env.ppmState }

/-! ### The encoder -/

/-- One `PL4E` element (R92). -/
def encodePreCode : PreCode → List Bool
  | .len l => bitsOf 4 l.toNat
  | .esc z => bitsOf 4 15 ++ bitsOf 4 z.toNat

/-- One `LENCODE5` element under the pre-table `bd` (R94). -/
def encodeLenCode5 (bd : HuffTable) : LenCode5 → List Bool
  | .lit n => encodeSymbol bd n.toNat
  | .rep3 n => encodeSymbol bd 16 ++ bitsOf 3 n.toNat
  | .rep7 n => encodeSymbol bd 17 ++ bitsOf 7 n.toNat
  | .zero3 n => encodeSymbol bd 18 ++ bitsOf 3 n.toNat
  | .zero7 n => encodeSymbol bd 19 ++ bitsOf 7 n.toNat

/-- One `LENCODE2` element under the pre-table `bd` (R95). -/
def encodeLenCode2 (bd : HuffTable) : LenCode2 → List Bool
  | .lit n => encodeSymbol bd n.toNat
  | .rep2 n => encodeSymbol bd 16 ++ bitsOf 2 n.toNat
  | .zero3 n => encodeSymbol bd 17 ++ bitsOf 3 n.toNat
  | .zero7 n => encodeSymbol bd 18 ++ bitsOf 7 n.toNat

/-- A v50 or v29 table description (R96, R97). -/
def encodeTableDesc5 (d : TableDesc5) : List Bool :=
  d.pre.flatMap encodePreCode ++
    match buildTable (preLens d.pre) with
    | .ok bd => d.lens.flatMap (encodeLenCode5 bd)
    | .error _ => []

/-- A `V50_BLOCK_HEADER` from a byte boundary (R96). -/
def encodeBlockHeader (h : BlockHeader) : List Bool :=
  bitsOf 8 h.flags.toNat ++
    if headerByteCount h.flags = 4 then []
    else bitsOf 8 h.check.toNat ++ bitsOfLE (headerByteCount h.flags) h.size.toNat ++
      match h.tables with
      | some t => encodeTableDesc5 t
      | none => []

/-- A `V20_TABLES` header (R98). -/
def encodeV20Header (h : V20Header) : List Bool :=
  (match h.audio with
    | some c => [true, h.keep] ++ bitsOf 2 c.toNat
    | none => [false, h.keep]) ++
  h.pre.flatMap (fun l => bitsOf 4 l.toNat) ++
    match buildTable h.pre with
    | .ok bd => h.lens.flatMap (encodeLenCode2 bd)
    | .error _ => []

/-- R257. -/
def encodeFilterData (count : BitVec 2) (v : BitVec 32) : List Bool :=
  bitsOf 2 count.toNat ++ bitsOfLE (count.toNat + 1) v.toNat

/-- R251, R258. -/
def encodeFilterFields (f : FilterFields) : List Bool :=
  encodeFilterData f.startCount f.start ++ encodeFilterData f.lengthCount f.length ++
    bitsOf 3 f.type.toNat ++
    match f.channels with
    | some c => bitsOf 5 c.toNat
    | none => []

/-- The low-distance code of a distance field, when it has one. -/
def encodeLow (t : HuffTable) (d : DistField) : List Bool :=
  match d.low with
  | some s => encodeSymbol t s
  | none => []

/-- R256. -/
def encodeDist5 (env : Env) (d : DistField) : List Bool :=
  encodeSymbol env.dd5 d.slot ++
    bitsOf (if distBits5 d.slot ≥ 4 then distBits5 d.slot - 4 else distBits5 d.slot) d.extra ++
    encodeLow env.ldd5 d

/-- R294. -/
def encodeDist3 (env : Env) (d : DistField) : List Bool :=
  encodeSymbol env.dd3 d.slot ++ bitsOf (rawDistBits3 d.slot) d.extra ++ encodeLow env.ldd3 d

/-- R289: the bytes of a VM-code record in stream order. -/
def vmCodeBytes (v : VmCode) : List Byte :=
  v.first ::
    ((match vmExtBytes v.first with
      | 0 => []
      | 1 => [BitVec.ofNat 8 v.ext]
      | _ => [BitVec.ofNat 8 (v.ext / 256), BitVec.ofNat 8 v.ext]) ++ v.code)

/-- R288. -/
def encodeEob : EobForm → List Bool
  | .newTables => [true]
  | .endMember t => [false, t]

/-- The bits of an instruction under the tables of `env`, from a byte boundary where its format begins
with one. A step that reads no bits, the PPM form of `V29_TABLES` (whose bits are the coder's) and the PPM
tokens (whose fields are characters, see `encodeChars`) have none. The length codes are encoded under
`bd`, the pre-table in force. -/
def encode (env : Env) (bd : HuffTable) : Instr → List Bool
  | .v50FirstHeader h => encodeBlockHeader h
  | .v50NextBlock h => encodeBlockHeader h
  | .v50End => []
  | .v29Init => []
  | .v29Tables (.lz keep t) => [false, keep] ++ encodeTableDesc5 t
  | .v29Tables (.ppm _ _) => []
  | .v20Init => []
  | .v20Tables h => encodeV20Header h
  | .v20SizeDone => []
  | .v20Tail .stop => []
  | .v20Tail (.ignored s) => encodeSymbol (if env.audio then env.md2 else env.ld2) s
  | .v20Tail (.reload h) =>
    (if env.audio then encodeSymbol env.md2 256 else encodeSymbol env.ld2 269) ++ encodeV20Header h
  | .v15Stream => []
  | .v50Lit b => encodeSymbol env.ld5 b.toNat
  | .v50Filter f => encodeSymbol env.ld5 256 ++ encodeFilterFields f
  | .v50RepLast => encodeSymbol env.ld5 257
  | .v50RepOld i slot extra =>
    encodeSymbol env.ld5 (258 + i.val) ++ encodeSymbol env.rd5 slot ++ bitsOf (lengthBits5 slot) extra
  | .v50Match slot extra d =>
    encodeSymbol env.ld5 (262 + slot) ++ bitsOf (lengthBits5 slot) extra ++ encodeDist5 env d
  | .v29Lit b => encodeSymbol env.ld3 b.toNat
  | .v29Eob e => encodeSymbol env.ld3 256 ++ encodeEob e
  | .v29VmCode v => encodeSymbol env.ld3 257 ++ bitsOfBytes (vmCodeBytes v)
  | .v29RepLast => encodeSymbol env.ld3 258
  | .v29RepOld i slot extra =>
    encodeSymbol env.ld3 (259 + i.val) ++ encodeSymbol env.rd3 slot ++ bitsOf (lengthBits slot) extra
  | .v29Short n extra => encodeSymbol env.ld3 (263 + n.val) ++ bitsOf (shortBits n.val) extra
  | .v29Match slot extra d =>
    encodeSymbol env.ld3 (271 + slot) ++ bitsOf (lengthBits slot) extra ++ encodeDist3 env d
  | .ppmLit _ => []
  | .ppmEscReload => []
  | .ppmEscLit _ => []
  | .ppmEscEnd => []
  | .ppmEscVmCode _ => []
  | .ppmEscLz _ _ _ _ => []
  | .ppmEscRle _ => []
  | .v20Lit b => encodeSymbol env.ld2 b.toNat
  | .v20RepLast => encodeSymbol env.ld2 256
  | .v20RepOld i slot extra =>
    encodeSymbol env.ld2 (257 + i.val) ++ encodeSymbol env.rd2 slot ++ bitsOf (lengthBits slot) extra
  | .v20Short n extra => encodeSymbol env.ld2 (261 + n.val) ++ bitsOf (shortBits n.val) extra
  | .v20Reload => encodeSymbol env.ld2 269
  | .v20Match slot extra dslot dextra =>
    encodeSymbol env.ld2 (270 + slot) ++ bitsOf (lengthBits slot) extra ++ encodeSymbol env.dd2 dslot ++
      bitsOf (distBits dslot) dextra
  | .v20AudSample delta => encodeSymbol env.md2 delta.toNat
  | .v20AudReload => encodeSymbol env.md2 256
  | .pl4eLen l => encodePreCode (.len l)
  | .pl4eEsc z => encodePreCode (.esc z)
  | .pl4Len l => bitsOf 4 l.toNat
  | .len5Lit n => encodeLenCode5 bd (.lit n)
  | .len5Rep3 n => encodeLenCode5 bd (.rep3 n)
  | .len5Rep7 n => encodeLenCode5 bd (.rep7 n)
  | .len5Zero3 n => encodeLenCode5 bd (.zero3 n)
  | .len5Zero7 n => encodeLenCode5 bd (.zero7 n)
  | .len2Lit n => encodeLenCode2 bd (.lit n)
  | .len2Rep2 n => encodeLenCode2 bd (.rep2 n)
  | .len2Zero3 n => encodeLenCode2 bd (.zero3 n)
  | .len2Zero7 n => encodeLenCode2 bd (.zero7 n)

/-- The characters of a PPM token (R102) under the escape byte `esc`; no other instruction has any. -/
def encodeChars (esc : Byte) : Instr → List Byte
  | .ppmLit c => [c]
  | .ppmEscReload => [esc, 0]
  | .ppmEscLit x => [esc, x]
  | .ppmEscEnd => [esc, 2]
  | .ppmEscVmCode v => esc :: 3 :: vmCodeBytes v
  | .ppmEscLz d2 d1 d0 l => [esc, 4, d2, d1, d0, l]
  | .ppmEscRle l => [esc, 5, l]
  | _ => []

/-! ### Reading one table word

spec/opcode_table.json gives no row a bit pattern (R111), so a table word carries the choice of a rule and
then the stream. Its first byte is the number of the rule; the stream is the bytes after it, read under
flat tables in which every code word is the symbol's own number (log 12). -/

/-- A table of `n` symbols with the code length `l` each: code word = symbol number, in `l` bits (R157). -/
def flatTable (n : Nat) (l : Len) : HuffTable :=
  match buildTable (List.replicate n l) with
  | .ok t => t
  | .error _ => emptyTable n

/-- The coder that table words are read under: every character is the next byte of the stream (log 12). -/
def plainCoder : Ppmd :=
  { init := fun st e _ => .done { ok := true, esc := e, state := st }
    char := fun st => .more fun b => .done { char := some b, state := st } }

/-- The tables and registers that table words are read under. -/
def flatEnv (audio : Bool) : Env :=
  { ld5 := flatTable 306 9, dd5 := flatTable 64 6, ldd5 := flatTable 16 4, rd5 := flatTable 44 6
    ld3 := flatTable 299 9, dd3 := flatTable 60 6, ldd3 := flatTable 17 5, rd3 := flatTable 28 5
    lowDistRep := 0
    ld2 := flatTable 298 9, dd2 := flatTable 48 6, rd2 := flatTable 28 5, md2 := flatTable 257 9
    audio := audio, ppmEsc := 2, ppmState := 0, ppmd := plainCoder }

/-- The rule a table word selects by its first byte. -/
inductive WordKind where
  | step (ctx : Ctx)
  | v15
  | pl4e | pl4 | len5 | len2
  deriving DecidableEq, Repr

/-- The rule numbers of table words. -/
def wordKind (tag : Nat) : Option WordKind :=
  match tag with
  | 0 => some (.step .v50First)
  | 1 => some (.step .v50Next)
  | 2 => some (.step .v50End)
  | 3 => some (.step .v50Token)
  | 4 => some (.step .v29Init)
  | 5 => some (.step .v29Tables)
  | 6 => some (.step .v29Lz)
  | 7 => some (.step .v29Ppm)
  | 8 => some (.step .v20Init)
  | 9 => some (.step .v20Tables)
  | 10 => some (.step .v20SizeDone)
  | 11 => some (.step .v20Lz)
  | 12 => some (.step .v20Audio)
  | 13 => some (.step .v20TailRead)
  | 14 => some (.step .v20TailStop)
  | 15 => some .v15
  | 16 => some .pl4e
  | 17 => some .pl4
  | 18 => some .len5
  | 19 => some .len2
  | _ => none

/-- The bytes of a table word, the least significant first. -/
def wordBytes (nbits w : Nat) : List Byte :=
  (List.range (nbits / 8)).map fun j => BitVec.ofNat 8 (w >>> (8 * j))

/-- The rule number of a table word. -/
def wordTag (nbits w : Nat) : Nat := ((wordBytes nbits w).headD 0).toNat

/-- The stream of a table word: its bytes after the first, then zeros. -/
def wordStream (nbits w : Nat) : Bits := inputBit (wordBytes nbits w).tail

/-- The bits that stand before a length code in the table description that holds it first: the header,
and for the coded lengths the pre-lengths of the flat pre-table. -/
def elementLead : WordKind → List Bool
  | .pl4e => [false, false]
  | .pl4 => [false, false]
  | .len5 => [false, false] ++ (List.replicate 20 (bitsOf 4 5)).flatten
  | .len2 => [false, false] ++ (List.replicate 19 (bitsOf 4 5)).flatten
  | _ => []

/-- The instruction of a `PL4E` element. -/
def preCodeInstr : PreCode → Instr
  | .len l => .pl4eLen l
  | .esc z => .pl4eEsc z

/-- The instruction of a `LENCODE5` element. -/
def lenCode5Instr : LenCode5 → Instr
  | .lit n => .len5Lit n
  | .rep3 n => .len5Rep3 n
  | .rep7 n => .len5Rep7 n
  | .zero3 n => .len5Zero3 n
  | .zero7 n => .len5Zero7 n

/-- The instruction of a `LENCODE2` element. -/
def lenCode2Instr : LenCode2 → Instr
  | .lit n => .len2Lit n
  | .rep2 n => .len2Rep2 n
  | .zero3 n => .len2Zero3 n
  | .zero7 n => .len2Zero7 n

/-- Whether a word of this kind is read in the v20 audio sub-mode. -/
def audioKind : WordKind → Bool
  | .step .v20Audio => true
  | _ => false

/-- The instruction the decoder reads from a table word (log 12). -/
def decodeTableWord (nbits w : Nat) : Option Instr :=
  match wordKind (wordTag nbits w) with
  | none => none
  | some (.step ctx) => (decodeIn ctx (flatEnv (audioKind (.step ctx))) (wordStream nbits w) 0).res.toOption
  | some .v15 => some .v15Stream
  | some .pl4e => some (preCodeInstr (decodePreCode (wordStream nbits w) 0).1)
  | some .pl4 => some (.pl4Len (BitVec.ofNat 4 (peekBits (wordStream nbits w) 0 4)))
  | some .len5 => some (lenCode5Instr (decodeLenCode5 (flatTable 20 5) (wordStream nbits w) 0).1)
  | some .len2 => some (lenCode2Instr (decodeLenCode2 (flatTable 19 5) (wordStream nbits w) 0).1)

end Sys2Proof
end

