-- ==== Sys2Proof/Machine/Host.lean ====
section
/-! DEFINITION. The steps of the host: member start with its refusals and the non-solid reset
(70_reset_and_hazards.md), input delivery, end of input and cancel (20_memory.md). -/

namespace Sys2Proof.Machine

/-- R441 `NonSolidReset()`: the window takes a fresh draw of WINDOW_INIT, so no byte of it is listed. -/
def nonSolidReset (s : State) : State :=
  { s with
    win := []
    winDraw := s.draws
    draws := s.draws + 1
    wrAbs := 0
    flAbs := 0
    memberBase := 0
    oldDist := { d0 := 0, d1 := 0, d2 := 0, d3 := 0 }
    lastLen := 0
    v50 := V50Regs.reset
    v29 := V29Regs.reset
    v20 := V20Regs.reset }

/-- `cont` of R440: a first member is never a continuation (D37). -/
def isContinuation (solid : Bool) (s : State) : Bool := solid && s.cfgGen.isSome

/-- The checks of R444 after the generation's, in their order: the configuration is refused. -/
def configRefused (gen : Gen) (windowLog2 : Nat) (cont : Bool) (s : State) : Bool :=
  decide (windowLog2 < 16) || decide (windowLog2 > 32)
    || (cont && s.cfgGen != some gen) || (cont && s.cfgWindowLog2 != some windowLog2)

/-- The effect of an accepted member start (R440). -/
def acceptMember (gen : Gen) (cont : Bool) (declaredSize : BitVec 64) (windowLog2 : Nat) (s : State) : State :=
  let c : State := { s with
    cfgGen := some gen
    cfgSolid := cont
    cfgDeclaredSize := declaredSize
    cfgWindowLog2 := some windowLog2 }
  let t := if cont then c else nonSolidReset c
  { t with
    memberBase := t.wrAbs
    flAbs := t.wrAbs
    posByte := 0
    posBit := 0
    input := []
    inEnded := false
    out := []
    filt := []
    phase := .init
    errCode := none
    errFlushLeft := 0
    status := .running }

/-- Host step `MemberStart` (R440, R444) where it is enabled. -/
def memberStart (gen : Gen) (solid : Bool) (declaredSize : BitVec 64) (windowLog2 : Nat) (s : State) :
    Host.Outcome State Fault Refusal :=
  let cont := isContinuation solid s
  if gen = .v15 then execV15Stream s
  else if configRefused gen windowLog2 cont s then .next (raiseRefused .e11 s)
  else .next (acceptMember gen cont declaredSize windowLog2 s)

/-- Host step `Deliver(b)` (R61); nothing where it is not enabled. -/
def deliver (b : Byte) (s : State) : State :=
  if memberActive s && !s.inEnded then { s with input := s.input ++ [b] } else s

/-- Host step `EndInput()` (R62); nothing where it is not enabled. -/
def endInput (s : State) : State :=
  if memberActive s && !s.inEnded then { s with inEnded := true } else s

/-- Host step `Cancel()` (R76); nothing where it is not enabled. -/
def cancel (s : State) : State :=
  if memberActive s then { s with status := .cancelled } else s

end Sys2Proof.Machine
end

