-- ==== Sys2Proof/Machine/Fetch.lean ====
section
/-! DEFINITION. Fetching: the rule the state selects (R214), the decoding at the position, what the step
adds to its instruction (the advance of the position and of the coder's state), and the placing of a table
word where the next step reads it. -/

namespace Sys2Proof.Machine

/-- The zero-extended input of the state (R130). -/
def inputBits (s : State) : Bits := inputBit s.input

/-- What decoding in this state depends on besides the bits (R109). A CUR_CHANNEL2 past the tables, which no run
reaches, gives the empty table (DESIGN CHOICE, log 23). -/
def envOf (s : State) : Env :=
  { ld5 := s.v50.ld, dd5 := s.v50.dd, ldd5 := s.v50.ldd, rd5 := s.v50.rd
    ld3 := s.v29.ld, dd3 := s.v29.dd, ldd3 := s.v29.ldd, rd3 := s.v29.rd
    lowDistRep := s.v29.lowDistRep.toNat
    ld2 := s.v20.ld, dd2 := s.v20.dd, rd2 := s.v20.rd
    md2 := s.v20.md.getD s.v20.curChannel (emptyTable 257)
    audio := s.v20.audio, ppmEsc := s.v29.ppmEsc, ppmState := s.ppmState, ppmd := Config.ppmd }

/-- The v20 tail's availability test (R350). -/
def tailCtx (s : State) : Ctx :=
  if inAvail s ≥ s.posByte.toNat + 5 then .v20TailRead
  else if s.inEnded then .v20TailStop
  else .v20TailWait

/-- R214, the dispatch table: the rule a decoder step runs, none where no row selects one. -/
def dispatch (s : State) : Option Ctx :=
  match s.cfgGen, s.phase with
  | some .v50, .init => some .v50First
  | some .v50, .token =>
    some (if pastEnd s then (if s.v50.blkLast then .v50End else .v50Next) else .v50Token)
  | some .v29, .init => some .v29Init
  | some .v29, .tables => some .v29Tables
  | some .v29, .token => some (if s.v29.blockType = .lz then .v29Lz else .v29Ppm)
  | some .v20, .init => some .v20Init
  | some .v20, .tables => some .v20Tables
  | some .v20, .token =>
    some (if sizeReached s then .v20SizeDone else if s.v20.audio then .v20Audio else .v20Lz)
  | some .v20, .tail => some (tailCtx s)
  | _, _ => none

/-- The decoding of rule `ctx` at the state's position. -/
def fetch (ctx : Ctx) (s : State) : Decoded := decodeIn ctx (envOf s) (inputBits s) (bitPos s)

/-- R24, R211: what a committed step adds to its instruction, the position after its fields and the coder's
state after its requests. A step that raised an error keeps both (R402). -/
def advance (d : Decoded) (t : State) : State :=
  if t.status = .error then t
  else { t with
    posByte := BitVec.ofNat 64 (d.pos / 8)
    posBit := BitVec.ofNat 3 (d.pos % 8)
    ppmState := d.ppm }

/-- `advance` on an outcome. -/
def advanceOutcome (d : Decoded) : Host.Outcome State Fault Refusal → Host.Outcome State Fault Refusal
  | .next t => .next (advance d t)
  | .fault f => .fault f
  | .refused r => .refused r

/-! ### Placing a table word (log 12) -/

/-- The generation whose member runs the rule. -/
def ctxGen : Ctx → Gen
  | .v50First | .v50Next | .v50End | .v50Token => .v50
  | .v29Init | .v29Tables | .v29Lz | .v29Ppm => .v29
  | .v20Init | .v20Tables | .v20SizeDone | .v20Lz | .v20Audio | .v20TailRead | .v20TailStop | .v20TailWait => .v20

/-- The phase in which the rule is due. -/
def ctxPhase : Ctx → Phase
  | .v50First | .v29Init | .v20Init => .init
  | .v29Tables | .v20Tables => .tables
  | .v50Next | .v50End | .v50Token | .v29Lz | .v29Ppm | .v20SizeDone | .v20Lz | .v20Audio => .token
  | .v20TailRead | .v20TailStop | .v20TailWait => .tail

/-- The rule whose step reads a table word of this kind: a length code is read by the table read that
holds it first. -/
def wordCtx : WordKind → Ctx
  | .step ctx => ctx
  | .v15 => .v50First
  | .pl4e | .len5 => .v29Tables
  | .pl4 | .len2 => .v20Tables

/-- A started member in which rule `ctx` is due, with the flat tables of `flatEnv` (log 12). -/
def placeMember (ctx : Ctx) (s : State) : State :=
  let m := acceptMember (ctxGen ctx) false (if ctx = .v20SizeDone then 0 else 1) 16 s
  let f := flatEnv false
  { m with
    phase := ctxPhase ctx
    v50.ld := f.ld5, v50.dd := f.dd5, v50.ldd := f.ldd5, v50.rd := f.rd5, v50.tablesRead := true
    v50.blkStart := 0
    v50.blkSize := if ctx = .v50Token then 0xFFFFFF else 0
    v50.blkLast := ctx = .v50End
    v29.ld := f.ld3, v29.dd := f.dd3, v29.ldd := f.ldd3, v29.rd := f.rd3, v29.tablesRead := true
    v29.blockType := if ctx = .v29Ppm then .ppm else .lz
    v20.ld := f.ld2, v20.dd := f.dd2, v20.rd := f.rd2, v20.md := List.replicate 4 f.md2
    v20.tablesRead := true
    v20.audio := ctx = .v20Audio }

/-- The input that holds a table word: the bits that lead to a length code, the word's stream, and zeros
as far as the step reads. -/
def placeInput (kind : WordKind) (nbits w : Nat) (s : State) : State :=
  let bytes := packBits (elementLead kind ++ bitsOfBytes (wordBytes nbits w).tail)
  let t : State := { s with input := bytes }
  let need := (fetch (wordCtx kind) t).need
  { t with input := bytes ++ List.replicate ((need + 7) / 8 - bytes.length) 0, inEnded := true }

/-- The state in which the next step runs the instruction of a table word; a word that selects no rule
leaves the state as it is. -/
def placeWord (nbits w : Nat) (s : State) : State :=
  match wordKind (wordTag nbits w) with
  | none => s
  | some .v15 =>
    { s with
      status := if startEnabled s then s.status else .done
      events := [.memberStart .v15 false 0 16] }
  | some kind => placeInput kind nbits w { placeMember (wordCtx kind) s with events := [.core] }

end Sys2Proof.Machine
end

