-- ==== Sys2Proof/Machine/Flush.lean ====
section
/-! DEFINITION. The flush engine (42_window.md R185 to R188): one byte per step. -/

namespace Sys2Proof.Machine

/-- The effect of an enabled flush step (R185): the byte at FL_ABS goes to the output port, or is discarded
at or past the declared size (R186). -/
def flushByte (s : State) : State :=
  let fl := s.flAbs + 1
  { s with
    out := if emitted s < s.cfgDeclaredSize.toNat then s.out ++ [memRead s s.flAbs] else s.out
    flAbs := fl
    errFlushLeft := if s.status = .error then s.errFlushLeft - 1 else s.errFlushLeft
    status := if s.status = .drain ∧ fl = s.wrAbs then .done else s.status }

/-- The flush engine's move: nothing where its step is not enabled. -/
def flushMove (s : State) : State := if flushEnabled s then flushByte s else s

end Sys2Proof.Machine
end

