-- ==== Sys2Proof/Machine/Step.lean ====
section
/-! DEFINITION. One step of the machine: the oldest event that the environment schedules, or, when none
waits, the first enabled move of the block itself. -/

namespace Sys2Proof.Machine

/-- The outcome of running what a decoding found: its instruction, or the error of a reading that formed
none (R402). -/
def run (d : Decoded) (s : State) : Host.Outcome State Fault Refusal :=
  match d.res with
  | .ok i => exec i s
  | .error e => .next (raiseError e s)

/-- R211: the decoding `d` commits or raises when all its bits are there, ends by exhaustion (R138) when
the input has ended, and holds (none) otherwise. -/
def settle (d : Decoded) (s : State) : Option (Host.Outcome State Fault Refusal) :=
  if d.need ≤ availBits s then some (advanceOutcome d (run d s))
  else if s.inEnded then some (.next (exhaust s))
  else none

/-- The decoder core's step (R210): none where it is not enabled (a status other than RUNNING, a closed
hazard gate R212, a hold R211). -/
def coreMove (s : State) : Option (Host.Outcome State Fault Refusal) :=
  if s.status ≠ .running then none
  else
    match dispatch s with
    | none => some (.fault .noDispatchRule)
    | some ctx => if gateOpen s then settle (fetch ctx s) s else none

/-- One scheduled move (log 1). A step that is not enabled changes nothing (log 2). -/
def eventMove (e : Event) (s : State) : Host.Outcome State Fault Refusal :=
  match e with
  | .memberStart gen solid size log2 =>
    if startEnabled s then memberStart gen solid size log2 s else .next s
  | .deliver b => .next (deliver b s)
  | .endInput => .next (endInput s)
  | .cancel => .next (cancel s)
  | .core => (coreMove s).getD (.next s)
  | .flush => .next (flushMove s)
  | .sinkReady r => .next { s with sinkReady := r }
  | .flushLimit l => .next { s with flushLimit := l }
  | .filterAccept a => .next { s with filterAccept := a }

/-- One step (R7, R77): the oldest scheduled move; with none scheduled, the decoder core's step where it is
enabled, else the flush engine's, else the machine waits (R418). -/
def step (s : State) : Host.Outcome State Fault Refusal :=
  match s.events with
  | e :: rest => eventMove e { s with events := rest }
  | [] => (coreMove s).getD (.next (flushMove s))

/-- The state in which the next step runs the instruction of a table word (log 12). -/
def State.withFetchWord (s : State) (nbits w : Nat) : State := placeWord nbits w s

end Sys2Proof.Machine
end

