-- ==== Sys2Proof/WellFormed.lean ====
section
/-! DEFINITION. Which instructions the encodings of 30_encoding.md admit: every operand inside the width or
the alphabet of its field, every optional field present exactly where its format has it. -/

namespace Sys2Proof

open Sys2Proof.Machine

/-- Counts that describe an array of `n` entries from entry `i` on (R159, R161): each starts inside the
array and together they reach its end. -/
def fillsFrom (n : Nat) : (i : Nat) → List Nat → Bool
  | i, [] => decide (n ≤ i)
  | i, c :: cs => decide (i < n) && fillsFrom n (i + c) cs

/-- A `PL4E` element (R92): the plain form holds no 15. -/
def PreCode.wf : PreCode → Bool
  | .len l => l != 15
  | .esc _ => true

/-- The length codes of a description of `n` lengths (R94, R159, R160): they fill it, or stop at an illegal
first repeat. -/
def lens5Wf (n : Nat) (cs : List LenCode5) : Bool :=
  match cs with
  | [] => false
  | c :: rest => if lenCode5Repeats c then rest.isEmpty else fillsFrom n 0 (cs.map lenCode5Count)

/-- The length codes of a v20 description of `n` lengths (R95, R159, R160). -/
def lens2Wf (n : Nat) (cs : List LenCode2) : Bool :=
  match cs with
  | [] => false
  | c :: rest => if lenCode2Repeats c then rest.isEmpty else fillsFrom n 0 (cs.map lenCode2Count)

/-- A table description of `n` lengths (R96, R97): pre-lengths that fill the pre-table, and length codes
unless the pre-table is oversubscribed (R162). -/
def TableDesc5.wf (n : Nat) (d : TableDesc5) : Bool :=
  d.pre.all PreCode.wf && fillsFrom 20 0 (d.pre.map preCodeCount) &&
    match buildTable (preLens d.pre) with
    | .error _ => d.lens.isEmpty
    | .ok _ => lens5Wf n d.lens

/-- A v50 block header (R96, R243, R244): after an illegal field nothing is held. -/
def BlockHeader.wf (h : BlockHeader) : Bool :=
  if headerByteCount h.flags = 4 then h.check == 0 && h.size == 0 && h.tables.isNone
  else decide (h.size.toNat < 2 ^ (8 * headerByteCount h.flags)) &&
    if h.check.toNat = check5 h.flags h.size.toNat && h.flags.getLsbD 7 then
      match h.tables with
      | some t => t.wf 430
      | none => false
    else h.tables.isNone

/-- A v29 table header (R97). -/
def V29Header.wf : V29Header → Bool
  | .ppm _ _ => true
  | .lz _ d => d.wf 404

/-- A v20 table header (R98). -/
def V20Header.wf (h : V20Header) : Bool :=
  h.pre.length == 19 &&
    match buildTable h.pre with
    | .error _ => h.lens.isEmpty
    | .ok _ => lens2Wf (v20LensCount h.audio) h.lens

/-- A v20 tail probe (R350): the ignored symbol is a main symbol and no LZ reload symbol. -/
def TailProbe.wf : TailProbe → Bool
  | .stop => true
  | .ignored s => decide (s < 298) && s != 269
  | .reload h => h.wf

/-- The fields of a v50 filter (R100, R257, R258). -/
def FilterFields.wf (f : FilterFields) : Bool :=
  decide (f.start.toNat < 2 ^ (8 * (f.startCount.toNat + 1))) &&
    decide (f.length.toNat < 2 ^ (8 * (f.lengthCount.toNat + 1))) &&
    f.channels.isSome == (f.type == 0)

/-- The fields of a VM-code token (R289, R300). -/
def VmCode.wf (v : VmCode) : Bool :=
  decide (v.ext < 2 ^ (8 * vmExtBytes v.first)) && v.code.length == vmLength v.first v.ext

/-- A v50 length operand (R255). -/
def length5Wf (slot extra : Nat) : Bool := decide (slot < 44) && decide (extra < 2 ^ lengthBits5 slot)

/-- A v50 distance operand (R256). -/
def DistField.wf5 (d : DistField) : Bool :=
  decide (d.slot < 64) &&
    if distBits5 d.slot ≥ 4 then
      decide (d.extra < 2 ^ (distBits5 d.slot - 4)) && d.low.any fun l => decide (l < 16)
    else decide (d.extra < 2 ^ distBits5 d.slot) && d.low.isNone

/-- A v29 or v20 length operand (R281). -/
def length3Wf (slot extra : Nat) : Bool := decide (slot < 28) && decide (extra < 2 ^ lengthBits slot)

/-- A v29 distance operand (R294): a low-distance symbol only where the slot splits its low bits. -/
def DistField.wf3 (d : DistField) : Bool :=
  decide (d.slot < 60) && decide (d.extra < 2 ^ rawDistBits3 d.slot) &&
    match d.low with
    | none => true
    | some l => splitsLow3 d.slot && decide (l < 17)

/-- A well-formed instruction: its fields are ones that the encoding of its row admits. -/
def Instr.wf : Instr → Bool
  | .v50FirstHeader h => h.wf
  | .v50NextBlock h => h.wf
  | .v50End => true
  | .v29Init => true
  | .v29Tables h => h.wf
  | .v20Init => true
  | .v20Tables h => h.wf
  | .v20SizeDone => true
  | .v20Tail p => p.wf
  | .v15Stream => true
  | .v50Lit _ => true
  | .v50Filter f => f.wf
  | .v50RepLast => true
  | .v50RepOld _ slot extra => length5Wf slot extra
  | .v50Match slot extra d => length5Wf slot extra && d.wf5
  | .v29Lit _ => true
  | .v29Eob _ => true
  | .v29VmCode v => v.wf
  | .v29RepLast => true
  | .v29RepOld _ slot extra => length3Wf slot extra
  | .v29Short n extra => decide (extra < 2 ^ shortBits n.val)
  | .v29Match slot extra d => length3Wf slot extra && d.wf3
  | .ppmLit _ => true
  | .ppmEscReload => true
  | .ppmEscLit x => x == 1 || decide (6 ≤ x.toNat)
  | .ppmEscEnd => true
  | .ppmEscVmCode v => v.wf
  | .ppmEscLz _ _ _ _ => true
  | .ppmEscRle _ => true
  | .v20Lit _ => true
  | .v20RepLast => true
  | .v20RepOld _ slot extra => length3Wf slot extra
  | .v20Short n extra => decide (extra < 2 ^ shortBits n.val)
  | .v20Reload => true
  | .v20Match slot extra dslot dextra =>
    length3Wf slot extra && decide (dslot < 48) && decide (dextra < 2 ^ distBits dslot)
  | .v20AudSample _ => true
  | .v20AudReload => true
  | .pl4eLen l => l != 15
  | .pl4eEsc _ => true
  | .pl4Len _ => true
  | .len5Lit _ => true
  | .len5Rep3 _ => true
  | .len5Rep7 _ => true
  | .len5Zero3 _ => true
  | .len5Zero7 _ => true
  | .len2Lit _ => true
  | .len2Rep2 _ => true
  | .len2Zero3 _ => true
  | .len2Zero7 _ => true

end Sys2Proof
end

