-- ==== Sys2Proof/Safety.lean ====
section
/-! DEFINITION. The terms in which claims are made: bits standing in a stream, tables and environments that a
decoder can meet, instructions a set of tables can encode, the window after a copy, and the invariant of
the machine. -/

namespace Sys2Proof.Machine

/-! ### Streams -/

/-- The bits `bs` stand in the stream from position `p` on. -/
def Holds (z : Bits) (p : Nat) (bs : List Bool) : Prop :=
  ∀ k (h : k < bs.length), z (p + k) = bs[k]

/-- Two streams agree below bit `n`. -/
def AgreeBelow (n : Nat) (z z' : Bits) : Prop := ∀ k < n, z k = z' k

/-! ### Encodable instructions -/

/-- The pre-table symbol of a `LENCODE5` element (R94). -/
def lenCode5Symbol : LenCode5 → Nat
  | .lit n => n.toNat
  | .rep3 _ => 16
  | .rep7 _ => 17
  | .zero3 _ => 18
  | .zero7 _ => 19

/-- The pre-table symbol of a `LENCODE2` element (R95). -/
def lenCode2Symbol : LenCode2 → Nat
  | .lit n => n.toNat
  | .rep2 _ => 16
  | .zero3 _ => 17
  | .zero7 _ => 18

/-- The pre-table of the description gives every length code it uses a code word. -/
def codableDesc5 (d : TableDesc5) : Bool :=
  match buildTable (preLens d.pre) with
  | .ok bd => d.lens.all fun c => bd.hasCode (lenCode5Symbol c)
  | .error _ => true

/-- The same of a v50 block header. -/
def codableBlock (h : BlockHeader) : Bool := h.tables.all codableDesc5

/-- The same of a v20 table header. -/
def codableHeader2 (h : V20Header) : Bool :=
  match buildTable h.pre with
  | .ok bd => h.lens.all fun c => bd.hasCode (lenCode2Symbol c)
  | .error _ => true

/-- The low-distance symbol of a distance field has a code in `t`. -/
def codableLow (t : HuffTable) (d : DistField) : Bool := d.low.all t.hasCode

/-- Every table is one that `BuildTable` can make for its alphabet (R38). -/
def envOk (env : Env) : Bool :=
  env.ld5.canonical 306 && env.dd5.canonical 64 && env.ldd5.canonical 16 && env.rd5.canonical 44
    && env.ld3.canonical 299 && env.dd3.canonical 60 && env.ldd3.canonical 17 && env.rd3.canonical 28
    && env.ld2.canonical 298 && env.dd2.canonical 48 && env.rd2.canonical 28 && env.md2.canonical 257

/-- Rule `ctx` can read the instruction from bits under the tables of `env`: it is one of the rule's
instructions and every symbol it uses has a code word. The steps whose bits are the coder's are none of
them. -/
def encodable (ctx : Ctx) (env : Env) (i : Instr) : Bool :=
  match ctx, i with
  | .v50First, .v50FirstHeader h => codableBlock h
  | .v50Next, .v50NextBlock h => codableBlock h
  | .v50End, .v50End => true
  | .v50Token, .v50Lit b => env.ld5.hasCode b.toNat
  | .v50Token, .v50Filter _ => env.ld5.hasCode 256
  | .v50Token, .v50RepLast => env.ld5.hasCode 257
  | .v50Token, .v50RepOld j slot _ => env.ld5.hasCode (258 + j.val) && env.rd5.hasCode slot
  | .v50Token, .v50Match slot _ d =>
    env.ld5.hasCode (262 + slot) && env.dd5.hasCode d.slot && codableLow env.ldd5 d
  | .v29Init, .v29Init => true
  | .v29Tables, .v29Tables (.lz _ d) => codableDesc5 d
  | .v29Lz, .v29Lit b => env.ld3.hasCode b.toNat
  | .v29Lz, .v29Eob _ => env.ld3.hasCode 256
  | .v29Lz, .v29VmCode _ => env.ld3.hasCode 257
  | .v29Lz, .v29RepLast => env.ld3.hasCode 258
  | .v29Lz, .v29RepOld j slot _ => env.ld3.hasCode (259 + j.val) && env.rd3.hasCode slot
  | .v29Lz, .v29Short n _ => env.ld3.hasCode (263 + n.val)
  | .v29Lz, .v29Match slot _ d =>
    env.ld3.hasCode (271 + slot) && env.dd3.hasCode d.slot && codableLow env.ldd3 d
      && d.low.isSome == (splitsLow3 d.slot && env.lowDistRep == 0)
  | .v20Init, .v20Init => true
  | .v20Tables, .v20Tables h => codableHeader2 h
  | .v20SizeDone, .v20SizeDone => true
  | .v20Lz, .v20Lit b => env.ld2.hasCode b.toNat
  | .v20Lz, .v20RepLast => env.ld2.hasCode 256
  | .v20Lz, .v20RepOld j slot _ => env.ld2.hasCode (257 + j.val) && env.rd2.hasCode slot
  | .v20Lz, .v20Short n _ => env.ld2.hasCode (261 + n.val)
  | .v20Lz, .v20Reload => env.ld2.hasCode 269
  | .v20Lz, .v20Match slot _ dslot _ => env.ld2.hasCode (270 + slot) && env.dd2.hasCode dslot
  | .v20Audio, .v20AudSample delta => env.md2.hasCode delta.toNat
  | .v20Audio, .v20AudReload => env.md2.hasCode 256
  | .v20TailStop, .v20Tail .stop => true
  | .v20TailRead, .v20Tail (.ignored s) =>
    if env.audio then s != 256 && env.md2.hasCode s else env.ld2.hasCode s
  | .v20TailRead, .v20Tail (.reload h) =>
    (if env.audio then env.md2.hasCode 256 else env.ld2.hasCode 269) && codableHeader2 h
  | _, _ => false

/-- The rules that begin with `ALIGN` (R67): their instruction stands at a byte boundary. -/
def alignedCtx : Ctx → Bool
  | .v50First | .v50Next | .v29Tables => true
  | _ => false

/-- A token of the PPM opcode map under the escape byte `esc` (R102). -/
def isPpmToken (esc : Byte) : Instr → Bool
  | .ppmLit c => c != esc
  | .ppmEscReload | .ppmEscLit _ | .ppmEscEnd | .ppmEscVmCode _ | .ppmEscLz _ _ _ _ | .ppmEscRle _ => true
  | _ => false

/-- The answer of a coder's reader that takes exactly these bytes, none if it stops before their end or asks
past it. -/
def feed {α : Type} : PpmReader α → List Byte → Option α
  | .done a, [] => some a
  | .more next, b :: bs => feed (next b) bs
  | _, _ => none

/-! ### The window -/

/-- WINDOW_SIZE is one of the sizes R27 admits. -/
def legalWindow (s : State) : Prop := ∃ k, s.cfgWindowLog2 = some k ∧ 16 ≤ k ∧ k ≤ 32

/-- The byte of a copy of distance `dist` at offset `i` (R181, R183): the source range is repeated, and a
distance that is 0 modulo WINDOW_SIZE leaves the byte as it was. -/
def copySource (s : State) (dist i : Nat) : Byte :=
  let d := dist % windowSize s
  if d = 0 then memRead s (s.wrAbs + BitVec.ofNat 64 i)
  else memRead s (s.wrAbs - BitVec.ofNat 64 d + BitVec.ofNat 64 (i % d))

/-- The window after a token appended the bytes `byte 0 .. byte (len-1)` at the write cursor: they stand
there, and every other position reads as before. -/
def Appended (len : Nat) (byte : Nat → Byte) (s t : State) : Prop :=
  (∀ i < len, memRead t (s.wrAbs + BitVec.ofNat 64 i) = byte i) ∧
  (∀ a, (∀ i < len, windowIndex s a ≠ windowIndex s (s.wrAbs + BitVec.ofNat 64 i)) →
    memRead t a = memRead s a)

/-- The state after `len` bytes were appended to the window of `s`, in the terms of `t`: only the window's
contents and the write cursor are not those of `s`. -/
def wrote (len : Nat) (s t : State) : State :=
  { s with win := t.win, wrAbs := s.wrAbs + BitVec.ofNat 64 len }

/-- `t` is the state after `CopyMatch(len, dist)` (R181) in the state `u`. -/
def CopyToken (len dist : Nat) (u t : State) : Prop :=
  t = wrote len u t ∧ Appended len (copySource u dist) u t

/-! ### Length descriptions as the spec reads them -/

/-- A length array of `n` zeros but for the listed symbols. -/
def lensWith (n : Nat) (pairs : List (Nat × Len)) : List Len :=
  pairs.foldl (fun t c => t.set c.1 c.2) (List.replicate n 0)

/-- The table `BuildTable` makes of a length array, the empty one where it makes none. -/
def tableOf (lens : List Len) : HuffTable :=
  match buildTable lens with
  | .ok t => t
  | .error _ => emptyTable lens.length

/-- The 20 pre-lengths of a `PL4E` description (R92): a run past index 19 is cut. -/
def preLengths (cs : List PreCode) : List Len :=
  (cs.flatMap fun c => match c with
    | .len l => [l]
    | .esc z => if z = 0 then [15] else List.replicate (z.toNat + 2) 0).take 20

/-- `r` copies of the last length read, E2 where there is none (R159, R160), cut at `n` (R161). -/
def repeatTo (n r : Nat) (t : List Len) : Except ErrCode (List Len) :=
  match t.getLast? with
  | none => .error .e2
  | some l => .ok ((t ++ List.replicate r l).take n)

/-- `ReadLengths` in `LENCODE5` form (R94, R159): the lengths after `t` has been read. -/
def lengths5 (n : Nat) (old : List Len) : (t : List Len) → List LenCode5 → Except ErrCode (List Len)
  | t, [] => .ok t
  | t, .lit x :: cs => lengths5 n old ((t ++ [x + old.getD t.length 0]).take n) cs
  | t, .rep3 r :: cs => (repeatTo n (r.toNat + 3) t).bind fun u => lengths5 n old u cs
  | t, .rep7 r :: cs => (repeatTo n (r.toNat + 11) t).bind fun u => lengths5 n old u cs
  | t, .zero3 r :: cs => lengths5 n old ((t ++ List.replicate (r.toNat + 3) 0).take n) cs
  | t, .zero7 r :: cs => lengths5 n old ((t ++ List.replicate (r.toNat + 11) 0).take n) cs

/-- `ReadLengths` in `LENCODE2` form (R95, R159). -/
def lengths2 (n : Nat) (old : List Len) : (t : List Len) → List LenCode2 → Except ErrCode (List Len)
  | t, [] => .ok t
  | t, .lit x :: cs => lengths2 n old ((t ++ [x + old.getD t.length 0]).take n) cs
  | t, .rep2 r :: cs => (repeatTo n (r.toNat + 3) t).bind fun u => lengths2 n old u cs
  | t, .zero3 r :: cs => lengths2 n old ((t ++ List.replicate (r.toNat + 3) 0).take n) cs
  | t, .zero7 r :: cs => lengths2 n old ((t ++ List.replicate (r.toNat + 11) 0).take n) cs

/-- What an error writes, and nothing else (R402). -/
def errorState (e : ErrCode) (s : State) : State :=
  { s with
    status := .error, errCode := some e
    errFlushLeft := BitVec.ofNat 64 (errorDraw s), draws := s.draws + 1 }

/-! ### The invariant -/

/-- The window holds its canonical form, and no position outside 0..WINDOW_SIZE-1. -/
def windowOk (s : State) : Prop := Memory.wf s.win = true ∧ ∀ c ∈ s.win, c.1 < windowSize s

/-- R189, with the member's base below the flush cursor. -/
def cursorsOk (s : State) : Prop :=
  s.memberBase.toNat ≤ s.flAbs.toNat ∧ s.flAbs.toNat ≤ s.wrAbs.toNat ∧
    s.wrAbs.toNat ≤ s.flAbs.toNat + windowSize s

/-- The configuration is one a member start accepted, or none (R21, R27, R444). -/
def configOk (s : State) : Prop :=
  match s.cfgGen, s.cfgWindowLog2 with
  | none, none => True
  | some g, some k => g ≠ .v15 ∧ 16 ≤ k ∧ k ≤ 32
  | _, _ => False

/-- A running member is in a phase of its generation (R36, R214). -/
def phaseOk (s : State) : Prop :=
  s.status = .running →
    match s.cfgGen with
    | some .v50 => s.phase = .init ∨ s.phase = .token
    | some .v29 => s.phase = .init ∨ s.phase = .tables ∨ s.phase = .token
    | some .v20 => True
    | _ => False

/-- R213: `LAST_LEN` is at most what one token of the generation writes. -/
def lastLenOk (s : State) : Prop :=
  match s.cfgGen with
  | none => s.lastLen = 0
  | some g => s.lastLen.toNat ≤ maxOut g

/-- Every table is one `BuildTable` can make for its alphabet (R38). -/
def tablesOk (s : State) : Prop :=
  (s.v50.ld.canonical 306 ∧ s.v50.dd.canonical 64 ∧ s.v50.ldd.canonical 16 ∧ s.v50.rd.canonical 44
    ∧ s.v50.bd.canonical 20) ∧
  (s.v29.ld.canonical 299 ∧ s.v29.dd.canonical 60 ∧ s.v29.ldd.canonical 17 ∧ s.v29.rd.canonical 28
    ∧ s.v29.bd.canonical 20) ∧
  (s.v20.ld.canonical 298 ∧ s.v20.dd.canonical 48 ∧ s.v20.rd.canonical 28 ∧ s.v20.bd.canonical 19
    ∧ s.v20.md.length = 4 ∧ ∀ t ∈ s.v20.md, t.canonical 257)

/-- The register arrays have their lengths, and the block's bit size its range (R40, R42, R45). -/
def arraysOk (s : State) : Prop :=
  s.v29.oldLens.length = 404 ∧ s.v20.oldLens.length = 1028 ∧ s.v50.blkBitSize.toNat ≤ 8

/-- A predictor record: its arrays have their lengths, `K[c]` stays in -17..16 (R347), LAST_DELTA holds an
s8 value and LAST_CHAR a value in -255..255 (R46, R346). -/
def recordOk (v : AudRec) : Prop :=
  v.k.length = 5 ∧ v.d.length = 4 ∧ v.dif.length = 11 ∧
    (∀ x ∈ v.k, -17 ≤ x.toInt ∧ x.toInt ≤ 16) ∧
    (-128 ≤ v.lastDelta.toInt ∧ v.lastDelta.toInt ≤ 127) ∧
    (-255 ≤ v.lastChar.toInt ∧ v.lastChar.toInt ≤ 255)

/-- The v20 audio registers (R44, R46). -/
def audioOk (s : State) : Prop :=
  1 ≤ s.v20.channels ∧ s.v20.channels ≤ 4 ∧ s.v20.curChannel < s.v20.channels ∧
    (-128 ≤ s.v20.channelDelta.toInt ∧ s.v20.channelDelta.toInt ≤ 127) ∧
    s.v20.aud.length = 4 ∧ ∀ v ∈ s.v20.aud, recordOk v

/-- ERR_CODE belongs to STATUS (R35, R400, R404, R412): a code exactly in ERROR and REFUSED, E9 never. -/
def codeOk (s : State) : Prop :=
  match s.status with
  | .error => s.errCode ∈ [some .e1, some .e2, some .e3, some .e4, some .e5, some .e6, some .e7, some .e8]
  | .refused => s.errCode = some .e10 ∨ s.errCode = some .e11
  | _ => s.errCode = none

/-- No status but IDLE and REFUSED without an accepted member (R34, R443), something is pending in DRAIN
(R221), and the bytes an aborted member may still move are pending (R52). -/
def statusOk (s : State) : Prop :=
  (s.cfgGen = none → s.status = .idle ∨ s.status = .refused) ∧
  (s.status = .drain → s.flAbs.toNat < s.wrAbs.toNat) ∧
  (s.status = .error → s.errFlushLeft.toNat ≤ pending s)

/-- R186: OUT holds the first min(EMITTED, CFG_DECLARED_SIZE) bytes of the member, and no more. -/
def outputOk (s : State) : Prop := s.out.length = min (emitted s) s.cfgDeclaredSize.toNat

/-- The position is not past the delivered input (R63, R211). -/
def positionOk (s : State) : Prop := bitPos s ≤ availBits s

/-- The invariant of the machine. -/
structure Inv (s : State) : Prop where
  window   : windowOk s
  cursors  : cursorsOk s
  config   : configOk s
  phase    : phaseOk s
  lastLen  : lastLenOk s
  tables   : tablesOk s
  arrays   : arraysOk s
  audio    : audioOk s
  code     : codeOk s
  status   : statusOk s
  output   : outputOk s
  position : positionOk s
  desc     : s.desc = Desc.closed

end Sys2Proof.Machine
end

