-- ==== Sys2Proof/Certificates/Slice0/Obligations.lean ====
section
/-! DEFINITION. The statements for the provers, one proposition each; OBLIGATIONS.json says which rule of
spec/ each rests on. -/

open Sys2Proof Sys2Proof.Machine

/-! ### Decoding and encoding -/

/-- The code words of the programs P1, P2, P3 and P5 of the spec's test vectors, written out bit by bit, decode to the
instructions they stand for. -/
def Obligations.KnownWordsDecode : Prop :=
  let e5 : Env := { flatEnv false with
    ld5 := tableOf (lensWith 306 [(97, 2), (98, 2), (99, 3), (257, 3), (258, 3), (267, 3)])
    dd5 := tableOf (lensWith 64 [(0, 1), (2, 1)])
    rd5 := tableOf (lensWith 44 [(0, 1), (2, 1)]) }
  let e3 : Env := { flatEnv false with
    ld3 := tableOf (lensWith 299 [(97, 2), (98, 3), (99, 3), (100, 3), (256, 3), (259, 3), (263, 3)]) }
  let e2 : Env := { flatEnv false with
    ld2 := tableOf (lensWith 298 [(120, 2), (121, 2), (122, 3), (256, 3), (261, 3), (273, 3)])
    dd2 := tableOf (lensWith 48 [(0, 1), (2, 1)])
    md2 := tableOf (lensWith 257 [(0, 2), (8, 2), (16, 2), (248, 2)]) }
  (decodeIn .v50Token e5 (inputBit [0b00000000]) 0).res.toOption = some (.v50Lit 0x61) ∧
  (decodeIn .v50Token e5 (inputBit [0b11110000]) 0).res.toOption =
    some (.v50Match 5 0 { slot := 2, extra := 0, low := none }) ∧
  (decodeIn .v50Token e5 (inputBit [0b11010000]) 0).res.toOption = some (.v50RepOld 0 2 0) ∧
  (decodeIn .v50Token e5 (inputBit [0b10100000]) 0).res.toOption = some .v50RepLast ∧
  (decodeIn .v29Lz e3 (inputBit [0b01000000]) 0).res.toOption = some (.v29Lit 0x62) ∧
  (decodeIn .v29Lz e3 (inputBit [0b11111000]) 0).res.toOption = some (.v29Short 0 3) ∧
  (decodeIn .v29Lz e3 (inputBit [0b10100000]) 0).res.toOption = some (.v29Eob (.endMember false)) ∧
  (decodeIn .v20Lz e2 (inputBit [0b11110000]) 0).res.toOption = some (.v20Match 3 0 2 0) ∧
  (decodeIn .v20Lz e2 (inputBit [0b11000000]) 0).res.toOption = some (.v20Short 0 0) ∧
  (decodeIn .v20Audio e2 (inputBit [0b10000000]) 0).res.toOption = some (.v20AudSample 0x10)

/-- Decode and encode agree on the v50 steps: whatever bits follow, the bits of a well-formed token are read back
as the token, with nothing of them left and nothing after them read. The code words are those of R157, an inference the
spec marks as its own. -/
def Obligations.V50TokenRoundTrip : Prop :=
  ∀ (env : Env) (bd : HuffTable) (z : Bits) (p : Nat) (i : Instr),
    envOk env = true → i.wf = true → encodable .v50Token env i = true → Holds z p (encode env bd i) →
    decodeIn .v50Token env z p = Decoded.instr env i (p + (encode env bd i).length)

/-- Decode and encode agree on the v29 tokens of the LZ block type (code words of R157, the spec's own inference). -/
def Obligations.V29TokenRoundTrip : Prop :=
  ∀ (env : Env) (bd : HuffTable) (z : Bits) (p : Nat) (i : Instr),
    envOk env = true → i.wf = true → encodable .v29Lz env i = true → Holds z p (encode env bd i) →
    decodeIn .v29Lz env z p = Decoded.instr env i (p + (encode env bd i).length)

/-- Decode and encode agree on the v20 tokens of both sub-modes (code words of R157, the spec's own inference). -/
def Obligations.V20TokenRoundTrip : Prop :=
  ∀ (ctx : Ctx) (env : Env) (bd : HuffTable) (z : Bits) (p : Nat) (i : Instr),
    ctx = .v20Lz ∨ ctx = .v20Audio →
    envOk env = true → i.wf = true → encodable ctx env i = true → Holds z p (encode env bd i) →
    decodeIn ctx env z p = Decoded.instr env i (p + (encode env bd i).length)

/-- Decode and encode agree on every structural step that reads bits or none: block headers and table descriptions
with all their length codes, the v20 tail, and the steps without bits. -/
def Obligations.HeaderRoundTrip : Prop :=
  ∀ (ctx : Ctx) (env : Env) (bd : HuffTable) (z : Bits) (p : Nat) (i : Instr),
    ctx ∉ [Ctx.v50Token, .v29Lz, .v29Ppm, .v20Lz, .v20Audio] →
    (alignedCtx ctx = true → p % 8 = 0) →
    envOk env = true → i.wf = true → encodable ctx env i = true → Holds z p (encode env bd i) →
    decodeIn ctx env z p = Decoded.instr env i (p + (encode env bd i).length)

/-- Decode and encode agree on the elements of a length description. -/
def Obligations.LengthCodeRoundTrip : Prop :=
  (∀ (env : Env) (bd : HuffTable) (z : Bits) (p : Nat) (c : PreCode),
    (preCodeInstr c).wf = true → Holds z p (encode env bd (preCodeInstr c)) →
    decodePreCode z p = (c, p + (encode env bd (preCodeInstr c)).length)) ∧
  (∀ (env : Env) (bd : HuffTable) (z : Bits) (p : Nat) (l : Len),
    Holds z p (encode env bd (.pl4Len l)) → decodePlainLens z 1 p = ([l], p + 4)) ∧
  (∀ (env : Env) (bd : HuffTable) (z : Bits) (p : Nat) (c : LenCode5),
    bd.canonical 20 = true → bd.hasCode (lenCode5Symbol c) = true →
    Holds z p (encode env bd (lenCode5Instr c)) →
    decodeLenCode5 bd z p = (c, p + (encode env bd (lenCode5Instr c)).length)) ∧
  (∀ (env : Env) (bd : HuffTable) (z : Bits) (p : Nat) (c : LenCode2),
    bd.canonical 19 = true → bd.hasCode (lenCode2Symbol c) = true →
    Holds z p (encode env bd (lenCode2Instr c)) →
    decodeLenCode2 bd z p = (c, p + (encode env bd (lenCode2Instr c)).length))

/-- Decode and encode agree on the PPM tokens: a coder that answers the characters of a token makes the decoder form
that token, ask for no further character, and stand where the coder's last answer ended. -/
def Obligations.PpmTokenRoundTrip : Prop :=
  ∀ (env : Env) (z : Bits) (p q st : Nat) (i : Instr),
    i.wf = true → isPpmToken env.ppmEsc i = true →
    readChars env.ppmd z (encodeChars env.ppmEsc i).length p env.ppmState = (some (encodeChars env.ppmEsc i), q, st) →
    decodeIn .v29Ppm env z p = { res := .ok i, pos := q, need := q, ppm := st }

/-- R158: (a) the symbol and the count a decoding takes depend only on the bits it takes; (b) for every length
array that `BuildTable` accepts, the code word of R157 of an assigned symbol is decoded to the symbol and its
code length, whatever bits follow. R158 and R157 are inferences the spec marks as its own, from R151 and R155. -/
def Obligations.HuffmanRoundTrip : Prop :=
  ∀ (lens : List Len) (t : HuffTable), lens.length ≤ 0x10000 → buildTable lens = .ok t →
    (∀ (z z' : Bits) (p p' : Nat),
      (∀ k, p + k < (huffDecode t z p).2 → z (p + k) = z' (p' + k)) →
      (huffDecode t z' p').1 = (huffDecode t z p).1 ∧
        (huffDecode t z' p').2 - p' = (huffDecode t z p).2 - p) ∧
    (∀ (z : Bits) (p s : Nat) (h : s < lens.length), lens[s] ≠ 0 →
      Holds z p (bitsOf lens[s].toNat
        ((t.bound (lens[s].toNat - 1) >>> (16 - lens[s].toNat)) + (lens.take s).countP (· == lens[s]))) →
      huffDecode t z p = (s, p + lens[s].toNat))

/-- R152: `BuildTable` raises E1 exactly when the codes need more than the code space. -/
def Obligations.OversubscriptionRejected : Prop :=
  ∀ lens : List Len,
    buildTable lens = .error .e1 ↔ 2 ^ 15 < (lens.map fun l => if l = 0 then 0 else 2 ^ (15 - l.toNat)).sum

/-- R156: on a table `BuildTable` makes, the index is out of range exactly when the lookahead reaches `DecodeLen[15]`, and
then 15 bits are consumed and symbol 0 is returned. R156 is an inference the spec marks as its own, from R151 and R155. -/
def Obligations.UnassignedCodeFallback : Prop :=
  ∀ (lens : List Len) (t : HuffTable) (z : Bits) (p : Nat), lens.length ≤ 0x10000 → buildTable lens = .ok t →
    (t.nAssigned ≤ codeIndex t (peekBits z p 16) (codeLength t (peekBits z p 16)) ↔
      t.bound 15 ≤ peekBits z p 16) ∧
    (t.bound 15 ≤ peekBits z p 16 → huffDecode t z p = (0, p + 15))

/-- R136, an inference the spec marks as its own, for every step: the decoding depends on no bit at or past its
`NEED`. For the steps that ask the coder it rests on the coder's exact consumption (R450, log 21). -/
def Obligations.PeekLocality : Prop :=
  ∀ (ctx : Ctx) (env : Env) (z z' : Bits) (p : Nat),
    envOk env = true → AgreeBelow (decodeIn ctx env z p).need z z' →
    decodeIn ctx env z' p = decodeIn ctx env z p

/-- R107 (its claim that every symbol has a rule is an inference the spec marks as its own): under tables that `BuildTable`
can make, no decoding ends in the reserved E9, and only the coder makes one end in an error at all; what is decoded otherwise
is well-formed. -/
def Obligations.EverySymbolHasARule : Prop :=
  ∀ (ctx : Ctx) (env : Env) (z : Bits) (p : Nat), envOk env = true →
    match (decodeIn ctx env z p).res with
    | .ok i => i.wf = true
    | .error e => ctx = .v29Ppm ∧ e = .e6

/-! ### The step -/

/-- A step runs the decoded instruction: in a running member whose gate is open and whose input holds the bits of the
selected rule, the step is the instruction's meaning, after which the position stands behind its fields and the
coder's state is the one its requests left. So it is when the oldest event makes the decoder core move, and when no event
waits; and whatever else the core's move is then, the step is that move. That the core moves first when no event waits is
the model's choice (log 1). -/
def Obligations.StepRunsDecodedInstruction : Prop :=
  ∀ s u : State, (s.events = [] ∧ u = s) ∨ (∃ rest, s.events = .core :: rest ∧ u = { s with events := rest }) →
    (∀ (ctx : Ctx) (i : Instr),
      s.status = .running → dispatch s = some ctx → gateOpen s = true →
      (fetch ctx s).res = .ok i → i.wf = true → (fetch ctx s).need ≤ availBits s →
      step s = advanceOutcome (fetch ctx s) (exec i u) ∧
      ∀ t, exec i u = .next t → t.status ≠ .error →
        step s = .next { t with
          posByte := BitVec.ofNat 64 ((fetch ctx s).pos / 8)
          posBit := BitVec.ofNat 3 ((fetch ctx s).pos % 8)
          ppmState := (fetch ctx s).ppm }) ∧
    (∀ o, coreMove u = some o → step s = o)

/-- R138 with the hold of R211 and the effect of R403: a step whose `NEED` is past the delivered input holds while more can
come (the decoder core has no step); once the input has ended it ends the member when the declared size has been produced,
and raises E7 otherwise, whatever its instruction. How the draw ERROR_FLUSH_COUNT of that error is made is the model's choice
(log 5). -/
def Obligations.HoldAndExhaustion : Prop :=
  ∀ (s : State) (ctx : Ctx),
    s.status = .running → dispatch s = some ctx → gateOpen s = true → availBits s < (fetch ctx s).need →
    (s.inEnded = false → coreMove s = none) ∧
    (s.inEnded = true → s.cfgDeclaredSize.toNat ≤ produced s →
      coreMove s = some (.next { s with status := if s.wrAbs.toNat - s.flAbs.toNat = 0 then .done else .drain })) ∧
    (s.inEnded = true → produced s < s.cfgDeclaredSize.toNat →
      coreMove s = some (.next (errorState .e7 s)))

/-- R137, an inference the spec marks as its own, for every step: what a step of a member commits does not change when
more input has been delivered before it. For the steps that ask the coder it rests on the coder's exact consumption
(R450, log 21). -/
def Obligations.ChunkingIndependence : Prop :=
  ∀ (s t : State) (more : List Byte),
    envOk (envOf s) = true → s.inEnded = false → coreMove s = some (.next t) →
    coreMove { s with input := s.input ++ more } = some (.next { t with input := t.input ++ more })

/-- R210 and R212: no decoder step is taken in a status other than RUNNING, and none while the free part of the window is
smaller than what one step of the generation can write; then, with nothing scheduled, the flush engine moves (log 1), and a
scheduled move of the core is dropped (log 2). -/
def Obligations.GateAndStatusStopTheDecoder : Prop :=
  ∀ s : State,
    (s.status ≠ .running → coreMove s = none) ∧
    (∀ g, s.cfgGen = some g → s.flAbs.toNat ≤ s.wrAbs.toNat → pending s ≤ windowSize s →
      (gateOpen s = true ↔ maxOut g ≤ windowSize s - pending s)) ∧
    (gateOpen s = false → s.status = .running → dispatch s ≠ none → coreMove s = none) ∧
    (s.events = [] → coreMove s = none → step s = .next (flushMove s)) ∧
    (∀ rest, s.events = .core :: rest → coreMove { s with events := rest } = none →
      step s = .next { s with events := rest })

/-- R402: an instruction that ends in ERROR wrote the status, the code and the draw, and nothing else; so does the decoder
step that ran it, and the position stays that of the failing token. How the draw ERROR_FLUSH_COUNT is made is the model's
choice (log 5). -/
def Obligations.ErrorsArePrecise : Prop :=
  (∀ (i : Instr) (s t : State), exec i s = .next t → t.status = .error → s.status ≠ .error →
    ∃ e, t = errorState e s) ∧
  (∀ (s t : State), coreMove s = some (.next t) → t.status = .error →
    ∃ e, t = errorState e s ∧ errorDraw s ≤ pending s)

/-- R214: the rule that is due, row by row of the dispatch table, and R247: the block-end test that two of its rows
name. The last row of v20, R350, is split into three rules by what its availability test finds, which is the model's
reading of one pseudocode (log 20). -/
def Obligations.DispatchTable : Prop :=
  ∀ s : State,
    (pastEnd s = true ↔ s.v50.blkStart.toNat + s.v50.blkSize.toNat ≤ s.posByte.toNat ∨
      (s.posByte.toNat + 1 = s.v50.blkStart.toNat + s.v50.blkSize.toNat ∧
        s.v50.blkBitSize.toNat ≤ s.posBit.toNat)) ∧
    (s.cfgGen = some .v50 → s.phase = .init → dispatch s = some .v50First) ∧
    (s.cfgGen = some .v50 → s.phase = .token → pastEnd s = true → s.v50.blkLast = true → dispatch s = some .v50End) ∧
    (s.cfgGen = some .v50 → s.phase = .token → pastEnd s = true → s.v50.blkLast = false →
      dispatch s = some .v50Next) ∧
    (s.cfgGen = some .v50 → s.phase = .token → pastEnd s = false → dispatch s = some .v50Token) ∧
    (s.cfgGen = some .v29 → s.phase = .init → dispatch s = some .v29Init) ∧
    (s.cfgGen = some .v29 → s.phase = .tables → dispatch s = some .v29Tables) ∧
    (s.cfgGen = some .v29 → s.phase = .token → s.v29.blockType = .lz → dispatch s = some .v29Lz) ∧
    (s.cfgGen = some .v29 → s.phase = .token → s.v29.blockType = .ppm → dispatch s = some .v29Ppm) ∧
    (s.cfgGen = some .v20 → s.phase = .init → dispatch s = some .v20Init) ∧
    (s.cfgGen = some .v20 → s.phase = .tables → dispatch s = some .v20Tables) ∧
    (s.cfgGen = some .v20 → s.phase = .token → s.cfgDeclaredSize.toNat ≤ produced s →
      dispatch s = some .v20SizeDone) ∧
    (s.cfgGen = some .v20 → s.phase = .token → produced s < s.cfgDeclaredSize.toNat → s.v20.audio = true →
      dispatch s = some .v20Audio) ∧
    (s.cfgGen = some .v20 → s.phase = .token → produced s < s.cfgDeclaredSize.toNat → s.v20.audio = false →
      dispatch s = some .v20Lz) ∧
    (s.cfgGen = some .v20 → s.phase = .tail → s.posByte.toNat + 5 ≤ s.input.length →
      dispatch s = some .v20TailRead) ∧
    (s.cfgGen = some .v20 → s.phase = .tail → s.input.length < s.posByte.toNat + 5 → s.inEnded = true →
      dispatch s = some .v20TailStop) ∧
    (s.cfgGen = some .v20 → s.phase = .tail → s.input.length < s.posByte.toNat + 5 → s.inEnded = false →
      dispatch s = some .v20TailWait)

/-! ### Invariants and whole-machine rules -/

/-- The state right after session creation has the invariant, and the values that R443 gives; the registers R443 leaves
without a value hold the model's choice (log 3), and so does WINDOW_SIZE, on which the invariant's parts about the window and
the cursors depend (log 22). -/
def Obligations.ResetHasInvariant : Prop :=
  let s := State.reset
  Inv s ∧ s.status = .idle ∧ s.errCode = none ∧ s.errFlushLeft = 0 ∧ s.cfgGen = none ∧ s.cfgWindowLog2 = none ∧
  s.cfgSolid = false ∧ s.cfgDeclaredSize = 0 ∧ s.phase = .init ∧ s.posByte = 0 ∧ s.posBit = 0 ∧ s.input = [] ∧
  s.inEnded = false ∧ s.out = [] ∧ s.filt = []

/-- Every step keeps the invariant, as long as the write position is not about to leave its 64 bits (log 8). Its parts R189 and
R213 are inferences the spec marks as its own. -/
def Obligations.StepKeepsInvariant : Prop :=
  ∀ s t : State, Inv s → s.wrAbs.toNat + 4100 < 2 ^ 64 → step s = .next t → Inv t

/-- From the invariant, every step answers a next state: no fault and no refusal can be reached. -/
def Obligations.StepNeverStops : Prop :=
  ∀ s : State, Inv s → ∃ t, step s = .next t

/-- R189 and R447, inferences the spec marks as its own: no step changes a pending byte: what is pending before and after it
reads the same. -/
def Obligations.PendingBytesSurvive : Prop :=
  ∀ s t : State, Inv s → s.wrAbs.toNat + 4100 < 2 ^ 64 → step s = .next t →
    ∀ a : BitVec 64, s.flAbs.toNat ≤ a.toNat → a.toNat < s.wrAbs.toNat →
      t.flAbs.toNat ≤ a.toNat → a.toNat < t.wrAbs.toNat → memRead t a = memRead s a

/-- R78, an inference the spec marks as its own: every step leaves OUT as it was, appends the byte at the flush cursor and
moves the cursor on, or is a member start, which empties it. -/
def Obligations.OutputIsTheFlushedBytes : Prop :=
  ∀ s t : State, step s = .next t →
    t.out = s.out ∨
    (t.out = s.out ++ [memRead s s.flAbs] ∧ t.flAbs = s.flAbs + 1 ∧ emitted s < s.cfgDeclaredSize.toNat) ∨
    ((∃ g solid size log2, s.events.head? = some (.memberStart g solid size log2)) ∧
      t.out = [] ∧ t.filt = [] ∧ t.status = .running ∧ t.phase = .init ∧ t.flAbs = t.wrAbs)

/-- R63 and R24: but for a member start, the input only grows at its end, by one byte that the host delivers, and the
position never moves backward. -/
def Obligations.InputReadSequentially : Prop :=
  ∀ s t : State, Inv s → 8 * s.input.length < 2 ^ 64 → step s = .next t →
    (∀ g solid size log2, s.events.head? ≠ some (.memberStart g solid size log2)) →
    (t.input = s.input ∨ ∃ b, s.events.head? = some (.deliver b) ∧ t.input = s.input ++ [b]) ∧
    bitPos s ≤ bitPos t

/-- R402, R412, R221, and R408, an inference the spec marks as its own: in every status but RUNNING, a step other than a
member start changes nothing that decodes: the window, the write cursor, the cache, the last length, the tables and registers
of every generation, the position and the phase stay. -/
def Obligations.OnlyRunningMutates : Prop :=
  ∀ s t : State, s.status ≠ .running → step s = .next t →
    (∀ g solid size log2, s.events.head? ≠ some (.memberStart g solid size log2)) →
    t.win = s.win ∧ t.winDraw = s.winDraw ∧ t.wrAbs = s.wrAbs ∧ t.memberBase = s.memberBase ∧
    t.oldDist = s.oldDist ∧ t.lastLen = s.lastLen ∧ t.v50 = s.v50 ∧ t.v29 = s.v29 ∧ t.v20 = s.v20 ∧
    t.posByte = s.posByte ∧ t.posBit = s.posBit ∧ t.phase = s.phase ∧ t.filt = s.filt ∧
    t.ppmState = s.ppmState ∧ t.errCode = s.errCode ∧
    (t.status = s.status ∨ (s.status = .drain ∧ (t.status = .done ∨ t.status = .cancelled)))

/-- R213, whose numbers are an inference the spec marks as its own: an instruction of a generation writes at most MAXOUT
bytes to the window, and LAST_LEN stays within it. -/
def Obligations.TokenWritesAtMostMaxOut : Prop :=
  ∀ (g : Gen) (i : Instr) (s t : State),
    (∃ ctx env, ctxGen ctx = g ∧ ∃ z p, envOk env = true ∧ (decodeIn ctx env z p).res = .ok i) →
    s.lastLen.toNat ≤ maxOut g → exec i s = .next t →
    (∃ n, n ≤ maxOut g ∧ t.wrAbs = s.wrAbs + BitVec.ofNat 64 n) ∧ t.lastLen.toNat ≤ maxOut g

/-- R8, R63, R65: no instruction touches the configuration, the input, the flush cursor, the member's base and OUT, nor the
inputs of the other agents and the window's draw, as the model holds them (logs 1, 4 and 7). The position and the coder's
state are the decoder core's, and a token's step writes them (R24, R71): that `exec` leaves them as they were, and the step
around it writes them after a commit, is the model's choice (DESIGN CHOICE, log 9). -/
def Obligations.InstructionFrame : Prop :=
  ∀ (i : Instr) (s t : State), exec i s = .next t →
    t.cfgGen = s.cfgGen ∧ t.cfgSolid = s.cfgSolid ∧ t.cfgDeclaredSize = s.cfgDeclaredSize ∧
    t.cfgWindowLog2 = s.cfgWindowLog2 ∧ t.posByte = s.posByte ∧ t.posBit = s.posBit ∧ t.input = s.input ∧
    t.inEnded = s.inEnded ∧ t.flAbs = s.flAbs ∧ t.memberBase = s.memberBase ∧ t.out = s.out ∧
    t.sinkReady = s.sinkReady ∧ t.flushLimit = s.flushLimit ∧ t.filterAccept = s.filterAccept ∧
    t.ppmState = s.ppmState ∧ t.events = s.events ∧ t.winDraw = s.winDraw

/-! ### The cache and the tables of constants -/

/-- R191 and R192: what an insertion and a rotation leave in the cache. -/
def Obligations.CacheInsertAndRotate : Prop :=
  (∀ (c : OldDist) (d : BitVec 64), (c.insert d).get 0 = d ∧ (c.insert d).get 1 = c.get 0 ∧
    (c.insert d).get 2 = c.get 1 ∧ (c.insert d).get 3 = c.get 2) ∧
  (∀ (c : OldDist) (i : Fin 4), (c.rotate i).get 0 = c.get i ∧
    (∀ j : Fin 4, 0 < j.val → j ≤ i → (c.rotate i).get j = c.get (j - 1)) ∧
    (∀ j : Fin 4, i < j → (c.rotate i).get j = c.get j))

/-- R281: every base of the distance table is the base before it plus 2 to the number of bits before it, starting at 0; the same
generates the bases of the length and short-distance tables from their bit counts; the largest v29 distance. -/
def Obligations.BaseTablesAreGenerated : Prop :=
  dDecode.length = 60 ∧ dBits.length = 60 ∧ dDecode.getD 0 1 = 0 ∧
  (∀ n < 59, dDecode.getD (n + 1) 0 = dDecode.getD n 0 + 2 ^ dBits.getD n 0) ∧
  dBits = ([4, 2, 2, 2, 2, 2, 2, 2, 2, 2, 2, 2, 2, 2, 2, 2, 14, 0, 12].zipIdx.flatMap fun c =>
    List.replicate c.1 c.2) ∧
  dDecode.getD 59 0 + 2 ^ dBits.getD 59 0 - 1 + 1 = 4194304 ∧
  lDecode.length = 28 ∧ lDecode.getD 0 1 = 0 ∧
  (∀ n < 27, lDecode.getD (n + 1) 0 = lDecode.getD n 0 + 2 ^ lBits.getD n 0) ∧
  lBits = List.replicate 8 0 ++ ([1, 2, 3, 4, 5].flatMap fun b => List.replicate 4 b) ∧
  sdDecode.length = 8 ∧ sdDecode.getD 0 1 = 0 ∧
  (∀ n < 7, sdDecode.getD (n + 1) 0 = sdDecode.getD n 0 + 2 ^ sdBits.getD n 0) ∧ sdBits = [2, 2, 3, 4, 5, 6, 6, 6]

/-! ### The error codes -/

/-- R242 to R244, R246: the checks of a block header in stream order. The reserved byte count raises E3, so does a wrong
checksum; a header without tables raises E4 while no v50 table has been read. -/
def Obligations.BlockHeaderErrors : Prop :=
  ∀ (h : BlockHeader) (s : State) (i : Instr), i = .v50FirstHeader h ∨ i = .v50NextBlock h →
    (headerByteCount h.flags = 4 → exec i s = .next (errorState .e3 s)) ∧
    (headerByteCount h.flags ≠ 4 →
      h.check.toNat ≠ (0x5A ^^^ h.flags.toNat ^^^ h.size.toNat ^^^ (h.size.toNat / 2 ^ 8) ^^^ (h.size.toNat / 2 ^ 16)) % 256 →
      exec i s = .next (errorState .e3 s)) ∧
    (headerByteCount h.flags ≠ 4 → h.check.toNat = check5 h.flags h.size.toNat → h.flags.getLsbD 7 = false →
      s.v50.tablesRead = false → exec i s = .next (errorState .e4 s))

/-- R151, R152, R160, R162 in every table read: an oversubscribed pre-table raises E1, a repeat code at position 0
raises E2, and an oversubscribed main table raises E1; nothing else is written. -/
def Obligations.TableReadErrors : Prop :=
  (∀ (d : TableDesc5) (keep : Bool) (h : BlockHeader) (s : State) (i : Instr) (n : Nat) (old : List Len)
      (e : ErrCode) (sizes : List (Nat × Nat)),
    ((i = .v50FirstHeader h ∨ i = .v50NextBlock h) ∧ headerByteCount h.flags ≠ 4 ∧
        h.check.toNat = check5 h.flags h.size.toNat ∧ h.flags.getLsbD 7 = true ∧ h.tables = some d ∧
        n = 430 ∧ old = [] ∧ sizes = [(0, 306), (306, 64), (370, 16), (386, 44)]) ∨
      (i = .v29Tables (.lz keep d) ∧ n = 404 ∧
        old = (if keep then s.v29.oldLens else List.replicate 404 0) ∧
        sizes = [(0, 299), (299, 60), (359, 17), (376, 28)]) →
    d.wf n = true →
    (buildTable (preLengths d.pre) = .error e → exec i s = .next (errorState .e1 s)) ∧
    (∀ bd, buildTable (preLengths d.pre) = .ok bd →
      (lengths5 n old [] d.lens = .error e → exec i s = .next (errorState .e2 s)) ∧
      (∀ t, lengths5 n old [] d.lens = .ok t → (∃ c ∈ sizes, buildTable ((t.drop c.1).take c.2) = .error e) →
        exec i s = .next (errorState .e1 s)))) ∧
  (∀ (h : V20Header) (s : State) (i : Instr) (e : ErrCode),
    i = .v20Tables h ∨ i = .v20Tail (.reload h) → h.wf = true →
    (buildTable h.pre = .error e → exec i s = .next (errorState .e1 s)) ∧
    (∀ bd, buildTable h.pre = .ok bd →
      lengths2 (v20LensCount h.audio) (if h.keep then s.v20.oldLens else List.replicate 1028 0) [] h.lens = .error e →
      exec i s = .next (errorState .e2 s)) ∧
    (∀ bd t c, buildTable h.pre = .ok bd →
      lengths2 (v20LensCount h.audio) (if h.keep then s.v20.oldLens else List.replicate 1028 0) [] h.lens = .ok t →
      c ∈ (match h.audio with
        | none => [(0, 298), (298, 48), (346, 28)]
        | some a => (List.range (a.toNat + 1)).map fun k => (257 * k, 257)) →
      buildTable ((t.drop c.1).take c.2) = .error e → exec i s = .next (errorState .e1 s)))

/-- R284, R289, R300, R420: a coder that fails to start raises E6, a VM-code length of 0 raises E5, and a descriptor
that the scheduler rejects raises E8 and is not emitted. -/
def Obligations.CoderAndFilterErrors : Prop :=
  (∀ (esc : Byte) (s : State), exec (.v29Tables (.ppm false esc)) s = .next (errorState .e6 s)) ∧
  (∀ (v : VmCode) (s : State), v.wf = true → v.code = [] →
    exec (.v29VmCode v) s = .next (errorState .e5 s) ∧ exec (.ppmEscVmCode v) s = .next (errorState .e5 s)) ∧
  (∀ (v : VmCode) (s : State), v.wf = true → v.code ≠ [] → s.filterAccept = false →
    exec (.v29VmCode v) s = .next (errorState .e8 s) ∧ exec (.ppmEscVmCode v) s = .next (errorState .e8 s)) ∧
  (∀ (f : FilterFields) (s : State), s.filterAccept = false → exec (.v50Filter f) s = .next (errorState .e8 s))

/-- R102 and R303: what the decoder forms from the coder's answers is a token whose characters are exactly those
answers, or E6 when one of them is EOF; the step of a running member settles that decoding, and one that formed no token
takes its error. R97, R283, R284 and R71: a `V29_TABLES` whose first bit is 1 asks the coder's initialisation with PPM_ESC
at the aligned byte, takes its answer and its state, and moves the position and `NEED` behind the bytes it took; a character
request takes its bytes so too. That the coder takes exactly the bytes it answers from is R450 and log 21; that the decoder
core moves first when no event waits is the model's choice (log 1). -/
def Obligations.PpmDecodingIsSound : Prop :=
  (∀ (env : Env) (z : Bits) (p : Nat),
    let d := decodeIn .v29Ppm env z p
    match d.res with
    | .ok i => i.wf = true ∧ isPpmToken env.ppmEsc i = true ∧
        readChars env.ppmd z (encodeChars env.ppmEsc i).length p env.ppmState =
          (some (encodeChars env.ppmEsc i), d.pos, d.ppm)
    | .error e => e = .e6 ∧ ∃ n, readChars env.ppmd z (n + 1) p env.ppmState = (none, d.pos, d.ppm)) ∧
  (∀ s : State, s.events = [] → s.status = .running → dispatch s = some .v29Ppm → gateOpen s = true →
    step s = (settle (fetch .v29Ppm s) s).getD (.next (flushMove s))) ∧
  (∀ (d : Decoded) (e : ErrCode) (s : State), d.res = .error e → d.need ≤ availBits s →
    settle d s = some (.next (errorState e s))) ∧
  (∀ (env : Env) (z : Bits) (p : Nat), z (alignByte p) = true →
    ∃ (bytes : List Byte) (a : PpmInitAnswer),
      feed (.more (env.ppmd.init env.ppmState env.ppmEsc)) bytes = some a ∧
      (∀ j (h : j < bytes.length), bytes[j] = inputByte z (alignByte p / 8 + j)) ∧
      decodeIn .v29Tables env z p = {
        res := .ok (.v29Tables (.ppm a.ok a.esc)), pos := alignByte p + 8 * bytes.length
        need := alignByte p + 8 * bytes.length, ppm := a.state }) ∧
  (∀ (ppmd : Ppmd) (z : Bits) (p st : Nat), ∃ (bytes : List Byte) (a : PpmCharAnswer),
    feed (ppmd.char st) bytes = some a ∧
    (∀ j (h : j < bytes.length), bytes[j] = inputByte z (p / 8 + j)) ∧
    askChar ppmd z p st = (a, bytes.length))

/-! ### The host and the flush engine -/

/-- R440 to R444 and R370, R404: what a member start does in each case. That one which is not enabled is dropped is the model's
choice (log 2), and so is the numbering of the draw WINDOW_INIT (log 4). -/
def Obligations.MemberStartCases : Prop :=
  ∀ (g : Gen) (solid : Bool) (size : BitVec 64) (log2 : Nat) (s : State) (rest : List Event),
    s.events = .memberStart g solid size log2 :: rest →
    let u : State := { s with events := rest }
    let enabled := s.status = .idle ∨ s.status = .done ∨ s.status = .error ∨ s.status = .refused
    let cont := solid = true ∧ s.cfgGen ≠ none
    let fresh : State := { u with
      posByte := 0, posBit := 0, input := [], inEnded := false, out := [], filt := []
      phase := .init, errCode := none, errFlushLeft := 0, status := .running
      cfgGen := some g, cfgDeclaredSize := size, cfgWindowLog2 := some log2 }
    (¬ enabled → step s = .next u) ∧
    (enabled → g = .v15 → step s = .next { u with status := .refused, errCode := some .e10 }) ∧
    (enabled → g ≠ .v15 →
      (log2 < 16 ∨ 32 < log2 ∨ (cont ∧ s.cfgGen ≠ some g) ∨ (cont ∧ s.cfgWindowLog2 ≠ some log2)) →
      step s = .next { u with status := .refused, errCode := some .e11 }) ∧
    (enabled → g ≠ .v15 → 16 ≤ log2 → log2 ≤ 32 → cont → s.cfgGen = some g → s.cfgWindowLog2 = some log2 →
      step s = .next { fresh with cfgSolid := true, memberBase := s.wrAbs, flAbs := s.wrAbs }) ∧
    (enabled → g ≠ .v15 → 16 ≤ log2 → log2 ≤ 32 → ¬ cont →
      step s = .next { fresh with
        cfgSolid := false, win := [], winDraw := s.draws, draws := s.draws + 1
        wrAbs := 0, flAbs := 0, memberBase := 0, oldDist := { d0 := 0, d1 := 0, d2 := 0, d3 := 0 }, lastLen := 0
        v50 := V50Regs.reset, v29 := V29Regs.reset, v20 := V20Regs.reset })

/-- R37, R184 and R441: the tables of the non-solid reset are what `BuildTable` makes of all-zero lengths, and they decode
every input as symbol 0 with 15 bits; every position of the window reads as the draw taken by that reset (log 4). -/
def Obligations.ResetTablesAndWindow : Prop :=
  (∀ n : Nat, buildTable (List.replicate n 0) = .ok (emptyTable n) ∧
    ∀ (z : Bits) (p : Nat), huffDecode (emptyTable n) z p = (0, p + 15)) ∧
  (∀ (g : Gen) (size : BitVec 64) (log2 : Nat) (s : State) (a : BitVec 64),
    memRead (acceptMember g false size log2 s) a = Config.windowInit s.draws (a.toNat % 2 ^ log2))

/-- R61, R62, R76: delivery, end of input and cancel. That one which is not enabled is dropped is the model's choice (log 2). -/
def Obligations.HostInputSteps : Prop :=
  ∀ (s : State) (rest : List Event),
    let u : State := { s with events := rest }
    let started := s.status = .running ∨ s.status = .drain
    (∀ b, s.events = .deliver b :: rest →
      (started → s.inEnded = false → step s = .next { u with input := s.input ++ [b] }) ∧
      (¬ started ∨ s.inEnded = true → step s = .next u)) ∧
    (s.events = .endInput :: rest →
      (started → s.inEnded = false → step s = .next { u with inEnded := true }) ∧
      (¬ started ∨ s.inEnded = true → step s = .next u)) ∧
    (s.events = .cancel :: rest →
      (started → step s = .next { u with status := .cancelled }) ∧ (¬ started → step s = .next u))

/-- R185 to R188: when a flush step is enabled, and what it does: the byte at FL_ABS goes to OUT, or is discarded at or
past the declared size, the cursor moves on, an aborted member has one byte fewer to move, and a drained member is done. That
a flush move which is not enabled changes nothing is the model's choice (log 2). R70, R72, R74: what an event of the flush
engine, of the sink and of the FilterScheduler does; that State holds their answers as inputs is the model's choice (log 7).
R73, R451: the window peek answers pending bytes, and no others (log 18). -/
def Obligations.FlushStep : Prop :=
  ∀ s : State,
    let on := s.flAbs.toNat < s.wrAbs.toNat ∧ (∀ l, s.flushLimit = some l → s.flAbs.toNat < l.toNat) ∧
      (s.status = .running ∨ s.status = .drain ∨ (s.status = .error ∧ 0 < s.errFlushLeft.toNat)) ∧
      (s.cfgDeclaredSize.toNat ≤ emitted s ∨ s.sinkReady = true)
    (¬ on → flushMove s = s) ∧
    (on → ∃ t, flushMove s = t ∧ t.flAbs.toNat = s.flAbs.toNat + 1 ∧
      t.out = (if emitted s < s.cfgDeclaredSize.toNat then s.out ++ [memRead s s.flAbs] else s.out) ∧
      t.errFlushLeft.toNat = (if s.status = .error then s.errFlushLeft.toNat - 1 else s.errFlushLeft.toNat) ∧
      t.status = (if s.status = .drain ∧ s.flAbs.toNat + 1 = s.wrAbs.toNat then .done else s.status) ∧
      t = { s with flAbs := t.flAbs, out := t.out, errFlushLeft := t.errFlushLeft, status := t.status }) ∧
    (∀ rest : List Event,
      let u : State := { s with events := rest }
      (s.events = .flush :: rest → step s = .next (flushMove u)) ∧
      (∀ r, s.events = .sinkReady r :: rest → step s = .next { u with sinkReady := r }) ∧
      (∀ l, s.events = .flushLimit l :: rest → step s = .next { u with flushLimit := l }) ∧
      (∀ a, s.events = .filterAccept a :: rest → step s = .next { u with filterAccept := a })) ∧
    (∀ a : BitVec 64, windowPeek s a =
      if s.flAbs.toNat ≤ a.toNat ∧ a.toNat < s.wrAbs.toNat then some (memRead s a) else none)

/-! ### What each instruction does -/

/-- R216, R250, R287, R296, R298, R336: a literal, and the escaped escape byte, writes one byte at the write cursor and
nothing else. -/
def Obligations.LiteralTokens : Prop :=
  ∀ (b : Byte) (s : State) (i : Instr),
    i ∈ [.v50Lit b, .v29Lit b, .v20Lit b, .ppmLit b] ∨ (∃ x, i = .ppmEscLit x ∧ b = s.v29.ppmEsc) →
    ∃ t, exec i s = .next t ∧ t = wrote 1 s t ∧ Appended 1 (fun _ => b) s t

/-- R252, R290: repeat-last of v50 and v29 copies LAST_LEN bytes at distance OLD_DIST[0] and changes nothing else; no byte
while LAST_LEN is 0. -/
def Obligations.RepeatLastV50V29 : Prop :=
  ∀ (s : State) (i : Instr), i = .v50RepLast ∨ i = .v29RepLast →
    legalWindow s → s.lastLen.toNat ≤ windowSize s →
    ∃ t, exec i s = .next t ∧ CopyToken s.lastLen.toNat s.oldDist.d0.toNat s t

/-- R337, R342: repeat-last of v20 copies the same bytes and inserts the distance again, also while LAST_LEN is 0. -/
def Obligations.RepeatLastV20 : Prop :=
  ∀ s : State, legalWindow s → s.lastLen.toNat ≤ windowSize s →
    ∃ t, exec .v20RepLast s = .next t ∧
      CopyToken s.lastLen.toNat s.oldDist.d0.toNat
        { s with oldDist := { d0 := s.oldDist.d0, d1 := s.oldDist.d0, d2 := s.oldDist.d1, d3 := s.oldDist.d2 } } t

/-- R253, R255, R291: repeat-old of v50 and v29 rotates the cache, sets LAST_LEN and copies, with no bonus. -/
def Obligations.RepeatOldRotates : Prop :=
  ∀ (i : Fin 4) (slot extra : Nat) (s : State), legalWindow s →
    ((Instr.v50RepOld i slot extra).wf = true →
      let len := if slot < 8 then slot + 2 else 2 + (4 + slot % 4) * 2 ^ (slot / 4 - 1) + extra
      ∃ t, exec (.v50RepOld i slot extra) s = .next t ∧
        CopyToken len (s.oldDist.get i).toNat
          { s with oldDist := s.oldDist.rotate i, lastLen := BitVec.ofNat 32 len } t) ∧
    ((Instr.v29RepOld i slot extra).wf = true →
      let len := lengthBase slot + 2 + extra
      ∃ t, exec (.v29RepOld i slot extra) s = .next t ∧
        CopyToken len (s.oldDist.get i).toNat
          { s with oldDist := s.oldDist.rotate i, lastLen := BitVec.ofNat 32 len } t)

/-- R338, R342, R343: repeat-old of v20 reads the entry without rotating, adds the bonus of its distance, and inserts the
distance. -/
def Obligations.RepeatOldV20Inserts : Prop :=
  ∀ (i : Fin 4) (slot extra : Nat) (s : State), legalWindow s → (Instr.v20RepOld i slot extra).wf = true →
    let dist := s.oldDist.get i
    let len := lengthBase slot + 2 + extra + (if 0x101 ≤ dist.toNat then 1 else 0) +
      (if 0x2000 ≤ dist.toNat then 1 else 0) + (if 0x40000 ≤ dist.toNat then 1 else 0)
    ∃ t, exec (.v20RepOld i slot extra) s = .next t ∧
      CopyToken len dist.toNat
        { s with oldDist := s.oldDist.insert dist, lastLen := BitVec.ofNat 32 len } t

/-- R292, R339: a short match has length 2 and the distance of its slot and extra bits, which is inserted. -/
def Obligations.ShortMatches : Prop :=
  ∀ (n : Fin 8) (extra : Nat) (s : State) (i : Instr), i = .v29Short n extra ∨ i = .v20Short n extra →
    legalWindow s → i.wf = true →
    let dist := [0, 4, 8, 16, 32, 64, 128, 192].getD n.val 0 + 1 + extra
    1 ≤ dist ∧ dist ≤ 256 ∧
    ∃ t, exec i s = .next t ∧
      CopyToken 2 dist
        { s with oldDist := s.oldDist.insert (BitVec.ofNat 64 dist), lastLen := 2 } t

/-- R254 to R256, R217: a v50 match, its length and distance assembled from the slots and extra bits and its bonus added. -/
def Obligations.MatchV50 : Prop :=
  ∀ (slot extra : Nat) (d : DistField) (s : State), legalWindow s → (Instr.v50Match slot extra d).wf = true →
    let base := if slot < 8 then slot + 2 else 2 + (4 + slot % 4) * 2 ^ (slot / 4 - 1) + extra
    let bits := d.slot / 2 - 1
    let dist := if d.slot < 4 then 1 + d.slot
      else if bits < 4 then 1 + (2 + d.slot % 2) * 2 ^ bits + d.extra
      else 1 + (2 + d.slot % 2) * 2 ^ bits + d.extra * 16 + d.low.getD 0
    let len := base + (if 0x100 < dist then 1 else 0) + (if 0x2000 < dist then 1 else 0) +
      (if 0x40000 < dist then 1 else 0)
    len ≤ 4100 ∧ 1 ≤ dist ∧ dist ≤ 2 ^ 32 ∧
    ∃ t, exec (.v50Match slot extra d) s = .next t ∧
      CopyToken len dist
        { s with oldDist := s.oldDist.insert (BitVec.ofNat 64 dist), lastLen := BitVec.ofNat 32 len } t

/-- R293 to R295, R217: a v29 match with the four cases of its low distance bits: none split off, a repeat in progress, the
repeat code 16, and a low-distance symbol of its own. -/
def Obligations.MatchV29 : Prop :=
  ∀ (slot extra : Nat) (d : DistField) (s : State), legalWindow s → (Instr.v29Match slot extra d).wf = true →
    let prev := s.v29.prevLowDist
    let rep := s.v29.lowDistRep
    let result (dist : Nat) (prev' rep' : BitVec 4) : Prop :=
      let len := lengthBase slot + 3 + extra + (if 0x2000 ≤ dist then 1 else 0) + (if 0x40000 ≤ dist then 1 else 0)
      ∃ t, exec (.v29Match slot extra d) s = .next t ∧
        CopyToken len dist
          { s with
            oldDist := s.oldDist.insert (BitVec.ofNat 64 dist), lastLen := BitVec.ofNat 32 len
            v29.prevLowDist := prev', v29.lowDistRep := rep' } t
    (d.slot ≤ 9 → result (distBase d.slot + 1 + d.extra) prev rep) ∧
    (9 < d.slot → 0 < rep.toNat → d.low = none →
      result (distBase d.slot + 1 + d.extra * 16 + prev.toNat) prev (rep - 1)) ∧
    (9 < d.slot → rep = 0 → d.low = some 16 →
      result (distBase d.slot + 1 + d.extra * 16 + prev.toNat) prev 15) ∧
    (9 < d.slot → rep = 0 → ∀ l, l < 16 → d.low = some l →
      result (distBase d.slot + 1 + d.extra * 16 + l) (BitVec.ofNat 4 l) rep)

/-- R341 to R343, R217: a v20 match. -/
def Obligations.MatchV20 : Prop :=
  ∀ (slot extra dslot dextra : Nat) (s : State), legalWindow s →
    (Instr.v20Match slot extra dslot dextra).wf = true →
    let dist := distBase dslot + 1 + dextra
    let len := lengthBase slot + 3 + extra + (if 0x2000 ≤ dist then 1 else 0) + (if 0x40000 ≤ dist then 1 else 0)
    len ≤ 260 ∧ 1 ≤ dist ∧ dist ≤ 1048576 ∧
    ∃ t, exec (.v20Match slot extra dslot dextra) s = .next t ∧
      CopyToken len dist
        { s with oldDist := s.oldDist.insert (BitVec.ofNat 64 dist), lastLen := BitVec.ofNat 32 len } t

/-- R301, R302: the two shorthand copies of the PPM block type leave the cache and LAST_LEN alone. -/
def Obligations.PpmCopies : Prop :=
  ∀ (d2 d1 d0 l : Byte) (s : State), legalWindow s →
    (∃ t, exec (.ppmEscLz d2 d1 d0 l) s = .next t ∧
      CopyToken (l.toNat + 32) (d2.toNat * 2 ^ 16 + d1.toNat * 2 ^ 8 + d0.toNat + 2) s t) ∧
    (∃ t, exec (.ppmEscRle l) s = .next t ∧ CopyToken (l.toNat + 4) 1 s t)

/-- R73, R251, R258, R259, R289, R300: an accepted filter token appends its descriptor to FILT and changes nothing else; a v50
length above MAX_FILTER_LEN is sent as 0 and the channel count only with type 0. -/
def Obligations.FilterTokens : Prop :=
  (∀ (f : FilterFields) (s : State), f.wf = true → s.filterAccept = true →
    exec (.v50Filter f) s = .next { s with filt := s.filt ++ [.v50Filter f.start
      (s.wrAbs + f.start.setWidth 64) (if f.length.toNat > 0x400000 then 0 else f.length) f.type
      (f.channels.map fun c => c.toNat + 1) s.wrAbs] }) ∧
  (∀ (v : VmCode) (s : State), v.wf = true → v.code ≠ [] → s.filterAccept = true →
    exec (.v29VmCode v) s = .next { s with filt := s.filt ++ [.v29VmCode v.first v.code s.wrAbs .lz] } ∧
    exec (.ppmEscVmCode v) s = .next { s with filt := s.filt ++ [.v29VmCode v.first v.code s.wrAbs .ppm] })

/-- R282, R332, R349, R297, R340, R345 and the first half of R288: the instructions that only choose the next rule. -/
def Obligations.PhaseMoves : Prop :=
  ∀ s : State,
    exec .v29Init s = .next { s with
      phase := if s.cfgSolid = true ∧ s.v29.tablesRead = true then .token else .tables } ∧
    exec .v20Init s = .next { s with
      phase := if s.cfgSolid = false ∨ s.v20.tablesRead = false then .tables else .token } ∧
    exec .v20SizeDone s = .next { s with phase := .tail } ∧
    exec .ppmEscReload s = .next { s with phase := .tables } ∧
    exec .v20Reload s = .next { s with phase := .tables } ∧
    exec .v20AudReload s = .next { s with phase := .tables } ∧
    exec (.v29Eob .newTables) s = .next { s with phase := .tables, v29.tablesRead := false }

/-- R221, R249, R299, R350 and the second half of R288: the instructions that end the member; nothing but the status changes,
and for the v29 end of block whether its tables stay valid. R370, R404: the v15 row refuses its generation, and writes the
status and the code only. -/
def Obligations.MemberEndsAndRefusal : Prop :=
  ∀ (s : State) (x : Nat) (t : Bool),
    let ended : Status := if s.wrAbs.toNat ≤ s.flAbs.toNat then .done else .drain
    exec .v50End s = .next { s with status := ended } ∧
    exec .ppmEscEnd s = .next { s with status := ended } ∧
    exec (.v20Tail .stop) s = .next { s with status := ended } ∧
    exec (.v20Tail (.ignored x)) s = .next { s with status := ended } ∧
    exec (.v29Eob (.endMember t)) s = .next { s with status := ended, v29.tablesRead := !t } ∧
    exec .v15Stream s = .next { s with status := .refused, errCode := some .e10 }

/-- R241, R242, R248: a legal block header without tables sets the block registers from its fields and the position behind it,
keeps the tables, and the first one moves to TOKEN. -/
def Obligations.BlockHeaderWithoutTables : Prop :=
  ∀ (h : BlockHeader) (s : State), headerByteCount h.flags ≠ 4 → h.check.toNat = check5 h.flags h.size.toNat →
    h.flags.getLsbD 7 = false → s.v50.tablesRead = true →
    let start := (bitPos s + 7) / 8 + 2 + (h.flags.toNat / 8 % 4 + 1)
    let t : State := { s with
      v50.blkStart := BitVec.ofNat 64 start
      v50.blkSize := h.size
      v50.blkBitSize := BitVec.ofNat 4 (h.flags.toNat % 8 + 1)
      v50.blkLast := h.flags.getLsbD 6
      v50.blkTables := false }
    exec (.v50NextBlock h) s = .next t ∧ exec (.v50FirstHeader h) s = .next { t with phase := .token }

/-- R241, R242, R245: a legal block header with tables builds the pre-table and, from the lengths its codes describe, the four
tables of the generation, and sets TABLES_READ5. -/
def Obligations.BlockHeaderWithTables : Prop :=
  ∀ (h : BlockHeader) (d : TableDesc5) (s : State) (t : List Len) (bd ld dd ldd rd : HuffTable),
    h.wf = true → h.check.toNat = check5 h.flags h.size.toNat → headerByteCount h.flags ≠ 4 →
    h.flags.getLsbD 7 = true → h.tables = some d →
    buildTable (preLengths d.pre) = .ok bd → lengths5 430 [] [] d.lens = .ok t →
    buildTable (t.take 306) = .ok ld → buildTable ((t.drop 306).take 64) = .ok dd →
    buildTable ((t.drop 370).take 16) = .ok ldd → buildTable (t.drop 386) = .ok rd →
    let start := (bitPos s + 7) / 8 + 2 + (h.flags.toNat / 8 % 4 + 1)
    let u : State := { s with
      v50 := { ld := ld, dd := dd, ldd := ldd, rd := rd, bd := bd, tablesRead := true
               blkStart := BitVec.ofNat 64 start, blkSize := h.size
               blkBitSize := BitVec.ofNat 4 (h.flags.toNat % 8 + 1)
               blkLast := h.flags.getLsbD 6, blkTables := true }
      desc := Desc.closed }
    exec (.v50NextBlock h) s = .next u ∧ exec (.v50FirstHeader h) s = .next { u with phase := .token }

/-- R283 to R286: a v29 table header of the LZ block type builds the tables from lengths added to the kept or cleared old
lengths, which it replaces; the low-distance state is cleared. One of the PPM block type takes the coder's escape byte and
keeps the tables. -/
def Obligations.V29TableRead : Prop :=
  (∀ (keep : Bool) (d : TableDesc5) (s : State) (t : List Len) (bd ld dd ldd rd : HuffTable),
    d.wf 404 = true →
    buildTable (preLengths d.pre) = .ok bd →
    lengths5 404 (if keep then s.v29.oldLens else List.replicate 404 0) [] d.lens = .ok t →
    buildTable (t.take 299) = .ok ld → buildTable ((t.drop 299).take 60) = .ok dd →
    buildTable ((t.drop 359).take 17) = .ok ldd → buildTable (t.drop 376) = .ok rd →
    exec (.v29Tables (.lz keep d)) s = .next { s with
      v29 := { ld := ld, dd := dd, ldd := ldd, rd := rd, bd := bd, tablesRead := true, blockType := .lz
               ppmEsc := s.v29.ppmEsc, oldLens := t, prevLowDist := 0, lowDistRep := 0 }
      desc := Desc.closed, phase := .token }) ∧
  (∀ (esc : Byte) (s : State),
    exec (.v29Tables (.ppm true esc)) s =
      .next { s with v29.blockType := .ppm, v29.ppmEsc := esc, phase := .token })

/-- R333 to R335: a v20 table description of the LZ sub-mode builds the three tables from lengths added to the kept or cleared
old lengths, of which it replaces the first 374; the channel registers stay. -/
def Obligations.V20TableReadLz : Prop :=
  ∀ (h : V20Header) (s : State) (t : List Len) (bd ld dd rd : HuffTable),
    h.wf = true → h.audio = none →
    let old := if h.keep then s.v20.oldLens else List.replicate 1028 0
    buildTable h.pre = .ok bd → lengths2 374 old [] h.lens = .ok t →
    buildTable (t.take 298) = .ok ld → buildTable ((t.drop 298).take 48) = .ok dd →
    buildTable (t.drop 346) = .ok rd →
    let u : State := { s with
      v20 := { s.v20 with
        ld := ld, dd := dd, rd := rd, bd := bd, tablesRead := true, audio := false, oldLens := t ++ old.drop 374 }
      desc := Desc.closed }
    exec (.v20Tables h) s = .next { u with phase := .token } ∧
    exec (.v20Tail (.reload h)) s =
      .next { u with status := if s.wrAbs.toNat ≤ s.flAbs.toNat then .done else .drain }

/-- R333 to R335: a v20 table description of the audio sub-mode builds one table per channel, sets the channel count, and resets
the current channel when it is out of range; the tables of the other sub-mode and of further channels stay. -/
def Obligations.V20TableReadAudio : Prop :=
  ∀ (h : V20Header) (c : BitVec 2) (s : State) (t : List Len) (bd : HuffTable) (md : List HuffTable),
    h.wf = true → h.audio = some c →
    let n := c.toNat + 1
    let old := if h.keep then s.v20.oldLens else List.replicate 1028 0
    buildTable h.pre = .ok bd → lengths2 (257 * n) old [] h.lens = .ok t →
    s.v20.md.length = 4 → md.length = 4 →
    (∀ k < n, buildTable ((t.drop (257 * k)).take 257) = .ok (md.getD k (emptyTable 257))) →
    (∀ k, n ≤ k → md[k]? = s.v20.md[k]?) →
    let u : State := { s with
      v20 := { s.v20 with
        md := md, bd := bd, tablesRead := true, audio := true, channels := n
        curChannel := if n ≤ s.v20.curChannel then 0 else s.v20.curChannel
        oldLens := t ++ old.drop (257 * n) }
      desc := Desc.closed }
    exec (.v20Tables h) s = .next { u with phase := .token } ∧
    exec (.v20Tail (.reload h)) s =
      .next { u with status := if s.wrAbs.toNat ≤ s.flAbs.toNat then .done else .drain }

/-- R344, R346, R348: an audio sample: the predicted byte less the delta is written and kept, the terms and accumulators
move as the rule says, and the next channel is due; on every 32nd sample of the channel the record is then adapted
(R347, which moves a coefficient and clears the accumulators), on any other the coefficients stay. -/
def Obligations.AudioSample : Prop :=
  ∀ (delta : Byte) (s : State) (v : AudRec),
    s.v20.aud[s.v20.curChannel]? = some v → recordOk v →
    let cd := s.v20.channelDelta.toInt
    let k (j : Nat) : Int := (v.k.getD j 0).toInt
    let d0 := v.lastDelta
    let d1 := v.lastDelta - v.d.getD 0 0
    let d2 := v.d.getD 1 0
    let d3 := v.d.getD 2 0
    let p : Int := (8 * v.lastChar.toInt + k 0 * d0.toInt + k 1 * d1.toInt + k 2 * d2.toInt + k 3 * d3.toInt + k 4 * cd) / 8 % 256
    let ch : Int := p - delta.toNat
    let e : Int := 8 * delta.toInt
    let op (j : Nat) : Int := [d0.toInt, d1.toInt, d2.toInt, d3.toInt, cd].getD j 0
    ∃ (t : State) (u w : AudRec), exec (.v20AudSample delta) s = .next t ∧
      Appended 1 (fun _ => BitVec.ofInt 8 ch) s t ∧
      t = { wrote 1 s t with
        v20.aud := s.v20.aud.set s.v20.curChannel w
        v20.channelDelta := w.lastDelta
        v20.curChannel := (s.v20.curChannel + 1) % s.v20.channels } ∧
      w.d = [d0, d1, d2, d3] ∧ w.lastChar.toInt = ch ∧
      w.lastDelta.toInt = (BitVec.ofInt 8 (ch - v.lastChar.toInt)).toInt ∧
      w.byteCount = v.byteCount + 1 ∧
      w = (if (v.byteCount.toNat + 1) % 32 = 0 then adapt u else u) ∧
      u.k = v.k ∧ u.dif.length = 11 ∧
      u.dif.getD 0 0 = v.dif.getD 0 0 + BitVec.ofNat 32 e.natAbs ∧
      (∀ j < 5, u.dif.getD (2 * j + 1) 0 = v.dif.getD (2 * j + 1) 0 + BitVec.ofNat 32 (e - op j).natAbs ∧
        u.dif.getD (2 * j + 2) 0 = v.dif.getD (2 * j + 2) 0 + BitVec.ofNat 32 (e + op j).natAbs)

/-- R347: every 32nd sample of a channel clears the accumulators and moves the coefficient of the first smallest of them by one,
down for an odd index and up for an even one, within -17..16; index 0 moves none. -/
def Obligations.AudioAdaptation : Prop :=
  (∀ (delta : Byte) (cd : Int) (v : AudRec), (v.byteCount.toNat + 1) % 32 = 0 →
    let ch := predict v (nextDeltas v) cd - delta.toNat
    (decodeAudio delta cd v).1 = adapt {
      k := v.k, d := nextDeltas v, lastDelta := BitVec.ofInt 32 (s8 (ch - v.lastChar.toInt))
      lastChar := BitVec.ofInt 32 ch, dif := nextDif v.dif (errorTerms (8 * delta.toInt) (nextDeltas v) cd)
      byteCount := v.byteCount + 1 }) ∧
  (∀ u : AudRec, recordOk u →
    ∃ m, m < 11 ∧ (∀ j < 11, (u.dif.getD m 0).toNat ≤ (u.dif.getD j 0).toNat) ∧
      (∀ j < m, (u.dif.getD m 0).toNat < (u.dif.getD j 0).toNat) ∧
      adapt u = { u with dif := List.replicate 11 0, k := (adapt u).k } ∧
      (m = 0 → (adapt u).k = u.k) ∧
      (∀ c < 5, (m = 2 * c + 1 → (adapt u).k = u.k.set c
          (if -16 ≤ (u.k.getD c 0).toInt then u.k.getD c 0 - 1 else u.k.getD c 0)) ∧
        (m = 2 * c + 2 → (adapt u).k = u.k.set c
          (if (u.k.getD c 0).toInt < 16 then u.k.getD c 0 + 1 else u.k.getD c 0))) ∧
      ∀ x ∈ (adapt u).k, -17 ≤ x.toInt ∧ x.toInt ≤ 16)

/-- R92, R93, R94, R95, R159, R161: an element of a length description that is no repeat adds its lengths to the array, cut
at the array's end; a literal is added to the old length at its index. -/
def Obligations.LengthCodesAppend : Prop :=
  ∀ (s : State) (i : Instr) (r : Nat) (l : Len),
    let at' := s.desc.old.getD s.desc.lens.length 0
    ((∃ x, i ∈ [.pl4eLen x, .pl4Len x, .len5Lit x, .len2Lit x] ∧ r = 1 ∧ l = x + at') ∨
      (i = .pl4eEsc 0 ∧ r = 1 ∧ l = 15) ∨
      (∃ z : BitVec 4, z ≠ 0 ∧ i = .pl4eEsc z ∧ r = z.toNat + 2 ∧ l = 0) ∨
      (∃ n : BitVec 3, i ∈ [.len5Zero3 n, .len2Zero3 n] ∧ r = n.toNat + 3 ∧ l = 0) ∨
      (∃ n : BitVec 7, i ∈ [.len5Zero7 n, .len2Zero7 n] ∧ r = n.toNat + 11 ∧ l = 0)) →
    s.desc.lens.length ≤ s.desc.total →
    exec i s = .next { s with
      desc := { s.desc with lens := (s.desc.lens ++ List.replicate r l).take s.desc.total } }

/-- R94, R95, R159, R160, R161: a repeat code copies the length read last, cut at the array's end, and raises E2 where there is
none. -/
def Obligations.RepeatCodes : Prop :=
  ∀ (s : State) (i : Instr) (r : Nat),
    ((∃ n : BitVec 3, i = .len5Rep3 n ∧ r = n.toNat + 3) ∨ (∃ n : BitVec 7, i = .len5Rep7 n ∧ r = n.toNat + 11) ∨
      (∃ n : BitVec 2, i = .len2Rep2 n ∧ r = n.toNat + 3)) →
    (s.desc.lens = [] → exec i s = .next (errorState .e2 s)) ∧
    (∀ l ls, s.desc.lens = ls ++ [l] → s.desc.lens.length ≤ s.desc.total →
      exec i s = .next { s with
        desc := { s.desc with lens := (s.desc.lens ++ List.replicate r l).take s.desc.total } })

/-- R194: what every token leaves in the cache and in LAST_LEN, read from the registers before it: an insertion, a rotation, or
nothing. And R193, an inference the spec marks as its own: what four insertions and a rotation
after them reproduce. -/
def Obligations.CacheAndLastLenPerToken : Prop :=
  (∀ (i : Instr) (s t : State), i.wf = true → exec i s = .next t →
    match i with
    | .v50Match _ _ _ | .v29Match _ _ _ | .v29Short _ _ | .v20Match _ _ _ _ | .v20Short _ _ =>
      t.oldDist = s.oldDist.insert t.oldDist.d0 ∧ 1 ≤ t.oldDist.d0.toNat ∧
        t.wrAbs = s.wrAbs + BitVec.ofNat 64 t.lastLen.toNat
    | .v50RepOld j _ _ | .v29RepOld j _ _ =>
      t.oldDist = s.oldDist.rotate j ∧ t.wrAbs = s.wrAbs + BitVec.ofNat 64 t.lastLen.toNat
    | .v20RepOld j _ _ =>
      t.oldDist = s.oldDist.insert (s.oldDist.get j) ∧ t.wrAbs = s.wrAbs + BitVec.ofNat 64 t.lastLen.toNat
    | .v20RepLast =>
      t.oldDist = s.oldDist.insert s.oldDist.d0 ∧ t.lastLen = s.lastLen ∧
        t.wrAbs = s.wrAbs + BitVec.ofNat 64 s.lastLen.toNat
    | .v50RepLast | .v29RepLast =>
      t.oldDist = s.oldDist ∧ t.lastLen = s.lastLen ∧ t.wrAbs = s.wrAbs + BitVec.ofNat 64 s.lastLen.toNat
    | _ => t.oldDist = s.oldDist ∧ t.lastLen = s.lastLen) ∧
  (∀ (c : OldDist) (d1 d2 d3 d4 : BitVec 64) (i : Fin 4),
    let after := (((c.insert d1).insert d2).insert d3).insert d4
    after = { d0 := d4, d1 := d3, d2 := d2, d3 := d1 } ∧ after.get i = [d4, d3, d2, d1].getD i.val 0 ∧
    [(after.rotate i).get 0, (after.rotate i).get 1, (after.rotate i).get 2, (after.rotate i).get 3] =
      after.get i :: [d4, d3, d2, d1].eraseIdx i.val)
end

