-- ==== Sys2Proof/Laws/Bits.lean ====
section
/-! SUPPORT. The laws of the BitCursor primitives: what a peek of bits that stand in the stream gives, and that a
peek depends on its own bits only. -/

namespace Sys2Proof.Machine

theorem peekBits_lt (z : Bits) (p n : Nat) : peekBits z p n < 2 ^ n := by
  induction n with
  | zero => simp [peekBits]
  | succ n ih =>
    have : (z (p + n)).toNat ≤ 1 := Bool.toNat_le _
    simp only [peekBits, pow_succ]; omega

theorem peekBits_congr {z z' : Bits} {p p' n : Nat} (h : ∀ k < n, z (p + k) = z' (p' + k)) :
    peekBits z p n = peekBits z' p' n := by
  induction n with
  | zero => rfl
  | succ n ih => simp only [peekBits, ih (fun k hk => h k (by omega)), h n (by omega)]

/-- A peek of `m + n` bits is the peek of the first `m`, then of the next `n`. -/
theorem peekBits_add (z : Bits) (p m n : Nat) :
    peekBits z p (m + n) = peekBits z p m * 2 ^ n + peekBits z (p + m) n := by
  induction n with
  | zero => simp [peekBits]
  | succ n ih =>
    rw [← Nat.add_assoc]; simp only [peekBits, ih, pow_succ, Nat.add_assoc]; ring

@[simp] theorem length_bitsOf (n v : Nat) : (bitsOf n v).length = n := by
  induction n with
  | zero => rfl
  | succ n ih => simp [bitsOf, ih]

theorem getElem_bitsOf (n v k : Nat) (h : k < (bitsOf n v).length) : (bitsOf n v)[k] = v.testBit (n - 1 - k) := by
  induction n generalizing k with
  | zero => simp at h
  | succ n ih =>
    cases k with
    | zero => simp [bitsOf]
    | succ k =>
      simp only [bitsOf, List.getElem_cons_succ]
      rw [ih]; congr 1; omega

theorem Holds.left {z : Bits} {p : Nat} {as bs : List Bool} (h : Holds z p (as ++ bs)) : Holds z p as := by
  intro k hk
  rw [h k (by simp; omega), List.getElem_append_left hk]

theorem Holds.right {z : Bits} {p : Nat} {as bs : List Bool} (h : Holds z p (as ++ bs)) :
    Holds z (p + as.length) bs := by
  intro k hk
  have := h (as.length + k) (by simp; omega)
  rw [Nat.add_assoc, this, List.getElem_append_right (by omega)]
  simp

theorem Holds.append {z : Bits} {p : Nat} {as bs : List Bool} :
    Holds z p (as ++ bs) ↔ Holds z p as ∧ Holds z (p + as.length) bs := by
  refine ⟨fun h => ⟨h.left, h.right⟩, fun ⟨h1, h2⟩ k hk => ?_⟩
  by_cases hlt : k < as.length
  · rw [List.getElem_append_left hlt, h1 k hlt]
  · rw [List.getElem_append_right (by omega), ← h2 (k - as.length) (by simp at hk; omega)]
    congr 1; omega

/-- A field of `n` bits that stands in the stream is read back (R9, R131). -/
theorem peekBits_holds {z : Bits} {p n v : Nat} (h : Holds z p (bitsOf n v)) : peekBits z p n = v % 2 ^ n := by
  induction n generalizing v p with
  | zero => simp [peekBits, Nat.mod_one]
  | succ n ih =>
    have h0 := h 0 (by simp)
    have h1 : Holds z (p + 1) (bitsOf n v) := by
      have := Holds.right (as := [v.testBit n]) (bs := bitsOf n v) h
      simpa using this
    rw [Nat.add_comm n 1, peekBits_add, ih h1]
    have hz : peekBits z p 1 = (v.testBit n).toNat := by
      simp only [peekBits, Nat.mul_zero, Nat.zero_add, Nat.add_zero]
      simpa [bitsOf] using congrArg Bool.toNat h0
    rw [hz, Nat.add_comm 1 n, pow_succ, Nat.mod_mul, Nat.testBit_eq_decide_div_mod_eq]
    rcases Nat.mod_two_eq_zero_or_one (v / 2 ^ n) with h | h <;> simp [h] <;> ring

theorem peekBits_holds_lt {z : Bits} {p n v : Nat} (h : Holds z p (bitsOf n v)) (hv : v < 2 ^ n) :
    peekBits z p n = v := by rw [peekBits_holds h, Nat.mod_eq_of_lt hv]

theorem le_alignByte (p : Nat) : p ≤ alignByte p := by unfold alignByte; split <;> omega

theorem alignByte_mod (p : Nat) : alignByte p % 8 = 0 := by unfold alignByte; split <;> omega

theorem alignByte_of_mod {p : Nat} (h : p % 8 = 0) : alignByte p = p := by simp [alignByte, h]

end Sys2Proof.Machine
end

