-- ==== Sys2Proof/Laws/Huffman.lean ====
section
/-! SUPPORT. The laws of the Huffman register file: what canonical tables satisfy, where a decoded symbol lies, how
many bits it takes, and that a code word is decoded to its symbol whatever follows. -/

namespace Sys2Proof.Machine

/-- What `HuffTable.canonical` says, in words of `bound` and `position`. -/
structure Canonical (n : Nat) (t : HuffTable) : Prop where
  numLength : t.decodeNum.length = n
  assigned : t.nAssigned ≤ n
  bound_zero : t.bound 0 = 0
  position_zero : t.position 0 = 0
  position_one : t.position 1 = 0
  position_le : ∀ i, 1 ≤ i → i ≤ 15 → t.position i ≤ t.position (i + 1)
  bound_eq : ∀ i, 1 ≤ i → i ≤ 15 →
    t.bound i = t.bound (i - 1) + (t.position (i + 1) - t.position i) * 2 ^ (16 - i)
  bound_le : t.bound 15 ≤ 65536
  symbol_lt : ∀ x ∈ t.decodeNum, x.toNat < n

theorem canonical_spec {n : Nat} {t : HuffTable} (h : t.canonical n = true) : Canonical n t := by
  simp only [HuffTable.canonical, Bool.and_eq_true, beq_iff_eq, decide_eq_true_eq, List.all_eq_true,
    List.mem_range', Nat.one_mul] at h
  obtain ⟨⟨⟨⟨⟨⟨⟨⟨⟨-, -⟩, h3⟩, h4⟩, h5⟩, h6⟩, h7⟩, h8⟩, h9⟩, h10⟩ := h
  refine ⟨h3, h4, h5, h6, h7, fun i h1 h2 => ?_, fun i h1 h2 => ?_, by simpa using h9, h10⟩
  · exact (h8 i ⟨i - 1, by omega, by omega⟩).1
  · exact (h8 i ⟨i - 1, by omega, by omega⟩).2

namespace Canonical

variable {n : Nat} {t : HuffTable} (c : Canonical n t)
include c

theorem bound_mono {i j : Nat} (hij : i ≤ j) (hj : j ≤ 15) : t.bound i ≤ t.bound j := by
  induction j with
  | zero => obtain rfl : i = 0 := by omega
            exact le_rfl
  | succ j ih =>
    rcases Nat.lt_or_ge j i with h | h
    · obtain rfl : i = j + 1 := by omega
      exact le_rfl
    · have := c.bound_eq (j + 1) (by omega) hj
      have := ih h (by omega)
      simp only [Nat.add_sub_cancel] at *
      omega

theorem position_mono {i j : Nat} (h1 : 1 ≤ i) (hij : i ≤ j) (hj : j ≤ 16) : t.position i ≤ t.position j := by
  induction j with
  | zero => omega
  | succ j ih =>
    rcases Nat.lt_or_ge j i with h | h
    · obtain rfl : i = j + 1 := by omega
      exact le_rfl
    · exact le_trans (ih h (by omega)) (c.position_le j (by omega) (by omega))

/-- Every bound is a multiple of the code step of its length (R158). -/
theorem dvd_bound {i : Nat} (hi : i ≤ 15) : 2 ^ (16 - i) ∣ t.bound i := by
  induction i with
  | zero => rw [c.bound_zero]; exact dvd_zero _
  | succ i ih =>
    rw [c.bound_eq (i + 1) (by omega) hi, Nat.add_sub_cancel]
    exact dvd_add (dvd_trans (Nat.pow_dvd_pow 2 (by omega)) (ih (by omega))) (dvd_mul_left _ _)

/-- The bounds split at a multiple of 2 ^ (16 - l): a comparison with bound `i ≤ l` sees the first `l` bits
only. -/
theorem lt_bound_iff {i l la : Nat} (hi : i ≤ l) (hl : l ≤ 15) :
    la < t.bound i ↔ la / 2 ^ (16 - l) < t.bound i / 2 ^ (16 - l) := by
  have hd : 2 ^ (16 - l) ∣ t.bound i := dvd_trans (Nat.pow_dvd_pow 2 (by omega)) (c.dvd_bound (by omega))
  obtain ⟨q, hq⟩ := hd
  rw [hq, Nat.mul_div_cancel_left _ (Nat.two_pow_pos _)]
  rw [Nat.div_lt_iff_lt_mul (Nat.two_pow_pos _), Nat.mul_comm]

end Canonical

/-- The position of the length search in words: the first length of 1..14 whose bound lies above, else 15. -/
theorem codeLength_spec (t : HuffTable) (la : Nat) :
    1 ≤ codeLength t la ∧ codeLength t la ≤ 15 ∧
      (∀ i, 1 ≤ i → i < codeLength t la → t.bound i ≤ la) ∧
      (codeLength t la < 15 → la < t.bound (codeLength t la)) := by
  unfold codeLength
  cases hf : (List.range' 1 14).find? fun i => decide (la < t.bound i) with
  | none =>
    rw [List.find?_eq_none] at hf
    refine ⟨by simp, by simp, fun i h1 h2 => ?_, by simp⟩
    have := hf i (by simp only [List.mem_range']; exact ⟨i - 1, by simp at h2; omega, by omega⟩)
    simpa using this
  | some l =>
    rw [List.find?_eq_some_iff_getElem] at hf
    obtain ⟨hl, j, hj, hjl, hlt⟩ := hf
    simp only [List.length_range'] at hj
    have hlj : l = 1 + j := by rw [← hjl]; simp
    simp only [decide_eq_true_eq] at hl
    refine ⟨by simp; omega, by simp; omega, fun i h1 h2 => ?_, fun _ => by simpa using hl⟩
    simp only [Option.getD_some] at h2
    have := hlt (i - 1) (by omega)
    simp only [List.getElem_range', Nat.one_mul] at this
    rw [show 1 + (i - 1) = i by omega] at this
    simpa using this

/-- The length search is fixed by these properties. -/
theorem codeLength_unique {t : HuffTable} {la l : Nat} (h1 : 1 ≤ l) (h2 : l ≤ 15)
    (hb : ∀ i, 1 ≤ i → i < l → t.bound i ≤ la) (ha : l < 15 → la < t.bound l) : codeLength t la = l := by
  obtain ⟨c1, c2, c3, c4⟩ := codeLength_spec t la
  rcases Nat.lt_trichotomy (codeLength t la) l with h | h | h
  · have := hb _ c1 h; have := c4 (by omega); omega
  · exact h
  · have := c3 l h1 h; have := ha (by omega); omega

theorem huffDecode_fst (t : HuffTable) (z : Bits) (p : Nat) :
    (huffDecode t z p).1 =
      if codeIndex t (peekBits z p 16) (codeLength t (peekBits z p 16)) ≥ t.nAssigned then 0
      else (t.decodeNum.getD (codeIndex t (peekBits z p 16) (codeLength t (peekBits z p 16))) 0).toNat := rfl

theorem huffDecode_snd (t : HuffTable) (z : Bits) (p : Nat) :
    (huffDecode t z p).2 = p + codeLength t (peekBits z p 16) := rfl

/-- A decoded symbol is one of the alphabet (R155). -/
theorem huffDecode_lt {n : Nat} {t : HuffTable} (h : t.canonical n = true) (hn : 0 < n) (z : Bits) (p : Nat) :
    (huffDecode t z p).1 < n := by
  have c := canonical_spec h
  rw [huffDecode_fst]
  split
  · exact hn
  · rename_i hlt
    have hlt' : codeIndex t (peekBits z p 16) (codeLength t (peekBits z p 16)) < t.decodeNum.length := by
      have := c.assigned; have := c.numLength; omega
    rw [List.getD_eq_getElem _ _ hlt']
    exact c.symbol_lt _ (List.getElem_mem _)

/-- A code word has 1 to 15 bits (R155). -/
theorem huffDecode_pos (t : HuffTable) (z : Bits) (p : Nat) :
    p + 1 ≤ (huffDecode t z p).2 ∧ (huffDecode t z p).2 ≤ p + 15 := by
  have := codeLength_spec t (peekBits z p 16)
  rw [huffDecode_snd]; omega

/-- R158(a): the symbol and the count depend only on the bits the code word takes. -/
theorem huffDecode_local {n : Nat} {t : HuffTable} (h : t.canonical n = true) {z z' : Bits} {p p' : Nat}
    (hz : ∀ k < codeLength t (peekBits z p 16), z (p + k) = z' (p' + k)) :
    (huffDecode t z' p').1 = (huffDecode t z p).1 ∧
      codeLength t (peekBits z' p' 16) = codeLength t (peekBits z p 16) := by
  have c := canonical_spec h
  set la := peekBits z p 16 with hla
  set la' := peekBits z' p' 16 with hla'
  obtain ⟨l1, l2, l3, l4⟩ := codeLength_spec t la
  set l := codeLength t la with hl
  -- the first l bits agree
  have hdiv : la / 2 ^ (16 - l) = la' / 2 ^ (16 - l) := by
    have e1 : la = peekBits z p l * 2 ^ (16 - l) + peekBits z (p + l) (16 - l) := by
      rw [hla, ← peekBits_add]; congr 1; omega
    have e2 : la' = peekBits z' p' l * 2 ^ (16 - l) + peekBits z' (p' + l) (16 - l) := by
      rw [hla', ← peekBits_add]; congr 1; omega
    have b1 := peekBits_lt z (p + l) (16 - l)
    have b2 := peekBits_lt z' (p' + l) (16 - l)
    have hp : 0 < 2 ^ (16 - l) := Nat.two_pow_pos _
    have d1 : la / 2 ^ (16 - l) = peekBits z p l := by
      rw [e1, Nat.mul_comm, Nat.mul_add_div hp, Nat.div_eq_of_lt b1, Nat.add_zero]
    have d2 : la' / 2 ^ (16 - l) = peekBits z' p' l := by
      rw [e2, Nat.mul_comm, Nat.mul_add_div hp, Nat.div_eq_of_lt b2, Nat.add_zero]
    rw [d1, d2]; exact peekBits_congr hz
  have hlen : codeLength t la' = l := by
    refine codeLength_unique l1 l2 (fun i h1 h2 => ?_) (fun h2 => ?_)
    · have := l3 i h1 h2
      rw [← Nat.not_lt, c.lt_bound_iff (by omega) l2] at this ⊢
      rwa [← hdiv]
    · have := l4 h2
      rw [c.lt_bound_iff le_rfl l2] at this ⊢
      rwa [← hdiv]
  refine ⟨?_, hlen⟩
  have hidx : codeIndex t la' l = codeIndex t la l := by
    simp only [codeIndex, Nat.shiftRight_eq_div_pow]
    obtain ⟨m, hm⟩ := dvd_trans (Nat.pow_dvd_pow 2 (show 16 - l ≤ 16 - (l - 1) by omega))
      (c.dvd_bound (show l - 1 ≤ 15 by omega))
    rw [hm, Nat.sub_mul_div, Nat.sub_mul_div, hdiv]
  rw [huffDecode_fst, huffDecode_fst, ← hla, ← hla', hlen, hidx]

/-! ### Code words -/

/-- The index of an assigned symbol is one of the assigned indices, and the symbol stands there. -/
theorem indexOf_spec {n : Nat} {t : HuffTable} (c : Canonical n t) {s : Nat} (hs : t.hasCode s = true) :
    t.indexOf s < t.nAssigned ∧ (t.decodeNum.getD (t.indexOf s) 0).toNat = s := by
  simp only [HuffTable.hasCode, List.any_eq_true, beq_iff_eq] at hs
  obtain ⟨x, hx, hxs⟩ := hs
  obtain ⟨j, hj, rfl⟩ := List.mem_iff_getElem.mp hx
  simp only [List.length_take] at hj
  have hle : t.indexOf s ≤ j := by
    unfold HuffTable.indexOf
    by_contra hlt
    have := List.not_of_lt_findIdx (xs := t.decodeNum) (p := fun x => x.toNat == s) (i := j) (by omega)
    simp only [List.getElem_take] at hxs
    simp [hxs] at this
  have hlt : t.indexOf s < t.decodeNum.length := by have := c.numLength; omega
  refine ⟨by omega, ?_⟩
  rw [List.getD_eq_getElem _ _ hlt]
  have := List.findIdx_getElem (xs := t.decodeNum) (p := fun x => x.toNat == s)
    (w := by simpa [HuffTable.indexOf] using hlt)
  simpa [HuffTable.indexOf] using this

/-- The length of an assigned index in words: its position range. -/
theorem lengthAt_spec {n : Nat} {t : HuffTable} (c : Canonical n t) {idx : Nat} (h : idx < t.nAssigned) :
    1 ≤ t.lengthAt idx ∧ t.lengthAt idx ≤ 15 ∧ t.position (t.lengthAt idx) ≤ idx ∧
      idx < t.position (t.lengthAt idx + 1) := by
  unfold HuffTable.lengthAt
  cases hf : (List.range' 1 14).find? fun l => decide (idx < t.position (l + 1)) with
  | none =>
    rw [List.find?_eq_none] at hf
    have := hf 14 (by simp only [List.mem_range']; exact ⟨13, by omega, by omega⟩)
    simp only [decide_eq_true_eq, Nat.not_lt] at this
    refine ⟨by simp, by simp, by simpa using this, ?_⟩
    simpa [HuffTable.position] using h
  | some l =>
    rw [List.find?_eq_some_iff_getElem] at hf
    obtain ⟨hl, j, hj, hjl, hlt⟩ := hf
    simp only [List.length_range'] at hj
    have hlj : l = 1 + j := by rw [← hjl]; simp
    simp only [decide_eq_true_eq] at hl
    simp only [Option.getD_some]
    refine ⟨by omega, by omega, ?_, hl⟩
    rcases Nat.eq_zero_or_pos j with rfl | h0
    · rw [hlj, c.position_one]; omega
    · have := hlt (j - 1) (by omega)
      simp only [List.getElem_range', Nat.one_mul] at this
      rw [show 1 + (j - 1) + 1 = l by omega] at this
      simpa using this

/-- R157 and R158(b) on a register file: the code word of an assigned symbol, whatever follows it, is decoded
to the symbol, and nothing more is consumed. -/
theorem huffDecode_encode {n : Nat} {t : HuffTable} (h : t.canonical n = true) {s : Nat} (hs : t.hasCode s = true)
    {z : Bits} {p : Nat} (hz : Holds z p (encodeSymbol t s)) :
    huffDecode t z p = (s, p + (encodeSymbol t s).length) := by
  have c := canonical_spec h
  obtain ⟨hi, hn⟩ := indexOf_spec c hs
  obtain ⟨l1, l2, p1, p2⟩ := lengthAt_spec c hi
  set idx := t.indexOf s with hidx
  set l := t.lengthAt idx with hl
  have hpow : 0 < 2 ^ (16 - l) := Nat.two_pow_pos _
  -- bound (l - 1) is m code steps
  obtain ⟨m, hm⟩ := dvd_trans (Nat.pow_dvd_pow 2 (show 16 - l ≤ 16 - (l - 1) by omega))
    (c.dvd_bound (show l - 1 ≤ 15 by omega))
  have hm' : t.bound (l - 1) >>> (16 - l) = m := by
    rw [Nat.shiftRight_eq_div_pow, hm, Nat.mul_div_cancel_left _ hpow]
  have hbl := c.bound_eq l l1 l2
  have hb15 : t.bound l ≤ 65536 := le_trans (c.bound_mono l2 le_rfl) c.bound_le
  set k := idx - t.position l with hk
  have hkc : k + 1 ≤ t.position (l + 1) - t.position l := by omega
  have hub : (m + k + 1) * 2 ^ (16 - l) ≤ t.bound l := by
    rw [hbl, hm, Nat.mul_comm (2 ^ (16 - l)) m, ← Nat.add_mul]
    exact Nat.mul_le_mul_right _ (by omega)
  have hcode : m + k < 2 ^ l := by
    have : (m + k + 1) * 2 ^ (16 - l) ≤ 2 ^ l * 2 ^ (16 - l) := by
      rw [← Nat.pow_add, show l + (16 - l) = 16 by omega]
      exact le_trans hub (by simpa using hb15)
    have := Nat.le_of_mul_le_mul_right this hpow
    omega
  have henc : encodeSymbol t s = bitsOf l (m + k) := by
    simp only [encodeSymbol, ← hidx, ← hl, hm', ← hk]
  rw [henc] at hz ⊢
  have hpk := peekBits_holds_lt hz hcode
  set la := peekBits z p 16 with hla
  have ela : la = (m + k) * 2 ^ (16 - l) + peekBits z (p + l) (16 - l) := by
    rw [hla, ← hpk, ← peekBits_add]; congr 1; omega
  have hrest := peekBits_lt z (p + l) (16 - l)
  have hsum : (m + k + 1) * 2 ^ (16 - l) = (m + k) * 2 ^ (16 - l) + 2 ^ (16 - l) := by ring
  have hlow : t.bound (l - 1) ≤ la := by
    rw [ela, hm, Nat.mul_comm]
    exact le_trans (Nat.mul_le_mul_right _ (Nat.le_add_right m k)) (Nat.le_add_right _ _)
  have hlen : codeLength t la = l := by
    refine codeLength_unique l1 l2 (fun i h1 h2 => ?_) (fun _ => ?_)
    · exact le_trans (c.bound_mono (show i ≤ l - 1 by omega) (by omega)) hlow
    · omega
  have hindex : codeIndex t la l = idx := by
    simp only [codeIndex, Nat.shiftRight_eq_div_pow]
    rw [hm, Nat.sub_mul_div, ela, Nat.mul_comm (m + k), Nat.mul_add_div hpow, Nat.div_eq_of_lt hrest]
    omega
  have e1 : (huffDecode t z p).1 = s := by
    rw [huffDecode_fst]; rw [← hla, hlen, hindex, if_neg (by omega)]; exact hn
  have e2 : (huffDecode t z p).2 = p + l := by rw [huffDecode_snd, ← hla, hlen]
  rw [Prod.ext_iff]; exact ⟨e1, by simpa using e2⟩

end Sys2Proof.Machine
end

