-- ==== Sys2Proof/Laws/BuildTable.lean ====
section
/-! SUPPORT. `BuildTable` (R151): the recurrences of its bounds and positions, and that every table it makes is
canonical. -/

namespace Sys2Proof.Machine

/-- The recurrence of the bounds (R151): each adds its count in code steps, and none passes the code space. -/
theorem leftBounds_spec {i upper : Nat} {cs bs : List Nat} (h : leftBounds i upper cs = some bs)
    (hi : i + cs.length ≤ 16) :
    bs.length = cs.length ∧ ∀ j < cs.length,
      bs.getD j 0 = (if j = 0 then upper * 2 ^ (16 - i) else bs.getD (j - 1) 0) + cs.getD j 0 * 2 ^ (16 - (i + j))
        ∧ bs.getD j 0 ≤ 65536 := by
  induction cs generalizing i upper bs with
  | nil => simp only [leftBounds, Option.some.injEq] at h; subst h; simp
  | cons c cs ih =>
    simp only [List.length_cons] at hi
    simp only [leftBounds] at h
    split at h
    · simp at h
    · rename_i hle
      obtain ⟨bs', hb, rfl⟩ := Option.map_eq_some_iff.mp h
      obtain ⟨ih1, ih2⟩ := ih hb (by omega)
      have hpow : 2 ^ i * 2 ^ (16 - i) = 65536 := by
        rw [← Nat.pow_add, show i + (16 - i) = 16 by omega]
      have hle' : (upper + c) * 2 ^ (16 - i) ≤ 65536 := by
        rw [← hpow]; exact Nat.mul_le_mul_right _ (by omega)
      have hstep : 2 ^ (16 - i) = 2 * 2 ^ (16 - (i + 1)) := by
        rw [show 16 - i = 16 - (i + 1) + 1 by omega, Nat.pow_succ, Nat.mul_comm]
      refine ⟨by simp [ih1], fun j hj => ?_⟩
      have h0 : min ((upper + c) * 2 ^ (16 - i)) 65536 = (upper + c) * 2 ^ (16 - i) := Nat.min_eq_left hle'
      cases j with
      | zero => simp only [List.getD_cons_zero, h0, if_true, Nat.add_zero]; exact ⟨Nat.add_mul _ _ _, hle'⟩
      | succ j =>
        simp only [List.length_cons] at hj
        obtain ⟨a, b⟩ := ih2 j (by omega)
        simp only [List.getD_cons_succ]
        refine ⟨?_, b⟩
        rw [a, show i + 1 + j = i + (j + 1) by omega]
        congr 1
        cases j with
        | zero =>
          simp only [if_true, Nat.add_one_ne_zero, if_false, Nat.zero_add, Nat.sub_self, List.getD_cons_zero, h0]
          rw [hstep]; ring
        | succ j => simp

/-- The recurrence of the positions (R151). -/
theorem cumulative_spec (pos : Nat) (cs : List Nat) :
    (cumulative pos cs).length = cs.length ∧
      (∀ j < cs.length, (cumulative pos cs).getD j 0 = pos + (cs.take j).sum) := by
  induction cs generalizing pos with
  | nil => simp [cumulative]
  | cons c cs ih =>
    obtain ⟨h1, h2⟩ := ih (pos + c)
    refine ⟨by simp [cumulative, h1], fun j hj => ?_⟩
    cases j with
    | zero => simp [cumulative]
    | succ j =>
      simp only [List.length_cons] at hj
      simp only [cumulative, List.getD_cons_succ, List.take_succ_cons, List.sum_cons]
      rw [h2 j (by omega)]; omega

@[simp] theorem length_lenCounts (lens : List Len) : (lenCounts lens).length = 15 := by simp [lenCounts]

theorem lenCounts_getD (lens : List Len) {j : Nat} (hj : j < 15) :
    (lenCounts lens).getD j 0 = lens.countP fun l => l.toNat == 1 + j := by
  rw [List.getD_eq_getElem _ _ (by simpa using hj)]; simp [lenCounts]

theorem length_symbolsOf (l s : Nat) (lens : List Len) :
    (symbolsOf l s lens).length = lens.countP fun x => x.toNat == l := by
  induction lens generalizing s with
  | nil => rfl
  | cons x xs ih =>
    simp only [symbolsOf, List.countP_cons]
    split <;> simp_all

theorem mem_symbolsOf {l s a : Nat} {lens : List Len} :
    a ∈ symbolsOf l s lens ↔ s ≤ a ∧ a < s + lens.length ∧ (lens.getD (a - s) 0).toNat = l := by
  induction lens generalizing s with
  | nil => simp only [symbolsOf, List.not_mem_nil, List.length_nil, false_iff]; omega
  | cons x xs ih =>
    have key : (s ≤ a ∧ a < s + (x :: xs).length ∧ ((x :: xs).getD (a - s) 0).toNat = l) ↔
        (a = s ∧ x.toNat = l) ∨ (s + 1 ≤ a ∧ a < s + 1 + xs.length ∧ (xs.getD (a - (s + 1)) 0).toNat = l) := by
      rcases Nat.lt_trichotomy a s with h | h | h
      · constructor
        · rintro ⟨h1, -⟩; omega
        · rintro (⟨h1, -⟩ | ⟨h1, -⟩) <;> omega
      · subst h; simp
      · obtain ⟨d, rfl⟩ : ∃ d, a = s + 1 + d := ⟨a - s - 1, by omega⟩
        rw [show s + 1 + d - s = d + 1 by omega, show s + 1 + d - (s + 1) = d by omega]
        simp only [List.length_cons, List.getD_cons_succ]
        constructor
        · rintro ⟨-, h2, h3⟩; exact .inr ⟨by omega, by omega, h3⟩
        · rintro (⟨h1, -⟩ | ⟨h1, h2, h3⟩)
          · omega
          · exact ⟨by omega, by omega, h3⟩
    rw [key]
    simp only [symbolsOf]
    split
    · rename_i hx; simp [List.mem_cons, ih, hx]
    · rename_i hx; simp [ih, hx]

theorem length_symbolOrder (lens : List Len) : (symbolOrder lens).length = (lenCounts lens).sum := by
  simp only [symbolOrder, List.length_flatMap, lenCounts]
  congr 1
  exact List.map_congr_left fun l _ => length_symbolsOf l 0 lens

theorem lt_of_mem_symbolOrder {lens : List Len} {a : Nat} (h : a ∈ symbolOrder lens) : a < lens.length := by
  obtain ⟨l, -, h⟩ := List.mem_flatMap.mp h
  have := mem_symbolsOf.mp h
  omega

theorem sum_lenCounts_le (lens : List Len) : (lenCounts lens).sum ≤ lens.length := by
  induction lens with
  | nil => decide
  | cons x xs ih =>
    have h1 : (lenCounts (x :: xs)).sum =
        (lenCounts xs).sum + ((List.range' 1 15).map fun i => if x.toNat == i then 1 else 0).sum := by
      simp only [lenCounts, List.countP_cons, ← List.sum_map_add]
    have h2 : ∀ y : Len, ((List.range' 1 15).map fun i => if y.toNat == i then 1 else 0).sum ≤ 1 := by decide
    rw [h1, List.length_cons]
    have := h2 x
    omega

/-- The bounds and positions of an accepted length array, before they are stored (R151). -/
structure Built (lens : List Len) (bounds : List Nat) (t : HuffTable) : Prop where
  bounds_eq : leftBounds 1 0 (lenCounts lens) = some bounds
  table : t = {
    decodeLen := 0 :: bounds.map (BitVec.ofNat 17)
    decodePos := 0 :: (cumulative 0 (lenCounts lens)).map (BitVec.ofNat 16)
    decodeNum := ((symbolOrder lens).map (BitVec.ofNat 16)) ++ List.replicate (lens.length - (lenCounts lens).sum) 0
    nAssigned := (lenCounts lens).sum }

/-- `BuildTable` accepts exactly the arrays whose bounds stay in the code space (R151, R153). -/
theorem buildTable_ok_iff {lens : List Len} {t : HuffTable} :
    buildTable lens = .ok t ↔ ∃ bounds, Built lens bounds t := by
  simp only [buildTable, buildTableWith, Config.rejectIncomplete, Bool.false_and]
  cases h : leftBounds 1 0 (lenCounts lens) with
  | none =>
    refine ⟨fun h => by simp at h, ?_⟩
    rintro ⟨b, hb⟩; rw [hb.bounds_eq] at h; simp at h
  | some bs =>
    simp only [Bool.false_eq_true, if_false, Except.ok.injEq]
    refine ⟨fun ht => ⟨bs, h, ht.symm⟩, ?_⟩
    rintro ⟨b, hb⟩
    rw [hb.bounds_eq, Option.some.injEq] at h
    rw [hb.table, ← h]

namespace Built

variable {lens : List Len} {bs : List Nat} {t : HuffTable} (b : Built lens bs t)
include b

theorem length_bounds : bs.length = 15 := by
  rw [(leftBounds_spec b.bounds_eq (by simp)).1, length_lenCounts]

theorem bound_le {j : Nat} (hj : j < 15) : bs.getD j 0 ≤ 65536 :=
  ((leftBounds_spec b.bounds_eq (by simp)).2 j (by simpa using hj)).2

theorem bound_zero : t.bound 0 = 0 := by simp [HuffTable.bound, b.table]

theorem bound_succ {j : Nat} (hj : j < 15) : t.bound (j + 1) = bs.getD j 0 := by
  have hl := b.length_bounds
  have hle := b.bound_le hj
  rw [List.getD_eq_getElem _ _ (by omega)] at hle
  simp only [HuffTable.bound, b.table, List.getD_cons_succ]
  rw [List.getD_eq_getElem _ _ (by simpa using by omega), List.getD_eq_getElem _ _ (by omega)]
  simp only [List.getElem_map, BitVec.toNat_ofNat]
  exact Nat.mod_eq_of_lt (by omega)

/-- The bound of length `j + 1` is the bound before it and `cnt[j + 1]` code steps (R151). -/
theorem bound_rec {j : Nat} (hj : j < 15) :
    t.bound (j + 1) = t.bound j + (lenCounts lens).getD j 0 * 2 ^ (15 - j) := by
  have h := ((leftBounds_spec b.bounds_eq (by simp)).2 j (by simpa using hj)).1
  rw [b.bound_succ hj, h, show 16 - (1 + j) = 15 - j by omega]
  congr 1
  cases j with
  | zero => simp [b.bound_zero]
  | succ j => simp only [Nat.add_one_ne_zero, if_false, Nat.add_sub_cancel]; exact (b.bound_succ (by omega)).symm

/-- The counts up to length `j` fit the code space of their length. -/
theorem take_sum_le {j : Nat} (hj : j ≤ 15) : ((lenCounts lens).take j).sum * 2 ^ (16 - j) ≤ t.bound j := by
  induction j with
  | zero => simp
  | succ j ih =>
    have hlt : j < (lenCounts lens).length := by simp; omega
    have ih := ih (by omega)
    rw [show 16 - j = 15 - j + 1 by omega, Nat.pow_succ] at ih
    rw [b.bound_rec (by omega), List.take_add_one, List.getElem?_eq_getElem hlt, List.sum_append,
      List.getD_eq_getElem _ _ hlt, show 16 - (j + 1) = 15 - j by omega, Nat.add_mul]
    simp only [Option.toList_some, List.sum_singleton]
    have : ((lenCounts lens).take j).sum * 2 ^ (15 - j) ≤ ((lenCounts lens).take j).sum * (2 ^ (15 - j) * 2) :=
      Nat.mul_le_mul_left _ (by omega)
    omega

theorem take_sum_lt {j : Nat} (hj : j ≤ 14) : ((lenCounts lens).take j).sum < 2 ^ 16 := by
  have h1 := b.take_sum_le (j := j) (by omega)
  have h2 : t.bound j ≤ 65536 := by
    cases j with
    | zero => simp [b.bound_zero]
    | succ j => rw [b.bound_succ (by omega)]; exact b.bound_le (by omega)
  have h3 : 2 ^ 2 ≤ 2 ^ (16 - j) := Nat.pow_le_pow_right (by norm_num) (by omega)
  have : ((lenCounts lens).take j).sum * 2 ^ 2 ≤ ((lenCounts lens).take j).sum * 2 ^ (16 - j) :=
    Nat.mul_le_mul_left _ h3
  omega

theorem position_succ {j : Nat} (hj : j ≤ 15) : t.position (j + 1) = ((lenCounts lens).take j).sum := by
  unfold HuffTable.position
  split
  · have hl := (cumulative_spec 0 (lenCounts lens)).1
    rw [length_lenCounts] at hl
    have hc := (cumulative_spec 0 (lenCounts lens)).2 j (by simp; omega)
    rw [List.getD_eq_getElem _ _ (by omega), Nat.zero_add] at hc
    simp only [b.table, List.getD_cons_succ]
    rw [List.getD_eq_getElem _ _ (by simpa using by omega)]
    simp only [List.getElem_map, BitVec.toNat_ofNat, hc]
    exact Nat.mod_eq_of_lt (b.take_sum_lt (by omega))
  · obtain rfl : j = 15 := by omega
    simp [b.table, List.take_of_length_le]

theorem position_zero : t.position 0 = 0 := by simp [HuffTable.position, b.table]

theorem position_rec {j : Nat} (hj : j < 15) :
    t.position (j + 2) = t.position (j + 1) + (lenCounts lens).getD j 0 := by
  have hlt : j < (lenCounts lens).length := by simp; omega
  rw [b.position_succ (j := j + 1) (by omega), b.position_succ (by omega), List.take_add_one,
    List.getElem?_eq_getElem hlt, List.sum_append, List.getD_eq_getElem _ _ hlt]
  simp

/-- The assigned entries are the symbols in code order (R154). -/
theorem num_getD {i : Nat} (hi : i < (symbolOrder lens).length) (hlen : lens.length ≤ 65536) :
    (t.decodeNum.getD i 0).toNat = (symbolOrder lens)[i] := by
  have hlt := lt_of_mem_symbolOrder (List.getElem_mem hi)
  rw [b.table]
  rw [List.getD_eq_getElem _ _ (by simp; omega), List.getElem_append_left (by simpa using hi)]
  simp only [List.getElem_map, BitVec.toNat_ofNat]
  exact Nat.mod_eq_of_lt (by omega)

/-- Every table `BuildTable` makes is canonical for the length of its array. -/
theorem canonical (hlen : lens.length ≤ 65536) : t.canonical lens.length = true := by
  have hsum := sum_lenCounts_le lens
  have hbl := b.length_bounds
  have hcl := (cumulative_spec 0 (lenCounts lens)).1
  rw [length_lenCounts] at hcl
  have hord := length_symbolOrder lens
  simp only [HuffTable.canonical, Bool.and_eq_true, beq_iff_eq, decide_eq_true_eq, List.all_eq_true,
    List.mem_range', Nat.one_mul]
  refine ⟨⟨⟨⟨⟨⟨⟨⟨⟨?_, ?_⟩, ?_⟩, ?_⟩, b.bound_zero⟩, b.position_zero⟩, ?_⟩, ?_⟩, ?_⟩, ?_⟩
  · simp [b.table, hbl]
  · simp [b.table, hcl]
  · simp [b.table, hord]; omega
  · simp [b.table, hsum]
  · rw [b.position_succ (j := 0) (by omega)]; simp
  · rintro i ⟨j, hj, rfl⟩
    have h1 := b.position_rec hj
    have h2 := b.bound_rec hj
    rw [show 1 + j + 1 = j + 2 by omega, show 1 + j - 1 = j by omega, show 16 - (1 + j) = 15 - j by omega,
      Nat.add_comm 1 j, h1, h2]
    exact ⟨by omega, by rw [Nat.add_sub_cancel_left]⟩
  · rw [b.bound_succ (j := 14) (by omega)]; exact b.bound_le (by omega)
  · intro x hx
    rw [b.table] at hx
    simp only [List.mem_append, List.mem_map, List.mem_replicate] at hx
    rcases hx with ⟨a, ha, rfl⟩ | ⟨h1, rfl⟩
    · have := lt_of_mem_symbolOrder ha
      simp only [BitVec.toNat_ofNat]; rw [Nat.mod_eq_of_lt (by omega)]; exact this
    · simp; omega

end Built

theorem buildTable_canonical {lens : List Len} {t : HuffTable} (h : buildTable lens = .ok t)
    (hlen : lens.length ≤ 65536) : t.canonical lens.length = true := by
  obtain ⟨bs, b⟩ := buildTable_ok_iff.mp h
  exact b.canonical hlen

/-- `BuildTable` raises no error but E1 (R152, R153). -/
theorem buildTable_error {lens : List Len} {e : ErrCode} (h : buildTable lens = .error e) : e = .e1 := by
  simp only [buildTable, buildTableWith, Config.rejectIncomplete, Bool.false_and] at h
  split at h
  · simpa using h.symm
  · simp at h

end Sys2Proof.Machine
end

