-- ==== Sys2Proof/Laws/Coder.lean ====
section
/-! SUPPORT. The laws of requests to the external coder: an answer depends on the bytes it used and on no
other (R136, R450). -/

namespace Sys2Proof

open Sys2Proof.Machine

@[simp] theorem runReader_done {α : Type} (a : α) (f : Nat → Byte) : runReader (.done a) f = (a, 0) := rfl

@[simp] theorem runReader_more {α : Type} (next : Byte → PpmReader α) (f : Nat → Byte) :
    runReader (.more next) f =
      ((runReader (next (f 0)) fun j => f (j + 1)).1, (runReader (next (f 0)) fun j => f (j + 1)).2 + 1) := rfl

/-- A reader answers the same on any bytes that agree on those it took. -/
theorem runReader_congr {α : Type} (r : PpmReader α) {f g : Nat → Byte}
    (h : ∀ j < (runReader r f).2, f j = g j) : runReader r g = runReader r f := by
  induction r generalizing f g with
  | done a => rfl
  | more next ih =>
    simp only [runReader_more] at h ⊢
    rw [← h 0 (by omega), ih (f 0) (f := fun j => f (j + 1)) fun j hj => h (j + 1) (by omega)]

/-- The initialisation takes at least the byte that holds the flag (R284). -/
theorem askInit_pos (ppmd : Ppmd) (z : Bits) (p st : Nat) (esc : Byte) : 0 < (askInit ppmd z p st esc).2 := by
  simp [askInit]

theorem inputByte_congr {n : Nat} {z z' : Bits} (h : AgreeBelow n z z') {j : Nat} (hj : 8 * j + 8 ≤ n) :
    inputByte z j = inputByte z' j := by
  unfold inputByte
  rw [peekBits_congr fun k hk => h (8 * j + k) (by omega)]

theorem askInit_congr {ppmd : Ppmd} {z z' : Bits} {p st : Nat} {esc : Byte}
    (h : AgreeBelow (p + 8 * (askInit ppmd z p st esc).2) z z') :
    askInit ppmd z' p st esc = askInit ppmd z p st esc :=
  runReader_congr _ fun j hj => inputByte_congr h (by have : j < (askInit ppmd z p st esc).2 := hj; omega)

theorem askChar_congr {ppmd : Ppmd} {z z' : Bits} {p st : Nat}
    (h : AgreeBelow (p + 8 * (askChar ppmd z p st).2) z z') : askChar ppmd z' p st = askChar ppmd z p st :=
  runReader_congr _ fun j hj => inputByte_congr h (by have : j < (askChar ppmd z p st).2 := hj; omega)

/-- Characters are read forward. -/
theorem le_readChars (ppmd : Ppmd) (z : Bits) (n p st : Nat) : p ≤ (readChars ppmd z n p st).2.1 := by
  induction n generalizing p st with
  | zero => exact Nat.le_refl p
  | succ n ih =>
    simp only [readChars]
    split
    · exact Nat.le_add_right ..
    · exact Nat.le_trans (Nat.le_add_right ..) (ih ..)

/-- The characters a token reads depend on no bit at or past the position after them. -/
theorem readChars_congr {ppmd : Ppmd} {z z' : Bits} {n p st : Nat}
    (h : AgreeBelow (readChars ppmd z n p st).2.1 z z') :
    readChars ppmd z' n p st = readChars ppmd z n p st := by
  induction n generalizing p st with
  | zero => rfl
  | succ n ih =>
    have hc : askChar ppmd z' p st = askChar ppmd z p st := by
      refine askChar_congr fun k hk => h k ?_
      simp only [readChars]
      split
      · exact hk
      · exact Nat.lt_of_lt_of_le hk (le_readChars ..)
    simp only [readChars, hc] at h ⊢
    split
    · rfl
    · rename_i c heq
      simp only [heq] at h
      rw [ih h]

end Sys2Proof
end

