-- ==== Sys2Proof/Laws/State.lean ====
section
/-! SUPPORT. What each named update of the state leaves in each field, true by definition. -/

namespace Sys2Proof.Machine

/-! ### memWrite -/

@[simp] theorem memWrite_cfgGen (a : BitVec 64) (v : Byte) (s : State) : (memWrite a v s).cfgGen = s.cfgGen := rfl
@[simp] theorem memWrite_cfgSolid (a : BitVec 64) (v : Byte) (s : State) : (memWrite a v s).cfgSolid = s.cfgSolid := rfl
@[simp] theorem memWrite_cfgDeclaredSize (a : BitVec 64) (v : Byte) (s : State) : (memWrite a v s).cfgDeclaredSize = s.cfgDeclaredSize := rfl
@[simp] theorem memWrite_cfgWindowLog2 (a : BitVec 64) (v : Byte) (s : State) : (memWrite a v s).cfgWindowLog2 = s.cfgWindowLog2 := rfl
@[simp] theorem memWrite_posByte (a : BitVec 64) (v : Byte) (s : State) : (memWrite a v s).posByte = s.posByte := rfl
@[simp] theorem memWrite_posBit (a : BitVec 64) (v : Byte) (s : State) : (memWrite a v s).posBit = s.posBit := rfl
@[simp] theorem memWrite_input (a : BitVec 64) (v : Byte) (s : State) : (memWrite a v s).input = s.input := rfl
@[simp] theorem memWrite_inEnded (a : BitVec 64) (v : Byte) (s : State) : (memWrite a v s).inEnded = s.inEnded := rfl
@[simp] theorem memWrite_win (a : BitVec 64) (v : Byte) (s : State) : (memWrite a v s).win = Memory.write s.win (windowIndex s a) v := rfl
@[simp] theorem memWrite_wrAbs (a : BitVec 64) (v : Byte) (s : State) : (memWrite a v s).wrAbs = s.wrAbs := rfl
@[simp] theorem memWrite_flAbs (a : BitVec 64) (v : Byte) (s : State) : (memWrite a v s).flAbs = s.flAbs := rfl
@[simp] theorem memWrite_memberBase (a : BitVec 64) (v : Byte) (s : State) : (memWrite a v s).memberBase = s.memberBase := rfl
@[simp] theorem memWrite_oldDist (a : BitVec 64) (v : Byte) (s : State) : (memWrite a v s).oldDist = s.oldDist := rfl
@[simp] theorem memWrite_lastLen (a : BitVec 64) (v : Byte) (s : State) : (memWrite a v s).lastLen = s.lastLen := rfl
@[simp] theorem memWrite_status (a : BitVec 64) (v : Byte) (s : State) : (memWrite a v s).status = s.status := rfl
@[simp] theorem memWrite_errCode (a : BitVec 64) (v : Byte) (s : State) : (memWrite a v s).errCode = s.errCode := rfl
@[simp] theorem memWrite_phase (a : BitVec 64) (v : Byte) (s : State) : (memWrite a v s).phase = s.phase := rfl
@[simp] theorem memWrite_errFlushLeft (a : BitVec 64) (v : Byte) (s : State) : (memWrite a v s).errFlushLeft = s.errFlushLeft := rfl
@[simp] theorem memWrite_v50 (a : BitVec 64) (v : Byte) (s : State) : (memWrite a v s).v50 = s.v50 := rfl
@[simp] theorem memWrite_v29 (a : BitVec 64) (v : Byte) (s : State) : (memWrite a v s).v29 = s.v29 := rfl
@[simp] theorem memWrite_v20 (a : BitVec 64) (v : Byte) (s : State) : (memWrite a v s).v20 = s.v20 := rfl
@[simp] theorem memWrite_out (a : BitVec 64) (v : Byte) (s : State) : (memWrite a v s).out = s.out := rfl
@[simp] theorem memWrite_filt (a : BitVec 64) (v : Byte) (s : State) : (memWrite a v s).filt = s.filt := rfl
@[simp] theorem memWrite_sinkReady (a : BitVec 64) (v : Byte) (s : State) : (memWrite a v s).sinkReady = s.sinkReady := rfl
@[simp] theorem memWrite_flushLimit (a : BitVec 64) (v : Byte) (s : State) : (memWrite a v s).flushLimit = s.flushLimit := rfl
@[simp] theorem memWrite_filterAccept (a : BitVec 64) (v : Byte) (s : State) : (memWrite a v s).filterAccept = s.filterAccept := rfl
@[simp] theorem memWrite_ppmState (a : BitVec 64) (v : Byte) (s : State) : (memWrite a v s).ppmState = s.ppmState := rfl
@[simp] theorem memWrite_events (a : BitVec 64) (v : Byte) (s : State) : (memWrite a v s).events = s.events := rfl
@[simp] theorem memWrite_draws (a : BitVec 64) (v : Byte) (s : State) : (memWrite a v s).draws = s.draws := rfl
@[simp] theorem memWrite_winDraw (a : BitVec 64) (v : Byte) (s : State) : (memWrite a v s).winDraw = s.winDraw := rfl
@[simp] theorem memWrite_desc (a : BitVec 64) (v : Byte) (s : State) : (memWrite a v s).desc = s.desc := rfl

/-! ### putByte -/

@[simp] theorem putByte_cfgGen (b : Byte) (s : State) : (putByte b s).cfgGen = s.cfgGen := rfl
@[simp] theorem putByte_cfgSolid (b : Byte) (s : State) : (putByte b s).cfgSolid = s.cfgSolid := rfl
@[simp] theorem putByte_cfgDeclaredSize (b : Byte) (s : State) : (putByte b s).cfgDeclaredSize = s.cfgDeclaredSize := rfl
@[simp] theorem putByte_cfgWindowLog2 (b : Byte) (s : State) : (putByte b s).cfgWindowLog2 = s.cfgWindowLog2 := rfl
@[simp] theorem putByte_posByte (b : Byte) (s : State) : (putByte b s).posByte = s.posByte := rfl
@[simp] theorem putByte_posBit (b : Byte) (s : State) : (putByte b s).posBit = s.posBit := rfl
@[simp] theorem putByte_input (b : Byte) (s : State) : (putByte b s).input = s.input := rfl
@[simp] theorem putByte_inEnded (b : Byte) (s : State) : (putByte b s).inEnded = s.inEnded := rfl
@[simp] theorem putByte_win (b : Byte) (s : State) : (putByte b s).win = Memory.write s.win (windowIndex s s.wrAbs) b := rfl
@[simp] theorem putByte_wrAbs (b : Byte) (s : State) : (putByte b s).wrAbs = s.wrAbs + 1 := rfl
@[simp] theorem putByte_flAbs (b : Byte) (s : State) : (putByte b s).flAbs = s.flAbs := rfl
@[simp] theorem putByte_memberBase (b : Byte) (s : State) : (putByte b s).memberBase = s.memberBase := rfl
@[simp] theorem putByte_oldDist (b : Byte) (s : State) : (putByte b s).oldDist = s.oldDist := rfl
@[simp] theorem putByte_lastLen (b : Byte) (s : State) : (putByte b s).lastLen = s.lastLen := rfl
@[simp] theorem putByte_status (b : Byte) (s : State) : (putByte b s).status = s.status := rfl
@[simp] theorem putByte_errCode (b : Byte) (s : State) : (putByte b s).errCode = s.errCode := rfl
@[simp] theorem putByte_phase (b : Byte) (s : State) : (putByte b s).phase = s.phase := rfl
@[simp] theorem putByte_errFlushLeft (b : Byte) (s : State) : (putByte b s).errFlushLeft = s.errFlushLeft := rfl
@[simp] theorem putByte_v50 (b : Byte) (s : State) : (putByte b s).v50 = s.v50 := rfl
@[simp] theorem putByte_v29 (b : Byte) (s : State) : (putByte b s).v29 = s.v29 := rfl
@[simp] theorem putByte_v20 (b : Byte) (s : State) : (putByte b s).v20 = s.v20 := rfl
@[simp] theorem putByte_out (b : Byte) (s : State) : (putByte b s).out = s.out := rfl
@[simp] theorem putByte_filt (b : Byte) (s : State) : (putByte b s).filt = s.filt := rfl
@[simp] theorem putByte_sinkReady (b : Byte) (s : State) : (putByte b s).sinkReady = s.sinkReady := rfl
@[simp] theorem putByte_flushLimit (b : Byte) (s : State) : (putByte b s).flushLimit = s.flushLimit := rfl
@[simp] theorem putByte_filterAccept (b : Byte) (s : State) : (putByte b s).filterAccept = s.filterAccept := rfl
@[simp] theorem putByte_ppmState (b : Byte) (s : State) : (putByte b s).ppmState = s.ppmState := rfl
@[simp] theorem putByte_events (b : Byte) (s : State) : (putByte b s).events = s.events := rfl
@[simp] theorem putByte_draws (b : Byte) (s : State) : (putByte b s).draws = s.draws := rfl
@[simp] theorem putByte_winDraw (b : Byte) (s : State) : (putByte b s).winDraw = s.winDraw := rfl
@[simp] theorem putByte_desc (b : Byte) (s : State) : (putByte b s).desc = s.desc := rfl

/-! ### cacheInsert -/

@[simp] theorem cacheInsert_cfgGen (d : BitVec 64) (s : State) : (cacheInsert d s).cfgGen = s.cfgGen := rfl
@[simp] theorem cacheInsert_cfgSolid (d : BitVec 64) (s : State) : (cacheInsert d s).cfgSolid = s.cfgSolid := rfl
@[simp] theorem cacheInsert_cfgDeclaredSize (d : BitVec 64) (s : State) : (cacheInsert d s).cfgDeclaredSize = s.cfgDeclaredSize := rfl
@[simp] theorem cacheInsert_cfgWindowLog2 (d : BitVec 64) (s : State) : (cacheInsert d s).cfgWindowLog2 = s.cfgWindowLog2 := rfl
@[simp] theorem cacheInsert_posByte (d : BitVec 64) (s : State) : (cacheInsert d s).posByte = s.posByte := rfl
@[simp] theorem cacheInsert_posBit (d : BitVec 64) (s : State) : (cacheInsert d s).posBit = s.posBit := rfl
@[simp] theorem cacheInsert_input (d : BitVec 64) (s : State) : (cacheInsert d s).input = s.input := rfl
@[simp] theorem cacheInsert_inEnded (d : BitVec 64) (s : State) : (cacheInsert d s).inEnded = s.inEnded := rfl
@[simp] theorem cacheInsert_win (d : BitVec 64) (s : State) : (cacheInsert d s).win = s.win := rfl
@[simp] theorem cacheInsert_wrAbs (d : BitVec 64) (s : State) : (cacheInsert d s).wrAbs = s.wrAbs := rfl
@[simp] theorem cacheInsert_flAbs (d : BitVec 64) (s : State) : (cacheInsert d s).flAbs = s.flAbs := rfl
@[simp] theorem cacheInsert_memberBase (d : BitVec 64) (s : State) : (cacheInsert d s).memberBase = s.memberBase := rfl
@[simp] theorem cacheInsert_oldDist (d : BitVec 64) (s : State) : (cacheInsert d s).oldDist = s.oldDist.insert d := rfl
@[simp] theorem cacheInsert_lastLen (d : BitVec 64) (s : State) : (cacheInsert d s).lastLen = s.lastLen := rfl
@[simp] theorem cacheInsert_status (d : BitVec 64) (s : State) : (cacheInsert d s).status = s.status := rfl
@[simp] theorem cacheInsert_errCode (d : BitVec 64) (s : State) : (cacheInsert d s).errCode = s.errCode := rfl
@[simp] theorem cacheInsert_phase (d : BitVec 64) (s : State) : (cacheInsert d s).phase = s.phase := rfl
@[simp] theorem cacheInsert_errFlushLeft (d : BitVec 64) (s : State) : (cacheInsert d s).errFlushLeft = s.errFlushLeft := rfl
@[simp] theorem cacheInsert_v50 (d : BitVec 64) (s : State) : (cacheInsert d s).v50 = s.v50 := rfl
@[simp] theorem cacheInsert_v29 (d : BitVec 64) (s : State) : (cacheInsert d s).v29 = s.v29 := rfl
@[simp] theorem cacheInsert_v20 (d : BitVec 64) (s : State) : (cacheInsert d s).v20 = s.v20 := rfl
@[simp] theorem cacheInsert_out (d : BitVec 64) (s : State) : (cacheInsert d s).out = s.out := rfl
@[simp] theorem cacheInsert_filt (d : BitVec 64) (s : State) : (cacheInsert d s).filt = s.filt := rfl
@[simp] theorem cacheInsert_sinkReady (d : BitVec 64) (s : State) : (cacheInsert d s).sinkReady = s.sinkReady := rfl
@[simp] theorem cacheInsert_flushLimit (d : BitVec 64) (s : State) : (cacheInsert d s).flushLimit = s.flushLimit := rfl
@[simp] theorem cacheInsert_filterAccept (d : BitVec 64) (s : State) : (cacheInsert d s).filterAccept = s.filterAccept := rfl
@[simp] theorem cacheInsert_ppmState (d : BitVec 64) (s : State) : (cacheInsert d s).ppmState = s.ppmState := rfl
@[simp] theorem cacheInsert_events (d : BitVec 64) (s : State) : (cacheInsert d s).events = s.events := rfl
@[simp] theorem cacheInsert_draws (d : BitVec 64) (s : State) : (cacheInsert d s).draws = s.draws := rfl
@[simp] theorem cacheInsert_winDraw (d : BitVec 64) (s : State) : (cacheInsert d s).winDraw = s.winDraw := rfl
@[simp] theorem cacheInsert_desc (d : BitVec 64) (s : State) : (cacheInsert d s).desc = s.desc := rfl

/-! ### cacheRotate -/

@[simp] theorem cacheRotate_cfgGen (i : Fin 4) (s : State) : (cacheRotate i s).cfgGen = s.cfgGen := rfl
@[simp] theorem cacheRotate_cfgSolid (i : Fin 4) (s : State) : (cacheRotate i s).cfgSolid = s.cfgSolid := rfl
@[simp] theorem cacheRotate_cfgDeclaredSize (i : Fin 4) (s : State) : (cacheRotate i s).cfgDeclaredSize = s.cfgDeclaredSize := rfl
@[simp] theorem cacheRotate_cfgWindowLog2 (i : Fin 4) (s : State) : (cacheRotate i s).cfgWindowLog2 = s.cfgWindowLog2 := rfl
@[simp] theorem cacheRotate_posByte (i : Fin 4) (s : State) : (cacheRotate i s).posByte = s.posByte := rfl
@[simp] theorem cacheRotate_posBit (i : Fin 4) (s : State) : (cacheRotate i s).posBit = s.posBit := rfl
@[simp] theorem cacheRotate_input (i : Fin 4) (s : State) : (cacheRotate i s).input = s.input := rfl
@[simp] theorem cacheRotate_inEnded (i : Fin 4) (s : State) : (cacheRotate i s).inEnded = s.inEnded := rfl
@[simp] theorem cacheRotate_win (i : Fin 4) (s : State) : (cacheRotate i s).win = s.win := rfl
@[simp] theorem cacheRotate_wrAbs (i : Fin 4) (s : State) : (cacheRotate i s).wrAbs = s.wrAbs := rfl
@[simp] theorem cacheRotate_flAbs (i : Fin 4) (s : State) : (cacheRotate i s).flAbs = s.flAbs := rfl
@[simp] theorem cacheRotate_memberBase (i : Fin 4) (s : State) : (cacheRotate i s).memberBase = s.memberBase := rfl
@[simp] theorem cacheRotate_oldDist (i : Fin 4) (s : State) : (cacheRotate i s).oldDist = s.oldDist.rotate i := rfl
@[simp] theorem cacheRotate_lastLen (i : Fin 4) (s : State) : (cacheRotate i s).lastLen = s.lastLen := rfl
@[simp] theorem cacheRotate_status (i : Fin 4) (s : State) : (cacheRotate i s).status = s.status := rfl
@[simp] theorem cacheRotate_errCode (i : Fin 4) (s : State) : (cacheRotate i s).errCode = s.errCode := rfl
@[simp] theorem cacheRotate_phase (i : Fin 4) (s : State) : (cacheRotate i s).phase = s.phase := rfl
@[simp] theorem cacheRotate_errFlushLeft (i : Fin 4) (s : State) : (cacheRotate i s).errFlushLeft = s.errFlushLeft := rfl
@[simp] theorem cacheRotate_v50 (i : Fin 4) (s : State) : (cacheRotate i s).v50 = s.v50 := rfl
@[simp] theorem cacheRotate_v29 (i : Fin 4) (s : State) : (cacheRotate i s).v29 = s.v29 := rfl
@[simp] theorem cacheRotate_v20 (i : Fin 4) (s : State) : (cacheRotate i s).v20 = s.v20 := rfl
@[simp] theorem cacheRotate_out (i : Fin 4) (s : State) : (cacheRotate i s).out = s.out := rfl
@[simp] theorem cacheRotate_filt (i : Fin 4) (s : State) : (cacheRotate i s).filt = s.filt := rfl
@[simp] theorem cacheRotate_sinkReady (i : Fin 4) (s : State) : (cacheRotate i s).sinkReady = s.sinkReady := rfl
@[simp] theorem cacheRotate_flushLimit (i : Fin 4) (s : State) : (cacheRotate i s).flushLimit = s.flushLimit := rfl
@[simp] theorem cacheRotate_filterAccept (i : Fin 4) (s : State) : (cacheRotate i s).filterAccept = s.filterAccept := rfl
@[simp] theorem cacheRotate_ppmState (i : Fin 4) (s : State) : (cacheRotate i s).ppmState = s.ppmState := rfl
@[simp] theorem cacheRotate_events (i : Fin 4) (s : State) : (cacheRotate i s).events = s.events := rfl
@[simp] theorem cacheRotate_draws (i : Fin 4) (s : State) : (cacheRotate i s).draws = s.draws := rfl
@[simp] theorem cacheRotate_winDraw (i : Fin 4) (s : State) : (cacheRotate i s).winDraw = s.winDraw := rfl
@[simp] theorem cacheRotate_desc (i : Fin 4) (s : State) : (cacheRotate i s).desc = s.desc := rfl

/-! ### setLastLen -/

@[simp] theorem setLastLen_cfgGen (len : Nat) (s : State) : (setLastLen len s).cfgGen = s.cfgGen := rfl
@[simp] theorem setLastLen_cfgSolid (len : Nat) (s : State) : (setLastLen len s).cfgSolid = s.cfgSolid := rfl
@[simp] theorem setLastLen_cfgDeclaredSize (len : Nat) (s : State) : (setLastLen len s).cfgDeclaredSize = s.cfgDeclaredSize := rfl
@[simp] theorem setLastLen_cfgWindowLog2 (len : Nat) (s : State) : (setLastLen len s).cfgWindowLog2 = s.cfgWindowLog2 := rfl
@[simp] theorem setLastLen_posByte (len : Nat) (s : State) : (setLastLen len s).posByte = s.posByte := rfl
@[simp] theorem setLastLen_posBit (len : Nat) (s : State) : (setLastLen len s).posBit = s.posBit := rfl
@[simp] theorem setLastLen_input (len : Nat) (s : State) : (setLastLen len s).input = s.input := rfl
@[simp] theorem setLastLen_inEnded (len : Nat) (s : State) : (setLastLen len s).inEnded = s.inEnded := rfl
@[simp] theorem setLastLen_win (len : Nat) (s : State) : (setLastLen len s).win = s.win := rfl
@[simp] theorem setLastLen_wrAbs (len : Nat) (s : State) : (setLastLen len s).wrAbs = s.wrAbs := rfl
@[simp] theorem setLastLen_flAbs (len : Nat) (s : State) : (setLastLen len s).flAbs = s.flAbs := rfl
@[simp] theorem setLastLen_memberBase (len : Nat) (s : State) : (setLastLen len s).memberBase = s.memberBase := rfl
@[simp] theorem setLastLen_oldDist (len : Nat) (s : State) : (setLastLen len s).oldDist = s.oldDist := rfl
@[simp] theorem setLastLen_lastLen (len : Nat) (s : State) : (setLastLen len s).lastLen = BitVec.ofNat 32 len := rfl
@[simp] theorem setLastLen_status (len : Nat) (s : State) : (setLastLen len s).status = s.status := rfl
@[simp] theorem setLastLen_errCode (len : Nat) (s : State) : (setLastLen len s).errCode = s.errCode := rfl
@[simp] theorem setLastLen_phase (len : Nat) (s : State) : (setLastLen len s).phase = s.phase := rfl
@[simp] theorem setLastLen_errFlushLeft (len : Nat) (s : State) : (setLastLen len s).errFlushLeft = s.errFlushLeft := rfl
@[simp] theorem setLastLen_v50 (len : Nat) (s : State) : (setLastLen len s).v50 = s.v50 := rfl
@[simp] theorem setLastLen_v29 (len : Nat) (s : State) : (setLastLen len s).v29 = s.v29 := rfl
@[simp] theorem setLastLen_v20 (len : Nat) (s : State) : (setLastLen len s).v20 = s.v20 := rfl
@[simp] theorem setLastLen_out (len : Nat) (s : State) : (setLastLen len s).out = s.out := rfl
@[simp] theorem setLastLen_filt (len : Nat) (s : State) : (setLastLen len s).filt = s.filt := rfl
@[simp] theorem setLastLen_sinkReady (len : Nat) (s : State) : (setLastLen len s).sinkReady = s.sinkReady := rfl
@[simp] theorem setLastLen_flushLimit (len : Nat) (s : State) : (setLastLen len s).flushLimit = s.flushLimit := rfl
@[simp] theorem setLastLen_filterAccept (len : Nat) (s : State) : (setLastLen len s).filterAccept = s.filterAccept := rfl
@[simp] theorem setLastLen_ppmState (len : Nat) (s : State) : (setLastLen len s).ppmState = s.ppmState := rfl
@[simp] theorem setLastLen_events (len : Nat) (s : State) : (setLastLen len s).events = s.events := rfl
@[simp] theorem setLastLen_draws (len : Nat) (s : State) : (setLastLen len s).draws = s.draws := rfl
@[simp] theorem setLastLen_winDraw (len : Nat) (s : State) : (setLastLen len s).winDraw = s.winDraw := rfl
@[simp] theorem setLastLen_desc (len : Nat) (s : State) : (setLastLen len s).desc = s.desc := rfl

/-! ### setPhase -/

@[simp] theorem setPhase_cfgGen (p : Phase) (s : State) : (setPhase p s).cfgGen = s.cfgGen := rfl
@[simp] theorem setPhase_cfgSolid (p : Phase) (s : State) : (setPhase p s).cfgSolid = s.cfgSolid := rfl
@[simp] theorem setPhase_cfgDeclaredSize (p : Phase) (s : State) : (setPhase p s).cfgDeclaredSize = s.cfgDeclaredSize := rfl
@[simp] theorem setPhase_cfgWindowLog2 (p : Phase) (s : State) : (setPhase p s).cfgWindowLog2 = s.cfgWindowLog2 := rfl
@[simp] theorem setPhase_posByte (p : Phase) (s : State) : (setPhase p s).posByte = s.posByte := rfl
@[simp] theorem setPhase_posBit (p : Phase) (s : State) : (setPhase p s).posBit = s.posBit := rfl
@[simp] theorem setPhase_input (p : Phase) (s : State) : (setPhase p s).input = s.input := rfl
@[simp] theorem setPhase_inEnded (p : Phase) (s : State) : (setPhase p s).inEnded = s.inEnded := rfl
@[simp] theorem setPhase_win (p : Phase) (s : State) : (setPhase p s).win = s.win := rfl
@[simp] theorem setPhase_wrAbs (p : Phase) (s : State) : (setPhase p s).wrAbs = s.wrAbs := rfl
@[simp] theorem setPhase_flAbs (p : Phase) (s : State) : (setPhase p s).flAbs = s.flAbs := rfl
@[simp] theorem setPhase_memberBase (p : Phase) (s : State) : (setPhase p s).memberBase = s.memberBase := rfl
@[simp] theorem setPhase_oldDist (p : Phase) (s : State) : (setPhase p s).oldDist = s.oldDist := rfl
@[simp] theorem setPhase_lastLen (p : Phase) (s : State) : (setPhase p s).lastLen = s.lastLen := rfl
@[simp] theorem setPhase_status (p : Phase) (s : State) : (setPhase p s).status = s.status := rfl
@[simp] theorem setPhase_errCode (p : Phase) (s : State) : (setPhase p s).errCode = s.errCode := rfl
@[simp] theorem setPhase_phase (p : Phase) (s : State) : (setPhase p s).phase = p := rfl
@[simp] theorem setPhase_errFlushLeft (p : Phase) (s : State) : (setPhase p s).errFlushLeft = s.errFlushLeft := rfl
@[simp] theorem setPhase_v50 (p : Phase) (s : State) : (setPhase p s).v50 = s.v50 := rfl
@[simp] theorem setPhase_v29 (p : Phase) (s : State) : (setPhase p s).v29 = s.v29 := rfl
@[simp] theorem setPhase_v20 (p : Phase) (s : State) : (setPhase p s).v20 = s.v20 := rfl
@[simp] theorem setPhase_out (p : Phase) (s : State) : (setPhase p s).out = s.out := rfl
@[simp] theorem setPhase_filt (p : Phase) (s : State) : (setPhase p s).filt = s.filt := rfl
@[simp] theorem setPhase_sinkReady (p : Phase) (s : State) : (setPhase p s).sinkReady = s.sinkReady := rfl
@[simp] theorem setPhase_flushLimit (p : Phase) (s : State) : (setPhase p s).flushLimit = s.flushLimit := rfl
@[simp] theorem setPhase_filterAccept (p : Phase) (s : State) : (setPhase p s).filterAccept = s.filterAccept := rfl
@[simp] theorem setPhase_ppmState (p : Phase) (s : State) : (setPhase p s).ppmState = s.ppmState := rfl
@[simp] theorem setPhase_events (p : Phase) (s : State) : (setPhase p s).events = s.events := rfl
@[simp] theorem setPhase_draws (p : Phase) (s : State) : (setPhase p s).draws = s.draws := rfl
@[simp] theorem setPhase_winDraw (p : Phase) (s : State) : (setPhase p s).winDraw = s.winDraw := rfl
@[simp] theorem setPhase_desc (p : Phase) (s : State) : (setPhase p s).desc = s.desc := rfl

/-! ### raiseError -/

@[simp] theorem raiseError_cfgGen (e : ErrCode) (s : State) : (raiseError e s).cfgGen = s.cfgGen := rfl
@[simp] theorem raiseError_cfgSolid (e : ErrCode) (s : State) : (raiseError e s).cfgSolid = s.cfgSolid := rfl
@[simp] theorem raiseError_cfgDeclaredSize (e : ErrCode) (s : State) : (raiseError e s).cfgDeclaredSize = s.cfgDeclaredSize := rfl
@[simp] theorem raiseError_cfgWindowLog2 (e : ErrCode) (s : State) : (raiseError e s).cfgWindowLog2 = s.cfgWindowLog2 := rfl
@[simp] theorem raiseError_posByte (e : ErrCode) (s : State) : (raiseError e s).posByte = s.posByte := rfl
@[simp] theorem raiseError_posBit (e : ErrCode) (s : State) : (raiseError e s).posBit = s.posBit := rfl
@[simp] theorem raiseError_input (e : ErrCode) (s : State) : (raiseError e s).input = s.input := rfl
@[simp] theorem raiseError_inEnded (e : ErrCode) (s : State) : (raiseError e s).inEnded = s.inEnded := rfl
@[simp] theorem raiseError_win (e : ErrCode) (s : State) : (raiseError e s).win = s.win := rfl
@[simp] theorem raiseError_wrAbs (e : ErrCode) (s : State) : (raiseError e s).wrAbs = s.wrAbs := rfl
@[simp] theorem raiseError_flAbs (e : ErrCode) (s : State) : (raiseError e s).flAbs = s.flAbs := rfl
@[simp] theorem raiseError_memberBase (e : ErrCode) (s : State) : (raiseError e s).memberBase = s.memberBase := rfl
@[simp] theorem raiseError_oldDist (e : ErrCode) (s : State) : (raiseError e s).oldDist = s.oldDist := rfl
@[simp] theorem raiseError_lastLen (e : ErrCode) (s : State) : (raiseError e s).lastLen = s.lastLen := rfl
@[simp] theorem raiseError_status (e : ErrCode) (s : State) : (raiseError e s).status = .error := rfl
@[simp] theorem raiseError_errCode (e : ErrCode) (s : State) : (raiseError e s).errCode = some e := rfl
@[simp] theorem raiseError_phase (e : ErrCode) (s : State) : (raiseError e s).phase = s.phase := rfl
@[simp] theorem raiseError_errFlushLeft (e : ErrCode) (s : State) : (raiseError e s).errFlushLeft = BitVec.ofNat 64 (errorDraw s) := rfl
@[simp] theorem raiseError_v50 (e : ErrCode) (s : State) : (raiseError e s).v50 = s.v50 := rfl
@[simp] theorem raiseError_v29 (e : ErrCode) (s : State) : (raiseError e s).v29 = s.v29 := rfl
@[simp] theorem raiseError_v20 (e : ErrCode) (s : State) : (raiseError e s).v20 = s.v20 := rfl
@[simp] theorem raiseError_out (e : ErrCode) (s : State) : (raiseError e s).out = s.out := rfl
@[simp] theorem raiseError_filt (e : ErrCode) (s : State) : (raiseError e s).filt = s.filt := rfl
@[simp] theorem raiseError_sinkReady (e : ErrCode) (s : State) : (raiseError e s).sinkReady = s.sinkReady := rfl
@[simp] theorem raiseError_flushLimit (e : ErrCode) (s : State) : (raiseError e s).flushLimit = s.flushLimit := rfl
@[simp] theorem raiseError_filterAccept (e : ErrCode) (s : State) : (raiseError e s).filterAccept = s.filterAccept := rfl
@[simp] theorem raiseError_ppmState (e : ErrCode) (s : State) : (raiseError e s).ppmState = s.ppmState := rfl
@[simp] theorem raiseError_events (e : ErrCode) (s : State) : (raiseError e s).events = s.events := rfl
@[simp] theorem raiseError_draws (e : ErrCode) (s : State) : (raiseError e s).draws = s.draws + 1 := rfl
@[simp] theorem raiseError_winDraw (e : ErrCode) (s : State) : (raiseError e s).winDraw = s.winDraw := rfl
@[simp] theorem raiseError_desc (e : ErrCode) (s : State) : (raiseError e s).desc = s.desc := rfl

/-! ### raiseRefused -/

@[simp] theorem raiseRefused_cfgGen (e : ErrCode) (s : State) : (raiseRefused e s).cfgGen = s.cfgGen := rfl
@[simp] theorem raiseRefused_cfgSolid (e : ErrCode) (s : State) : (raiseRefused e s).cfgSolid = s.cfgSolid := rfl
@[simp] theorem raiseRefused_cfgDeclaredSize (e : ErrCode) (s : State) : (raiseRefused e s).cfgDeclaredSize = s.cfgDeclaredSize := rfl
@[simp] theorem raiseRefused_cfgWindowLog2 (e : ErrCode) (s : State) : (raiseRefused e s).cfgWindowLog2 = s.cfgWindowLog2 := rfl
@[simp] theorem raiseRefused_posByte (e : ErrCode) (s : State) : (raiseRefused e s).posByte = s.posByte := rfl
@[simp] theorem raiseRefused_posBit (e : ErrCode) (s : State) : (raiseRefused e s).posBit = s.posBit := rfl
@[simp] theorem raiseRefused_input (e : ErrCode) (s : State) : (raiseRefused e s).input = s.input := rfl
@[simp] theorem raiseRefused_inEnded (e : ErrCode) (s : State) : (raiseRefused e s).inEnded = s.inEnded := rfl
@[simp] theorem raiseRefused_win (e : ErrCode) (s : State) : (raiseRefused e s).win = s.win := rfl
@[simp] theorem raiseRefused_wrAbs (e : ErrCode) (s : State) : (raiseRefused e s).wrAbs = s.wrAbs := rfl
@[simp] theorem raiseRefused_flAbs (e : ErrCode) (s : State) : (raiseRefused e s).flAbs = s.flAbs := rfl
@[simp] theorem raiseRefused_memberBase (e : ErrCode) (s : State) : (raiseRefused e s).memberBase = s.memberBase := rfl
@[simp] theorem raiseRefused_oldDist (e : ErrCode) (s : State) : (raiseRefused e s).oldDist = s.oldDist := rfl
@[simp] theorem raiseRefused_lastLen (e : ErrCode) (s : State) : (raiseRefused e s).lastLen = s.lastLen := rfl
@[simp] theorem raiseRefused_status (e : ErrCode) (s : State) : (raiseRefused e s).status = .refused := rfl
@[simp] theorem raiseRefused_errCode (e : ErrCode) (s : State) : (raiseRefused e s).errCode = some e := rfl
@[simp] theorem raiseRefused_phase (e : ErrCode) (s : State) : (raiseRefused e s).phase = s.phase := rfl
@[simp] theorem raiseRefused_errFlushLeft (e : ErrCode) (s : State) : (raiseRefused e s).errFlushLeft = s.errFlushLeft := rfl
@[simp] theorem raiseRefused_v50 (e : ErrCode) (s : State) : (raiseRefused e s).v50 = s.v50 := rfl
@[simp] theorem raiseRefused_v29 (e : ErrCode) (s : State) : (raiseRefused e s).v29 = s.v29 := rfl
@[simp] theorem raiseRefused_v20 (e : ErrCode) (s : State) : (raiseRefused e s).v20 = s.v20 := rfl
@[simp] theorem raiseRefused_out (e : ErrCode) (s : State) : (raiseRefused e s).out = s.out := rfl
@[simp] theorem raiseRefused_filt (e : ErrCode) (s : State) : (raiseRefused e s).filt = s.filt := rfl
@[simp] theorem raiseRefused_sinkReady (e : ErrCode) (s : State) : (raiseRefused e s).sinkReady = s.sinkReady := rfl
@[simp] theorem raiseRefused_flushLimit (e : ErrCode) (s : State) : (raiseRefused e s).flushLimit = s.flushLimit := rfl
@[simp] theorem raiseRefused_filterAccept (e : ErrCode) (s : State) : (raiseRefused e s).filterAccept = s.filterAccept := rfl
@[simp] theorem raiseRefused_ppmState (e : ErrCode) (s : State) : (raiseRefused e s).ppmState = s.ppmState := rfl
@[simp] theorem raiseRefused_events (e : ErrCode) (s : State) : (raiseRefused e s).events = s.events := rfl
@[simp] theorem raiseRefused_draws (e : ErrCode) (s : State) : (raiseRefused e s).draws = s.draws := rfl
@[simp] theorem raiseRefused_winDraw (e : ErrCode) (s : State) : (raiseRefused e s).winDraw = s.winDraw := rfl
@[simp] theorem raiseRefused_desc (e : ErrCode) (s : State) : (raiseRefused e s).desc = s.desc := rfl

/-! ### endMember -/

@[simp] theorem endMember_cfgGen (s : State) : (endMember s).cfgGen = s.cfgGen := rfl
@[simp] theorem endMember_cfgSolid (s : State) : (endMember s).cfgSolid = s.cfgSolid := rfl
@[simp] theorem endMember_cfgDeclaredSize (s : State) : (endMember s).cfgDeclaredSize = s.cfgDeclaredSize := rfl
@[simp] theorem endMember_cfgWindowLog2 (s : State) : (endMember s).cfgWindowLog2 = s.cfgWindowLog2 := rfl
@[simp] theorem endMember_posByte (s : State) : (endMember s).posByte = s.posByte := rfl
@[simp] theorem endMember_posBit (s : State) : (endMember s).posBit = s.posBit := rfl
@[simp] theorem endMember_input (s : State) : (endMember s).input = s.input := rfl
@[simp] theorem endMember_inEnded (s : State) : (endMember s).inEnded = s.inEnded := rfl
@[simp] theorem endMember_win (s : State) : (endMember s).win = s.win := rfl
@[simp] theorem endMember_wrAbs (s : State) : (endMember s).wrAbs = s.wrAbs := rfl
@[simp] theorem endMember_flAbs (s : State) : (endMember s).flAbs = s.flAbs := rfl
@[simp] theorem endMember_memberBase (s : State) : (endMember s).memberBase = s.memberBase := rfl
@[simp] theorem endMember_oldDist (s : State) : (endMember s).oldDist = s.oldDist := rfl
@[simp] theorem endMember_lastLen (s : State) : (endMember s).lastLen = s.lastLen := rfl
@[simp] theorem endMember_status (s : State) : (endMember s).status = if pending s = 0 then .done else .drain := rfl
@[simp] theorem endMember_errCode (s : State) : (endMember s).errCode = s.errCode := rfl
@[simp] theorem endMember_phase (s : State) : (endMember s).phase = s.phase := rfl
@[simp] theorem endMember_errFlushLeft (s : State) : (endMember s).errFlushLeft = s.errFlushLeft := rfl
@[simp] theorem endMember_v50 (s : State) : (endMember s).v50 = s.v50 := rfl
@[simp] theorem endMember_v29 (s : State) : (endMember s).v29 = s.v29 := rfl
@[simp] theorem endMember_v20 (s : State) : (endMember s).v20 = s.v20 := rfl
@[simp] theorem endMember_out (s : State) : (endMember s).out = s.out := rfl
@[simp] theorem endMember_filt (s : State) : (endMember s).filt = s.filt := rfl
@[simp] theorem endMember_sinkReady (s : State) : (endMember s).sinkReady = s.sinkReady := rfl
@[simp] theorem endMember_flushLimit (s : State) : (endMember s).flushLimit = s.flushLimit := rfl
@[simp] theorem endMember_filterAccept (s : State) : (endMember s).filterAccept = s.filterAccept := rfl
@[simp] theorem endMember_ppmState (s : State) : (endMember s).ppmState = s.ppmState := rfl
@[simp] theorem endMember_events (s : State) : (endMember s).events = s.events := rfl
@[simp] theorem endMember_draws (s : State) : (endMember s).draws = s.draws := rfl
@[simp] theorem endMember_winDraw (s : State) : (endMember s).winDraw = s.winDraw := rfl
@[simp] theorem endMember_desc (s : State) : (endMember s).desc = s.desc := rfl

/-! ### openDesc -/

@[simp] theorem openDesc_cfgGen (n : Nat) (old : List Len) (s : State) : (openDesc n old s).cfgGen = s.cfgGen := rfl
@[simp] theorem openDesc_cfgSolid (n : Nat) (old : List Len) (s : State) : (openDesc n old s).cfgSolid = s.cfgSolid := rfl
@[simp] theorem openDesc_cfgDeclaredSize (n : Nat) (old : List Len) (s : State) : (openDesc n old s).cfgDeclaredSize = s.cfgDeclaredSize := rfl
@[simp] theorem openDesc_cfgWindowLog2 (n : Nat) (old : List Len) (s : State) : (openDesc n old s).cfgWindowLog2 = s.cfgWindowLog2 := rfl
@[simp] theorem openDesc_posByte (n : Nat) (old : List Len) (s : State) : (openDesc n old s).posByte = s.posByte := rfl
@[simp] theorem openDesc_posBit (n : Nat) (old : List Len) (s : State) : (openDesc n old s).posBit = s.posBit := rfl
@[simp] theorem openDesc_input (n : Nat) (old : List Len) (s : State) : (openDesc n old s).input = s.input := rfl
@[simp] theorem openDesc_inEnded (n : Nat) (old : List Len) (s : State) : (openDesc n old s).inEnded = s.inEnded := rfl
@[simp] theorem openDesc_win (n : Nat) (old : List Len) (s : State) : (openDesc n old s).win = s.win := rfl
@[simp] theorem openDesc_wrAbs (n : Nat) (old : List Len) (s : State) : (openDesc n old s).wrAbs = s.wrAbs := rfl
@[simp] theorem openDesc_flAbs (n : Nat) (old : List Len) (s : State) : (openDesc n old s).flAbs = s.flAbs := rfl
@[simp] theorem openDesc_memberBase (n : Nat) (old : List Len) (s : State) : (openDesc n old s).memberBase = s.memberBase := rfl
@[simp] theorem openDesc_oldDist (n : Nat) (old : List Len) (s : State) : (openDesc n old s).oldDist = s.oldDist := rfl
@[simp] theorem openDesc_lastLen (n : Nat) (old : List Len) (s : State) : (openDesc n old s).lastLen = s.lastLen := rfl
@[simp] theorem openDesc_status (n : Nat) (old : List Len) (s : State) : (openDesc n old s).status = s.status := rfl
@[simp] theorem openDesc_errCode (n : Nat) (old : List Len) (s : State) : (openDesc n old s).errCode = s.errCode := rfl
@[simp] theorem openDesc_phase (n : Nat) (old : List Len) (s : State) : (openDesc n old s).phase = s.phase := rfl
@[simp] theorem openDesc_errFlushLeft (n : Nat) (old : List Len) (s : State) : (openDesc n old s).errFlushLeft = s.errFlushLeft := rfl
@[simp] theorem openDesc_v50 (n : Nat) (old : List Len) (s : State) : (openDesc n old s).v50 = s.v50 := rfl
@[simp] theorem openDesc_v29 (n : Nat) (old : List Len) (s : State) : (openDesc n old s).v29 = s.v29 := rfl
@[simp] theorem openDesc_v20 (n : Nat) (old : List Len) (s : State) : (openDesc n old s).v20 = s.v20 := rfl
@[simp] theorem openDesc_out (n : Nat) (old : List Len) (s : State) : (openDesc n old s).out = s.out := rfl
@[simp] theorem openDesc_filt (n : Nat) (old : List Len) (s : State) : (openDesc n old s).filt = s.filt := rfl
@[simp] theorem openDesc_sinkReady (n : Nat) (old : List Len) (s : State) : (openDesc n old s).sinkReady = s.sinkReady := rfl
@[simp] theorem openDesc_flushLimit (n : Nat) (old : List Len) (s : State) : (openDesc n old s).flushLimit = s.flushLimit := rfl
@[simp] theorem openDesc_filterAccept (n : Nat) (old : List Len) (s : State) : (openDesc n old s).filterAccept = s.filterAccept := rfl
@[simp] theorem openDesc_ppmState (n : Nat) (old : List Len) (s : State) : (openDesc n old s).ppmState = s.ppmState := rfl
@[simp] theorem openDesc_events (n : Nat) (old : List Len) (s : State) : (openDesc n old s).events = s.events := rfl
@[simp] theorem openDesc_draws (n : Nat) (old : List Len) (s : State) : (openDesc n old s).draws = s.draws := rfl
@[simp] theorem openDesc_winDraw (n : Nat) (old : List Len) (s : State) : (openDesc n old s).winDraw = s.winDraw := rfl
@[simp] theorem openDesc_desc (n : Nat) (old : List Len) (s : State) : (openDesc n old s).desc = Desc.opened n old := rfl

/-! ### closeDesc -/

@[simp] theorem closeDesc_cfgGen (s : State) : (closeDesc s).cfgGen = s.cfgGen := rfl
@[simp] theorem closeDesc_cfgSolid (s : State) : (closeDesc s).cfgSolid = s.cfgSolid := rfl
@[simp] theorem closeDesc_cfgDeclaredSize (s : State) : (closeDesc s).cfgDeclaredSize = s.cfgDeclaredSize := rfl
@[simp] theorem closeDesc_cfgWindowLog2 (s : State) : (closeDesc s).cfgWindowLog2 = s.cfgWindowLog2 := rfl
@[simp] theorem closeDesc_posByte (s : State) : (closeDesc s).posByte = s.posByte := rfl
@[simp] theorem closeDesc_posBit (s : State) : (closeDesc s).posBit = s.posBit := rfl
@[simp] theorem closeDesc_input (s : State) : (closeDesc s).input = s.input := rfl
@[simp] theorem closeDesc_inEnded (s : State) : (closeDesc s).inEnded = s.inEnded := rfl
@[simp] theorem closeDesc_win (s : State) : (closeDesc s).win = s.win := rfl
@[simp] theorem closeDesc_wrAbs (s : State) : (closeDesc s).wrAbs = s.wrAbs := rfl
@[simp] theorem closeDesc_flAbs (s : State) : (closeDesc s).flAbs = s.flAbs := rfl
@[simp] theorem closeDesc_memberBase (s : State) : (closeDesc s).memberBase = s.memberBase := rfl
@[simp] theorem closeDesc_oldDist (s : State) : (closeDesc s).oldDist = s.oldDist := rfl
@[simp] theorem closeDesc_lastLen (s : State) : (closeDesc s).lastLen = s.lastLen := rfl
@[simp] theorem closeDesc_status (s : State) : (closeDesc s).status = s.status := rfl
@[simp] theorem closeDesc_errCode (s : State) : (closeDesc s).errCode = s.errCode := rfl
@[simp] theorem closeDesc_phase (s : State) : (closeDesc s).phase = s.phase := rfl
@[simp] theorem closeDesc_errFlushLeft (s : State) : (closeDesc s).errFlushLeft = s.errFlushLeft := rfl
@[simp] theorem closeDesc_v50 (s : State) : (closeDesc s).v50 = s.v50 := rfl
@[simp] theorem closeDesc_v29 (s : State) : (closeDesc s).v29 = s.v29 := rfl
@[simp] theorem closeDesc_v20 (s : State) : (closeDesc s).v20 = s.v20 := rfl
@[simp] theorem closeDesc_out (s : State) : (closeDesc s).out = s.out := rfl
@[simp] theorem closeDesc_filt (s : State) : (closeDesc s).filt = s.filt := rfl
@[simp] theorem closeDesc_sinkReady (s : State) : (closeDesc s).sinkReady = s.sinkReady := rfl
@[simp] theorem closeDesc_flushLimit (s : State) : (closeDesc s).flushLimit = s.flushLimit := rfl
@[simp] theorem closeDesc_filterAccept (s : State) : (closeDesc s).filterAccept = s.filterAccept := rfl
@[simp] theorem closeDesc_ppmState (s : State) : (closeDesc s).ppmState = s.ppmState := rfl
@[simp] theorem closeDesc_events (s : State) : (closeDesc s).events = s.events := rfl
@[simp] theorem closeDesc_draws (s : State) : (closeDesc s).draws = s.draws := rfl
@[simp] theorem closeDesc_winDraw (s : State) : (closeDesc s).winDraw = s.winDraw := rfl
@[simp] theorem closeDesc_desc (s : State) : (closeDesc s).desc = Desc.closed := rfl

end Sys2Proof.Machine
end

