-- ==== Sys2Proof/Laws/Lengths.lean ====
section
/-! SUPPORT. The laws of length descriptions: what a run adds, and that reading a description element by element gives
the lengths the spec's loop gives (R92, R93, R159). -/

namespace Sys2Proof.Machine

/-- A run appends its lengths, cut at the end of the array (R161). -/
theorem run_eq {d : Desc} (h : d.lens.length ≤ d.total) (r : Nat) (l : Len) :
    d.run r l = { d with lens := (d.lens ++ List.replicate r l).take d.total } := by
  simp only [Desc.run, List.take_append, List.take_of_length_le h, List.take_replicate, Nat.min_comm]

theorem length_run_le {d : Desc} (h : d.lens.length ≤ d.total) (r : Nat) (l : Len) :
    (d.run r l).lens.length ≤ (d.run r l).total := by
  rw [run_eq h]; simp

@[simp] theorem run_total (d : Desc) (r : Nat) (l : Len) : (d.run r l).total = d.total := rfl
@[simp] theorem run_old (d : Desc) (r : Nat) (l : Len) : (d.run r l).old = d.old := rfl

/-- A repeat code, on the lengths read so far (R159, R160). -/
theorem repeatLast_eq {d : Desc} (h : d.lens.length ≤ d.total) (r : Nat) :
    d.repeatLast r = (repeatTo d.total r d.lens).map fun t => { d with lens := t } := by
  unfold Desc.repeatLast repeatTo
  cases d.lens.getLast? with
  | none => rfl
  | some l => simp [Except.map, run_eq h]

theorem repeatTo_length {n r : Nat} {t u : List Len} (h : repeatTo n r t = .ok u) : u.length ≤ n := by
  unfold repeatTo at h
  split at h
  · simp at h
  · simp only [Except.ok.injEq] at h; subst h; simp

/-- Reading the codes one after another into the array gives the lengths of `lengths5`. -/
theorem foldlM_lenCode5 {n : Nat} {old : List Len} (cs : List LenCode5) (t : List Len) (s : State)
    (h : t.length ≤ n) (hs : s.desc = { total := n, old := old, lens := t }) :
    cs.foldlM (fun u c => lenCode5Step c u) s =
      (lengths5 n old t cs).map fun u => { s with desc := { total := n, old := old, lens := u } } := by
  induction cs generalizing t s with
  | nil => simp [lengths5, Except.map, ← hs, pure, Except.pure]
  | cons c cs ih =>
    have hd : s.desc.lens.length ≤ s.desc.total := by rw [hs]; exact h
    rw [List.foldlM_cons]
    have plain : ∀ (r : Nat) (l : Len),
        (do let u ← Except.ok (ε := ErrCode) { s with desc := s.desc.run r l }
            cs.foldlM (fun u c => lenCode5Step c u) u) =
          (lengths5 n old ((t ++ List.replicate r l).take n) cs).map fun u =>
            { s with desc := { total := n, old := old, lens := u } } := by
      intro r l
      simp only [bind, Except.bind]
      rw [ih ((t ++ List.replicate r l).take n) _ (by simp) (by simp [run_eq (d := { total := n, old := old, lens := t }) h, hs])]
    have rep : ∀ r : Nat,
        (do let u ← repeatLen r s
            cs.foldlM (fun u c => lenCode5Step c u) u) =
          ((repeatTo n r t).bind fun u => lengths5 n old u cs).map fun u =>
            { s with desc := { total := n, old := old, lens := u } } := by
      intro r
      simp only [repeatLen, hs, repeatLast_eq (d := { total := n, old := old, lens := t }) h]
      cases hr : repeatTo n r t with
      | error e => simp [Except.map, bind, Except.bind]
      | ok u =>
        simp only [Except.map, bind, Except.bind]
        rw [ih u _ (repeatTo_length hr) rfl]
        rfl
    cases c with
    | lit x =>
      have := plain 1 (x + s.desc.old.getD s.desc.lens.length 0)
      simp only [hs] at this
      simpa [lengths5, lenCode5Step, len5Lit, literalLen, Desc.literal, hs] using this
    | rep3 r => simpa [lengths5, lenCode5Step, len5Rep3, lenCode5Count] using rep (r.toNat + 3)
    | rep7 r => simpa [lengths5, lenCode5Step, len5Rep7, lenCode5Count] using rep (r.toNat + 11)
    | zero3 r => simpa [lengths5, lenCode5Step, len5Zero3, runLens, lenCode5Count] using plain (r.toNat + 3) 0
    | zero7 r => simpa [lengths5, lenCode5Step, len5Zero7, runLens, lenCode5Count] using plain (r.toNat + 11) 0

/-- The same for the v20 form. -/
theorem foldlM_lenCode2 {n : Nat} {old : List Len} (cs : List LenCode2) (t : List Len) (s : State)
    (h : t.length ≤ n) (hs : s.desc = { total := n, old := old, lens := t }) :
    cs.foldlM (fun u c => lenCode2Step c u) s =
      (lengths2 n old t cs).map fun u => { s with desc := { total := n, old := old, lens := u } } := by
  induction cs generalizing t s with
  | nil => simp [lengths2, Except.map, ← hs, pure, Except.pure]
  | cons c cs ih =>
    have hd : s.desc.lens.length ≤ s.desc.total := by rw [hs]; exact h
    rw [List.foldlM_cons]
    have plain : ∀ (r : Nat) (l : Len),
        (do let u ← Except.ok (ε := ErrCode) { s with desc := s.desc.run r l }
            cs.foldlM (fun u c => lenCode2Step c u) u) =
          (lengths2 n old ((t ++ List.replicate r l).take n) cs).map fun u =>
            { s with desc := { total := n, old := old, lens := u } } := by
      intro r l
      simp only [bind, Except.bind]
      rw [ih ((t ++ List.replicate r l).take n) _ (by simp) (by simp [run_eq (d := { total := n, old := old, lens := t }) h, hs])]
    have rep : ∀ r : Nat,
        (do let u ← repeatLen r s
            cs.foldlM (fun u c => lenCode2Step c u) u) =
          ((repeatTo n r t).bind fun u => lengths2 n old u cs).map fun u =>
            { s with desc := { total := n, old := old, lens := u } } := by
      intro r
      simp only [repeatLen, hs, repeatLast_eq (d := { total := n, old := old, lens := t }) h]
      cases hr : repeatTo n r t with
      | error e => simp [Except.map, bind, Except.bind]
      | ok u =>
        simp only [Except.map, bind, Except.bind]
        rw [ih u _ (repeatTo_length hr) rfl]
        rfl
    cases c with
    | lit x =>
      have := plain 1 (x + s.desc.old.getD s.desc.lens.length 0)
      simp only [hs] at this
      simpa [lengths2, lenCode2Step, len2Lit, literalLen, Desc.literal, hs] using this
    | rep2 r => simpa [lengths2, lenCode2Step, len2Rep2, lenCode2Count] using rep (r.toNat + 3)
    | zero3 r => simpa [lengths2, lenCode2Step, len2Zero3, runLens, lenCode2Count] using plain (r.toNat + 3) 0
    | zero7 r => simpa [lengths2, lenCode2Step, len2Zero7, runLens, lenCode2Count] using plain (r.toNat + 11) 0

/-- `ReadLengths` in `LENCODE5` form (R159). -/
theorem readLens5_eq (n : Nat) (old : List Len) (cs : List LenCode5) (s : State) :
    readLens5 n old cs s =
      (lengths5 n old [] cs).map fun u => { s with desc := { total := n, old := old, lens := u } } := by
  rw [readLens5, foldlM_lenCode5 cs [] (openDesc n old s) (by simp) rfl]; rfl

/-- `ReadLengths` in `LENCODE2` form (R159). -/
theorem readLens2_eq (n : Nat) (old : List Len) (cs : List LenCode2) (s : State) :
    readLens2 n old cs s =
      (lengths2 n old [] cs).map fun u => { s with desc := { total := n, old := old, lens := u } } := by
  rw [readLens2, foldlM_lenCode2 cs [] (openDesc n old s) (by simp) rfl]; rfl

/-- One element of a pre-table description appends its lengths (R92). -/
theorem preCodeRun_eq {d : Desc} (h : d.lens.length ≤ d.total) (ho : d.old = []) (c : PreCode) :
    preCodeRun c d = { d with lens := (d.lens ++ (match c with
      | .len l => [l]
      | .esc z => if z = 0 then [15] else List.replicate (z.toNat + 2) 0)).take d.total } := by
  cases c with
  | len l => simp [preCodeRun, Desc.literal, run_eq h, ho]
  | esc z =>
    simp only [preCodeRun, Desc.preEscape]
    split <;> simp [run_eq h]

theorem take_append_take {α : Type} (n : Nat) (a b : List α) : ((a.take n) ++ b).take n = (a ++ b).take n := by
  simp only [List.take_append, List.take_take, Nat.min_self, List.length_take]
  rcases Nat.le_total a.length n with h | h
  · rw [Nat.min_eq_right h]
  · rw [Nat.min_eq_left h, Nat.sub_self, Nat.sub_eq_zero_of_le h]

/-- A pre-table description, element by element, gives the pre-lengths of R92. -/
theorem foldl_preCodeRun (cs : List PreCode) (t : List Len) (h : t.length ≤ 20) :
    cs.foldl (fun d c => preCodeRun c d) { total := 20, old := [], lens := t } =
      { total := 20, old := [], lens := (t ++ cs.flatMap fun c => match c with
        | .len l => [l]
        | .esc z => if z = 0 then [15] else List.replicate (z.toNat + 2) 0).take 20 } := by
  induction cs generalizing t with
  | nil => simp [List.take_of_length_le h]
  | cons c cs ih =>
    rw [List.foldl_cons, preCodeRun_eq h rfl, ih _ (by simp)]
    simp only [take_append_take, List.flatMap_cons, List.append_assoc]

/-- The pre-lengths a step reads are those of R92. -/
theorem preLens_eq (cs : List PreCode) : preLens cs = preLengths cs := by
  rw [preLens, Desc.opened, foldl_preCodeRun cs [] (by simp)]; rfl

theorem readPl4e_eq (cs : List PreCode) (s : State) :
    readPl4e cs s = { s with desc := { total := 20, old := [], lens := preLengths cs } } := by
  have : ∀ (cs : List PreCode) (s : State),
      cs.foldl (fun t c => preCodeStep c t) s = { s with desc := cs.foldl (fun d c => preCodeRun c d) s.desc } := by
    intro cs
    induction cs with
    | nil => intro s; rfl
    | cons c cs ih =>
      intro s
      have hc : preCodeStep c s = { s with desc := preCodeRun c s.desc } := by cases c <;> rfl
      rw [List.foldl_cons, ih, hc]; rfl
  rw [readPl4e, this]
  have h := preLens_eq cs
  rw [preLens] at h
  simp only [openDesc, ← h]
  have := foldl_preCodeRun cs [] (by simp)
  simp only [Desc.opened] at this ⊢
  rw [this]

/-- `PL4` (R93): 19 plain pre-lengths. -/
theorem readPl4_eq {ls : List Len} (h : ls.length ≤ 19) (s : State) :
    readPl4 ls s = { s with desc := { total := 19, old := [], lens := ls } } := by
  have : ∀ (ls t : List Len) (s : State), t.length + ls.length ≤ 19 → s.desc = { total := 19, old := [], lens := t } →
      ls.foldl (fun t l => pl4Len l t) s = { s with desc := { total := 19, old := [], lens := t ++ ls } } := by
    intro ls
    induction ls with
    | nil => intro t s _ hs; simp [← hs]
    | cons l ls ih =>
      intro t s hl hs
      simp only [List.length_cons] at hl
      have hp : (pl4Len l s).desc = { total := 19, old := [], lens := t ++ [l] } := by
        simp only [pl4Len, literalLen, Desc.literal]
        rw [run_eq (by rw [hs]; simp; omega), hs]
        simp only [List.getD_nil, List.replicate_one, Desc.mk.injEq, true_and]
        rw [show l + 0 = l from BitVec.add_zero l]
        exact List.take_of_length_le (by simp; omega)
      rw [List.foldl_cons, ih (t ++ [l]) _ (by simp; omega) hp]
      simp [pl4Len, literalLen]
  rw [readPl4, this ls [] (openDesc 19 [] s) (by simpa using h) rfl]
  rfl

/-- The lengths a well-formed description gives fill the array. -/
theorem lengths5_length {n : Nat} {old : List Len} (cs : List LenCode5) (t u : List Len) (ht : t.length ≤ n)
    (h : lengths5 n old t cs = .ok u) (hf : fillsFrom n t.length (cs.map lenCode5Count) = true) : u.length = n := by
  induction cs generalizing t with
  | nil =>
    simp only [lengths5, Except.ok.injEq] at h; subst h
    simp [fillsFrom] at hf; omega
  | cons c cs ih =>
    simp only [List.map_cons, fillsFrom, Bool.and_eq_true, decide_eq_true_eq] at hf
    obtain ⟨hlt, hf⟩ := hf
    have step : ∀ v : List Len, v.length = min (t.length + lenCode5Count c) n → lengths5 n old v cs = .ok u →
        u.length = n := by
      intro v hv hu
      refine ih v (by omega) hu ?_
      by_cases hle : t.length + lenCode5Count c ≤ n
      · rw [hv, Nat.min_eq_left hle]; exact hf
      · cases hcs : cs.map lenCode5Count with
        | nil => simp [fillsFrom, hv]; omega
        | cons a as => rw [hcs] at hf; simp [fillsFrom] at hf; omega
    have rep : ∀ r, lenCode5Count c = r → (repeatTo n r t).bind (fun v => lengths5 n old v cs) = .ok u → u.length = n := by
      intro r hr hb
      unfold repeatTo at hb
      split at hb
      · simp [Except.bind] at hb
      · exact step _ (by simp [hr, Nat.min_comm]) hb
    cases c with
    | lit x => exact step _ (by simp [lenCode5Count, Nat.min_comm]) h
    | rep3 r => exact rep _ rfl h
    | rep7 r => exact rep _ rfl h
    | zero3 r => exact step _ (by simp [lenCode5Count, Nat.min_comm]) h
    | zero7 r => exact step _ (by simp [lenCode5Count, Nat.min_comm]) h

theorem lengths2_length {n : Nat} {old : List Len} (cs : List LenCode2) (t u : List Len) (ht : t.length ≤ n)
    (h : lengths2 n old t cs = .ok u) (hf : fillsFrom n t.length (cs.map lenCode2Count) = true) : u.length = n := by
  induction cs generalizing t with
  | nil =>
    simp only [lengths2, Except.ok.injEq] at h; subst h
    simp [fillsFrom] at hf; omega
  | cons c cs ih =>
    simp only [List.map_cons, fillsFrom, Bool.and_eq_true, decide_eq_true_eq] at hf
    obtain ⟨hlt, hf⟩ := hf
    have step : ∀ v : List Len, v.length = min (t.length + lenCode2Count c) n → lengths2 n old v cs = .ok u →
        u.length = n := by
      intro v hv hu
      refine ih v (by omega) hu ?_
      by_cases hle : t.length + lenCode2Count c ≤ n
      · rw [hv, Nat.min_eq_left hle]; exact hf
      · cases hcs : cs.map lenCode2Count with
        | nil => simp [fillsFrom, hv]; omega
        | cons a as => rw [hcs] at hf; simp [fillsFrom] at hf; omega
    have rep : ∀ r, lenCode2Count c = r → (repeatTo n r t).bind (fun v => lengths2 n old v cs) = .ok u → u.length = n := by
      intro r hr hb
      unfold repeatTo at hb
      split at hb
      · simp [Except.bind] at hb
      · exact step _ (by simp [hr, Nat.min_comm]) hb
    cases c with
    | lit x => exact step _ (by simp [lenCode2Count, Nat.min_comm]) h
    | rep2 r => exact rep _ rfl h
    | zero3 r => exact step _ (by simp [lenCode2Count, Nat.min_comm]) h
    | zero7 r => exact step _ (by simp [lenCode2Count, Nat.min_comm]) h

/-- A slice inside the array is the array's own segment. -/
theorem lensSlice_eq {t : List Len} {a n : Nat} (h : a + n ≤ t.length) : lensSlice t a n = (t.drop a).take n := by
  apply List.ext_getElem
  · simp [lensSlice]; omega
  · intro i h1 h2
    simp only [lensSlice, List.length_map, List.length_range] at h1
    simp only [lensSlice, List.getElem_map, List.getElem_range, List.getElem_take, List.getElem_drop]
    rw [List.getD_eq_getElem _ _ (by omega)]

@[simp] theorem length_lensSlice (t : List Len) (a n : Nat) : (lensSlice t a n).length = n := by simp [lensSlice]

/-- A description stopped by an illegal first repeat gives E2 (R160). -/
theorem lengths5_error {n : Nat} {old : List Len} {cs : List LenCode5} {t : List Len} {e : ErrCode}
    (h : lengths5 n old t cs = .error e) : e = .e2 := by
  have rep : ∀ (r : Nat) (t : List Len) (cs : List LenCode5),
      (∀ u, lengths5 n old u cs = .error e → e = .e2) →
      (repeatTo n r t).bind (fun v => lengths5 n old v cs) = .error e → e = .e2 := by
    intro r t cs ih hb
    unfold repeatTo at hb
    split at hb
    · simpa [Except.bind] using hb.symm
    · exact ih _ hb
  induction cs generalizing t with
  | nil => simp [lengths5] at h
  | cons c cs ih =>
    cases c with
    | lit x => exact ih h
    | rep3 r => exact rep _ _ _ (fun _ => ih) h
    | rep7 r => exact rep _ _ _ (fun _ => ih) h
    | zero3 r => exact ih h
    | zero7 r => exact ih h

theorem lengths2_error {n : Nat} {old : List Len} {cs : List LenCode2} {t : List Len} {e : ErrCode}
    (h : lengths2 n old t cs = .error e) : e = .e2 := by
  induction cs generalizing t with
  | nil => simp [lengths2] at h
  | cons c cs ih =>
    cases c with
    | lit x => exact ih h
    | rep2 r =>
      simp only [lengths2] at h
      unfold repeatTo at h
      split at h
      · simpa [Except.bind] using h.symm
      · exact ih h
    | zero3 r => exact ih h
    | zero7 r => exact ih h

end Sys2Proof.Machine
end

