-- ==== Sys2Proof/Laws/Memory.lean ====
section
/-! SUPPORT. The laws of the window's list of cells: a read after a write, and the canonical form. -/

namespace Sys2Proof.Machine

theorem Memory.read_write_same (m : Memory) (k : Nat) (v : Byte) : (m.write k v).read k = some v := by
  induction m with
  | nil => simp [Memory.write, Memory.read]
  | cons c m ih =>
    obtain ⟨a, b⟩ := c
    simp only [Memory.write]
    split
    · simp [Memory.read]
    · split
      · simp [Memory.read]
      · simp only [Memory.read]
        rw [if_neg (by omega), ih]

theorem Memory.read_write_other (m : Memory) {k j : Nat} (v : Byte) (h : j ≠ k) :
    (m.write k v).read j = m.read j := by
  induction m with
  | nil => simp [Memory.write, Memory.read, Ne.symm h]
  | cons c m ih =>
    obtain ⟨a, b⟩ := c
    simp only [Memory.write]
    split
    · simp [Memory.read, Ne.symm h]
    · split
      · subst k; simp [Memory.read, Ne.symm h]
      · simp only [Memory.read, ih]

/-- The canonical form says that every entry lies below all later ones. -/
theorem Memory.wf_cons {c : Host.Cell} {m : Memory} :
    Memory.wf (c :: m) = true ↔ (∀ d ∈ m.head?, c.1 < d.1) ∧ Memory.wf m = true := by
  obtain ⟨a, b⟩ := c
  cases m with
  | nil => simp [Memory.wf]
  | cons d m => obtain ⟨d, y⟩ := d; simp [Memory.wf]

theorem Memory.head_write {m : Memory} {k : Nat} {v : Byte} {d : Host.Cell} (h : d ∈ (m.write k v).head?) :
    d.1 = k ∨ d ∈ m.head? := by
  cases m with
  | nil => simp [Memory.write] at h; simp [← h]
  | cons c m =>
    obtain ⟨a, b⟩ := c
    simp only [Memory.write] at h
    split at h
    · simp at h; simp [← h]
    · split at h
      · simp at h; simp [← h]
      · simp at h; simp [← h]

/-- A write keeps the canonical form. -/
theorem Memory.wf_write {m : Memory} (k : Nat) (v : Byte) (h : Memory.wf m = true) :
    Memory.wf (m.write k v) = true := by
  induction m with
  | nil => rfl
  | cons c m ih =>
    obtain ⟨a, b⟩ := c
    obtain ⟨h1, h2⟩ := Memory.wf_cons.mp h
    simp only [Memory.write]
    split
    · exact Memory.wf_cons.mpr ⟨by simpa, h⟩
    · split
      · subst k; exact Memory.wf_cons.mpr ⟨h1, h2⟩
      · refine Memory.wf_cons.mpr ⟨fun d hd => ?_, ih h2⟩
        rcases Memory.head_write hd with hk | hd
        · simp only [hk]; omega
        · exact h1 d hd

/-- A write lists no position but its own beside those listed before. -/
theorem Memory.mem_write {m : Memory} {k : Nat} {v : Byte} {c : Host.Cell} (h : c ∈ m.write k v) :
    c.1 = k ∨ c ∈ m := by
  induction m with
  | nil => simp [Memory.write] at h; simp [h]
  | cons e m ih =>
    obtain ⟨a, b⟩ := e
    simp only [Memory.write] at h
    split at h
    · rcases List.mem_cons.mp h with h | h
      · exact .inl (by simp [h])
      · exact .inr h
    · split at h
      · rcases List.mem_cons.mp h with h | h
        · exact .inl (by simp [h])
        · exact .inr (List.mem_cons_of_mem _ h)
      · rcases List.mem_cons.mp h with h | h
        · exact .inr (by simp [h])
        · rcases ih h with h | h
          · exact .inl h
          · exact .inr (List.mem_cons_of_mem _ h)

end Sys2Proof.Machine
end

