-- ==== Sys2Proof/Laws/Step.lean ====
section
/-! SUPPORT. What the outcomes and the moves of a step can be, said once. -/

namespace Sys2Proof.Machine

theorem raiseError_eq (e : ErrCode) (s : State) : raiseError e s = errorState e s := rfl

/-- An outcome answers the state it committed, or the state before it in ERROR. -/
theorem outcome_cases {s : State} {r : Except ErrCode State} {t : State} (h : outcome s r = .next t) :
    r = .ok t ∨ ∃ e, r = .error e ∧ t = errorState e s := by
  cases r with
  | ok u => exact .inl (by simpa [outcome] using h)
  | error e => exact .inr ⟨e, rfl, by simpa [outcome, raiseError_eq] using h.symm⟩

theorem outcome_answers (s : State) (r : Except ErrCode State) : ∃ t, outcome s r = .next t := by
  cases r <;> exact ⟨_, rfl⟩

/-- Every instruction answers a next state: an error is a state too (R402). -/
theorem exec_answers (i : Instr) (s : State) : ∃ t, exec i s = .next t := by
  cases i with
  | v20Tail p => cases p <;> first | exact ⟨_, rfl⟩ | exact outcome_answers _ _
  | v29Eob e => cases e <;> exact ⟨_, rfl⟩
  | _ => first | exact ⟨_, rfl⟩ | exact outcome_answers _ _

/-- An emitted descriptor is appended to FILT, or the scheduler rejects it (R72, R420). -/
theorem emitFilter_cases (d : FilterDesc) (s : State) :
    (s.filterAccept = true ∧ emitFilter d s = .ok { s with filt := s.filt ++ [d] }) ∨
      (s.filterAccept = false ∧ emitFilter d s = .error .e8) := by
  cases h : s.filterAccept <;> simp [emitFilter, h]

/-- The decoder core's step: it moves in RUNNING only, by the rule due, when the gate is open, and then commits or raises what its
bits give, or ends by exhaustion (R210, R211, R138). -/
theorem coreMove_cases {s : State} {o : Host.Outcome State Fault Refusal} (h : coreMove s = some o) :
    s.status = .running ∧
      ((dispatch s = none ∧ o = .fault .noDispatchRule) ∨
        ∃ ctx, dispatch s = some ctx ∧ gateOpen s = true ∧
          (((fetch ctx s).need ≤ availBits s ∧ o = advanceOutcome (fetch ctx s) (run (fetch ctx s) s)) ∨
            (availBits s < (fetch ctx s).need ∧ s.inEnded = true ∧ o = .next (exhaust s)))) := by
  unfold coreMove at h
  split at h
  · simp at h
  · rename_i hs
    refine ⟨by simpa using hs, ?_⟩
    split at h
    · rename_i hd; exact .inl ⟨hd, by simpa using h.symm⟩
    · rename_i ctx hd
      refine .inr ⟨ctx, hd, ?_⟩
      split at h
      · rename_i hg
        refine ⟨hg, ?_⟩
        unfold settle at h
        split at h
        · rename_i hn; exact .inl ⟨hn, by simpa using h.symm⟩
        · rename_i hn
          split at h
          · rename_i he; exact .inr ⟨by omega, he, by simpa using h.symm⟩
          · simp at h
      · simp at h

/-- What running a decoding answers: its instruction's state, or the error of a reading that formed none. -/
theorem run_cases {d : Decoded} {s t : State} (h : run d s = .next t) :
    (∃ i, d.res = .ok i ∧ exec i s = .next t) ∨ ∃ e, d.res = .error e ∧ t = errorState e s := by
  unfold run at h
  split at h
  · rename_i i hi; exact .inl ⟨i, hi, h⟩
  · rename_i e he; exact .inr ⟨e, he, by simpa [raiseError_eq] using h.symm⟩

theorem advanceOutcome_next {d : Decoded} {o : Host.Outcome State Fault Refusal} {t : State}
    (h : advanceOutcome d o = .next t) : ∃ u, o = .next u ∧ t = advance d u := by
  cases o with
  | next u => exact ⟨u, rfl, by simpa [advanceOutcome] using h.symm⟩
  | fault f => simp [advanceOutcome] at h
  | refused r => simp [advanceOutcome] at h

/-- One step is the oldest scheduled move, or, with none scheduled, the decoder core's or the flush engine's. -/
theorem step_cases {s t : State} (h : step s = .next t) :
    (∃ e rest, s.events = e :: rest ∧ eventMove e { s with events := rest } = .next t) ∨
      (s.events = [] ∧ coreMove s = some (.next t)) ∨
      (s.events = [] ∧ coreMove s = none ∧ t = flushMove s) := by
  unfold step at h
  split at h
  · rename_i e rest he; exact .inl ⟨e, rest, he, h⟩
  · rename_i he
    cases hc : coreMove s with
    | none => exact .inr (.inr ⟨he, rfl, by simpa [hc] using h.symm⟩)
    | some o => exact .inr (.inl ⟨he, by simpa [hc] using h⟩)

end Sys2Proof.Machine
end

