-- ==== Sys2Proof/Laws/Tables.lean ====
section
/-! SUPPORT. What a table read does, said once: which arrays it builds tables from and what it leaves in the state. -/

namespace Sys2Proof.Machine

/-! ### The lengths a well-formed description gives -/

/-- Counts that fill an array of `n` sum up to at least what is missing. -/
theorem fillsFrom_sum {n : Nat} : ∀ (cs : List Nat) (i : Nat), fillsFrom n i cs = true → n ≤ i + cs.sum
  | [], i, h => by simpa [fillsFrom] using h
  | c :: cs, i, h => by
    simp only [fillsFrom, Bool.and_eq_true] at h
    have := fillsFrom_sum cs _ h.2
    simp only [List.sum_cons]; omega

/-- Pre-lengths that fill the pre-table are 20 (R92). -/
theorem preLengths_length {cs : List PreCode} (h : fillsFrom 20 0 (cs.map preCodeCount) = true) :
    (preLengths cs).length = 20 := by
  have hs := fillsFrom_sum _ _ h
  simp only [preLengths, List.length_take, List.length_flatMap]
  rw [List.map_congr_left (g := preCodeCount) fun c _ => ?_]
  · omega
  · cases c with
    | len l => rfl
    | esc z => simp only [preCodeCount]; split <;> simp

/-- The 20 pre-lengths are the slice that the pre-table is built from. -/
theorem lensSlice_pre {cs : List PreCode} (h : fillsFrom 20 0 (cs.map preCodeCount) = true) :
    lensSlice (preLengths cs) 0 20 = preLengths cs := by
  rw [lensSlice_eq (by rw [preLengths_length h])]
  simp [preLengths_length h]

/-- The pre-lengths of a well-formed description fill its pre-table. -/
theorem TableDesc5_wf_pre {d : TableDesc5} {n : Nat} (h : d.wf n = true) :
    fillsFrom 20 0 (d.pre.map preCodeCount) = true := by
  simp only [TableDesc5.wf, Bool.and_eq_true] at h; exact h.1.2

/-- A well-formed description that reads without an error gives the whole array (R159). -/
theorem TableDesc5_wf_length {d : TableDesc5} {n : Nat} (hd : d.wf n = true) {bd : HuffTable}
    (hb : buildTable (preLengths d.pre) = .ok bd) {old t : List Len} (h : lengths5 n old [] d.lens = .ok t) :
    t.length = n := by
  simp only [TableDesc5.wf, preLens_eq, hb, Bool.and_eq_true] at hd
  have h2 := hd.2
  cases hl : d.lens with
  | nil => simp [hl, lens5Wf] at h2
  | cons c cs =>
    simp only [hl, lens5Wf] at h2
    split at h2
    · rename_i hr
      cases c <;> simp [lenCode5Repeats] at hr
      all_goals simp [hl, lengths5, repeatTo, Except.bind] at h
    · rw [hl] at h
      exact lengths5_length _ _ _ (by simp) h h2

/-- The same of a v20 description. -/
theorem V20Header_wf_length {h : V20Header} (hw : h.wf = true) {bd : HuffTable} (hb : buildTable h.pre = .ok bd)
    {old t : List Len} (hl : lengths2 (v20LensCount h.audio) old [] h.lens = .ok t) :
    t.length = v20LensCount h.audio := by
  simp only [V20Header.wf, hb, Bool.and_eq_true] at hw
  have h2 := hw.2
  cases hc : h.lens with
  | nil => simp [hc, lens2Wf] at h2
  | cons c cs =>
    simp only [hc, lens2Wf] at h2
    split at h2
    · rename_i hr
      cases c <;> simp [lenCode2Repeats] at hr
      simp [hc, lengths2, repeatTo, Except.bind] at hl
    · rw [hc] at hl
      exact lengths2_length _ _ _ (by simp) hl h2

/-! ### The reads -/

/-- `ReadTables5()` (R245). -/
theorem readTables5_eq (d : TableDesc5) (s : State) :
    readTables5 d s = (do
      let bd ← buildTable (lensSlice (preLengths d.pre) 0 20)
      let t ← lengths5 430 [] [] d.lens
      let ld ← buildTable (lensSlice t 0 306)
      let dd ← buildTable (lensSlice t 306 64)
      let ldd ← buildTable (lensSlice t 370 16)
      let rd ← buildTable (lensSlice t 386 44)
      .ok { s with
        v50 := { s.v50 with ld := ld, dd := dd, ldd := ldd, rd := rd, bd := bd, tablesRead := true }
        desc := Desc.closed }) := by
  simp only [readTables5, readPl4e_eq, readLens5_eq, bind, Except.bind]
  cases buildTable (lensSlice (preLengths d.pre) 0 20) with
  | error e => rfl
  | ok bd => cases lengths5 430 [] [] d.lens <;> rfl

/-- `ReadTables3()` (R285, R286). -/
theorem readTables3_eq (d : TableDesc5) (s : State) :
    readTables3 d s = (do
      let bd ← buildTable (lensSlice (preLengths d.pre) 0 20)
      let t ← lengths5 404 s.v29.oldLens [] d.lens
      let ld ← buildTable (lensSlice t 0 299)
      let dd ← buildTable (lensSlice t 299 60)
      let ldd ← buildTable (lensSlice t 359 17)
      let rd ← buildTable (lensSlice t 376 28)
      .ok { s with
        v29 := { s.v29 with
          ld := ld, dd := dd, ldd := ldd, rd := rd, bd := bd, tablesRead := true, oldLens := lensSlice t 0 404 }
        desc := Desc.closed }) := by
  simp only [readTables3, readPl4e_eq, readLens5_eq, bind, Except.bind]
  cases buildTable (lensSlice (preLengths d.pre) 0 20) with
  | error e => rfl
  | ok bd => cases lengths5 404 s.v29.oldLens [] d.lens <;> rfl

/-- `ReadTables2()` (R333), from its header's 19 pre-lengths. -/
theorem readTables2_eq {h : V20Header} (hp : h.pre.length ≤ 19) (s : State) :
    readTables2 h s = (do
      let s0 := startTables2 h s
      let n := v20LensCount h.audio
      let bd ← buildTable (lensSlice h.pre 0 19)
      let t ← lengths2 n s0.v20.oldLens [] h.lens
      let s3 ← buildTables2 (lensSlice t 0 n)
        { s0 with desc := { total := n, old := s0.v20.oldLens, lens := t }, v20.bd := bd, v20.tablesRead := true }
      .ok { s3 with v20.oldLens := lensSlice t 0 n ++ s0.v20.oldLens.drop n, desc := Desc.closed }) := by
  simp only [readTables2, readPl4_eq hp, readLens2_eq, bind, Except.bind]
  cases buildTable (lensSlice h.pre 0 19) with
  | error e => rfl
  | ok bd => cases lengths2 (v20LensCount h.audio) (startTables2 h s).v20.oldLens [] h.lens <;> rfl

/-- The audio tables (R335): `MD2[c]` to `MD2[c + n - 1]` are built from their segments, the others kept. -/
theorem buildAudioTables_eq (t : List Len) : ∀ (n c : Nat) (md0 md : List HuffTable), md0.length = md.length →
    c + n ≤ md.length →
    (∀ k < n, buildTable (lensSlice t (257 * (c + k)) 257) = .ok (md.getD (c + k) (emptyTable 257))) →
    (∀ k, k < c ∨ c + n ≤ k → md[k]? = md0[k]?) → buildAudioTables t c n md0 = .ok md := by
  intro n
  induction n with
  | zero =>
    intro c md0 md hl hc _ h
    simp only [buildAudioTables, Except.ok.injEq]
    exact (List.ext_getElem? fun k => h k (by omega)).symm
  | succ n ih =>
    intro c md0 md hl hc hb h
    have h0 := hb 0 (by omega)
    simp only [Nat.add_zero] at h0
    simp only [buildAudioTables, h0, bind, Except.bind]
    refine ih (c + 1) _ md (by simp [hl]) (by omega) (fun k hk => ?_) (fun k hk => ?_)
    · have := hb (k + 1) (by omega)
      rw [show c + 1 + k = c + (k + 1) by omega]; exact this
    · rw [List.getElem?_set]
      split
      · subst k
        rw [if_pos (by omega), List.getElem?_eq_getElem (by omega), List.getD_eq_getElem _ _ (by omega)]
      · exact h k (by omega)

end Sys2Proof.Machine
end

