-- ==== Sys2Proof/Laws/Window.lean ====
section
/-! SUPPORT. The laws of the window: reads after a byte was put, and everything a copy does. -/

namespace Sys2Proof.Machine

/-! ### Window positions as residues modulo WINDOW_SIZE -/

/-- An absolute position modulo WINDOW_SIZE. -/
def residue (s : State) (a : BitVec 64) : ZMod (windowSize s) := (a.toNat : ZMod (windowSize s))

theorem windowIndex_eq_iff (s : State) (a b : BitVec 64) :
    windowIndex s a = windowIndex s b ↔ residue s a = residue s b :=
  (ZMod.natCast_eq_natCast_iff' _ _ _).symm

theorem windowSize_pos (s : State) : 0 < windowSize s := Nat.two_pow_pos _

theorem windowIndex_lt (s : State) (a : BitVec 64) : windowIndex s a < windowSize s :=
  Nat.mod_lt _ (windowSize_pos s)

theorem windowSize_dvd {s : State} (h : legalWindow s) : windowSize s ∣ 2 ^ 64 := by
  obtain ⟨k, hk, _, hle⟩ := h
  simpa [windowSize, hk] using Nat.pow_dvd_pow 2 (show k ≤ 64 by omega)

theorem legal_size {s : State} (h : legalWindow s) : 65536 ≤ windowSize s ∧ windowSize s ≤ 2 ^ 32 := by
  obtain ⟨k, hk, h1, h2⟩ := h
  simp only [windowSize, hk, Option.getD_some]
  exact ⟨by simpa using Nat.pow_le_pow_right (show 0 < 2 by norm_num) h1, Nat.pow_le_pow_right (by norm_num) h2⟩

theorem natCast_mod_word {s : State} (h : legalWindow s) (n : Nat) :
    ((n % 2 ^ 64 : Nat) : ZMod (windowSize s)) = n := by
  rw [ZMod.natCast_eq_natCast_iff']
  exact Nat.mod_mod_of_dvd _ (windowSize_dvd h)

theorem natCast_word {s : State} (h : legalWindow s) : ((2 ^ 64 : Nat) : ZMod (windowSize s)) = 0 :=
  (ZMod.natCast_eq_zero_iff _ _).mpr (windowSize_dvd h)

theorem residue_add {s : State} (h : legalWindow s) (a b : BitVec 64) :
    residue s (a + b) = residue s a + residue s b := by
  simp only [residue, BitVec.toNat_add]
  rw [natCast_mod_word h]; push_cast; ring

theorem residue_sub {s : State} (h : legalWindow s) (a b : BitVec 64) :
    residue s (a - b) = residue s a - residue s b := by
  simp only [residue, BitVec.toNat_sub]
  rw [natCast_mod_word h, Nat.cast_add, Nat.cast_sub (by omega), natCast_word h]; ring

theorem residue_ofNat {s : State} (h : legalWindow s) (n : Nat) : residue s (BitVec.ofNat 64 n) = n := by
  simp only [residue, BitVec.toNat_ofNat]; exact natCast_mod_word h n

theorem residue_one {s : State} (h : legalWindow s) : residue s 1 = 1 := by
  simpa using residue_ofNat h 1

theorem natCast_ne_zero {s : State} {i : Nat} (h0 : 0 < i) (hi : i < windowSize s) :
    (i : ZMod (windowSize s)) ≠ 0 := fun h =>
  absurd (Nat.le_of_dvd h0 ((ZMod.natCast_eq_zero_iff _ _).mp h)) (by omega)

theorem add_one_ofNat (a : BitVec 64) (n : Nat) :
    a + 1 + BitVec.ofNat 64 n = a + BitVec.ofNat 64 (n + 1) := by
  rw [BitVec.add_assoc, Nat.add_comm n 1, BitVec.ofNat_add]; rfl

/-! ### Reads after one byte -/

@[simp] theorem windowSize_putByte (b : Byte) (s : State) : windowSize (putByte b s) = windowSize s := rfl
@[simp] theorem windowIndex_putByte (b : Byte) (s : State) (a : BitVec 64) :
    windowIndex (putByte b s) a = windowIndex s a := rfl

theorem memRead_putByte_same (b : Byte) {s : State} {a : BitVec 64}
    (h : windowIndex s a = windowIndex s s.wrAbs) : memRead (putByte b s) a = b := by
  simp [memRead, h, Memory.read_write_same]

theorem memRead_putByte_other (b : Byte) {s : State} {a : BitVec 64}
    (h : windowIndex s a ≠ windowIndex s s.wrAbs) : memRead (putByte b s) a = memRead s a := by
  simp [memRead, Memory.read_write_other _ _ h]

/-- One byte was appended (R180). -/
theorem putByte_appended (b : Byte) (s : State) : Appended 1 (fun _ => b) s (putByte b s) := by
  refine ⟨fun i hi => ?_, fun a ha => ?_⟩
  · obtain rfl : i = 0 := by omega
    exact memRead_putByte_same b (by simp)
  · exact memRead_putByte_other b (by simpa using ha 0 (by omega))

theorem putByte_wrote (b : Byte) (s : State) : putByte b s = wrote 1 s (putByte b s) := rfl

/-! ### Copies -/

/-- A copy changes the window and the write cursor only (R181). -/
theorem copyMatch_wrote (n : Nat) (dist : BitVec 64) (s : State) :
    copyMatch n dist s = wrote n s (copyMatch n dist s) := by
  induction n generalizing s with
  | zero => simp [copyMatch, wrote]
  | succ n ih =>
    simp only [copyMatch]
    conv_lhs => rw [ih]
    simp only [wrote, putByte_wrAbs, add_one_ofNat]
    rfl

@[simp] theorem copyMatch_wrAbs (n : Nat) (dist : BitVec 64) (s : State) :
    (copyMatch n dist s).wrAbs = s.wrAbs + BitVec.ofNat 64 n := by rw [copyMatch_wrote]; rfl

/-- A copy keeps the canonical form of the window (R181). -/
theorem copyMatch_windowOk (n : Nat) (dist : BitVec 64) {s : State} (h : windowOk s) :
    windowOk (copyMatch n dist s) := by
  induction n generalizing s with
  | zero => exact h
  | succ n ih =>
    refine ih ⟨Memory.wf_write _ _ h.1, fun c hc => ?_⟩
    rcases Memory.mem_write hc with hk | hc
    · rw [hk]; exact windowIndex_lt _ _
    · exact h.2 c hc

/-- The first byte a copy appends. -/
theorem copySource_zero {s : State} (h : legalWindow s) (dist : BitVec 64) :
    copySource s dist.toNat 0 = memRead s (s.wrAbs - dist) := by
  have key : ∀ a b : BitVec 64, windowIndex s a = windowIndex s b → memRead s a = memRead s b := by
    intro a b hab; simp [memRead, hab]
  have hd : (dist.toNat : ZMod (windowSize s)) = ((dist.toNat % windowSize s : Nat) : ZMod (windowSize s)) := by
    rw [ZMod.natCast_mod]
  simp only [copySource]
  split
  · rename_i h0
    apply key; rw [windowIndex_eq_iff, residue_add h, residue_sub h, residue_ofNat h]
    rw [h0] at hd; simp only [residue] at hd ⊢; rw [hd]; simp
  · apply key; rw [windowIndex_eq_iff, residue_add h, residue_sub h, residue_sub h, residue_ofNat h, residue_ofNat h]
    simp only [residue] at hd ⊢; rw [hd]; simp

/-- After its first byte, a copy goes on as the copy of the rest. -/
theorem copySource_succ {s : State} (h : legalWindow s) (dist : BitVec 64) {i : Nat} (hi : i + 1 < windowSize s) :
    copySource (putByte (memRead s (s.wrAbs - dist)) s) dist.toNat i = copySource s dist.toNat (i + 1) := by
  set b := memRead s (s.wrAbs - dist) with hb
  have key : ∀ a c : BitVec 64, windowIndex s a = windowIndex s c → memRead s a = memRead s c := by
    intro a c hac; simp [memRead, hac]
  by_cases h0 : dist.toNat % windowSize s = 0
  · simp only [copySource, windowSize_putByte, h0, if_true, putByte_wrAbs]
    rw [memRead_putByte_other]
    · apply key; rw [windowIndex_eq_iff]
      simp only [residue_add h, residue_ofNat h, residue_one h]; push_cast; ring
    · rw [Ne, windowIndex_eq_iff]
      simp only [residue_add h, residue_ofNat h, residue_one h]
      intro he
      refine natCast_ne_zero (i := i + 1) (by omega) hi ?_
      push_cast
      linear_combination he
  · set d := dist.toNat % windowSize s with hdef
    have hdlt : d < windowSize s := Nat.mod_lt _ (windowSize_pos s)
    have hm : i % d < d := Nat.mod_lt _ (by omega)
    simp only [copySource, windowSize_putByte, ← hdef, h0, if_false, putByte_wrAbs]
    by_cases hlast : i % d + 1 = d
    · have h2 : (i + 1) % d = 0 := by rw [← Nat.mod_add_mod, hlast, Nat.mod_self]
      rw [h2, memRead_putByte_same]
      · have := copySource_zero h dist
        simp only [copySource, ← hdef, h0, if_false, Nat.zero_mod] at this
        rw [this]
      · rw [windowIndex_eq_iff]
        simp only [residue_add h, residue_sub h, residue_ofNat h, residue_one h]
        have : ((i % d : Nat) : ZMod (windowSize s)) + 1 = (d : ZMod (windowSize s)) := by rw [← hlast]; push_cast; rw [hlast]
        linear_combination this
    · have h2 : (i + 1) % d = i % d + 1 := by
        rw [← Nat.mod_add_mod]; exact Nat.mod_eq_of_lt (by omega)
      rw [h2, memRead_putByte_other]
      · apply key; rw [windowIndex_eq_iff]
        simp only [residue_add h, residue_sub h, residue_ofNat h, residue_one h]; push_cast; ring
      · rw [Ne, windowIndex_eq_iff]
        simp only [residue_add h, residue_sub h, residue_ofNat h, residue_one h]
        intro he
        refine natCast_ne_zero (s := s) (i := d - (i % d + 1)) (by omega) (by omega) ?_
        rw [Nat.cast_sub (by omega)]; push_cast
        linear_combination -he

/-- Everything a copy of at most WINDOW_SIZE bytes does to the window (R181, R183). -/
theorem copyMatch_appended {s : State} (h : legalWindow s) {n : Nat} (dist : BitVec 64) (hn : n ≤ windowSize s) :
    Appended n (copySource s dist.toNat) s (copyMatch n dist s) := by
  induction n generalizing s with
  | zero => exact ⟨fun i hi => absurd hi (by omega), fun a _ => rfl⟩
  | succ n ih =>
    set s1 := putByte (memRead s (s.wrAbs - dist)) s with hs1
    have h1 : legalWindow s1 := h
    obtain ⟨ha, hb⟩ := ih h1 (by simpa [hs1] using Nat.le_of_succ_le hn)
    have hw : ∀ i : Nat, s1.wrAbs + BitVec.ofNat 64 i = s.wrAbs + BitVec.ofNat 64 (i + 1) := by
      intro i; rw [hs1, putByte_wrAbs, add_one_ofNat]
    have hc : copyMatch (n + 1) dist s = copyMatch n dist s1 := rfl
    rw [hc]
    refine ⟨fun i hi => ?_, fun a hne => ?_⟩
    · cases i with
      | zero =>
        rw [hb]
        · rw [copySource_zero h, hs1, memRead_putByte_same]; simp
        · intro j hj
          rw [hw, hs1, windowIndex_putByte, windowIndex_putByte, Ne, windowIndex_eq_iff]
          simp only [residue_add h, residue_ofNat h]
          intro he
          refine natCast_ne_zero (s := s) (i := j + 1) (by omega) (by omega) ?_
          push_cast at he ⊢
          linear_combination -he
      | succ i =>
        rw [← hw, ha i (by omega), hs1, copySource_succ h dist (by omega)]
    · rw [hb a (fun i hi => by rw [hw]; exact hne (i + 1) (by omega)), hs1, memRead_putByte_other]
      simpa using hne 0 (by omega)

/-- The repeat-last copy: nothing while `LAST_LEN` is 0, which is a copy of no bytes (R252, R290). -/
theorem copyLast_eq (s : State) : copyLast s = copyMatch s.lastLen.toNat s.oldDist.d0 s := by
  unfold copyLast
  split
  · rename_i h; simp [h, copyMatch]
  · rfl

end Sys2Proof.Machine
end

