-- ==== Sys2Proof/Tests/Slice0.lean ====
section
/-! SUPPORT. Tests: ill-formed terms that WellFormed refuses, words written out from the spec's encodings, one small
run of each instruction, and for every statement with hypotheses a state and operands that meet them. Expected values are
those of spec/95_test_vectors.md or worked out by hand from the rule named. -/

section

set_option Elab.async false

open Sys2Proof Sys2Proof.Machine

/-! ### WellFormed refuses -/

theorem test_wf_pre_fifteen : (Instr.pl4eLen 15).wf = false := by decide
theorem test_wf_ppm_escape_zero : (Instr.ppmEscLit 0).wf = false ∧ (Instr.ppmEscLit 5).wf = false := by decide
theorem test_wf_fills_short : fillsFrom 20 0 [10, 9] = false := by decide
theorem test_wf_fills_past_the_end : fillsFrom 20 0 [20, 1] = false := by decide
theorem test_wf_lens_empty : lens5Wf 430 [] = false ∧ lens2Wf 374 [] = false := by decide
theorem test_wf_lens_after_first_repeat : lens5Wf 4 [.rep3 0, .lit 1] = false ∧ lens2Wf 4 [.rep2 0, .lit 1] = false := by
  decide
theorem test_wf_lens_short : lens5Wf 4 [.zero3 0] = false ∧ lens2Wf 4 [.zero3 0] = false := by decide
theorem test_wf_desc_pre_short : TableDesc5.wf 430 { pre := [.esc 15], lens := [] } = false := by decide +kernel
theorem test_wf_desc_after_bad_pre :
    TableDesc5.wf 430 { pre := [.len 1, .len 1, .len 1, .esc 15], lens := [.lit 0] } = false := by decide +kernel
theorem test_wf_header_after_reserved_count :
    (Instr.v50NextBlock { flags := 0x98, check := 1, size := 0, tables := none }).wf = false := by decide
theorem test_wf_header_wide_size :
    (Instr.v50NextBlock { flags := 0x40, check := 0x1A, size := 0x100, tables := none }).wf = false := by decide
theorem test_wf_header_missing_tables :
    (Instr.v50FirstHeader { flags := 0x85, check := 0xDF, size := 0, tables := none }).wf = false := by decide
theorem test_wf_header_needless_tables :
    (Instr.v50FirstHeader { flags := 0x40, check := 0x1B, size := 1, tables := some { pre := [], lens := [] } }).wf
      = false := by decide
theorem test_wf_v29_header : (Instr.v29Tables (.lz false { pre := [], lens := [] })).wf = false := by decide +kernel
theorem test_wf_v20_header_short :
    (Instr.v20Tables { audio := none, keep := false, pre := [1, 1, 1], lens := [] }).wf = false := by decide +kernel
theorem test_wf_v20_header_after_bad_pre :
    (Instr.v20Tables { audio := none, keep := false, pre := List.replicate 19 1, lens := [.lit 0] }).wf = false := by
  decide +kernel
theorem test_wf_tail_symbol : (Instr.v20Tail (.ignored 298)).wf = false ∧ (Instr.v20Tail (.ignored 269)).wf = false := by
  decide
theorem test_wf_filter_wide_start : (Instr.v50Filter
    { startCount := 0, start := 256, lengthCount := 0, length := 0, type := 1, channels := none }).wf = false := by decide
theorem test_wf_filter_wide_length : (Instr.v50Filter
    { startCount := 0, start := 0, lengthCount := 0, length := 256, type := 1, channels := none }).wf = false := by decide
theorem test_wf_filter_channels : (Instr.v50Filter
    { startCount := 0, start := 0, lengthCount := 0, length := 0, type := 1, channels := some 0 }).wf = false := by decide
theorem test_wf_vmcode_ext : (Instr.v29VmCode { first := 0, ext := 1, code := [0] }).wf = false := by decide
theorem test_wf_vmcode_length : (Instr.ppmEscVmCode { first := 0, ext := 0, code := [] }).wf = false := by decide
theorem test_wf_v50_length_slot : (Instr.v50RepOld 0 44 0).wf = false ∧ (Instr.v50RepOld 0 8 2).wf = false := by decide
theorem test_wf_v50_distance_slot : (Instr.v50Match 0 0 { slot := 64, extra := 0, low := some 0 }).wf = false := by decide
theorem test_wf_v50_distance_extra : (Instr.v50Match 0 0 { slot := 4, extra := 2, low := none }).wf = false := by decide
theorem test_wf_v50_low_missing : (Instr.v50Match 0 0 { slot := 10, extra := 0, low := none }).wf = false := by decide
theorem test_wf_v50_low_wide : (Instr.v50Match 0 0 { slot := 10, extra := 0, low := some 16 }).wf = false := by decide
theorem test_wf_v50_low_needless : (Instr.v50Match 0 0 { slot := 9, extra := 0, low := some 0 }).wf = false := by decide
theorem test_wf_v29_length_slot : (Instr.v29RepOld 0 28 0).wf = false ∧ (Instr.v20RepOld 0 8 2).wf = false := by decide
theorem test_wf_v29_distance_slot : (Instr.v29Match 0 0 { slot := 60, extra := 0, low := none }).wf = false := by decide
theorem test_wf_v29_distance_extra : (Instr.v29Match 0 0 { slot := 10, extra := 2, low := none }).wf = false := by decide
theorem test_wf_v29_low_wide : (Instr.v29Match 0 0 { slot := 10, extra := 0, low := some 17 }).wf = false := by decide
theorem test_wf_v29_low_needless : (Instr.v29Match 0 0 { slot := 9, extra := 0, low := some 0 }).wf = false := by decide
theorem test_wf_short_extra : (Instr.v29Short 0 4).wf = false ∧ (Instr.v20Short 7 64).wf = false := by decide
theorem test_wf_v20_distance : (Instr.v20Match 0 0 48 0).wf = false ∧ (Instr.v20Match 0 0 4 2).wf = false := by decide

/-! ### Words decode

The words are read under the flat tables of `flatEnv` (log 12): a main symbol is its own number in 9 bits, a v50 or distance slot in 6,
a v29 length or low-distance symbol in 5, a v50 low-distance symbol in 4, a pre-table symbol in 5. The first byte of a word
chooses the rule; the bits after it are those of the row's format. -/

/-- The number of a table word from its bytes, the first at the least significant end. -/
def testWord (bs : List Nat) : Nat := bs.foldr (fun b w => b + 256 * w) 0

/-- The decoder reads the instruction `i` from the word with these bytes. -/
def testReads (bs : List Nat) (i : Instr) : Bool := decodeTableWord (8 * bs.length) (testWord bs) == some i

theorem test_decode_v50FirstHeader : testReads
    [0, 0b10000101, 0b11011111, 0b00000000, 0b00010001, 0b00011111, 0b11110000]
    (.v50FirstHeader { flags := 0x85, check := 0xDF, size := 0, tables := some {
        pre := [.len 1, .len 1, .len 1, .esc 15], lens := [] } }) = true := by decide +kernel
theorem test_decode_v50NextBlock : testReads [1, 0b01000000, 0b00011011, 0b00000001]
    (.v50NextBlock { flags := 0x40, check := 0x1B, size := 1, tables := none }) = true := by decide +kernel
theorem test_decode_v50End : testReads [2]
    (.v50End) = true := by decide +kernel
theorem test_decode_v50Lit : testReads [3, 0b00110000, 0b10000000]
    (.v50Lit 0x61) = true := by decide +kernel
theorem test_decode_v50Filter : testReads
    [3, 0b10000000, 0b00100010, 0b00000000, 0b00100000, 0b00100000, 0b00001000]
    (.v50Filter
      { startCount := 1, start := 0x110, lengthCount := 0, length := 4, type := 0, channels := some 1 }) = true := by decide +kernel
theorem test_decode_v50RepLast : testReads [3, 0b10000000, 0b10000000]
    (.v50RepLast) = true := by decide +kernel
theorem test_decode_v50RepOld : testReads [3, 0b10000001, 0b10011011, 0b10000000]
    (.v50RepOld 1 13 3) = true := by decide +kernel
theorem test_decode_v50Match : testReads [3, 0b10001001, 0b11100110, 0b01011100]
    (.v50Match 13 3 { slot := 12, extra := 1, low := some 7 }) = true := by decide +kernel
theorem test_decode_v29Init : testReads [4]
    (.v29Init) = true := by decide +kernel
theorem test_decode_v29Tables : testReads [5, 0b01000100, 0b01000111, 0b11111100]
    (.v29Tables (.lz true {
        pre := [.len 1, .len 1, .len 1, .esc 15], lens := [] })) = true := by decide +kernel
theorem test_decode_v29Lit : testReads [6, 0b00110000, 0b10000000]
    (.v29Lit 0x61) = true := by decide +kernel
theorem test_decode_v29Eob : testReads [6, 0b10000000, 0b00100000]
    (.v29Eob (.endMember true)) = true := by decide +kernel
theorem test_decode_v29VmCode : testReads
    [6, 0b10000000, 0b10000011, 0b00000000, 0b00000000, 0b10000000, 0b10000000, 0b10000000, 0b10000000,
     0b10000000, 0b10000000, 0b10000000]
    (.v29VmCode { first := 6, ext := 0, code := [1, 1, 1, 1, 1, 1, 1] }) = true := by decide +kernel
theorem test_decode_v29RepLast : testReads [6, 0b10000001, 0b00000000]
    (.v29RepLast) = true := by decide +kernel
theorem test_decode_v29RepOld : testReads [6, 0b10000010, 0b10100010]
    (.v29RepOld 2 8 1) = true := by decide +kernel
theorem test_decode_v29Short : testReads [6, 0b10000011, 0b11100000]
    (.v29Short 0 3) = true := by decide +kernel
theorem test_decode_v29Match : testReads [6, 0b10000111, 0b10101000, 0b00110011, 0b10000000]
    (.v29Match 0 0 { slot := 20, extra := 3, low := some 7 }) = true := by decide +kernel
theorem test_decode_v20Init : testReads [8]
    (.v20Init) = true := by decide +kernel
theorem test_decode_v20Tables : testReads
    [9, 0b11100001, 0b00010001, 0b00010001, 0b00010001, 0b00010001, 0b00010001, 0b00010001, 0b00010001,
     0b00010001, 0b00010001]
    (.v20Tables { audio := some 2, keep := true, pre := List.replicate 19 1, lens := [] }) = true := by decide +kernel
theorem test_decode_v20SizeDone : testReads [10]
    (.v20SizeDone) = true := by decide +kernel
theorem test_decode_v20Lit : testReads [11, 0b00110000, 0b10000000]
    (.v20Lit 0x61) = true := by decide +kernel
theorem test_decode_v20RepLast : testReads [11, 0b10000000, 0b00000000]
    (.v20RepLast) = true := by decide +kernel
theorem test_decode_v20RepOld : testReads [11, 0b10000010, 0b00100010]
    (.v20RepOld 3 8 1) = true := by decide +kernel
theorem test_decode_v20Short : testReads [11, 0b10000010, 0b11100000]
    (.v20Short 0 3) = true := by decide +kernel
theorem test_decode_v20Reload : testReads [11, 0b10000110, 0b10000000]
    (.v20Reload) = true := by decide +kernel
theorem test_decode_v20Match : testReads [11, 0b10001000, 0b00010100, 0b10100000]
    (.v20Match 2 0 10 5) = true := by decide +kernel
theorem test_decode_v20AudSample : testReads [12, 0b00001000, 0b00000000]
    (.v20AudSample 0x10) = true := by decide +kernel
theorem test_decode_v20AudReload : testReads [12, 0b10000000, 0b00000000]
    (.v20AudReload) = true := by decide +kernel
theorem test_decode_v20Tail : testReads [14]
    (.v20Tail .stop) = true := by decide +kernel
theorem test_decode_v20Tail_read : testReads [13, 0b10000000, 0b00000000]
    (.v20Tail (.ignored 256)) = true := by decide +kernel
theorem test_decode_v15Stream : testReads [15]
    (.v15Stream) = true := by decide +kernel
theorem test_decode_pl4eLen : testReads [16, 0b01010000]
    (.pl4eLen 5) = true := by decide +kernel
theorem test_decode_pl4eEsc : testReads [16, 0b11110011]
    (.pl4eEsc 3) = true := by decide +kernel
theorem test_decode_pl4Len : testReads [17, 0b11110000]
    (.pl4Len 15) = true := by decide +kernel
theorem test_decode_len5Lit : testReads [18, 0b00101000]
    (.len5Lit 5) = true := by decide +kernel
theorem test_decode_len5Rep3 : testReads [18, 0b10000101]
    (.len5Rep3 5) = true := by decide +kernel
theorem test_decode_len5Rep7 : testReads [18, 0b10001101, 0b01100000]
    (.len5Rep7 86) = true := by decide +kernel
theorem test_decode_len5Zero3 : testReads [18, 0b10010101]
    (.len5Zero3 5) = true := by decide +kernel
theorem test_decode_len5Zero7 : testReads [18, 0b10011101, 0b01100000]
    (.len5Zero7 86) = true := by decide +kernel
theorem test_decode_len2Lit : testReads [19, 0b00101000]
    (.len2Lit 5) = true := by decide +kernel
theorem test_decode_len2Rep2 : testReads [19, 0b10000010]
    (.len2Rep2 1) = true := by decide +kernel
theorem test_decode_len2Zero3 : testReads [19, 0b10001101]
    (.len2Zero3 5) = true := by decide +kernel
theorem test_decode_len2Zero7 : testReads [19, 0b10010101, 0b01100000]
    (.len2Zero7 86) = true := by decide +kernel

theorem test_decode_ppmLit : testReads [7, 0x41] (.ppmLit 0x41) = true := by decide +kernel
theorem test_decode_ppmEscReload : testReads [7, 2, 0] .ppmEscReload = true := by decide +kernel
theorem test_decode_ppmEscLit : testReads [7, 2, 200] (.ppmEscLit 200) = true := by decide +kernel
theorem test_decode_ppmEscEnd : testReads [7, 2, 2] .ppmEscEnd = true := by decide +kernel
theorem test_decode_ppmEscVmCode : testReads [7, 2, 3, 1, 0xAA, 0xBB]
    (.ppmEscVmCode { first := 1, ext := 0, code := [0xAA, 0xBB] }) = true := by decide +kernel
theorem test_decode_ppmEscLz : testReads [7, 2, 4, 0, 0, 1, 5] (.ppmEscLz 0 0 1 5) = true := by decide +kernel
theorem test_decode_ppmEscRle : testReads [7, 2, 5, 10] (.ppmEscRle 10) = true := by decide +kernel

/-! ### One small run of each instruction -/

/-- The next state of an outcome. -/
def testNext : Host.Outcome State Fault Refusal → Option State
  | .next t => some t
  | _ => none

/-- What `f` reads from the state after the instruction. -/
def testAfter {α : Type} (i : Instr) (s : State) (f : State → α) : Option α := (testNext (exec i s)).map f

/-- A member of the generation, started on a new session: 18 bytes declared, a 64 KiB window. -/
def testMember (g : Gen) : State := acceptMember g false 18 16 State.reset

/-- The same member after the bytes `abc`. -/
def testAbc (g : Gen) : State := putByte 0x63 (putByte 0x62 (putByte 0x61 (testMember g)))

/-- `n` window bytes from position `a` on. -/
def testBytes (s : State) (a n : Nat) : List Byte := (List.range n).map fun k => memRead s (BitVec.ofNat 64 (a + k))

theorem test_v50FirstHeader :
    testAfter (.v50FirstHeader { flags := 0x40, check := 0x1B, size := 1, tables := none }) (testMember .v50)
      (fun t => (t.status, t.errCode, t.phase)) = some (.error, some .e4, .init) := by decide +kernel
theorem test_v50FirstHeader_checksum :
    testAfter (.v50FirstHeader { flags := 0xC0, check := 0, size := 1, tables := none }) (testMember .v50)
      (fun t => (t.status, t.errCode)) = some (.error, some .e3) := by decide +kernel
theorem test_v50NextBlock :
    testAfter (.v50NextBlock { flags := 0x46, check := 0x1D, size := 1, tables := none })
      { testMember .v50 with v50.tablesRead := true, posByte := 4, posBit := 3 }
      (fun t => (t.v50.blkStart, t.v50.blkSize, t.v50.blkBitSize, t.v50.blkLast, t.v50.blkTables))
      = some (8, 1, 7, true, false) := by decide +kernel
theorem test_v50End : testAfter .v50End (testAbc .v50) (·.status) = some .drain := by decide +kernel
theorem test_v50End_nothing_pending : testAfter .v50End (testMember .v50) (·.status) = some .done := by decide +kernel
theorem test_v50Lit : testAfter (.v50Lit 0x64) (testAbc .v50) (fun t => (t.wrAbs, testBytes t 0 4))
    = some (4, [0x61, 0x62, 0x63, 0x64]) := by decide +kernel
theorem test_v50Filter : testAfter (.v50Filter
    { startCount := 0, start := 2, lengthCount := 2, length := 0x400001, type := 0, channels := some 0 }) (testAbc .v50)
    (·.filt) = some [.v50Filter 2 5 0 0 (some 1) 3] := by decide +kernel
theorem test_v50RepLast : testAfter .v50RepLast (testAbc .v50) (fun t => (t.wrAbs, t.oldDist.d0)) = some (3, 0) := by
  decide +kernel
theorem test_v50RepOld : testAfter (.v50RepOld 0 2 0)
    { testAbc .v50 with oldDist := { d0 := 3, d1 := 0, d2 := 0, d3 := 0 } }
    (fun t => (t.lastLen, testBytes t 3 4)) = some (4, [0x61, 0x62, 0x63, 0x61]) := by decide +kernel
theorem test_v50Match : testAfter (.v50Match 5 0 { slot := 2, extra := 0, low := none }) (testAbc .v50)
    (fun t => (t.lastLen, t.oldDist.d0, testBytes t 3 7))
    = some (7, 3, [0x61, 0x62, 0x63, 0x61, 0x62, 0x63, 0x61]) := by decide +kernel
theorem test_v29Init : testAfter .v29Init (testMember .v29) (·.phase) = some .tables := by decide +kernel
theorem test_v29Tables_ppm : testAfter (.v29Tables (.ppm true 7)) (testMember .v29)
    (fun t => (t.phase, t.v29.blockType, t.v29.ppmEsc)) = some (.token, .ppm, 7) := by decide +kernel
theorem test_v29Tables_lz : testAfter (.v29Tables (.lz true
    { pre := [.len 2, .len 2, .esc 14, .len 2, .len 2], lens := [.lit 1, .zero7 127, .zero7 127, .zero7 116] }))
    { testMember .v29 with v29.oldLens := 14 :: List.replicate 403 0 }
    (fun t => (t.v29.tablesRead, t.v29.oldLens.headD 0, t.v29.ld.hasCode 0)) = some (true, 15, true) := by decide +kernel
theorem test_v29Lit : testAfter (.v29Lit 0x64) (testAbc .v29) (fun t => testBytes t 3 1) = some [0x64] := by decide +kernel
theorem test_v29Eob : testAfter (.v29Eob (.endMember true)) { testAbc .v29 with v29.tablesRead := true }
    (fun t => (t.status, t.v29.tablesRead)) = some (.drain, false) := by decide +kernel
theorem test_v29VmCode : testAfter (.v29VmCode { first := 0, ext := 0, code := [0x5A] }) (testAbc .v29) (·.filt)
    = some [.v29VmCode 0 [0x5A] 3 .lz] := by decide +kernel
theorem test_v29RepLast : testAfter .v29RepLast
    { testAbc .v29 with lastLen := 2, oldDist := { d0 := 3, d1 := 0, d2 := 0, d3 := 0 } }
    (fun t => testBytes t 3 2) = some [0x61, 0x62] := by decide +kernel
theorem test_v29RepOld : testAfter (.v29RepOld 2 0 0)
    { testAbc .v29 with oldDist := { d0 := 40, d1 := 30, d2 := 2, d3 := 10 } }
    (fun t => (t.oldDist, t.lastLen, testBytes t 3 2))
    = some ({ d0 := 2, d1 := 40, d2 := 30, d3 := 10 }, 2, [0x62, 0x63]) := by decide +kernel
theorem test_v29Short : testAfter (.v29Short 0 3) (putByte 0x64 (testAbc .v29))
    (fun t => (t.oldDist.d0, t.lastLen, testBytes t 4 2)) = some (4, 2, [0x61, 0x62]) := by decide +kernel
theorem test_v29Match : testAfter (.v29Match 0 0 { slot := 12, extra := 1, low := some 3 }) (testAbc .v29)
    (fun t => (t.oldDist.d0, t.lastLen, t.v29.prevLowDist)) = some (84, 3, 3) := by decide +kernel
theorem test_v29Match_repeat : testAfter (.v29Match 0 0 { slot := 10, extra := 0, low := none })
    { testAbc .v29 with v29.prevLowDist := 3, v29.lowDistRep := 15 }
    (fun t => (t.oldDist.d0, t.v29.lowDistRep)) = some (36, 14) := by decide +kernel
theorem test_ppmLit : testAfter (.ppmLit 0x41) (testAbc .v29) (fun t => testBytes t 3 1) = some [0x41] := by decide +kernel
theorem test_ppmEscReload : testAfter .ppmEscReload (testAbc .v29) (·.phase) = some .tables := by decide +kernel
theorem test_ppmEscLit : testAfter (.ppmEscLit 200) (testAbc .v29) (fun t => testBytes t 3 1) = some [2] := by
  decide +kernel
theorem test_ppmEscEnd : testAfter .ppmEscEnd (testAbc .v29) (·.status) = some .drain := by decide +kernel
theorem test_ppmEscVmCode : testAfter (.ppmEscVmCode { first := 1, ext := 0, code := [0xAA, 0xBB] }) (testAbc .v29)
    (·.filt) = some [.v29VmCode 1 [0xAA, 0xBB] 3 .ppm] := by decide +kernel
theorem test_ppmEscLz : testAfter (.ppmEscLz 0 0 1 5) (testAbc .v29) (fun t => (t.wrAbs, t.lastLen, testBytes t 36 4))
    = some (40, 0, [0x61, 0x62, 0x63, 0x61]) := by decide +kernel
theorem test_ppmEscRle : testAfter (.ppmEscRle 10) (testAbc .v29) (fun t => (t.wrAbs, testBytes t 16 1))
    = some (17, [0x63]) := by decide +kernel
theorem test_v20Init : testAfter .v20Init { testMember .v20 with cfgSolid := true, v20.tablesRead := true } (·.phase)
    = some .token := by decide +kernel
theorem test_v20Tables : testAfter (.v20Tables
    { audio := none, keep := false, pre := [2, 2] ++ List.replicate 14 0 ++ [0, 2, 2]
      lens := [.lit 1, .zero7 127, .zero7 127, .zero7 86] }) (testMember .v20)
    (fun t => (t.phase, t.v20.audio, t.v20.oldLens.headD 0, t.v20.ld.hasCode 0)) = some (.token, false, 1, true) := by
  decide +kernel
theorem test_v20SizeDone : testAfter .v20SizeDone (testAbc .v20) (·.phase) = some .tail := by decide +kernel
theorem test_v20Tail : testAfter (.v20Tail .stop) (testAbc .v20) (·.status) = some .drain := by decide +kernel
theorem test_v15Stream : testAfter .v15Stream State.reset (fun t => (t.status, t.errCode)) = some (.refused, some .e10) := by
  decide +kernel
theorem test_v20Lit : testAfter (.v20Lit 0x64) (testAbc .v20) (fun t => testBytes t 3 1) = some [0x64] := by decide +kernel
theorem test_v20RepLast : testAfter .v20RepLast
    { testAbc .v20 with lastLen := 6, oldDist := { d0 := 3, d1 := 0, d2 := 0, d3 := 0 } }
    (fun t => (t.oldDist, testBytes t 3 6))
    = some ({ d0 := 3, d1 := 3, d2 := 0, d3 := 0 }, [0x61, 0x62, 0x63, 0x61, 0x62, 0x63]) := by decide +kernel
theorem test_v20RepOld : testAfter (.v20RepOld 0 0 0)
    { testAbc .v20 with oldDist := { d0 := 300, d1 := 5, d2 := 0, d3 := 0 } }
    (fun t => (t.oldDist, t.lastLen)) = some ({ d0 := 300, d1 := 300, d2 := 5, d3 := 0 }, 3) := by decide +kernel
theorem test_v20Short : testAfter (.v20Short 0 2) (testAbc .v20) (fun t => (t.oldDist.d0, testBytes t 3 2))
    = some (3, [0x61, 0x62]) := by decide +kernel
theorem test_v20Reload : testAfter .v20Reload (testAbc .v20) (·.phase) = some .tables := by decide +kernel
theorem test_v20Match : testAfter (.v20Match 3 0 2 0) (testAbc .v20) (fun t => (t.oldDist.d0, t.lastLen, testBytes t 3 6))
    = some (3, 6, [0x61, 0x62, 0x63, 0x61, 0x62, 0x63]) := by decide +kernel
theorem test_v20AudSample : testAfter (.v20AudSample 0x10) (testMember .v20)
    (fun t => (testBytes t 0 1, t.v20.channelDelta, (t.v20.aud.headD AudRec.zero).dif))
    = some ([0xF0], BitVec.ofInt 32 (-16), List.replicate 11 128) ∧
    (testAfter (.v20AudSample 0x10) (testMember .v20) id).bind (fun s => testAfter (.v20AudSample 0xF8) s
      (fun t => (testBytes t 1 1, t.v20.channelDelta))) = some ([0xF8], 8) := by decide +kernel
theorem test_v20AudSample_adapts : testAfter (.v20AudSample 0x10)
    { testMember .v20 with v20.aud := [{ AudRec.zero with byteCount := 31, dif := 500 :: 0 :: List.replicate 9 500 }] }
    (fun t => ((t.v20.aud.headD AudRec.zero).k, (t.v20.aud.headD AudRec.zero).dif, t.v20.channelDelta, testBytes t 0 1))
    = some ([-1, 0, 0, 0, 0], List.replicate 11 0, BitVec.ofInt 32 (-16), [0xF0]) := by decide +kernel
theorem test_v20AudReload : testAfter .v20AudReload { testMember .v20 with v20.channels := 3, v20.curChannel := 2 }
    (fun t => (t.phase, t.v20.curChannel)) = some (.tables, 2) := by decide +kernel
theorem test_pl4eLen : testAfter (.pl4eLen 4) (openDesc 20 [] State.reset) (·.desc.lens) = some [4] := by decide +kernel
theorem test_pl4eEsc : testAfter (.pl4eEsc 3)
    { openDesc 20 [] State.reset with desc.lens := List.replicate 17 1 } (·.desc.lens)
    = some (List.replicate 17 1 ++ [0, 0, 0]) := by decide +kernel
theorem test_pl4eEsc_fifteen : testAfter (.pl4eEsc 0) (openDesc 20 [] State.reset) (·.desc.lens) = some [15] := by
  decide +kernel
theorem test_pl4Len : testAfter (.pl4Len 15) (openDesc 19 [] State.reset) (·.desc.lens) = some [15] := by decide +kernel
theorem test_len5Lit : testAfter (.len5Lit 3) { openDesc 404 [1, 14] State.reset with desc.lens := [1] } (·.desc.lens)
    = some [1, 1] := by decide +kernel
theorem test_len5Rep3 : testAfter (.len5Rep3 1) { openDesc 404 [] State.reset with desc.lens := [1, 2] } (·.desc.lens)
    = some [1, 2, 2, 2, 2, 2] := by decide +kernel
theorem test_len5Rep7 : testAfter (.len5Rep7 0) (openDesc 404 [] State.reset) (·.errCode) = some (some .e2) := by
  decide +kernel
theorem test_len5Zero3 : testAfter (.len5Zero3 0) (openDesc 404 [] State.reset) (·.desc.lens) = some [0, 0, 0] := by
  decide +kernel
theorem test_len5Zero7 : testAfter (.len5Zero7 127) (openDesc 404 [] State.reset) (·.desc.lens.length) = some 138 := by
  decide +kernel
theorem test_len2Lit : testAfter (.len2Lit 9) { openDesc 374 [0, 9] State.reset with desc.lens := [2] } (·.desc.lens)
    = some [2, 2] := by decide +kernel
theorem test_len2Rep2 : testAfter (.len2Rep2 1) { openDesc 374 [] State.reset with desc.lens := [2] } (·.desc.lens)
    = some [2, 2, 2, 2, 2] := by decide +kernel
theorem test_len2Zero3 : testAfter (.len2Zero3 7) (openDesc 374 [] State.reset) (·.desc.lens.length) = some 10 := by
  decide +kernel
theorem test_len2Zero7 : testAfter (.len2Zero7 86) (openDesc 374 [] State.reset) (·.desc.lens.length) = some 97 := by
  decide +kernel

/-! ### The hypotheses of the statements can be met -/

/-- The stream of these bits, then zeros. -/
def testBits (bs : List Bool) : Bits := fun k => bs.getD k false

theorem testBits_holds (bs : List Bool) : Holds (testBits bs) 0 bs := by
  intro k h; simp [testBits, h]

/-- A well-formed, encodable instruction whose bits stand in the stream. -/
def testEncoded (ctx : Ctx) (env : Env) (i : Instr) : Bool := envOk env && i.wf && encodable ctx env i

theorem witness_V50TokenRoundTrip : ∃ env bd z p i, envOk env = true ∧ Instr.wf i = true ∧
    encodable .v50Token env i = true ∧ Holds z p (encode env bd i) :=
  ⟨flatEnv false, emptyTable 20, _, 0, .v50Match 13 3 { slot := 12, extra := 1, low := some 7 },
    by decide +kernel, by decide +kernel, by decide +kernel, testBits_holds _⟩
theorem witness_V29TokenRoundTrip : ∃ env bd z p i, envOk env = true ∧ Instr.wf i = true ∧
    encodable .v29Lz env i = true ∧ Holds z p (encode env bd i) :=
  ⟨flatEnv false, emptyTable 20, _, 0, .v29Match 0 0 { slot := 20, extra := 3, low := some 16 },
    by decide +kernel, by decide +kernel, by decide +kernel, testBits_holds _⟩
theorem witness_V20TokenRoundTrip : ∃ ctx env bd z p i, (ctx = .v20Lz ∨ ctx = .v20Audio) ∧ envOk env = true ∧
    Instr.wf i = true ∧ encodable ctx env i = true ∧ Holds z p (encode env bd i) :=
  ⟨.v20Audio, flatEnv true, emptyTable 20, _, 0, .v20AudSample 0xFF, .inr rfl,
    by decide +kernel, by decide +kernel, by decide +kernel, testBits_holds _⟩
theorem witness_HeaderRoundTrip : ∃ ctx env bd z p i, ctx ∉ [Ctx.v50Token, .v29Lz, .v29Ppm, .v20Lz, .v20Audio] ∧
    (alignedCtx ctx = true → p % 8 = 0) ∧ envOk env = true ∧ Instr.wf i = true ∧ encodable ctx env i = true ∧
    Holds z p (encode env bd i) :=
  ⟨.v29Tables, flatEnv false, emptyTable 20, _, 0, .v29Tables (.lz true {
      pre := [.len 2, .len 2, .esc 14, .len 2, .len 2], lens := [.lit 1, .zero7 127, .zero7 127, .zero7 116] }),
    by decide, by decide, by decide +kernel, by decide +kernel, by decide +kernel, testBits_holds _⟩
theorem witness_LengthCodeRoundTrip : (preCodeInstr (.esc 15)).wf = true ∧
    (flatTable 20 5).canonical 20 = true ∧ (flatTable 20 5).hasCode (lenCode5Symbol (.zero7 127)) = true ∧
    (flatTable 19 5).canonical 19 = true ∧ (flatTable 19 5).hasCode (lenCode2Symbol (.zero7 127)) = true ∧
    ∀ env bd i, Holds (testBits (encode env bd i)) 0 (encode env bd i) := by
  refine ⟨by decide +kernel, by decide +kernel, by decide +kernel, by decide +kernel, by decide +kernel, ?_⟩
  exact fun _ _ _ => testBits_holds _
theorem witness_PpmTokenRoundTrip : ∃ (env : Env) (z : Bits) (p q st : Nat) (i : Instr),
    i.wf = true ∧ isPpmToken env.ppmEsc i = true ∧
    readChars env.ppmd z (encodeChars env.ppmEsc i).length p env.ppmState = (some (encodeChars env.ppmEsc i), q, st) :=
  ⟨flatEnv false, inputBit [2, 4, 0, 0, 1, 5], 0, 48, 0, .ppmEscLz 0 0 1 5,
    by decide +kernel, by decide +kernel, by decide +kernel⟩
theorem witness_HuffmanRoundTrip : ∃ (t : HuffTable), buildTable [15, 15, 1] = .ok t ∧
    Holds (testBits (bitsOf 15 ((t.bound 14 >>> 1) + 1))) 0 (bitsOf 15 ((t.bound 14 >>> 1) + 1)) :=
  ⟨tableOf [15, 15, 1], by rfl, testBits_holds _⟩
theorem witness_UnassignedCodeFallback : ∃ t, buildTable [0, 1] = .ok t ∧ t.bound 15 ≤ peekBits (fun _ => true) 0 16 :=
  ⟨tableOf [0, 1], by rfl, by decide +kernel⟩
/-- A literal that needs 9 bits, and a PPM literal whose coder takes one byte. -/
theorem witness_PeekLocality : envOk (flatEnv false) = true ∧
    (decodeIn .v50Token (flatEnv false) (fun _ => false) 0).need = 9 ∧
    (decodeIn .v29Ppm (flatEnv false) (fun _ => false) 0).need = 8 ∧
    AgreeBelow 9 (fun _ => false) (fun k => decide (9 ≤ k)) := by
  refine ⟨by decide +kernel, by decide +kernel, by decide +kernel, fun k hk => ?_⟩
  simp; omega
theorem witness_EverySymbolHasARule : envOk (flatEnv true) = true := by decide +kernel

theorem eq_ok_of_toOption {α : Type} {r : Except ErrCode α} {i : α} (h : r.toOption = some i) : r = .ok i := by
  cases r <;> simp_all [Except.toOption]

/-- A member in which the literal `a` of flat tables is due, nothing being scheduled. -/
def testDue : State :=
  { State.reset.withFetchWord 24 (testWord [3, 0b00110000, 0b10000000]) with events := [], inEnded := false }

theorem witness_StepRunsDecodedInstruction : testDue.events = [] ∧ testDue.status = .running ∧
    dispatch testDue = some .v50Token ∧ gateOpen testDue = true ∧ (fetch .v50Token testDue).res = .ok (.v50Lit 0x61) ∧
    (Instr.v50Lit 0x61).wf = true ∧ (fetch .v50Token testDue).need ≤ availBits testDue ∧
    (testNext (exec (.v50Lit 0x61) testDue)).map (·.status) = some .running :=
  ⟨by decide +kernel, by decide +kernel, by decide +kernel, by decide +kernel,
    eq_ok_of_toOption (by decide +kernel), by decide, by decide +kernel, by decide +kernel⟩
/-- The same with the core's move scheduled, and a hold, which is no move of the core. -/
theorem witness_StepRunsDecodedInstruction_event :
    { testDue with events := [.core] }.events = [.core] ∧ (step { testDue with events := [.core] } matches .next _) = true ∧
    coreMove (testMember .v50) = none := by decide +kernel
/-- The hold, the normal end at the declared size, and E7 one byte below it. -/
theorem witness_HoldAndExhaustion : ∀ s ∈ [testMember .v50, { testMember .v50 with inEnded := true },
      { testMember .v50 with inEnded := true, cfgDeclaredSize := 0 }],
    s.status = .running ∧ dispatch s = some .v50First ∧ gateOpen s = true ∧ availBits s < (fetch .v50First s).need := by
  decide +kernel
theorem witness_HoldAndExhaustion_clauses : (testMember .v50).inEnded = false ∧
    produced (putByte 0x61 { testMember .v50 with cfgDeclaredSize := 2 }) < 2 ∧
    (2 : Nat) ≤ produced (putByte 0x62 (putByte 0x61 { testMember .v50 with cfgDeclaredSize := 2 })) := by decide +kernel
theorem witness_ChunkingIndependence : envOk (envOf (testMember .v29)) = true ∧ (testMember .v29).inEnded = false ∧
    dispatch (testMember .v29) = some .v29Init ∧
    ((coreMove (testMember .v29)).bind testNext).isSome = true := by decide +kernel
/-- A status that stops the decoder, and a gate shut by one byte too many and opened by one fewer (L2.4.2). -/
theorem witness_GateAndStatusStopTheDecoder : (endMember (testAbc .v50)).status ≠ .running ∧
    gateOpen { testMember .v50 with wrAbs := 61436 } = true ∧
    gateOpen { testMember .v50 with wrAbs := 61437 } = false ∧ pending { testMember .v50 with wrAbs := 61437 } ≤ 65536 ∧
    dispatch { testMember .v50 with wrAbs := 61437 } ≠ none ∧
    (endMember (testAbc .v50)).events = [] ∧ coreMove (endMember (testAbc .v50)) = none := by decide +kernel
theorem witness_ErrorsArePrecise :
    testAfter (.v29Tables (.ppm false 0)) (testMember .v29) (·.status) = some .error ∧
    (((coreMove { testMember .v50 with input := [0x98] }).bind testNext).map (·.status)) = some .error := by
  decide +kernel
/-- Every row of the dispatch table has a state. -/
theorem witness_DispatchTable : ∀ ctx ∈ [Ctx.v50First, .v50Next, .v50End, .v50Token, .v29Init, .v29Tables, .v29Lz, .v29Ppm,
      .v20Init, .v20Tables, .v20SizeDone, .v20Lz, .v20Audio, .v20TailWait],
    dispatch (placeMember ctx State.reset) = some ctx := by decide +kernel
theorem witness_DispatchTable_tail :
    dispatch { placeMember .v20TailRead State.reset with input := List.replicate 5 0 } = some .v20TailRead ∧
    dispatch { placeMember .v20TailRead State.reset with input := List.replicate 4 0, inEnded := true }
      = some .v20TailStop := by decide +kernel

/-- The position just inside and just past the end of the block of R247's example. -/
theorem witness_DispatchTable_pastEnd : ∀ bit ∈ [(5 : BitVec 3), 6],
    pastEnd { testMember .v50 with
      v50.blkStart := 3, v50.blkSize := 31, v50.blkBitSize := 6, posByte := 33, posBit := bit } = (bit == 6) := by
  decide +kernel

theorem testRecord : recordOk AudRec.zero :=
  ⟨by decide, by decide, by decide, by simp [AudRec.zero], by decide +kernel, by decide +kernel⟩

/-- A member with one pending byte, of which the host delivers the first input byte next. -/
def testPending : State := { putByte 0x61 (testMember .v50) with events := [.deliver 0xC5] }

theorem testPending_aud : testPending.v20.aud = List.replicate 4 AudRec.zero := by decide +kernel

theorem testPending_inv : Inv testPending where
  window := ⟨by decide +kernel, by decide +kernel⟩
  cursors := ⟨by decide +kernel, by decide +kernel, by decide +kernel⟩
  config := ⟨by decide, by decide, by decide⟩
  phase := fun _ => .inl rfl
  lastLen := (by decide +kernel : testPending.lastLen.toNat ≤ maxOut .v50)
  tables := ⟨⟨by decide +kernel, by decide +kernel, by decide +kernel, by decide +kernel, by decide +kernel⟩,
    ⟨by decide +kernel, by decide +kernel, by decide +kernel, by decide +kernel, by decide +kernel⟩,
    ⟨by decide +kernel, by decide +kernel, by decide +kernel, by decide +kernel, by decide +kernel, by decide +kernel⟩⟩
  arrays := ⟨by decide +kernel, by decide +kernel, by decide +kernel⟩
  audio := ⟨by decide +kernel, by decide +kernel, by decide +kernel, ⟨by decide +kernel, by decide +kernel⟩,
    by decide +kernel, fun v hv => by
      rw [testPending_aud] at hv; rw [List.eq_of_mem_replicate hv]; exact testRecord⟩
  code := by rfl
  status := ⟨fun h => absurd h (by decide), fun h => absurd h (by decide), fun h => absurd h (by decide)⟩
  output := (by decide +kernel : testPending.out.length = min (emitted testPending) testPending.cfgDeclaredSize.toNat)
  position := (by decide +kernel : bitPos testPending ≤ availBits testPending)
  desc := by decide +kernel

theorem witness_StepKeepsInvariant : Inv testPending ∧ testPending.wrAbs.toNat + 4100 < 2 ^ 64 ∧
    (testNext (step testPending)).isSome = true := ⟨testPending_inv, by decide +kernel, by decide +kernel⟩
theorem witness_StepNeverStops : Inv testPending := testPending_inv
theorem witness_PendingBytesSurvive : Inv testPending ∧ testPending.wrAbs.toNat + 4100 < 2 ^ 64 ∧
    (testNext (step testPending)).map (fun t => (t.flAbs, t.wrAbs)) = some (0, 1) ∧
    testPending.flAbs.toNat ≤ (0 : BitVec 64).toNat ∧ (0 : BitVec 64).toNat < testPending.wrAbs.toNat :=
  ⟨testPending_inv, by decide +kernel, by decide +kernel, by decide +kernel, by decide +kernel⟩
theorem witness_OutputIsTheFlushedBytes :
    (testNext (step { testPending with events := [.flush] })).map (·.out) = some [0x61] ∧
    (testNext (step { State.reset with events := [.memberStart .v50 true 18 22] })).map (·.status) = some .running := by
  decide +kernel
theorem witness_InputReadSequentially : Inv testPending ∧ 8 * testPending.input.length < 2 ^ 64 ∧
    (testNext (step testPending)).map (·.input) = some [0xC5] ∧
    ∀ g solid size log2, testPending.events.head? ≠ some (.memberStart g solid size log2) :=
  ⟨testPending_inv, by decide +kernel, by decide +kernel, fun _ _ _ _ h => by
    cases (show some (Event.deliver 0xC5) = some _ from h)⟩
theorem witness_OnlyRunningMutates : (endMember testPending).status ≠ .running ∧
    (testNext (step (endMember testPending))).map (·.status) = some .drain ∧
    (testNext (step { endMember testPending with events := [.flush] })).map (·.status) = some .done ∧
    (testNext (step { endMember testPending with events := [.cancel] })).map (·.status) = some .cancelled := by
  decide +kernel
theorem witness_TokenWritesAtMostMaxOut : envOk (flatEnv false) = true ∧
    (decodeIn .v50Token (flatEnv false) (inputBit [0b00110000, 0b10000000]) 0).res.toOption = some (.v50Lit 0x61) ∧
    ctxGen .v50Token = .v50 ∧ (testMember .v50).lastLen.toNat ≤ maxOut .v50 ∧
    (testNext (exec (.v50Lit 0x61) (testMember .v50))).isSome = true := by decide +kernel
theorem witness_InstructionFrame : (testNext (exec (.ppmEscRle 10) (testAbc .v29))).isSome = true := by decide +kernel

/-- The header of a block without tables: flags 40, check 1B, size 1. -/
def testHeader : BlockHeader := { flags := 0x40, check := 0x1B, size := 1, tables := none }

/-- The description of 430 zero lengths that P1's header bytes 85 DF 00 could lead. -/
def testDesc5 : TableDesc5 :=
  { pre := [.esc 15, .len 0, .len 0, .len 1], lens := [.zero7 127, .zero7 127, .zero7 127, .zero7 5] }

/-- The same of 404 zero lengths. -/
def testDesc3 : TableDesc5 := { testDesc5 with lens := [.zero7 127, .zero7 127, .zero7 117] }

def testHeaderTables (d : TableDesc5) : BlockHeader := { flags := 0x85, check := 0xDF, size := 0, tables := some d }

theorem witness_BlockHeaderErrors : headerByteCount 0x98 = 4 ∧ headerByteCount 0xC0 ≠ 4 ∧
    (0x00 : BitVec 8).toNat ≠ (0x5A ^^^ (0xC0 : BitVec 8).toNat ^^^ 1 ^^^ (1 / 2 ^ 8) ^^^ (1 / 2 ^ 16)) % 256 ∧
    headerByteCount testHeader.flags ≠ 4 ∧ testHeader.check.toNat = check5 testHeader.flags testHeader.size.toNat ∧
    testHeader.flags.getLsbD 7 = false ∧ (testMember .v50).v50.tablesRead = false := by decide +kernel
theorem witness_BlockHeaderWithoutTables : headerByteCount testHeader.flags ≠ 4 ∧
    testHeader.check.toNat = check5 testHeader.flags testHeader.size.toNat ∧ testHeader.flags.getLsbD 7 = false ∧
    ({ testMember .v50 with v50.tablesRead := true } : State).v50.tablesRead = true := by decide +kernel
theorem witness_BlockHeaderWithTables : (testHeaderTables testDesc5).wf = true ∧
    (testHeaderTables testDesc5).check.toNat = check5 0x85 0 ∧ headerByteCount 0x85 ≠ 4 ∧
    (0x85 : BitVec 8).getLsbD 7 = true ∧
    (buildTable (preLengths testDesc5.pre)).toOption.isSome = true ∧
    (lengths5 430 [] [] testDesc5.lens).toOption = some (List.replicate 430 0) ∧
    buildTable (List.replicate 306 0) = .ok (emptyTable 306) ∧ buildTable (List.replicate 64 0) = .ok (emptyTable 64) ∧
    buildTable (List.replicate 16 0) = .ok (emptyTable 16) ∧ buildTable (List.replicate 44 0) = .ok (emptyTable 44) :=
  ⟨by decide +kernel, by decide +kernel, by decide +kernel, by decide +kernel, by decide +kernel, by decide +kernel,
    eq_ok_of_toOption (by decide +kernel), eq_ok_of_toOption (by decide +kernel), eq_ok_of_toOption (by decide +kernel),
    eq_ok_of_toOption (by decide +kernel)⟩
theorem witness_V29TableRead : testDesc3.wf 404 = true ∧ (buildTable (preLengths testDesc3.pre)).toOption.isSome = true ∧
    (lengths5 404 (List.replicate 404 0) [] testDesc3.lens).toOption = some (List.replicate 404 0) := by decide +kernel
/-- A description whose pre-lengths oversubscribe, one that begins with a repeat, and one whose first table oversubscribes. -/
theorem witness_TableReadErrors :
    TableDesc5.wf 404 { pre := [.len 1, .len 1, .len 1, .esc 15], lens := [] } = true ∧
    (buildTable (preLengths [.len 1, .len 1, .len 1, .esc 15])).toOption = none ∧
    TableDesc5.wf 404 { pre := [.esc 14, .len 1, .esc 1], lens := [.rep3 0] } = true ∧
    (lengths5 404 [] [] [.rep3 0]).toOption = none ∧
    TableDesc5.wf 404 { pre := [.len 0, .len 1, .esc 15, .len 1]
                        lens := [.lit 1, .lit 1, .lit 1, .zero7 127, .zero7 127, .zero7 114] } = true ∧
    ((lengths5 404 [] [] [.lit 1, .lit 1, .lit 1, .zero7 127, .zero7 127, .zero7 114]).toOption.map
      fun t => (buildTable ((t.drop 0).take 299)).toOption.isSome) = some false := by decide +kernel
def testHeader2 : V20Header :=
  { audio := none, keep := false, pre := List.replicate 18 0 ++ [1], lens := [.zero7 127, .zero7 127, .zero7 87] }
theorem witness_V20TableReadLz : (Instr.v20Tables testHeader2).wf = true ∧ testHeader2.audio = none ∧
    (buildTable testHeader2.pre).toOption.isSome = true ∧
    (lengths2 374 (List.replicate 1028 0) [] testHeader2.lens).toOption = some (List.replicate 374 0) := by decide +kernel
/-- Audio with one channel, 257 lengths: 138 and 119 zeros. -/
theorem witness_V20TableReadAudio :
    (Instr.v20Tables { testHeader2 with audio := some 0, lens := [.zero7 127, .zero7 108] }).wf = true ∧
    (lengths2 257 (List.replicate 1028 0) [] [.zero7 127, .zero7 108]).toOption = some (List.replicate 257 0) ∧
    (testMember .v20).v20.md.length = 4 ∧ (List.replicate 4 (emptyTable 257)).length = 4 ∧
    (∀ k, 1 ≤ k → (List.replicate 4 (emptyTable 257))[k]? = (testMember .v20).v20.md[k]?) ∧
    ∀ k < 1, buildTable (((List.replicate 257 (0 : Len)).drop (257 * k)).take 257) =
      .ok ((List.replicate 4 (emptyTable 257)).getD k (emptyTable 257)) :=
  ⟨by decide +kernel, by decide +kernel, by decide +kernel, by decide +kernel, fun _ _ => rfl, fun k hk => by
    obtain rfl : k = 0 := by omega
    exact eq_ok_of_toOption (by decide +kernel)⟩
theorem witness_TableReadErrors_v20 :
    (Instr.v20Tail (.reload { testHeader2 with pre := List.replicate 19 1, lens := [] })).wf = true ∧
    (buildTable (List.replicate 19 1)).toOption = none ∧
    (Instr.v20Tables { testHeader2 with pre := List.replicate 16 0 ++ [1, 0, 0], lens := [.rep2 0] }).wf = true ∧
    (lengths2 374 [] [] [.rep2 0]).toOption = none ∧
    (Instr.v20Tables { testHeader2 with pre := [0, 1] ++ List.replicate 16 0 ++ [1]
                                        lens := [.lit 1, .lit 1, .lit 1, .zero7 127, .zero7 127, .zero7 84] }).wf = true := by
  decide +kernel
theorem witness_CoderAndFilterErrors : VmCode.wf { first := 7, ext := 0, code := [] } = true ∧
    VmCode.wf { first := 0, ext := 0, code := [0x5A] } = true ∧
    ({ testMember .v29 with filterAccept := false } : State).filterAccept = false := by decide +kernel
theorem witness_PpmDecodingIsSound : (placeMember .v29Ppm State.reset).events = [] ∧
    (placeMember .v29Ppm State.reset).status = .running ∧
    dispatch (placeMember .v29Ppm State.reset) = some .v29Ppm ∧ gateOpen (placeMember .v29Ppm State.reset) = true ∧
    (0 : Nat) ≤ availBits (placeMember .v29Ppm State.reset) := by decide +kernel
/-- A `V29_TABLES` whose first byte is 80 asks the coder, which takes that byte. -/
theorem witness_PpmDecodingIsSound_tables : inputBit [0x80] (alignByte 0) = true ∧
    feed (.more (plainCoder.init 0 2)) [0x80] = some { ok := true, esc := 2, state := 0 } ∧
    (decodeIn .v29Tables (flatEnv false) (inputBit [0x80]) 0).pos = 8 := by decide +kernel
theorem witness_PpmDecodingIsSound_error : ∃ d : Decoded, d.res = .error .e6 ∧ d.need ≤ availBits State.reset :=
  ⟨{ res := .error .e6, pos := 0, need := 0, ppm := 0 }, rfl, Nat.zero_le _⟩
/-- A start that is not enabled, a v15 start, the four refusals, a continuation, and two non-solid starts. -/
theorem witness_MemberStartCases :
    (testMember .v29).status = .running ∧ State.reset.status = .idle ∧
    (15 < 16 ∧ 32 < 33) ∧ isContinuation true { testMember .v29 with status := .done } = true ∧
    (testMember .v29).cfgGen ≠ some .v20 ∧ (testMember .v29).cfgWindowLog2 ≠ some 17 ∧
    (testMember .v29).cfgGen = some .v29 ∧ (testMember .v29).cfgWindowLog2 = some 16 ∧
    isContinuation true State.reset = false ∧ isContinuation false { testMember .v29 with status := .done } = false := by
  decide +kernel
theorem witness_HostInputSteps : (testMember .v50).status = .running ∧ (testMember .v50).inEnded = false ∧
    (endInput (testMember .v50)).inEnded = true ∧ State.reset.status ≠ .running ∧ State.reset.status ≠ .drain := by
  decide +kernel
theorem witness_FlushStep : flushEnabled (testAbc .v50) = true ∧ flushEnabled (testMember .v50) = false ∧
    flushEnabled { testAbc .v50 with status := .error, errFlushLeft := 1 } = true ∧
    flushEnabled { testAbc .v50 with status := .error } = false ∧
    flushEnabled { testAbc .v50 with flushLimit := some 0 } = false ∧
    flushEnabled { testAbc .v50 with flushLimit := some 1 } = true ∧
    flushEnabled { testAbc .v50 with sinkReady := false } = false ∧
    flushEnabled { testAbc .v50 with sinkReady := false, cfgDeclaredSize := 0 } = true ∧
    windowPeek (testAbc .v50) 2 = some 0x63 ∧ windowPeek (testAbc .v50) 3 = none := by decide +kernel
theorem witness_LiteralTokens : Instr.v20Lit 7 ∈ [Instr.v50Lit 7, .v29Lit 7, .v20Lit 7, .ppmLit 7] ∧
    ∃ x, Instr.ppmEscLit 200 = .ppmEscLit x := ⟨by decide, _, rfl⟩
theorem testLegal (g : Gen) : legalWindow (testAbc g) := ⟨16, rfl, by decide, by decide⟩
theorem witness_RepeatLast : legalWindow (testAbc .v50) ∧ (testAbc .v50).lastLen.toNat ≤ windowSize (testAbc .v50) :=
  ⟨testLegal _, by decide +kernel⟩
theorem witness_RepeatOld : legalWindow (testAbc .v50) ∧ (Instr.v50RepOld 3 43 511).wf = true ∧
    (Instr.v29RepOld 3 27 31).wf = true ∧ (Instr.v20RepOld 0 0 0).wf = true := ⟨testLegal _, by decide, by decide, by decide⟩
theorem witness_ShortMatches : legalWindow (testAbc .v29) ∧ (Instr.v29Short 0 0).wf = true ∧ (Instr.v20Short 7 63).wf = true :=
  ⟨testLegal _, by decide, by decide⟩
/-- The first and the last distance of a v50 match. -/
theorem witness_MatchV50 : legalWindow (testAbc .v50) ∧
    (Instr.v50Match 0 0 { slot := 0, extra := 0, low := none }).wf = true ∧
    (Instr.v50Match 43 511 { slot := 63, extra := 0x3FFFFFF, low := some 15 }).wf = true ∧
    distance5 { slot := 63, extra := 0x3FFFFFF, low := some 15 } = 2 ^ 32 := by
  exact ⟨testLegal _, by decide, by decide, by decide⟩
/-- One state and operand for each of the four cases of the low distance bits. -/
theorem witness_MatchV29 : legalWindow (testAbc .v29) ∧
    (Instr.v29Match 27 31 { slot := 9, extra := 7, low := none }).wf = true ∧
    (Instr.v29Match 0 0 { slot := 10, extra := 0, low := none }).wf = true ∧
    0 < ({ testAbc .v29 with v29.lowDistRep := 15 } : State).v29.lowDistRep.toNat ∧
    (testAbc .v29).v29.lowDistRep = 0 ∧ (Instr.v29Match 0 0 { slot := 10, extra := 0, low := some 16 }).wf = true ∧
    (Instr.v29Match 0 0 { slot := 59, extra := 0x3FFF, low := some 15 }).wf = true :=
  ⟨testLegal _, by decide, by decide, by decide +kernel, by decide +kernel, by decide, by decide⟩
theorem witness_MatchV20 : legalWindow (testAbc .v20) ∧ (Instr.v20Match 27 31 47 65535).wf = true ∧
    (Instr.v20Match 0 0 0 0).wf = true := ⟨testLegal _, by decide, by decide⟩
theorem witness_PpmCopies : legalWindow (testAbc .v29) := testLegal _
theorem witness_FilterTokens : FilterFields.wf
    { startCount := 0, start := 255, lengthCount := 3, length := 0xFFFFFFFF, type := 0, channels := some 31 } = true ∧
    (testAbc .v50).filterAccept = true ∧ VmCode.wf { first := 0, ext := 0, code := [0x5A] } = true := by decide +kernel
/-- A sample that is no 32nd one of its channel, and one that is. -/
theorem witness_AudioSample : (testMember .v20).v20.aud[(testMember .v20).v20.curChannel]? = some AudRec.zero ∧
    recordOk AudRec.zero ∧ (AudRec.zero.byteCount.toNat + 1) % 32 ≠ 0 ∧
    recordOk { AudRec.zero with byteCount := 31 } ∧ ((31 : BitVec 32).toNat + 1) % 32 = 0 :=
  ⟨by decide +kernel, testRecord, by decide, testRecord, by decide⟩
theorem witness_AudioAdaptation : (({ AudRec.zero with byteCount := 31 } : AudRec).byteCount.toNat + 1) % 32 = 0 ∧
    recordOk AudRec.zero := ⟨by decide, testRecord⟩
/-- The array is filled to its end, and one length below it. -/
theorem witness_LengthCodesAppend : ∀ n ∈ [19, 20],
    ({ openDesc 20 [] State.reset with desc.lens := List.replicate n 1 } : State).desc.lens.length ≤ 20 := by decide +kernel
theorem witness_RepeatCodes : (openDesc 20 [] State.reset).desc.lens = [] ∧
    ({ openDesc 20 [] State.reset with desc.lens := [1, 2] } : State).desc.lens = [1] ++ [2] := by decide +kernel
theorem witness_CacheAndLastLenPerToken : (Instr.v20RepOld 0 0 0).wf = true ∧
    (testNext (exec (.v20RepOld 0 0 0) (testAbc .v20))).isSome = true := by decide +kernel

end
end

section
/-! The frame of `exec`: the part of the state no instruction writes, and that every operation an instruction is made of
keeps it (R8, R63, R65, R185). -/

namespace Sys2Proof.Machine

/-! ### The part of the state that no instruction writes -/

/-- The configuration, the position, the input, the flush side and the inputs of the ports: what host steps, flushes and
the advance after a commit write (R185; logs 1, 4, 7 and 9), and the meaning of an instruction does not. -/
structure FixedPart where
  cfgGen : Option Gen
  cfgSolid : Bool
  cfgDeclaredSize : BitVec 64
  cfgWindowLog2 : Option Nat
  posByte : BitVec 64
  posBit : BitVec 3
  input : List Byte
  inEnded : Bool
  flAbs : BitVec 64
  memberBase : BitVec 64
  out : List Byte
  sinkReady : Bool
  flushLimit : Option (BitVec 64)
  filterAccept : Bool
  ppmState : Nat
  events : List Event
  winDraw : Nat

def fixedPart (s : State) : FixedPart :=
  { cfgGen := s.cfgGen, cfgSolid := s.cfgSolid, cfgDeclaredSize := s.cfgDeclaredSize
    cfgWindowLog2 := s.cfgWindowLog2, posByte := s.posByte, posBit := s.posBit, input := s.input
    inEnded := s.inEnded, flAbs := s.flAbs, memberBase := s.memberBase, out := s.out
    sinkReady := s.sinkReady, flushLimit := s.flushLimit, filterAccept := s.filterAccept
    ppmState := s.ppmState, events := s.events, winDraw := s.winDraw }

/-! ### The updates that always succeed -/

section Updates
variable (s : State)

theorem fixedPart_with_desc (d : Desc) : fixedPart { s with desc := d } = fixedPart s := rfl
theorem fixedPart_with_filt (l : List FilterDesc) : fixedPart { s with filt := l } = fixedPart s := rfl
theorem fixedPart_with_v50 (r : V50Regs) : fixedPart { s with v50 := r } = fixedPart s := rfl
theorem fixedPart_with_v29 (r : V29Regs) : fixedPart { s with v29 := r } = fixedPart s := rfl
theorem fixedPart_with_v20 (r : V20Regs) : fixedPart { s with v20 := r } = fixedPart s := rfl
@[simp] theorem fixedPart_setPhase (p : Phase) : fixedPart (setPhase p s) = fixedPart s := rfl
@[simp] theorem fixedPart_endMember : fixedPart (endMember s) = fixedPart s := rfl
@[simp] theorem fixedPart_raiseRefused (e : ErrCode) : fixedPart (raiseRefused e s) = fixedPart s := rfl
@[simp] theorem fixedPart_errorState (e : ErrCode) : fixedPart (errorState e s) = fixedPart s := rfl
@[simp] theorem fixedPart_putByte (b : Byte) : fixedPart (putByte b s) = fixedPart s := rfl
@[simp] theorem fixedPart_cacheInsert (d : BitVec 64) : fixedPart (cacheInsert d s) = fixedPart s := rfl
@[simp] theorem fixedPart_cacheRotate (i : Fin 4) : fixedPart (cacheRotate i s) = fixedPart s := rfl
@[simp] theorem fixedPart_setLastLen (n : Nat) : fixedPart (setLastLen n s) = fixedPart s := rfl

@[simp] theorem fixedPart_copyMatch (n : Nat) (dist : BitVec 64) : fixedPart (copyMatch n dist s) = fixedPart s := by
  rw [copyMatch_wrote]; rfl

@[simp] theorem fixedPart_copyLast : fixedPart (copyLast s) = fixedPart s := by
  rw [copyLast_eq, fixedPart_copyMatch]

@[simp] theorem fixedPart_copyNew (n : Nat) (dist : BitVec 64) : fixedPart (copyNew n dist s) = fixedPart s := by
  rw [copyNew, fixedPart_copyMatch, fixedPart_setLastLen]

@[simp] theorem fixedPart_copy20 (n : Nat) (dist : BitVec 64) : fixedPart (copy20 n dist s) = fixedPart s := by
  rw [copy20, fixedPart_copyNew, fixedPart_cacheInsert]

/-- The low-distance state of R294 is all that a split distance writes. -/
@[simp] theorem fixedPart_lowDistance3 (d : DistField) : fixedPart (lowDistance3 d s).2 = fixedPart s := by
  unfold lowDistance3
  split
  · split
    · exact fixedPart_with_v29 s _
    · split <;> exact fixedPart_with_v29 s _
  · rfl

theorem fixedPart_audioSample (delta : Byte) : fixedPart (audioSample delta s) = fixedPart s :=
  (fixedPart_with_v20 _ _).trans (fixedPart_putByte s _)

theorem fixedPart_setBlock (h : BlockHeader) : fixedPart (setBlock h s) = fixedPart s := fixedPart_with_v50 s _

theorem fixedPart_startTables3 (keep : Bool) : fixedPart (startTables3 keep s) = fixedPart s := fixedPart_with_v29 s _

theorem fixedPart_startTables2 (h : V20Header) : fixedPart (startTables2 h s) = fixedPart s := by
  unfold startTables2
  cases h.audio <;> exact fixedPart_with_v20 s _

/-- Plain pre-lengths go to the length array only, however many a header lists (R93). -/
theorem fixedPart_readPl4 (ls : List Len) : fixedPart (readPl4 ls s) = fixedPart s := by
  have fold : ∀ t, fixedPart (ls.foldl (fun u l => pl4Len l u) t) = fixedPart t := by
    induction ls with
    | nil => exact fun _ => rfl
    | cons l ls ih => exact fun t => (ih (pl4Len l t)).trans (fixedPart_with_desc t _)
  exact (fold (openDesc 19 [] s)).trans (fixedPart_with_desc s _)

end Updates

/-! ### The operations that may raise an error -/

/-- Where the computation commits a state, that state's fixed part is `p`. -/
def OkFixes (p : FixedPart) (r : Except ErrCode State) : Prop := ∀ t, r = .ok t → fixedPart t = p

section Computations
variable {p : FixedPart} {s : State}

theorem OkFixes.ok (h : fixedPart s = p) : OkFixes p (.ok s) := fun _ ht => Except.ok.inj ht ▸ h

theorem OkFixes.error (e : ErrCode) : OkFixes p (.error e) := fun _ ht => nomatch ht

/-- A computation of something other than a state, such as a table, touches none. -/
theorem OkFixes.bind_value {α : Type} {r : Except ErrCode α} {f : α → Except ErrCode State}
    (hf : ∀ a, OkFixes p (f a)) : OkFixes p (r >>= f) := by
  cases r with
  | error e => exact .error e
  | ok a => exact hf a

theorem OkFixes.bind {r : Except ErrCode State} {f : State → Except ErrCode State} (hr : OkFixes p r)
    (hf : ∀ t, fixedPart t = p → OkFixes p (f t)) : OkFixes p (r >>= f) := by
  cases r with
  | error e => exact .error e
  | ok t => exact hf t (hr t rfl)

/-- A computation that only replaces the length array. -/
theorem OkFixes.map_desc {α : Type} (h : fixedPart s = p) (r : Except ErrCode α) (f : α → Desc) :
    OkFixes p (r.map fun a => { s with desc := f a }) := by
  cases r with
  | error e => exact .error e
  | ok a => exact .ok ((fixedPart_with_desc s _).trans h)

theorem repeatLen_fixes (h : fixedPart s = p) (r : Nat) : OkFixes p (repeatLen r s) := by
  unfold repeatLen
  cases s.desc.repeatLast r with
  | error e => exact .error e
  | ok d => exact .ok ((fixedPart_with_desc s d).trans h)

theorem readLens2_fixes (h : fixedPart s = p) (n : Nat) (old : List Len) (cs : List LenCode2) :
    OkFixes p (readLens2 n old cs s) := by
  rw [readLens2_eq]; exact .map_desc h _ _

theorem emitFilter_fixes (h : fixedPart s = p) (d : FilterDesc) : OkFixes p (emitFilter d s) := by
  obtain ⟨-, hok⟩ | ⟨-, herr⟩ := emitFilter_cases d s
  · rw [hok]; exact .ok ((fixedPart_with_filt s _).trans h)
  · rw [herr]; exact .error _

theorem emitVmCode_fixes (h : fixedPart s = p) (v : VmCode) (source : BlockType) :
    OkFixes p (emitVmCode v source s) := by
  unfold emitVmCode
  split
  · exact .error _
  · exact emitFilter_fixes h _

theorem ppmBlockStart_fixes (h : fixedPart s = p) (ok : Bool) (esc : Byte) :
    OkFixes p (ppmBlockStart ok esc s) := by
  cases ok with
  | false => exact .error _
  | true => exact .ok ((fixedPart_with_v29 s _).trans h)

theorem readTables5_fixes (h : fixedPart s = p) (d : TableDesc5) : OkFixes p (readTables5 d s) := by
  rw [readTables5_eq]
  exact .bind_value fun _bd => .bind_value fun _lens => .bind_value fun _ld => .bind_value fun _dd =>
    .bind_value fun _ldd => .bind_value fun _rd => .ok h

theorem readTables3_fixes (h : fixedPart s = p) (d : TableDesc5) : OkFixes p (readTables3 d s) := by
  rw [readTables3_eq]
  exact .bind_value fun _bd => .bind_value fun _lens => .bind_value fun _ld => .bind_value fun _dd =>
    .bind_value fun _ldd => .bind_value fun _rd => .ok h

theorem buildTables2_fixes (h : fixedPart s = p) (t : List Len) : OkFixes p (buildTables2 t s) := by
  unfold buildTables2
  split
  · exact .bind_value fun _md => .ok h
  · exact .bind_value fun _ld => .bind_value fun _dd => .bind_value fun _rd => .ok h

theorem readTables2_fixes (h : fixedPart s = p) (hd : V20Header) : OkFixes p (readTables2 hd s) := by
  have hpre : fixedPart (readPl4 hd.pre (startTables2 hd s)) = p :=
    (fixedPart_readPl4 _ _).trans ((fixedPart_startTables2 s hd).trans h)
  refine .bind_value fun bd => .bind (readLens2_fixes ?_ _ _ _) fun u hu => ?_
  · exact (fixedPart_with_v20 _ _).trans hpre
  · refine .bind (buildTables2_fixes ((fixedPart_with_v20 _ _).trans hu) _) fun w hw => .ok ?_
    exact ((fixedPart_with_desc _ _).trans (fixedPart_with_v20 _ _)).trans hw

theorem blockHeader_fixes (h : fixedPart s = p) (hd : BlockHeader) : OkFixes p (blockHeader hd s) := by
  have hset : fixedPart (setBlock hd s) = p := (fixedPart_setBlock s hd).trans h
  unfold blockHeader
  split
  · exact .error _
  · split
    · exact .error _
    · split
      · exact readTables5_fixes hset _
      · exact .ok hset

theorem requireTables5_fixes (h : fixedPart s = p) : OkFixes p (requireTables5 s) := by
  unfold requireTables5
  split
  · exact .ok h
  · exact .error _

end Computations

/-! ### The instructions -/

/-- Where the outcome is a next state, it has the fixed part of `s`. -/
def NextFixes (s : State) (o : Host.Outcome State Fault Refusal) : Prop :=
  ∀ t, o = .next t → fixedPart t = fixedPart s

theorem NextFixes.next {s u : State} (h : fixedPart u = fixedPart s) : NextFixes s (.next u) :=
  fun _ ht => Host.Outcome.next.inj ht ▸ h

/-- An error keeps the fixed part too (R402), so that only the commit is left to look at. -/
theorem NextFixes.outcome {s : State} {r : Except ErrCode State} (h : OkFixes (fixedPart s) r) :
    NextFixes s (outcome s r) := by
  intro t ht
  obtain hok | ⟨e, -, rfl⟩ := outcome_cases ht
  · exact h t hok
  · exact fixedPart_errorState s e

theorem execV50FirstHeader_fixes (hd : BlockHeader) (s : State) : NextFixes s (execV50FirstHeader hd s) :=
  .outcome <| .bind (blockHeader_fixes rfl hd) fun _ ht => .bind (requireTables5_fixes ht) fun u hu =>
    .ok ((fixedPart_setPhase u .token).trans hu)

theorem execV50NextBlock_fixes (hd : BlockHeader) (s : State) : NextFixes s (execV50NextBlock hd s) :=
  .outcome <| .bind (blockHeader_fixes rfl hd) fun _ ht => requireTables5_fixes ht

theorem execV29Tables_fixes (hd : V29Header) (s : State) : NextFixes s (execV29Tables hd s) := by
  have commit : ∀ t, fixedPart t = fixedPart s → OkFixes (fixedPart s) (.ok (setPhase .token t)) :=
    fun t ht => .ok ((fixedPart_setPhase t .token).trans ht)
  cases hd with
  | ppm ok esc => exact .outcome <| .bind (ppmBlockStart_fixes rfl ok esc) commit
  | lz keep d => exact .outcome <| .bind (readTables3_fixes (fixedPart_startTables3 s keep) d) commit

theorem execV29Eob_fixes (e : EobForm) (s : State) : NextFixes s (execV29Eob e s) := by
  cases e with
  | newTables => exact .next ((fixedPart_setPhase _ _).trans (fixedPart_with_v29 s _))
  | endMember t => exact .next ((fixedPart_endMember _).trans (fixedPart_with_v29 s _))

theorem execV20Tables_fixes (hd : V20Header) (s : State) : NextFixes s (execV20Tables hd s) :=
  .outcome <| .bind (readTables2_fixes rfl hd) fun t ht => .ok ((fixedPart_setPhase t .token).trans ht)

theorem execV20Tail_fixes (probe : TailProbe) (s : State) : NextFixes s (execV20Tail probe s) := by
  cases probe with
  | stop | ignored _ => exact .next (fixedPart_endMember s)
  | reload hd =>
    exact .outcome <| .bind (readTables2_fixes rfl hd) fun t ht => .ok ((fixedPart_endMember t).trans ht)

/-- Each instruction, by the operations it is made of. -/
theorem exec_fixes (i : Instr) (s : State) : NextFixes s (exec i s) := by
  cases i with
  | v50FirstHeader hd => exact execV50FirstHeader_fixes hd s
  | v50NextBlock hd => exact execV50NextBlock_fixes hd s
  | v29Tables hd => exact execV29Tables_fixes hd s
  | v20Tables hd => exact execV20Tables_fixes hd s
  | v20Tail probe => exact execV20Tail_fixes probe s
  | v29Eob e => exact execV29Eob_fixes e s
  | v29Init | v20Init | v20SizeDone | ppmEscReload | v20Reload | v20AudReload => exact .next (fixedPart_setPhase s _)
  | v50End | ppmEscEnd => exact .next (fixedPart_endMember s)
  | v15Stream => exact .next (fixedPart_raiseRefused s _)
  | v50Lit b | v29Lit b | v20Lit b | ppmLit b | ppmEscLit b => exact .next (fixedPart_putByte s _)
  | v20AudSample delta => exact .next (fixedPart_audioSample s delta)
  | v50Filter f => exact .outcome (emitFilter_fixes rfl _)
  | v29VmCode v | ppmEscVmCode v => exact .outcome (emitVmCode_fixes rfl v _)
  | v50RepLast | v29RepLast => exact .next (fixedPart_copyLast s)
  | v50RepOld | v29RepOld => exact .next ((fixedPart_copyNew _ _ _).trans (fixedPart_cacheRotate s _))
  | v50Match | v29Short => exact .next ((fixedPart_copyNew _ _ _).trans (fixedPart_cacheInsert s _))
  | v29Match slot extra d =>
    exact .next ((fixedPart_copyNew _ _ _).trans ((fixedPart_cacheInsert _ _).trans (fixedPart_lowDistance3 s d)))
  | ppmEscLz | ppmEscRle => exact .next (fixedPart_copyMatch s _ _)
  | v20RepLast | v20RepOld | v20Short | v20Match => exact .next (fixedPart_copy20 s _ _)
  | pl4eLen | pl4eEsc | pl4Len | len5Lit | len5Zero3 | len5Zero7 | len2Lit | len2Zero3 | len2Zero7 =>
    exact .next (fixedPart_with_desc s _)
  | len5Rep3 | len5Rep7 | len2Rep2 => exact .outcome (repeatLen_fixes rfl _)

/-- Settles O27: every instruction keeps the fixed part, whose fields are those of the statement. -/
theorem instructionFrame : Obligations.InstructionFrame := by
  intro i s t h
  have hfix : fixedPart t = fixedPart s := exec_fixes i s t h
  simpa only [fixedPart, FixedPart.mk.injEq] using hfix

end Sys2Proof.Machine
end

section
/-! The reset values: the tables `BuildTable` makes of all-zero lengths (R37), and the window of a fresh draw (R184, R441). -/

namespace Sys2Proof.Machine

/-! ### The table of a length array in which no symbol has a code -/

theorem lenCounts_replicate_zero (n : Nat) : lenCounts (List.replicate n 0) = List.replicate 15 0 := by
  have none_counted : ∀ i ∈ List.range' 1 15, (List.replicate n (0 : Len)).countP (fun l => l.toNat == i) = 0 := by
    intro i hi
    have hpos : 0 < i := by simp only [List.mem_range'_1] at hi; omega
    simp [List.countP_replicate, hpos.ne]
  calc lenCounts (List.replicate n 0)
    _ = (List.range' 1 15).map fun _ => 0 := List.map_congr_left none_counted
    _ = List.replicate 15 0 := by simp

theorem symbolOrder_replicate_zero (n : Nat) : symbolOrder (List.replicate n 0) = [] := by
  rw [← List.length_eq_zero_iff, length_symbolOrder, lenCounts_replicate_zero, List.sum_replicate, smul_zero]

/-- Every bound and every position of R151 stays 0, and no symbol is listed. -/
theorem buildTable_replicate_zero (n : Nat) : buildTable (List.replicate n 0) = .ok (emptyTable n) := by
  refine buildTable_ok_iff.mpr ⟨List.replicate 15 0, ?_, ?_⟩
  · rw [lenCounts_replicate_zero]; decide
  · have positions : cumulative 0 (List.replicate 15 0) = List.replicate 15 0 := by decide
    rw [lenCounts_replicate_zero, symbolOrder_replicate_zero, positions]
    simp [emptyTable, List.replicate]

@[simp] theorem bound_emptyTable (n i : Nat) : (emptyTable n).bound i = 0 := by
  simp only [HuffTable.bound, emptyTable, List.getD_eq_getElem?_getD, List.getElem?_replicate]
  split <;> rfl

/-- No lookahead lies below a bound, so the length search of R155 runs to its end. -/
theorem codeLength_emptyTable (n la : Nat) : codeLength (emptyTable n) la = 15 :=
  codeLength_unique (by decide) le_rfl (fun i _ _ => by simp) (fun h => absurd h (lt_irrefl 15))

/-- Every index is past the assigned symbols, of which there are none (R156). -/
theorem huffDecode_emptyTable (n : Nat) (z : Bits) (p : Nat) : huffDecode (emptyTable n) z p = (0, p + 15) :=
  Prod.ext (by rw [huffDecode_fst]; exact if_pos (Nat.zero_le _)) (by rw [huffDecode_snd, codeLength_emptyTable])

/-! ### The window after a non-solid start -/

/-- A position nothing has been written to reads as the draw in force (R184). -/
theorem memRead_of_win_eq_nil {s : State} (h : s.win = []) (a : BitVec 64) :
    memRead s a = Config.windowInit s.winDraw (windowIndex s a) := by
  rw [memRead, h]; rfl

section NonSolidStart
variable (g : Gen) (size : BitVec 64) (log2 : Nat) (s : State)

@[simp] theorem acceptMember_fresh_win : (acceptMember g false size log2 s).win = [] := rfl

@[simp] theorem acceptMember_fresh_winDraw : (acceptMember g false size log2 s).winDraw = s.draws := rfl

@[simp] theorem windowIndex_acceptMember_fresh (a : BitVec 64) :
    windowIndex (acceptMember g false size log2 s) a = a.toNat % 2 ^ log2 := rfl

theorem memRead_acceptMember_fresh (a : BitVec 64) :
    memRead (acceptMember g false size log2 s) a = Config.windowInit s.draws (a.toNat % 2 ^ log2) := by
  rw [memRead_of_win_eq_nil (acceptMember_fresh_win g size log2 s), acceptMember_fresh_winDraw,
    windowIndex_acceptMember_fresh]

end NonSolidStart

/-- Settles O35: the reset table is the one of all-zero lengths, and a non-solid start draws the whole window. -/
theorem resetTablesAndWindow : Obligations.ResetTablesAndWindow :=
  ⟨fun n => ⟨buildTable_replicate_zero n, huffDecode_emptyTable n⟩, memRead_acceptMember_fresh⟩

end Sys2Proof.Machine
end

section
/-! Decoding reads forward: a rule leaves the position at or past where it began, and its `NEED` covers every bit it
consumed (R24, R130). -/

namespace Sys2Proof.Machine

/-! ### Fields -/

section Fields
variable (z : Bits)

theorem le_huffDecode (t : HuffTable) (p : Nat) : p ≤ (huffDecode t z p).2 :=
  Nat.le_of_succ_le (huffDecode_pos t z p).1

theorem le_getBits (p n : Nat) : p ≤ (getBits z p n).2 := Nat.le_add_right p n

theorem le_decodePreCode (p : Nat) : p ≤ (decodePreCode z p).2 := by
  unfold decodePreCode
  split <;> exact Nat.le_add_right ..

theorem le_decodePreCodes (fuel i p : Nat) : p ≤ (decodePreCodes z fuel i p).2 := by
  induction fuel generalizing i p with
  | zero => exact le_rfl
  | succ fuel ih =>
    unfold decodePreCodes
    split
    · exact le_rfl
    · exact (le_decodePreCode z p).trans (ih ..)

theorem le_decodePlainLens (n p : Nat) : p ≤ (decodePlainLens z n p).2 := by
  induction n generalizing p with
  | zero => exact le_rfl
  | succ n ih => exact (Nat.le_add_right p 4).trans (ih (p + 4))

theorem le_decodeLenCode5 (bd : HuffTable) (p : Nat) : p ≤ (decodeLenCode5 bd z p).2 := by
  have code := le_huffDecode z bd p
  unfold decodeLenCode5
  dsimp only
  split_ifs
  · exact code
  all_goals exact code.trans (Nat.le_add_right ..)

theorem le_decodeLenCode2 (bd : HuffTable) (p : Nat) : p ≤ (decodeLenCode2 bd z p).2 := by
  have code := le_huffDecode z bd p
  unfold decodeLenCode2
  dsimp only
  split_ifs
  · exact code
  all_goals exact code.trans (Nat.le_add_right ..)

theorem le_decodeLens5 (bd : HuffTable) (n fuel i p : Nat) : p ≤ (decodeLens5 bd z n fuel i p).2 := by
  induction fuel generalizing i p with
  | zero => exact le_rfl
  | succ fuel ih =>
    unfold decodeLens5
    dsimp only
    split_ifs
    · exact le_rfl
    · exact le_decodeLenCode5 z bd p
    · exact (le_decodeLenCode5 z bd p).trans (ih ..)

theorem le_decodeLens2 (bd : HuffTable) (n fuel i p : Nat) : p ≤ (decodeLens2 bd z n fuel i p).2 := by
  induction fuel generalizing i p with
  | zero => exact le_rfl
  | succ fuel ih =>
    unfold decodeLens2
    dsimp only
    split_ifs
    · exact le_rfl
    · exact le_decodeLenCode2 z bd p
    · exact (le_decodeLenCode2 z bd p).trans (ih ..)

theorem le_decodeTableDesc5 (n p : Nat) : p ≤ (decodeTableDesc5 z n p).2 := by
  have pre := le_decodePreCodes z 20 0 p
  unfold decodeTableDesc5
  dsimp only
  split
  · exact pre
  · exact pre.trans (le_decodeLens5 ..)

theorem le_decodeBlockHeader (p : Nat) : p ≤ (decodeBlockHeader z p).2 := by
  have aligned := le_alignByte p
  unfold decodeBlockHeader
  dsimp only
  split_ifs
  · exact aligned.trans (Nat.le_add_right ..)
  · exact Nat.le_add_right_of_le (Nat.le_add_right_of_le aligned)
  · exact (Nat.le_add_right_of_le (Nat.le_add_right_of_le aligned)).trans (le_decodeTableDesc5 ..)
  · exact Nat.le_add_right_of_le (Nat.le_add_right_of_le aligned)

theorem le_decodeV20Header (p : Nat) : p ≤ (decodeV20Header z p).2 := by
  have flags : p ≤ if (peekBits z p 16).testBit 15 then p + 4 else p + 2 := by split <;> exact Nat.le_add_right ..
  have pre := flags.trans (le_decodePlainLens z 19 _)
  unfold decodeV20Header
  dsimp only
  split
  · exact pre
  · exact pre.trans (le_decodeLens2 ..)

theorem le_decodeFilterData (p : Nat) : p ≤ (decodeFilterData z p).2.2 :=
  Nat.le_add_right_of_le (Nat.le_add_right p 2)

theorem le_decodeFilterFields (p : Nat) : p ≤ (decodeFilterFields z p).2 := by
  have counts := (le_decodeFilterData z p).trans (le_decodeFilterData z _)
  unfold decodeFilterFields
  dsimp only
  split <;> exact counts.trans (Nat.le_add_right ..)

theorem le_decodeDist5 (env : Env) (p : Nat) : p ≤ (decodeDist5 env z p).2 := by
  have slot := le_huffDecode z env.dd5 p
  unfold decodeDist5
  dsimp only
  split
  · exact slot.trans ((le_getBits ..).trans (le_huffDecode ..))
  · exact slot.trans (le_getBits z ..)

theorem le_decodeDist3 (env : Env) (p : Nat) : p ≤ (decodeDist3 env z p).2 := by
  have raw := (le_huffDecode z env.dd3 p).trans (le_getBits z _ (rawDistBits3 (huffDecode env.dd3 z p).1))
  unfold decodeDist3
  dsimp only
  split
  · exact raw.trans (le_huffDecode ..)
  · exact raw

theorem le_decodeVmCode (p : Nat) : p ≤ (decodeVmCode z p).2 :=
  Nat.le_add_right_of_le (Nat.le_add_right_of_le (Nat.le_add_right p 8))

end Fields

/-- `le_readChars` for the parts of the answer. -/
theorem le_of_readChars {ppmd : Ppmd} {z : Bits} {n p st q st' : Nat} {cs : Option (List Byte)}
    (h : readChars ppmd z n p st = (cs, q, st')) : p ≤ q := by
  simpa only [h] using le_readChars ppmd z n p st

/-! ### Rules -/

/-- Decoding from position `p` on goes forward, over bits that its `NEED` covers (R24, R130). -/
structure ReadsForward (p : Nat) (d : Decoded) : Prop where
  le_pos : p ≤ d.pos
  pos_le_need : d.pos ≤ d.need

section Rules
variable (env : Env) (z : Bits) {p q : Nat}

theorem ReadsForward.instr (i : Instr) (h : p ≤ q) : ReadsForward p (.instr env i q) := ⟨h, le_rfl⟩

theorem ReadsForward.failed (e : ErrCode) (h : p ≤ q) : ReadsForward p (.failed env e q) := ⟨h, le_rfl⟩

theorem ReadsForward.chars (i : Option Instr) (st : Nat) (h : p ≤ q) : ReadsForward p (.chars i q st) := ⟨h, le_rfl⟩

theorem decodeV50_readsForward (p : Nat) : ReadsForward p (decodeV50 env z p) := by
  have symbol := le_huffDecode z env.ld5 p
  unfold decodeV50
  dsimp only
  split_ifs
  · exact .instr _ _ symbol
  · exact .instr _ _ (symbol.trans (le_decodeFilterFields ..))
  · exact .instr _ _ symbol
  · exact .instr _ _ (symbol.trans ((le_huffDecode ..).trans (le_getBits ..)))
  · exact .instr _ _ (symbol.trans ((le_getBits ..).trans (le_decodeDist5 ..)))
  · exact .failed _ _ symbol

theorem decodeV29_readsForward (p : Nat) : ReadsForward p (decodeV29 env z p) := by
  have symbol := le_huffDecode z env.ld3 p
  unfold decodeV29
  dsimp only
  split_ifs
  · exact .instr _ _ symbol
  · exact .instr _ _ (symbol.trans (Nat.le_add_right ..))
  · exact .instr _ _ (symbol.trans (Nat.le_add_right ..))
  · exact .instr _ _ (symbol.trans (le_decodeVmCode ..))
  · exact .instr _ _ symbol
  · exact .instr _ _ (symbol.trans ((le_huffDecode ..).trans (le_getBits ..)))
  · exact .instr _ _ (symbol.trans (le_getBits ..))
  · exact .instr _ _ (symbol.trans ((le_getBits ..).trans (le_decodeDist3 ..)))
  · exact .failed _ _ symbol

theorem decodeV20_readsForward (p : Nat) : ReadsForward p (decodeV20 env z p) := by
  have symbol := le_huffDecode z env.ld2 p
  unfold decodeV20
  dsimp only
  split_ifs
  · exact .instr _ _ symbol
  · exact .instr _ _ symbol
  · exact .instr _ _ (symbol.trans ((le_huffDecode ..).trans (le_getBits ..)))
  · exact .instr _ _ (symbol.trans (le_getBits ..))
  · exact .instr _ _ symbol
  · exact .instr _ _ (symbol.trans ((le_getBits ..).trans ((le_huffDecode ..).trans (le_getBits ..))))
  · exact .failed _ _ symbol

theorem decodeAudioSymbol_readsForward (p : Nat) : ReadsForward p (decodeAudioSymbol env z p) := by
  have symbol := le_huffDecode z env.md2 p
  unfold decodeAudioSymbol
  dsimp only
  split_ifs
  · exact .instr _ _ symbol
  · exact .instr _ _ symbol
  · exact .failed _ _ symbol

theorem decodeTail_readsForward (p : Nat) : ReadsForward p (decodeTail env z p) := by
  unfold decodeTail
  generalize (if env.audio then env.md2 else env.ld2) = table
  generalize (if env.audio then 256 else 269) = reload
  have symbol := le_huffDecode z table p
  dsimp only
  split
  · exact .instr _ _ (symbol.trans (le_decodeV20Header ..))
  · exact .instr _ _ symbol

theorem decodeV29Tables_readsForward (p : Nat) : ReadsForward p (decodeV29Tables env z p) := by
  have aligned := le_alignByte p
  unfold decodeV29Tables
  dsimp only
  split
  · exact ⟨aligned.trans (Nat.le_add_right ..), le_rfl⟩
  · exact .instr _ _ ((aligned.trans (Nat.le_add_right ..)).trans (le_decodeTableDesc5 ..))

theorem decodePpmVmCode_readsForward (ppmd : Ppmd) {p : Nat} (q st : Nat) (hq : p ≤ q) :
    ReadsForward p (decodePpmVmCode ppmd z q st) := by
  unfold decodePpmVmCode
  split
  next first p1 st1 h1 =>
    have hp1 := hq.trans (le_of_readChars h1)
    split
    next ext p2 st2 h2 => exact .chars _ _ ((hp1.trans (le_of_readChars h2)).trans (le_readChars ..))
    next p2 st2 h2 => exact .chars _ _ (hp1.trans (le_of_readChars h2))
  next p1 st1 _ h1 => exact .chars _ _ (hq.trans (le_of_readChars h1))

/-- The characters after the escape byte (R102) are read from where the ones before them end. -/
theorem decodePpm_readsForward (p : Nat) : ReadsForward p (decodePpm env z p) := by
  unfold decodePpm
  split
  next c p1 st1 h1 =>
    have hp1 := le_of_readChars h1
    split
    · exact .chars _ _ hp1
    · split
      next x p2 st2 h2 =>
        have hp2 := hp1.trans (le_of_readChars h2)
        split_ifs
        · exact .chars _ _ hp2
        · exact .chars _ _ hp2
        · exact decodePpmVmCode_readsForward _ _ _ _ hp2
        · split <;> next h3 => exact .chars _ _ (hp2.trans (le_of_readChars h3))
        · split <;> next h3 => exact .chars _ _ (hp2.trans (le_of_readChars h3))
        · exact .chars _ _ hp2
      next p2 st2 _ h2 => exact .chars _ _ (hp1.trans (le_of_readChars h2))
  next p1 st1 _ h1 => exact .chars _ _ (le_of_readChars h1)

/-- Every rule of the dispatch table (R214). -/
theorem decodeIn_readsForward (ctx : Ctx) (p : Nat) : ReadsForward p (decodeIn ctx env z p) := by
  cases ctx with
  | v50First | v50Next => exact .instr _ _ (le_decodeBlockHeader z p)
  | v50End | v29Init | v20Init | v20SizeDone | v20TailStop => exact .instr _ _ le_rfl
  | v50Token => exact decodeV50_readsForward env z p
  | v29Tables => exact decodeV29Tables_readsForward env z p
  | v29Lz => exact decodeV29_readsForward env z p
  | v29Ppm => exact decodePpm_readsForward env z p
  | v20Tables => exact .instr _ _ (le_decodeV20Header z p)
  | v20Lz => exact decodeV20_readsForward env z p
  | v20Audio => exact decodeAudioSymbol_readsForward env z p
  | v20TailRead => exact decodeTail_readsForward env z p
  | v20TailWait => exact ⟨le_rfl, by simp only [decodeIn]; omega⟩

end Rules

theorem fetch_readsForward (ctx : Ctx) (s : State) : ReadsForward (bitPos s) (fetch ctx s) :=
  decodeIn_readsForward _ _ ctx _

end Sys2Proof.Machine
end

section
/-! What a move does to the input, the position and OUT (20_memory.md R61 to R63, R70, R76): one rule per agent, and the
statements about a whole step from them. -/

namespace Sys2Proof.Machine

/-! ### Host steps -/

theorem memberActive_iff {s : State} : memberActive s = true ↔ s.status = .running ∨ s.status = .drain := by
  simp [memberActive]

theorem deliver_enabled {s : State} (b : Byte) (h : memberActive s = true) (he : s.inEnded = false) :
    deliver b s = { s with input := s.input ++ [b] } := by simp [deliver, h, he]

theorem deliver_disabled {s : State} (b : Byte) (h : ¬ memberActive s = true ∨ s.inEnded = true) :
    deliver b s = s := by
  rcases h with h | h <;> simp [deliver, h]

theorem endInput_enabled {s : State} (h : memberActive s = true) (he : s.inEnded = false) :
    endInput s = { s with inEnded := true } := by simp [endInput, h, he]

theorem endInput_disabled {s : State} (h : ¬ memberActive s = true ∨ s.inEnded = true) : endInput s = s := by
  rcases h with h | h <;> simp [endInput, h]

theorem cancel_enabled {s : State} (h : memberActive s = true) : cancel s = { s with status := .cancelled } :=
  if_pos h

theorem cancel_disabled {s : State} (h : ¬ memberActive s = true) : cancel s = s := if_neg h

theorem deliver_cases (b : Byte) (s : State) : deliver b s = { s with input := s.input ++ [b] } ∨ deliver b s = s :=
  ite_eq_or_eq ..

theorem endInput_cases (s : State) : endInput s = { s with inEnded := true } ∨ endInput s = s := ite_eq_or_eq ..

theorem cancel_cases (s : State) : cancel s = { s with status := .cancelled } ∨ cancel s = s := ite_eq_or_eq ..

/-- A step that an event is scheduled for is that event's move (log 1). -/
theorem step_of_events {s : State} {e : Event} {rest : List Event} (h : s.events = e :: rest) :
    step s = eventMove e { s with events := rest } := by simp only [step, h]

/-- Settles O36: each host step is enabled in its statuses, and otherwise dropped. -/
theorem hostInputSteps : Obligations.HostInputSteps := by
  intro s rest u started
  have active : started ↔ memberActive u = true := memberActive_iff.symm
  rw [active]
  refine ⟨fun b hb => ?_, fun hb => ?_, fun hb => ?_⟩ <;> rw [step_of_events hb]
  · exact ⟨fun h he => congrArg _ (deliver_enabled b h he), fun h => congrArg _ (deliver_disabled b h)⟩
  · exact ⟨fun h he => congrArg _ (endInput_enabled h he), fun h => congrArg _ (endInput_disabled h)⟩
  · exact ⟨fun h => congrArg _ (cancel_enabled h), fun h => congrArg _ (cancel_disabled h)⟩

/-! ### The decoder core -/

@[simp] theorem fixedPart_exhaust (s : State) : fixedPart (exhaust s) = fixedPart s := by
  unfold exhaust
  split
  · exact fixedPart_endMember s
  · exact fixedPart_errorState s .e7

theorem run_fixes (d : Decoded) (s : State) : NextFixes s (run d s) := by
  intro t ht
  obtain ⟨i, -, hi⟩ | ⟨e, -, rfl⟩ := run_cases ht
  · exact exec_fixes i s t hi
  · exact fixedPart_errorState s e

/-- A core step keeps the fixed part, but for the advance past bits that were all there (R211). -/
theorem coreMove_next {s t : State} (h : coreMove s = some (.next t)) :
    fixedPart t = fixedPart s ∨
      ∃ ctx u, (fetch ctx s).need ≤ availBits s ∧ fixedPart u = fixedPart s ∧ t = advance (fetch ctx s) u := by
  obtain ⟨-, ⟨-, hfault⟩ | ⟨ctx, -, -, ⟨hneed, hrun⟩ | ⟨-, -, hend⟩⟩⟩ := coreMove_cases h
  · cases hfault
  · obtain ⟨u, hu, rfl⟩ := advanceOutcome_next hrun.symm
    exact .inr ⟨ctx, u, hneed, run_fixes _ s u hu, rfl⟩
  · cases hend
    exact .inl (fixedPart_exhaust s)

/-- A scheduled core move is the core's step, or nothing where that step is not enabled (log 2). -/
theorem eventMove_core_cases {s t : State} (h : eventMove .core s = .next t) :
    coreMove s = some (.next t) ∨ t = s := by
  simp only [eventMove] at h
  cases hc : coreMove s with
  | none => rw [hc] at h; cases h; exact .inr rfl
  | some o => rw [hc] at h; cases h; exact .inl rfl

@[simp] theorem advance_out (d : Decoded) (s : State) : (advance d s).out = s.out := by
  unfold advance; split <;> rfl

@[simp] theorem advance_input (d : Decoded) (s : State) : (advance d s).input = s.input := by
  unfold advance; split <;> rfl

/-- A step that raised an error stays where it was (R402), any other goes to the position after its fields (R24). -/
theorem bitPos_advance {d : Decoded} (h : d.pos < 2 ^ 64) (s : State) :
    bitPos (advance d s) = if s.status = .error then bitPos s else d.pos := by
  unfold advance
  split
  · rfl
  · simp only [bitPos, BitVec.toNat_ofNat]
    omega

theorem bitPos_of_fixedPart {s t : State} (h : fixedPart t = fixedPart s) : bitPos t = bitPos s := by
  have hbyte : t.posByte = s.posByte := congrArg FixedPart.posByte h
  have hbit : t.posBit = s.posBit := congrArg FixedPart.posBit h
  rw [bitPos, bitPos, hbyte, hbit]

theorem coreMove_out {s t : State} (h : coreMove s = some (.next t)) : t.out = s.out := by
  obtain hfix | ⟨ctx, u, -, hfix, rfl⟩ := coreMove_next h
  · exact congrArg FixedPart.out hfix
  · exact (advance_out _ u).trans (congrArg FixedPart.out hfix)

theorem coreMove_input {s t : State} (h : coreMove s = some (.next t)) : t.input = s.input := by
  obtain hfix | ⟨ctx, u, -, hfix, rfl⟩ := coreMove_next h
  · exact congrArg FixedPart.input hfix
  · exact (advance_input _ u).trans (congrArg FixedPart.input hfix)

/-- The position never wraps: it stays within the bits that are there (R211, log 8). -/
theorem bitPos_le_coreMove {s t : State} (hlen : 8 * s.input.length < 2 ^ 64)
    (h : coreMove s = some (.next t)) : bitPos s ≤ bitPos t := by
  obtain hfix | ⟨ctx, u, hneed, hfix, rfl⟩ := coreMove_next h
  · exact (bitPos_of_fixedPart hfix).ge
  · obtain ⟨hle, hcover⟩ := fetch_readsForward ctx s
    have havail : (fetch ctx s).pos < 2 ^ 64 := (hcover.trans hneed).trans_lt hlen
    rw [bitPos_advance havail, bitPos_of_fixedPart hfix]
    split
    · exact le_rfl
    · exact hle

/-! ### The output -/

/-- OUT stays, or takes the byte at FL_ABS below the declared size (R185, R186). -/
def OutputTakesFlushed (s t : State) : Prop :=
  t.out = s.out ∨
    (t.out = s.out ++ [memRead s s.flAbs] ∧ t.flAbs = s.flAbs + 1 ∧ emitted s < s.cfgDeclaredSize.toNat)

/-- The ports and the control registers as an accepted member start leaves them (R440). -/
def FreshMember (t : State) : Prop :=
  t.out = [] ∧ t.filt = [] ∧ t.status = .running ∧ t.phase = .init ∧ t.flAbs = t.wrAbs

theorem flushMove_output (s : State) : OutputTakesFlushed s (flushMove s) := by
  unfold flushMove
  split
  · by_cases hsize : emitted s < s.cfgDeclaredSize.toNat
    · exact .inr ⟨if_pos hsize, rfl, hsize⟩
    · exact .inl (if_neg hsize)
  · exact .inl rfl

theorem acceptMember_fresh (g : Gen) (cont : Bool) (size : BitVec 64) (log2 : Nat) (s : State) :
    FreshMember (acceptMember g cont size log2 s) := ⟨rfl, rfl, rfl, rfl, rfl⟩

/-- A member start is refused, which leaves OUT as it was (R404), or begins a fresh member (R440). -/
theorem memberStart_output {g : Gen} {solid : Bool} {size : BitVec 64} {log2 : Nat} {s t : State}
    (h : memberStart g solid size log2 s = .next t) : t.out = s.out ∨ FreshMember t := by
  unfold memberStart execV15Stream at h
  dsimp only at h
  split_ifs at h <;> cases h
  · exact .inl rfl
  · exact .inl rfl
  · exact .inr (acceptMember_fresh ..)

theorem eventMove_output {e : Event} {s t : State} (h : eventMove e s = .next t) :
    OutputTakesFlushed s t ∨ (∃ g solid size log2, e = .memberStart g solid size log2) ∧ FreshMember t := by
  cases e with
  | memberStart g solid size log2 =>
    simp only [eventMove] at h
    split at h
    · exact (memberStart_output h).imp .inl fun hfresh => ⟨⟨g, solid, size, log2, rfl⟩, hfresh⟩
    · cases h; exact .inl (.inl rfl)
  | deliver b => cases h; obtain h | h := deliver_cases b s <;> rw [h] <;> exact .inl (.inl rfl)
  | endInput => cases h; obtain h | h := endInput_cases s <;> rw [h] <;> exact .inl (.inl rfl)
  | cancel => cases h; obtain h | h := cancel_cases s <;> rw [h] <;> exact .inl (.inl rfl)
  | core =>
    obtain hc | rfl := eventMove_core_cases h
    · exact .inl (.inl (coreMove_out hc))
    · exact .inl (.inl rfl)
  | flush => cases h; exact .inl (flushMove_output s)
  | sinkReady | flushLimit | filterAccept => cases h; exact .inl (.inl rfl)

/-- Settles O23, by the three kinds of step: a scheduled event, the core's move, and the flush engine's. -/
theorem outputIsTheFlushedBytes : Obligations.OutputIsTheFlushedBytes := by
  intro s t h
  obtain ⟨e, rest, he, hmove⟩ | ⟨-, hcore⟩ | ⟨-, -, rfl⟩ := step_cases h
  · obtain (hout | hflush) | ⟨⟨g, solid, size, log2, rfl⟩, hfresh⟩ := eventMove_output hmove
    · exact .inl hout
    · exact .inr (.inl hflush)
    · exact .inr (.inr ⟨⟨g, solid, size, log2, congrArg List.head? he⟩, hfresh⟩)
  · exact .inl (coreMove_out hcore)
  · exact or_assoc.mp (.inl (flushMove_output s))

/-! ### The input -/

theorem flushMove_input (s : State) : (flushMove s).input = s.input := by
  unfold flushMove; split <;> rfl

theorem bitPos_flushMove (s : State) : bitPos (flushMove s) = bitPos s := by
  unfold flushMove; split <;> rfl

/-- Every event but a member start (R440) reads forward: it keeps the input or delivers a byte at its end (R61), and does
not move the position back (R24). -/
theorem eventMove_input {e : Event} {s t : State} (hlen : 8 * s.input.length < 2 ^ 64)
    (hstart : ∀ g solid size log2, e ≠ .memberStart g solid size log2) (h : eventMove e s = .next t) :
    (t.input = s.input ∨ ∃ b, e = .deliver b ∧ t.input = s.input ++ [b]) ∧ bitPos s ≤ bitPos t := by
  cases e with
  | memberStart g solid size log2 => exact absurd rfl (hstart g solid size log2)
  | deliver b =>
    cases h
    obtain h | h := deliver_cases b s <;> rw [h]
    · exact ⟨.inr ⟨b, rfl, rfl⟩, le_rfl⟩
    · exact ⟨.inl rfl, le_rfl⟩
  | endInput => cases h; obtain h | h := endInput_cases s <;> rw [h] <;> exact ⟨.inl rfl, le_rfl⟩
  | cancel => cases h; obtain h | h := cancel_cases s <;> rw [h] <;> exact ⟨.inl rfl, le_rfl⟩
  | core =>
    obtain hc | rfl := eventMove_core_cases h
    · exact ⟨.inl (coreMove_input hc), bitPos_le_coreMove hlen hc⟩
    · exact ⟨.inl rfl, le_rfl⟩
  | flush => cases h; exact ⟨.inl (flushMove_input s), (bitPos_flushMove s).ge⟩
  | sinkReady | flushLimit | filterAccept => cases h; exact ⟨.inl rfl, le_rfl⟩

/-- Settles O24: only a delivery grows the input, and only a core step moves the position, forward. -/
theorem inputReadSequentially : Obligations.InputReadSequentially := by
  intro s t _ hlen h hstart
  obtain ⟨e, rest, he, hmove⟩ | ⟨-, hcore⟩ | ⟨-, -, rfl⟩ := step_cases h
  · have hhead : s.events.head? = some e := congrArg List.head? he
    obtain ⟨hinput, hpos⟩ := eventMove_input (s := { s with events := rest }) hlen
      (fun g solid size log2 hmember => hstart g solid size log2 (hhead.trans (congrArg some hmember))) hmove
    exact ⟨hinput.imp_right fun ⟨b, hb, hgrown⟩ => ⟨b, hhead.trans (congrArg some hb), hgrown⟩, hpos⟩
  · exact ⟨.inl (coreMove_input hcore), bitPos_le_coreMove hlen hcore⟩
  · exact ⟨.inl (flushMove_input s), (bitPos_flushMove s).ge⟩

end Sys2Proof.Machine
end

section
/-! What the encoder writes the decoder reads back, field by field: fixed-width fields, byte fields, code words, and the
operand groups made of them (30_encoding.md R91 to R99). -/

namespace Sys2Proof.Machine

/-! ### Bit and byte fields -/

section Fields
variable {z : Bits} {p : Nat}

theorem Holds.head {b : Bool} {bs : List Bool} (h : Holds z p (b :: bs)) : z p = b := h 0 (Nat.zero_lt_succ _)

theorem Holds.tail {b : Bool} {bs : List Bool} (h : Holds z p (b :: bs)) : Holds z (p + 1) bs :=
  Holds.right (as := [b]) h

/-- The bit of a peek of `n` bits that stands `k` bits after the position (R131). -/
theorem testBit_peekBits {n k : Nat} (h : k < n) : (peekBits z p n).testBit (n - 1 - k) = z (p + k) := by
  induction n with
  | zero => exact absurd h (Nat.not_lt_zero k)
  | succ n ih =>
    rcases Nat.lt_succ_iff_lt_or_eq.mp h with hk | rfl
    · have earlier : n + 1 - 1 - k = n - 1 - k + 1 := by omega
      rw [earlier, Nat.testBit_succ, ← ih hk]
      have := Bool.toNat_le (z (p + n))
      congr 1
      simp only [peekBits]; omega
    · have last : k + 1 - 1 - k = 0 := by omega
      rw [last, Nat.testBit_zero]
      cases hz : z (p + k) <;> simp [peekBits, hz]

theorem peekBits_one {b : Bool} (h : z p = b) : peekBits z p 1 = b.toNat := by simp [peekBits, h]

/-- R133: a field of `n` bits is read back as its value. -/
theorem getBits_holds {n v : Nat} (h : Holds z p (bitsOf n v)) (hv : v < 2 ^ n) : getBits z p n = (v, p + n) :=
  congrArg (·, p + n) (peekBits_holds_lt h hv)

theorem ofNat_peekBits_holds {n : Nat} {v : BitVec n} (h : Holds z p (bitsOf n v.toNat)) :
    BitVec.ofNat n (peekBits z p n) = v := by
  rw [peekBits_holds_lt h v.isLt, BitVec.ofNat_toNat, BitVec.setWidth_eq]

theorem two_pow_bytes_succ (k : Nat) : 2 ^ (8 * (k + 1)) = 2 ^ (8 * k) * 256 := pow_add 2 (8 * k) 8

@[simp] theorem length_bitsOfLE (k v : Nat) : (bitsOfLE k v).length = 8 * k := by
  induction k generalizing v with
  | zero => rfl
  | succ k ih => simp only [bitsOfLE, List.length_append, length_bitsOf, ih]; omega

/-- R91 `LE(k)`: the bytes come least significant first. -/
theorem peekLE_holds {k v : Nat} (h : Holds z p (bitsOfLE k v)) (hv : v < 2 ^ (8 * k)) : peekLE z p k = v := by
  induction k generalizing p v with
  | zero => simp only [Nat.mul_zero, pow_zero, Nat.lt_one_iff] at hv; exact hv.symm
  | succ k ih =>
    obtain ⟨low, high⟩ := Holds.append.mp h
    rw [length_bitsOf] at high
    rw [two_pow_bytes_succ] at hv
    have high_lt : v / 256 < 2 ^ (8 * k) := (Nat.div_lt_iff_lt_mul (by decide)).mpr hv
    rw [peekLE, peekBits_holds low, ih high high_lt]
    exact Nat.mod_add_div v 256

@[simp] theorem length_bitsOfBytes (bs : List Byte) : (bitsOfBytes bs).length = 8 * bs.length := by
  simp [bitsOfBytes, List.length_flatMap, Nat.mul_comm]

theorem bitsOfBytes_cons (b : Byte) (bs : List Byte) : bitsOfBytes (b :: bs) = bitsOf 8 b.toNat ++ bitsOfBytes bs := rfl

theorem bitsOfBytes_append (as bs : List Byte) : bitsOfBytes (as ++ bs) = bitsOfBytes as ++ bitsOfBytes bs :=
  List.flatMap_append

/-- R91: byte fields are read back in stream order. -/
theorem peekBytes_holds {bs : List Byte} (h : Holds z p (bitsOfBytes bs)) : peekBytes z p bs.length = bs := by
  induction bs generalizing p with
  | nil => rfl
  | cons b bs ih =>
    rw [bitsOfBytes_cons, Holds.append, length_bitsOf] at h
    obtain ⟨first, rest⟩ := h
    rw [List.length_cons, peekBytes, ofNat_peekBits_holds first, ih rest]

end Fields

/-! ### VM-code records -/

/-- The length extension of a first byte has 0, 1 or 2 bytes (R289). -/
theorem vmExtBytes_cases (first : Byte) : vmExtBytes first = 0 ∨ vmExtBytes first = 1 ∨ vmExtBytes first = 2 := by
  unfold vmExtBytes; dsimp only; split_ifs <;> simp

theorem bigEndian_pair (hi lo : Byte) : bigEndian [hi, lo] = 256 * hi.toNat + lo.toNat := by
  simp [bigEndian, Nat.mul_comm]

theorem bigEndian_singleton (b : Byte) : bigEndian [b] = b.toNat := by simp [bigEndian]

theorem bigEndian_lt (bs : List Byte) : bigEndian bs < 2 ^ (8 * bs.length) := by
  induction bs using List.reverseRecOn with
  | nil => simp [bigEndian]
  | append_singleton bs b ih =>
    have step : bigEndian (bs ++ [b]) = bigEndian bs * 256 + b.toNat := by simp [bigEndian]
    have hb := b.isLt
    rw [step, List.length_append, List.length_singleton, two_pow_bytes_succ]
    omega

/-- The bytes of a VM-code record whose extension bytes are `ext` (R289). -/
theorem vmCodeBytes_bigEndian {first : Byte} {ext : List Byte} (code : List Byte) (h : ext.length = vmExtBytes first) :
    vmCodeBytes { first := first, ext := bigEndian ext, code := code } = first :: (ext ++ code) := by
  rcases vmExtBytes_cases first with hk | hk | hk
  · obtain rfl : ext = [] := List.length_eq_zero_iff.mp (h.trans hk)
    simp [vmCodeBytes, hk]
  · obtain ⟨b, rfl⟩ := List.length_eq_one_iff.mp (h.trans hk)
    simp [vmCodeBytes, hk, bigEndian_singleton]
  · obtain ⟨hi, lo, rfl⟩ := List.length_eq_two.mp (h.trans hk)
    have hhi : (256 * hi.toNat + lo.toNat) / 256 = hi.toNat := by have := lo.isLt; omega
    have hlo : BitVec.ofNat 8 (256 * hi.toNat + lo.toNat) = lo := by
      apply BitVec.eq_of_toNat_eq; have := lo.isLt; simp only [BitVec.toNat_ofNat]; omega
    simp [vmCodeBytes, hk, bigEndian_pair, hhi, hlo]

/-- Every extension value of `k` bytes, at most two, is that of some bytes. -/
theorem exists_bigEndian_eq {k v : Nat} (hk : k = 0 ∨ k = 1 ∨ k = 2) (hv : v < 2 ^ (8 * k)) :
    ∃ bs : List Byte, bs.length = k ∧ bigEndian bs = v := by
  rcases hk with rfl | rfl | rfl
  · exact ⟨[], rfl, by simp [bigEndian]; omega⟩
  · refine ⟨[BitVec.ofNat 8 v], rfl, ?_⟩
    rw [bigEndian_singleton, BitVec.toNat_ofNat]; exact Nat.mod_eq_of_lt hv
  · refine ⟨[BitVec.ofNat 8 (v / 256), BitVec.ofNat 8 v], rfl, ?_⟩
    rw [bigEndian_pair, BitVec.toNat_ofNat, BitVec.toNat_ofNat]; omega

/-- A well-formed VM-code record is its first byte, the extension bytes and the code bytes. -/
theorem exists_ext_of_vmCode_wf {v : VmCode} (h : v.wf = true) :
    ∃ ext : List Byte, ext.length = vmExtBytes v.first ∧ v.code.length = vmLength v.first (bigEndian ext) ∧
      v = { first := v.first, ext := bigEndian ext, code := v.code } := by
  simp only [VmCode.wf, Bool.and_eq_true, decide_eq_true_eq, beq_iff_eq] at h
  obtain ⟨hext, hcode⟩ := h
  obtain ⟨ext, hlen, hv⟩ := exists_bigEndian_eq (vmExtBytes_cases v.first) hext
  exact ⟨ext, hlen, hv ▸ hcode, by rw [hv]⟩

theorem vmCode_wf_bigEndian {first : Byte} {ext code : List Byte} (hext : ext.length = vmExtBytes first)
    (hcode : code.length = vmLength first (bigEndian ext)) :
    VmCode.wf { first := first, ext := bigEndian ext, code := code } = true := by
  simp only [VmCode.wf, Bool.and_eq_true, decide_eq_true_eq, beq_iff_eq]
  exact ⟨hext ▸ bigEndian_lt ext, hcode⟩

/-- R289: the bytes of a well-formed record are read back. -/
theorem decodeVmCode_holds {z : Bits} {p : Nat} {v : VmCode} (hwf : v.wf = true)
    (h : Holds z p (bitsOfBytes (vmCodeBytes v))) :
    decodeVmCode z p = (v, p + (bitsOfBytes (vmCodeBytes v)).length) := by
  obtain ⟨ext, hext, hcode, hv⟩ := exists_ext_of_vmCode_wf hwf
  generalize v.first = first at *
  generalize v.code = code at *
  subst hv
  rw [vmCodeBytes_bigEndian _ hext] at h ⊢
  rw [bitsOfBytes_cons, bitsOfBytes_append, Holds.append, Holds.append, length_bitsOf, length_bitsOfBytes] at h
  obtain ⟨hfirst, hbytes, hcodes⟩ := h
  simp only [decodeVmCode, ofNat_peekBits_holds hfirst, ← hext, peekBytes_holds hbytes, ← hcode,
    peekBytes_holds hcodes, length_bitsOfBytes, List.length_cons, List.length_append, Prod.mk.injEq, true_and]
  omega

end Sys2Proof.Machine
end

section
/-! Table descriptions read back: the elements of a length description, the lists of them that fill an array, and the
pre-tables they are read under (30_encoding.md R92 to R95, R159 to R162). -/

namespace Sys2Proof.Machine

variable {z : Bits} {p : Nat}

/-! ### Elements -/

theorem decodePreCode_holds {c : PreCode} (hwf : c.wf = true) (h : Holds z p (encodePreCode c)) :
    decodePreCode z p = (c, p + (encodePreCode c).length) := by
  cases c with
  | len l =>
    have hl : l ≠ 15 := by simpa [PreCode.wf] using hwf
    have read : peekBits z p 4 = l.toNat := peekBits_holds_lt h l.isLt
    have plain : ¬ peekBits z p 4 = 15 := fun h15 => hl (BitVec.eq_of_toNat_eq (read.symm.trans h15))
    simp [decodePreCode, plain, ofNat_peekBits_holds h, encodePreCode]
  | esc n =>
    rw [encodePreCode, Holds.append, length_bitsOf] at h
    obtain ⟨escape, operand⟩ := h
    simp [decodePreCode, peekBits_holds_lt escape (by decide), ofNat_peekBits_holds operand, encodePreCode]

section PreTable
variable {n : Nat} {bd : HuffTable} (hbd : bd.canonical n = true)
include hbd

theorem decodeLenCode5_holds {c : LenCode5} (hcode : bd.hasCode (lenCode5Symbol c) = true)
    (h : Holds z p (encodeLenCode5 bd c)) : decodeLenCode5 bd z p = (c, p + (encodeLenCode5 bd c).length) := by
  cases c with
  | lit l =>
    have symbol := huffDecode_encode hbd hcode h
    have hl : l.toNat < 16 := l.isLt
    simp [decodeLenCode5, symbol, hl, encodeLenCode5, lenCode5Symbol]
  | rep3 r | rep7 r | zero3 r | zero7 r =>
    rw [encodeLenCode5, Holds.append] at h
    obtain ⟨code, operand⟩ := h
    have symbol := huffDecode_encode hbd hcode code
    rw [lenCode5Symbol] at symbol
    simp [decodeLenCode5, symbol, ofNat_peekBits_holds operand, encodeLenCode5, Nat.add_assoc]

theorem decodeLenCode2_holds {c : LenCode2} (hcode : bd.hasCode (lenCode2Symbol c) = true)
    (h : Holds z p (encodeLenCode2 bd c)) : decodeLenCode2 bd z p = (c, p + (encodeLenCode2 bd c).length) := by
  cases c with
  | lit l =>
    have symbol := huffDecode_encode hbd hcode h
    have hl : l.toNat < 16 := l.isLt
    simp [decodeLenCode2, symbol, hl, encodeLenCode2, lenCode2Symbol]
  | rep2 r | zero3 r | zero7 r =>
    rw [encodeLenCode2, Holds.append] at h
    obtain ⟨code, operand⟩ := h
    have symbol := huffDecode_encode hbd hcode code
    rw [lenCode2Symbol] at symbol
    simp [decodeLenCode2, symbol, ofNat_peekBits_holds operand, encodeLenCode2, Nat.add_assoc]

end PreTable

theorem decodePlainLens_holds {ls : List Len} (h : Holds z p (ls.flatMap fun l => bitsOf 4 l.toNat)) :
    decodePlainLens z ls.length p = (ls, p + (ls.flatMap fun l => bitsOf 4 l.toNat).length) := by
  induction ls generalizing p with
  | nil => rfl
  | cons l ls ih =>
    rw [List.flatMap_cons, Holds.append, length_bitsOf] at h
    obtain ⟨first, rest⟩ := h
    rw [List.length_cons, decodePlainLens, ih rest]
    simp [ofNat_peekBits_holds first, Nat.add_assoc]

/-- Settles O6: each element by its form; the coded ones by R158(b). -/
theorem lengthCodeRoundTrip : Obligations.LengthCodeRoundTrip := by
  refine ⟨fun env bd z p c hwf h => ?_, fun env bd z p l h => ?_, fun env bd z p c hbd hcode h => ?_,
    fun env bd z p c hbd hcode h => ?_⟩
  · have bits : encode env bd (preCodeInstr c) = encodePreCode c := by cases c <;> rfl
    have element : c.wf = true := by cases c <;> exact hwf
    rw [bits] at h ⊢
    exact decodePreCode_holds element h
  · exact decodePlainLens_holds (ls := [l]) (by simpa [encode] using h)
  · have bits : encode env bd (lenCode5Instr c) = encodeLenCode5 bd c := by cases c <;> rfl
    rw [bits] at h ⊢
    exact decodeLenCode5_holds hbd hcode h
  · have bits : encode env bd (lenCode2Instr c) = encodeLenCode2 bd c := by cases c <;> rfl
    rw [bits] at h ⊢
    exact decodeLenCode2_holds hbd hcode h

/-! ### Lists of elements

The three lists of elements are read by one loop, which stops where the array is full; each element gives at least one
length, so the fuel suffices. -/

/-- The loop of R92 and R159 over elements that `read` reads: elements until they describe `n` lengths, or one that repeats
at position 0 (R160). -/
def readElements {α : Type} (read : Nat → α × Nat) (count : α → Nat) (repeats : α → Bool) (n : Nat) :
    (fuel i p : Nat) → List α × Nat
  | 0, _, p => ([], p)
  | fuel + 1, i, p =>
    if i ≥ n then ([], p)
    else if i = 0 && repeats (read p).1 then ([(read p).1], (read p).2)
    else
      let r := readElements read count repeats n fuel (i + count (read p).1) (read p).2
      ((read p).1 :: r.1, r.2)

theorem decodePreCodes_eq (z : Bits) (fuel i p : Nat) :
    decodePreCodes z fuel i p = readElements (decodePreCode z) preCodeCount (fun _ => false) 20 fuel i p := by
  induction fuel generalizing i p with
  | zero => rfl
  | succ fuel ih => simp [decodePreCodes, readElements, ih]

theorem decodeLens5_eq (bd : HuffTable) (z : Bits) (n fuel i p : Nat) :
    decodeLens5 bd z n fuel i p = readElements (decodeLenCode5 bd z) lenCode5Count lenCode5Repeats n fuel i p := by
  induction fuel generalizing i p with
  | zero => rfl
  | succ fuel ih => simp only [decodeLens5, readElements, ih]

theorem decodeLens2_eq (bd : HuffTable) (z : Bits) (n fuel i p : Nat) :
    decodeLens2 bd z n fuel i p = readElements (decodeLenCode2 bd z) lenCode2Count lenCode2Repeats n fuel i p := by
  induction fuel generalizing i p with
  | zero => rfl
  | succ fuel ih => simp only [decodeLens2, readElements, ih]

section Elements
variable {α : Type} {read : Nat → α × Nat} {count : α → Nat} {repeats : α → Bool} {bits : α → List Bool} {n : Nat}
  {cs : List α}

/-- Elements that reach the end of the array are read back, where the first is no repeat at position 0. -/
theorem readElements_of_fills {fuel i : Nat} (hcount : ∀ c, 0 < count c)
    (hread : ∀ c ∈ cs, ∀ q, Holds z q (bits c) → read q = (c, q + (bits c).length))
    (hfill : fillsFrom n i (cs.map count) = true) (hfuel : n ≤ i + fuel)
    (hfirst : i = 0 → ∀ c ∈ cs.head?, repeats c = false) (h : Holds z p (cs.flatMap bits)) :
    readElements read count repeats n fuel i p = (cs, p + (cs.flatMap bits).length) := by
  induction cs generalizing fuel i p with
  | nil =>
    have full : n ≤ i := by simpa [fillsFrom] using hfill
    cases fuel <;> simp [readElements, full]
  | cons c cs ih =>
    simp only [List.map_cons, fillsFrom, Bool.and_eq_true, decide_eq_true_eq] at hfill
    obtain ⟨room, hfill⟩ := hfill
    rw [List.flatMap_cons, Holds.append] at h
    obtain ⟨first, rest⟩ := h
    have progress := hcount c
    obtain ⟨fuel, rfl⟩ : ∃ f, fuel = f + 1 := ⟨fuel - 1, by omega⟩
    have legal : ¬ (decide (i = 0) && repeats c) = true := by simpa using fun hi => hfirst hi c rfl
    have tail := ih (fun c hc => hread c (List.mem_cons_of_mem _ hc)) hfill (fuel := fuel) (by omega) (by omega) rest
    rw [readElements, hread c List.mem_cons_self p first, if_neg (by omega), if_neg legal, tail]
    simp only [List.flatMap_cons, List.length_append, Nat.add_assoc]

/-- R159, R160: the elements of a well-formed array, a lone repeat at position 0 included, are read back. -/
theorem readElements_holds (hn : 0 < n) (hcount : ∀ c, 0 < count c)
    (hread : ∀ c ∈ cs, ∀ q, Holds z q (bits c) → read q = (c, q + (bits c).length))
    (hwf : (∃ c, cs = [c] ∧ repeats c = true) ∨
      (fillsFrom n 0 (cs.map count) = true ∧ ∀ c ∈ cs.head?, repeats c = false))
    (h : Holds z p (cs.flatMap bits)) :
    readElements read count repeats n n 0 p = (cs, p + (cs.flatMap bits).length) := by
  rcases hwf with ⟨c, rfl, illegal⟩ | ⟨hfill, hfirst⟩
  · obtain ⟨m, rfl⟩ : ∃ m, n = m + 1 := ⟨n - 1, by omega⟩
    have single : [c].flatMap bits = bits c := List.flatMap_singleton bits c
    rw [single] at h ⊢
    simp [readElements, hread c List.mem_cons_self p h, illegal]
  · exact readElements_of_fills hcount hread hfill (by omega) (fun _ => hfirst) h

end Elements

theorem preCodeCount_pos (c : PreCode) : 0 < preCodeCount c := by
  cases c with
  | len l => exact Nat.one_pos
  | esc n => rw [preCodeCount]; split <;> exact Nat.succ_pos _

theorem lenCode5Count_pos (c : LenCode5) : 0 < lenCode5Count c := by cases c <;> exact Nat.succ_pos _

theorem lenCode2Count_pos (c : LenCode2) : 0 < lenCode2Count c := by cases c <;> exact Nat.succ_pos _

theorem lens5Wf_cases {n : Nat} {cs : List LenCode5} (h : lens5Wf n cs = true) :
    (∃ c, cs = [c] ∧ lenCode5Repeats c = true) ∨
      (fillsFrom n 0 (cs.map lenCode5Count) = true ∧ ∀ c ∈ cs.head?, lenCode5Repeats c = false) := by
  cases cs with
  | nil => exact absurd h (by simp [lens5Wf])
  | cons c rest =>
    cases hc : lenCode5Repeats c with
    | true => exact .inl ⟨c, by simpa [lens5Wf, hc] using h, hc⟩
    | false => exact .inr ⟨by simpa [lens5Wf, hc] using h, by simpa using hc⟩

theorem lens2Wf_cases {n : Nat} {cs : List LenCode2} (h : lens2Wf n cs = true) :
    (∃ c, cs = [c] ∧ lenCode2Repeats c = true) ∨
      (fillsFrom n 0 (cs.map lenCode2Count) = true ∧ ∀ c ∈ cs.head?, lenCode2Repeats c = false) := by
  cases cs with
  | nil => exact absurd h (by simp [lens2Wf])
  | cons c rest =>
    cases hc : lenCode2Repeats c with
    | true => exact .inl ⟨c, by simpa [lens2Wf, hc] using h, hc⟩
    | false => exact .inr ⟨by simpa [lens2Wf, hc] using h, by simpa using hc⟩

theorem decodePreCodes_holds {cs : List PreCode} (hwf : cs.all PreCode.wf = true)
    (hfill : fillsFrom 20 0 (cs.map preCodeCount) = true) (h : Holds z p (cs.flatMap encodePreCode)) :
    decodePreCodes z 20 0 p = (cs, p + (cs.flatMap encodePreCode).length) := by
  rw [List.all_eq_true] at hwf
  rw [decodePreCodes_eq]
  exact readElements_holds (by decide) preCodeCount_pos (fun c hc _ => decodePreCode_holds (hwf c hc))
    (.inr ⟨hfill, fun _ _ => rfl⟩) h

theorem decodeLens5_holds {m n : Nat} {bd : HuffTable} {cs : List LenCode5} (hbd : bd.canonical m = true) (hn : 0 < n)
    (hwf : lens5Wf n cs = true) (hcodes : (cs.all fun c => bd.hasCode (lenCode5Symbol c)) = true)
    (h : Holds z p (cs.flatMap (encodeLenCode5 bd))) :
    decodeLens5 bd z n n 0 p = (cs, p + (cs.flatMap (encodeLenCode5 bd)).length) := by
  rw [List.all_eq_true] at hcodes
  rw [decodeLens5_eq]
  exact readElements_holds hn lenCode5Count_pos (fun c hc _ => decodeLenCode5_holds hbd (hcodes c hc))
    (lens5Wf_cases hwf) h

theorem decodeLens2_holds {m n : Nat} {bd : HuffTable} {cs : List LenCode2} (hbd : bd.canonical m = true) (hn : 0 < n)
    (hwf : lens2Wf n cs = true) (hcodes : (cs.all fun c => bd.hasCode (lenCode2Symbol c)) = true)
    (h : Holds z p (cs.flatMap (encodeLenCode2 bd))) :
    decodeLens2 bd z n n 0 p = (cs, p + (cs.flatMap (encodeLenCode2 bd)).length) := by
  rw [List.all_eq_true] at hcodes
  rw [decodeLens2_eq]
  exact readElements_holds hn lenCode2Count_pos (fun c hc _ => decodeLenCode2_holds hbd (hcodes c hc))
    (lens2Wf_cases hwf) h

/-! ### Descriptions -/

theorem length_preLens_le (cs : List PreCode) : (preLens cs).length ≤ 20 := by
  rw [preLens_eq, preLengths]; exact List.length_take_le ..

/-- A description is read back with all its length codes, or as far as an oversubscribed pre-table lets it be read (R162). -/
theorem decodeTableDesc5_holds {n : Nat} {d : TableDesc5} (hn : 0 < n) (hwf : d.wf n = true)
    (hcodes : codableDesc5 d = true) (h : Holds z p (encodeTableDesc5 d)) :
    decodeTableDesc5 z n p = (d, p + (encodeTableDesc5 d).length) := by
  obtain ⟨pre, lens⟩ := d
  simp only [TableDesc5.wf, Bool.and_eq_true] at hwf
  obtain ⟨⟨hpre, hfill⟩, hlens⟩ := hwf
  simp only [encodeTableDesc5, Holds.append] at h
  obtain ⟨preBits, lensBits⟩ := h
  have elements := decodePreCodes_holds hpre hfill preBits
  simp only [decodeTableDesc5, elements, encodeTableDesc5, List.length_append]
  cases hbuild : buildTable (preLens pre) with
  | error e =>
    simp only [hbuild, List.isEmpty_iff] at hlens
    simp [hlens]
  | ok bd =>
    simp only [hbuild] at hlens lensBits
    simp only [codableDesc5, hbuild] at hcodes
    have canonical := buildTable_canonical hbuild ((length_preLens_le pre).trans (by decide))
    simp only [decodeLens5_holds canonical hn hlens hcodes lensBits, Nat.add_assoc]

end Sys2Proof.Machine
end

section
/-! Block headers, table headers and the v20 tail read back (30_encoding.md R96 to R98, 46_v20.md R350). -/

namespace Sys2Proof.Machine

variable {z : Bits} {p : Nat}

/-! ### The v50 block header -/

/-- The tables a well-formed header with a legal byte count holds: those of a matching checksum and bit 7 (R96, R243). -/
theorem blockHeader_tables_of_wf {flags check : BitVec 8} {size : BitVec 24} {tables : Option TableDesc5}
    (hwf : BlockHeader.wf { flags := flags, check := check, size := size, tables := tables } = true)
    (legal : ¬ headerByteCount flags = 4) :
    size.toNat < 2 ^ (8 * headerByteCount flags) ∧
      ((∃ t, tables = some t ∧ t.wf 430 = true ∧ check.toNat = check5 flags size.toNat ∧ flags.getLsbD 7 = true) ∨
        (tables = none ∧ (check.toNat = check5 flags size.toNat → flags.getLsbD 7 = false))) := by
  simp only [BlockHeader.wf, if_neg legal, Bool.and_eq_true, decide_eq_true_eq] at hwf
  obtain ⟨hsize, htables⟩ := hwf
  refine ⟨hsize, ?_⟩
  split at htables
  next announced =>
    cases tables with
    | none => exact absurd htables (by simp)
    | some t => exact .inl ⟨t, rfl, htables, announced⟩
  next absent =>
    exact .inr ⟨Option.isNone_iff_eq_none.mp htables, fun hsum => by simpa [hsum] using absent⟩

theorem decodeBlockHeader_holds {h : BlockHeader} (hp : p % 8 = 0) (hwf : h.wf = true) (hcodes : codableBlock h = true)
    (hz : Holds z p (encodeBlockHeader h)) :
    decodeBlockHeader z p = (h, p + (encodeBlockHeader h).length) := by
  obtain ⟨flags, check, size, tables⟩ := h
  rw [encodeBlockHeader, Holds.append, length_bitsOf] at hz
  obtain ⟨hflags, hz⟩ := hz
  simp only [decodeBlockHeader, alignByte_of_mod hp, ofNat_peekBits_holds hflags, encodeBlockHeader,
    List.length_append, length_bitsOf]
  by_cases reserved : headerByteCount flags = 4
  · simp only [BlockHeader.wf, if_pos reserved, Bool.and_eq_true, beq_iff_eq, Option.isNone_iff_eq_none] at hwf
    obtain ⟨⟨rfl, rfl⟩, rfl⟩ := hwf
    simp [reserved]
  · simp only [if_neg reserved, Holds.append, length_bitsOf, length_bitsOfLE, List.length_append] at hz ⊢
    obtain ⟨⟨hcheck, hle⟩, hdesc⟩ := hz
    obtain ⟨hsize, htables⟩ := blockHeader_tables_of_wf hwf reserved
    have size_read : peekLE z (p + 16) (headerByteCount flags) = size.toNat := peekLE_holds hle hsize
    have fields : p + 16 + 8 * headerByteCount flags = p + 8 + (8 + 8 * headerByteCount flags) := by omega
    simp only [ofNat_peekBits_holds hcheck, size_read, BitVec.ofNat_toNat, BitVec.setWidth_eq, fields]
    rcases htables with ⟨t, rfl, ht, hsum, announced⟩ | ⟨rfl, absent⟩
    · have desc := decodeTableDesc5_holds (by decide) ht hcodes hdesc
      simp only [hsum, announced, desc, ne_eq, not_true_eq_false, if_true, if_false]
      simp only [Nat.add_assoc]
    · by_cases hsum : check.toNat = check5 flags size.toNat
      · simp only [hsum, absent hsum, ne_eq, not_true_eq_false, Bool.false_eq_true, if_false]
        simp [Nat.add_assoc]
      · simp [hsum, Nat.add_assoc]

/-! ### The v29 table header -/

/-- R97, the LZ form: the bit 0, the keep bit and the description. -/
theorem decodeV29Tables_holds (env : Env) {keep : Bool} {d : TableDesc5} (hp : p % 8 = 0) (hwf : d.wf 404 = true)
    (hcodes : codableDesc5 d = true) (h : Holds z p ([false, keep] ++ encodeTableDesc5 d)) :
    decodeV29Tables env z p =
      .instr env (.v29Tables (.lz keep d)) (p + ([false, keep] ++ encodeTableDesc5 d).length) := by
  obtain ⟨flags, desc⟩ := Holds.append.mp h
  have form : (peekBits z p 16).testBit 15 = false := (testBit_peekBits (k := 0) (by decide)).trans flags.head
  have keep_read : (peekBits z p 16).testBit 14 = keep := (testBit_peekBits (k := 1) (by decide)).trans flags.tail.head
  have desc_read : decodeTableDesc5 z 404 (p + 2) = _ := decodeTableDesc5_holds (by decide) hwf hcodes desc
  simp [decodeV29Tables, alignByte_of_mod hp, form, keep_read, desc_read, Nat.add_assoc, Nat.add_comm 2]

/-! ### The v20 table header -/

theorem v20LensCount_pos (audio : Option (BitVec 2)) : 0 < v20LensCount audio := by
  cases audio with
  | none => decide
  | some c => exact Nat.mul_pos (by decide) (Nat.succ_pos _)

/-- The flags of a v20 header: the audio bit, the keep bit, and the channel count minus 1 in the audio form (R98). -/
def v20Flags (audio : Option (BitVec 2)) (keep : Bool) : List Bool :=
  match audio with
  | some c => [true, keep] ++ bitsOf 2 c.toNat
  | none => [false, keep]

theorem encodeV20Header_eq (h : V20Header) :
    encodeV20Header h = v20Flags h.audio h.keep ++ (h.pre.flatMap (fun l => bitsOf 4 l.toNat) ++
      match buildTable h.pre with
      | .ok bd => h.lens.flatMap (encodeLenCode2 bd)
      | .error _ => []) := by
  rw [encodeV20Header, List.append_assoc]
  cases h.audio <;> rfl

/-- The flags are read from the top of a peek of 16 bits. -/
theorem v20Flags_holds {audio : Option (BitVec 2)} {keep : Bool} (h : Holds z p (v20Flags audio keep)) :
    (peekBits z p 16).testBit 14 = keep ∧
    (if (peekBits z p 16).testBit 15 then some (BitVec.ofNat 2 (peekBits z p 16 >>> 12)) else none) = audio ∧
    (if (peekBits z p 16).testBit 15 then p + 4 else p + 2) = p + (v20Flags audio keep).length := by
  have top : (peekBits z p 16).testBit 15 = z p := testBit_peekBits (k := 0) (by decide)
  have second : (peekBits z p 16).testBit 14 = z (p + 1) := testBit_peekBits (k := 1) (by decide)
  rw [top, second]
  cases audio with
  | none =>
    rw [h.head, h.tail.head]
    exact ⟨rfl, rfl, rfl⟩
  | some c =>
    obtain ⟨bits, channels⟩ := Holds.append.mp (show Holds z p ([true, keep] ++ bitsOf 2 c.toNat) from h)
    have upper : peekBits z p 16 >>> 12 = peekBits z p 2 * 4 + peekBits z (p + 2) 2 := by
      have rest := peekBits_lt z (p + 4) 12
      rw [Nat.shiftRight_eq_div_pow, peekBits_add z p 4 12, peekBits_add z p 2 2]
      omega
    have channels_read : BitVec.ofNat 2 (peekBits z p 2 * 4 + peekBits z (p + 2) 2) = c := by
      have low : peekBits z (p + 2) 2 = c.toNat := peekBits_holds_lt channels c.isLt
      apply BitVec.eq_of_toNat_eq
      have := c.isLt
      rw [low, BitVec.toNat_ofNat]; omega
    rw [bits.head, bits.tail.head, upper, channels_read]
    exact ⟨rfl, rfl, rfl⟩

theorem decodeV20Header_holds {h : V20Header} (hwf : h.wf = true) (hcodes : codableHeader2 h = true)
    (hz : Holds z p (encodeV20Header h)) : decodeV20Header z p = (h, p + (encodeV20Header h).length) := by
  obtain ⟨audio, keep, pre, lens⟩ := h
  simp only [V20Header.wf, Bool.and_eq_true, beq_iff_eq] at hwf
  obtain ⟨hpre, hlens⟩ := hwf
  simp only [encodeV20Header_eq, Holds.append] at hz
  obtain ⟨flags, preBits, lensBits⟩ := hz
  obtain ⟨keep_read, audio_read, flags_end⟩ := v20Flags_holds flags
  have pre_read := decodePlainLens_holds preBits
  rw [hpre] at pre_read
  simp only [decodeV20Header, keep_read, audio_read, flags_end, pre_read, encodeV20Header_eq, List.length_append]
  cases hbuild : buildTable pre with
  | error e =>
    simp only [hbuild, List.isEmpty_iff] at hlens
    simp [hlens, Nat.add_assoc]
  | ok bd =>
    simp only [hbuild] at hlens lensBits
    simp only [codableHeader2, hbuild] at hcodes
    have canonical := buildTable_canonical hbuild (by rw [hpre]; decide)
    simp only [decodeLens2_holds canonical (v20LensCount_pos audio) hlens hcodes lensBits]
    simp only [Nat.add_assoc]

/-! ### The environment's tables -/

/-- What `envOk` says, by table. -/
structure CanonicalEnv (env : Env) : Prop where
  ld5 : env.ld5.canonical 306 = true
  dd5 : env.dd5.canonical 64 = true
  ldd5 : env.ldd5.canonical 16 = true
  rd5 : env.rd5.canonical 44 = true
  ld3 : env.ld3.canonical 299 = true
  dd3 : env.dd3.canonical 60 = true
  ldd3 : env.ldd3.canonical 17 = true
  rd3 : env.rd3.canonical 28 = true
  ld2 : env.ld2.canonical 298 = true
  dd2 : env.dd2.canonical 48 = true
  rd2 : env.rd2.canonical 28 = true
  md2 : env.md2.canonical 257 = true

theorem canonicalEnv_of_envOk {env : Env} (h : envOk env = true) : CanonicalEnv env := by
  simp only [envOk, Bool.and_eq_true] at h
  obtain ⟨⟨⟨⟨⟨⟨⟨⟨⟨⟨⟨ld5, dd5⟩, ldd5⟩, rd5⟩, ld3⟩, dd3⟩, ldd3⟩, rd3⟩, ld2⟩, dd2⟩, rd2⟩, md2⟩ := h
  exact ⟨ld5, dd5, ldd5, rd5, ld3, dd3, ldd3, rd3, ld2, dd2, rd2, md2⟩

/-! ### The v20 tail -/

/-- A symbol of the tail that is no reload symbol (R350). -/
theorem decodeTail_ignored {env : Env} (ok : CanonicalEnv env) {s : Nat} (hwf : (TailProbe.ignored s).wf = true)
    (hcode : (if env.audio then s != 256 && env.md2.hasCode s else env.ld2.hasCode s) = true)
    (h : Holds z p (encodeSymbol (if env.audio then env.md2 else env.ld2) s)) :
    decodeTail env z p = .instr env (.v20Tail (.ignored s))
      (p + (encodeSymbol (if env.audio then env.md2 else env.ld2) s).length) := by
  simp only [TailProbe.wf, Bool.and_eq_true, bne_iff_ne] at hwf
  cases haudio : env.audio with
  | true =>
    simp only [haudio, if_true, Bool.and_eq_true, bne_iff_ne] at hcode h
    simp [decodeTail, haudio, huffDecode_encode ok.md2 hcode.2 h, hcode.1]
  | false =>
    simp only [haudio, Bool.false_eq_true, if_false] at hcode h
    simp [decodeTail, haudio, huffDecode_encode ok.ld2 hcode h, hwf.2]

/-- The reload symbol and the table description after it (R350). -/
theorem decodeTail_reload {env : Env} (ok : CanonicalEnv env) {hd : V20Header} (hwf : hd.wf = true)
    (hcode : ((if env.audio then env.md2.hasCode 256 else env.ld2.hasCode 269) && codableHeader2 hd) = true)
    (h : Holds z p ((if env.audio then encodeSymbol env.md2 256 else encodeSymbol env.ld2 269) ++ encodeV20Header hd)) :
    decodeTail env z p = .instr env (.v20Tail (.reload hd)) (p +
      ((if env.audio then encodeSymbol env.md2 256 else encodeSymbol env.ld2 269) ++ encodeV20Header hd).length) := by
  rw [Bool.and_eq_true] at hcode
  rw [Holds.append] at h
  obtain ⟨reload, header⟩ := h
  have header_read := decodeV20Header_holds hwf hcode.2 header
  cases haudio : env.audio with
  | true =>
    simp only [haudio, if_true] at hcode reload header_read
    simp [decodeTail, haudio, huffDecode_encode ok.md2 hcode.1 reload, header_read, Nat.add_assoc]
  | false =>
    simp only [haudio, Bool.false_eq_true, if_false] at hcode reload header_read
    simp [decodeTail, haudio, huffDecode_encode ok.ld2 hcode.1 reload, header_read, Nat.add_assoc]

/-- Settles O5: by the rule, whose instructions `encodable` lists. -/
theorem headerRoundTrip : Obligations.HeaderRoundTrip := by
  intro ctx env bd z p i structural aligned hok hwf hcode h
  have ok := canonicalEnv_of_envOk hok
  cases ctx with
  | v50Token | v29Lz | v29Ppm | v20Lz | v20Audio => exact absurd structural (by decide)
  | v50First =>
    cases i with
    | v50FirstHeader hd =>
      have header := decodeBlockHeader_holds (aligned rfl) hwf hcode h
      simp only [decodeIn, header, encode]
    | _ => exact absurd hcode Bool.false_ne_true
  | v50Next =>
    cases i with
    | v50NextBlock hd =>
      have header := decodeBlockHeader_holds (aligned rfl) hwf hcode h
      simp only [decodeIn, header, encode]
    | _ => exact absurd hcode Bool.false_ne_true
  | v29Tables =>
    cases i with
    | v29Tables hd =>
      cases hd with
      | lz keep d => exact decodeV29Tables_holds env (aligned rfl) hwf hcode h
      | ppm => exact absurd hcode Bool.false_ne_true
    | _ => exact absurd hcode Bool.false_ne_true
  | v20Tables =>
    cases i with
    | v20Tables hd =>
      have header := decodeV20Header_holds hwf hcode h
      simp only [decodeIn, header, encode]
    | _ => exact absurd hcode Bool.false_ne_true
  | v20TailRead =>
    cases i with
    | v20Tail probe =>
      cases probe with
      | stop => exact absurd hcode Bool.false_ne_true
      | ignored s => exact decodeTail_ignored ok hwf hcode h
      | reload hd => exact decodeTail_reload ok hwf hcode h
    | _ => exact absurd hcode Bool.false_ne_true
  | v20TailStop =>
    cases i with
    | v20Tail probe =>
      cases probe with
      | stop => rfl
      | ignored | reload => exact absurd hcode Bool.false_ne_true
    | _ => exact absurd hcode Bool.false_ne_true
  | v20TailWait => cases i <;> exact absurd hcode Bool.false_ne_true
  | v50End =>
    cases i with
    | v50End => rfl
    | _ => exact absurd hcode Bool.false_ne_true
  | v29Init =>
    cases i with
    | v29Init => rfl
    | _ => exact absurd hcode Bool.false_ne_true
  | v20Init =>
    cases i with
    | v20Init => rfl
    | _ => exact absurd hcode Bool.false_ne_true
  | v20SizeDone =>
    cases i with
    | v20SizeDone => rfl
    | _ => exact absurd hcode Bool.false_ne_true

end Sys2Proof.Machine
end

section
/-! The tokens of the three opcode maps read back (30_encoding.md R99 to R104): the main symbol selects the row, and the
row's fields follow it. -/

namespace Sys2Proof.Machine

variable {z : Bits} {p : Nat} {env : Env}

/-! ### v50 operands -/

/-- R257: the byte count and the value of a filter's data field. -/
theorem decodeFilterData_holds {count : BitVec 2} {v : BitVec 32} (hv : v.toNat < 2 ^ (8 * (count.toNat + 1)))
    (h : Holds z p (encodeFilterData count v)) :
    decodeFilterData z p = (count, v, p + (encodeFilterData count v).length) := by
  rw [encodeFilterData, Holds.append, length_bitsOf] at h
  obtain ⟨countBits, bytes⟩ := h
  simp [decodeFilterData, encodeFilterData, ofNat_peekBits_holds countBits, peekLE_holds bytes hv, ← Nat.add_assoc]

/-- R251, R258: a filter of type 0 has its channel field, and no other has one. -/
theorem decodeFilterFields_holds {f : FilterFields} (hwf : f.wf = true) (h : Holds z p (encodeFilterFields f)) :
    decodeFilterFields z p = (f, p + (encodeFilterFields f).length) := by
  obtain ⟨startCount, start, lengthCount, length, type, channels⟩ := f
  simp only [FilterFields.wf, Bool.and_eq_true, decide_eq_true_eq, beq_iff_eq] at hwf
  obtain ⟨⟨hstart, hlength⟩, hchannels⟩ := hwf
  simp only [encodeFilterFields, List.append_assoc, Holds.append, length_bitsOf] at h
  obtain ⟨startBits, lengthBits, typeBits, channelBits⟩ := h
  simp only [decodeFilterFields, decodeFilterData_holds hstart startBits, decodeFilterData_holds hlength lengthBits,
    ofNat_peekBits_holds typeBits, encodeFilterFields, List.append_assoc, List.length_append, length_bitsOf]
  cases channels with
  | none =>
    have other : ¬ type = 0#3 := by simpa using hchannels.symm
    simp [other, ← Nat.add_assoc]
  | some c =>
    have delta : type = 0 := by simpa using hchannels.symm
    simp [delta, ofNat_peekBits_holds channelBits, ← Nat.add_assoc]

/-- R256: the slot, its raw bits, and the low-distance code where the slot has 4 extra bits or more. -/
theorem decodeDist5_holds (ok : CanonicalEnv env) {d : DistField} (hwf : d.wf5 = true)
    (hslot : env.dd5.hasCode d.slot = true) (hlow : codableLow env.ldd5 d = true) (h : Holds z p (encodeDist5 env d)) :
    decodeDist5 env z p = (d, p + (encodeDist5 env d).length) := by
  obtain ⟨slot, extra, low⟩ := d
  simp only [encodeDist5, List.append_assoc, Holds.append, length_bitsOf] at h
  obtain ⟨slotBits, extraBits, lowBits⟩ := h
  simp only [DistField.wf5, Bool.and_eq_true] at hwf
  obtain ⟨-, operands⟩ := hwf
  have slot_read := huffDecode_encode ok.dd5 hslot slotBits
  split at operands
  next long =>
    simp only [Bool.and_eq_true, decide_eq_true_eq] at operands
    obtain ⟨hextra, present⟩ := operands
    rw [if_pos long] at extraBits lowBits
    cases low with
    | none => exact absurd present (by simp)
    | some s =>
      have low_read := huffDecode_encode ok.ldd5 hlow lowBits
      simp [decodeDist5, slot_read, long, getBits_holds extraBits hextra, low_read, encodeDist5, encodeLow, ← Nat.add_assoc]
  next short =>
    simp only [Bool.and_eq_true, decide_eq_true_eq, Option.isNone_iff_eq_none] at operands
    obtain ⟨hextra, rfl⟩ := operands
    rw [if_neg short] at extraBits
    simp [decodeDist5, slot_read, short, getBits_holds extraBits hextra, encodeDist5, encodeLow, ← Nat.add_assoc]

/-! ### v50 tokens -/

theorem decodeV50_holds (ok : CanonicalEnv env) (bd : HuffTable) {i : Instr} (hwf : i.wf = true)
    (hcode : encodable .v50Token env i = true) (h : Holds z p (encode env bd i)) :
    decodeV50 env z p = .instr env i (p + (encode env bd i).length) := by
  cases i with
  | v50Lit b =>
    have symbol := huffDecode_encode ok.ld5 hcode h
    have := b.isLt
    simp [decodeV50, symbol, encode, this]
  | v50Filter f =>
    obtain ⟨main, fields⟩ := Holds.append.mp h
    have symbol := huffDecode_encode ok.ld5 hcode main
    simp [decodeV50, symbol, decodeFilterFields_holds hwf fields, encode, ← Nat.add_assoc]
  | v50RepLast =>
    have symbol := huffDecode_encode ok.ld5 hcode h
    simp [decodeV50, symbol, encode]
  | v50RepOld j slot extra =>
    simp only [encodable, Bool.and_eq_true] at hcode
    simp only [Instr.wf, length5Wf, Bool.and_eq_true, decide_eq_true_eq] at hwf
    simp only [encode, List.append_assoc, Holds.append] at h
    obtain ⟨main, slotBits, extraBits⟩ := h
    have symbol := huffDecode_encode ok.ld5 hcode.1 main
    have slot_read := huffDecode_encode ok.rd5 hcode.2 slotBits
    have := j.isLt
    rw [decodeV50, symbol]
    dsimp only
    rw [if_neg (by omega), if_neg (by omega), if_neg (by omega), if_pos (by omega)]
    simp [slot_read, getBits_holds extraBits hwf.2, encode, ← Nat.add_assoc]
  | v50Match slot extra d =>
    simp only [encodable, Bool.and_eq_true] at hcode
    obtain ⟨⟨hmain, hslot⟩, hlow⟩ := hcode
    simp only [Instr.wf, length5Wf, Bool.and_eq_true, decide_eq_true_eq] at hwf
    obtain ⟨⟨slot_lt, hextra⟩, hdist⟩ := hwf
    simp only [encode, List.append_assoc, Holds.append] at h
    obtain ⟨main, extraBits, distBits⟩ := h
    rw [length_bitsOf] at distBits
    have symbol := huffDecode_encode ok.ld5 hmain main
    have dist_read := decodeDist5_holds ok hdist hslot hlow distBits
    rw [decodeV50, symbol]
    dsimp only
    rw [if_neg (by omega), if_neg (by omega), if_neg (by omega), if_neg (by omega), if_pos (by omega)]
    simp [getBits_holds extraBits hextra, dist_read, encode, ← Nat.add_assoc]
  | _ => exact absurd hcode Bool.false_ne_true

/-- Settles O2: each row of the opcode map by its main symbol and the fields after it. -/
theorem v50TokenRoundTrip : Obligations.V50TokenRoundTrip :=
  fun _ bd _ _ _ hok hwf hcode h => decodeV50_holds (canonicalEnv_of_envOk hok) bd hwf hcode h

/-! ### v29 operands -/

/-- R294: the slot, its raw bits, and the low-distance code where the slot splits its low bits and no repeat is in
progress. -/
theorem decodeDist3_holds (ok : CanonicalEnv env) {d : DistField} (hwf : d.wf3 = true)
    (hslot : env.dd3.hasCode d.slot = true) (hlow : codableLow env.ldd3 d = true)
    (hpresent : d.low.isSome = (splitsLow3 d.slot && env.lowDistRep == 0)) (h : Holds z p (encodeDist3 env d)) :
    decodeDist3 env z p = (d, p + (encodeDist3 env d).length) := by
  obtain ⟨slot, extra, low⟩ := d
  simp only [encodeDist3, List.append_assoc, Holds.append, length_bitsOf] at h
  obtain ⟨slotBits, extraBits, lowBits⟩ := h
  simp only [DistField.wf3, Bool.and_eq_true, decide_eq_true_eq] at hwf
  obtain ⟨⟨-, hextra⟩, -⟩ := hwf
  have slot_read := huffDecode_encode ok.dd3 hslot slotBits
  simp only [decodeDist3, slot_read, getBits_holds extraBits hextra, ← hpresent]
  cases low with
  | none => simp [encodeDist3, encodeLow, ← Nat.add_assoc]
  | some s =>
    have low_read := huffDecode_encode ok.ldd3 hlow lowBits
    simp [low_read, encodeDist3, encodeLow, ← Nat.add_assoc]

/-! ### v29 tokens -/

theorem decodeV29_holds (ok : CanonicalEnv env) (bd : HuffTable) {i : Instr} (hwf : i.wf = true)
    (hcode : encodable .v29Lz env i = true) (h : Holds z p (encode env bd i)) :
    decodeV29 env z p = .instr env i (p + (encode env bd i).length) := by
  cases i with
  | v29Lit b =>
    have symbol := huffDecode_encode ok.ld3 hcode h
    have := b.isLt
    simp [decodeV29, symbol, encode, this]
  | v29Eob e =>
    obtain ⟨main, form⟩ := Holds.append.mp h
    have symbol := huffDecode_encode ok.ld3 hcode main
    cases e with
    | newTables => simp [decodeV29, symbol, peekBits_one form.head, encode, encodeEob, ← Nat.add_assoc]
    | endMember t =>
      simp [decodeV29, symbol, peekBits_one form.head, peekBits_one form.tail.head, encode, encodeEob, ← Nat.add_assoc]
  | v29VmCode v =>
    obtain ⟨main, record⟩ := Holds.append.mp h
    have symbol := huffDecode_encode ok.ld3 hcode main
    simp [decodeV29, symbol, decodeVmCode_holds hwf record, encode, ← Nat.add_assoc]
  | v29RepLast =>
    have symbol := huffDecode_encode ok.ld3 hcode h
    simp [decodeV29, symbol, encode]
  | v29RepOld j slot extra =>
    simp only [encodable, Bool.and_eq_true] at hcode
    simp only [Instr.wf, length3Wf, Bool.and_eq_true, decide_eq_true_eq] at hwf
    simp only [encode, List.append_assoc, Holds.append] at h
    obtain ⟨main, slotBits, extraBits⟩ := h
    have symbol := huffDecode_encode ok.ld3 hcode.1 main
    have slot_read := huffDecode_encode ok.rd3 hcode.2 slotBits
    have := j.isLt
    rw [decodeV29, symbol]
    dsimp only
    rw [if_neg (by omega), if_neg (by omega), if_neg (by omega), if_neg (by omega), if_pos (by omega)]
    simp [slot_read, getBits_holds extraBits hwf.2, encode, ← Nat.add_assoc]
  | v29Short n extra =>
    simp only [Instr.wf, decide_eq_true_eq] at hwf
    obtain ⟨main, extraBits⟩ := Holds.append.mp h
    have symbol := huffDecode_encode ok.ld3 hcode main
    have := n.isLt
    rw [decodeV29, symbol]
    dsimp only
    rw [if_neg (by omega), if_neg (by omega), if_neg (by omega), if_neg (by omega), if_neg (by omega),
      if_pos (by omega)]
    simp [getBits_holds extraBits hwf, encode, ← Nat.add_assoc]
  | v29Match slot extra d =>
    simp only [encodable, Bool.and_eq_true, beq_iff_eq] at hcode
    obtain ⟨⟨⟨hmain, hslot⟩, hlow⟩, hpresent⟩ := hcode
    simp only [Instr.wf, length3Wf, Bool.and_eq_true, decide_eq_true_eq] at hwf
    obtain ⟨⟨slot_lt, hextra⟩, hdist⟩ := hwf
    simp only [encode, List.append_assoc, Holds.append] at h
    obtain ⟨main, extraBits, distBits⟩ := h
    rw [length_bitsOf] at distBits
    have symbol := huffDecode_encode ok.ld3 hmain main
    have dist_read := decodeDist3_holds ok hdist hslot hlow hpresent distBits
    rw [decodeV29, symbol]
    dsimp only
    rw [if_neg (by omega), if_neg (by omega), if_neg (by omega), if_neg (by omega), if_neg (by omega), if_neg (by omega),
      if_pos (by omega)]
    simp [getBits_holds extraBits hextra, dist_read, encode, ← Nat.add_assoc]
  | _ => exact absurd hcode Bool.false_ne_true

/-- Settles O3: each row of the opcode map by its main symbol and the fields after it. -/
theorem v29TokenRoundTrip : Obligations.V29TokenRoundTrip :=
  fun _ bd _ _ _ hok hwf hcode h => decodeV29_holds (canonicalEnv_of_envOk hok) bd hwf hcode h

/-! ### v20 tokens -/

theorem decodeV20_holds (ok : CanonicalEnv env) (bd : HuffTable) {i : Instr} (hwf : i.wf = true)
    (hcode : encodable .v20Lz env i = true) (h : Holds z p (encode env bd i)) :
    decodeV20 env z p = .instr env i (p + (encode env bd i).length) := by
  cases i with
  | v20Lit b =>
    have symbol := huffDecode_encode ok.ld2 hcode h
    have := b.isLt
    simp [decodeV20, symbol, encode, this]
  | v20RepLast | v20Reload =>
    have symbol := huffDecode_encode ok.ld2 hcode h
    simp [decodeV20, symbol, encode]
  | v20RepOld j slot extra =>
    simp only [encodable, Bool.and_eq_true] at hcode
    simp only [Instr.wf, length3Wf, Bool.and_eq_true, decide_eq_true_eq] at hwf
    simp only [encode, List.append_assoc, Holds.append] at h
    obtain ⟨main, slotBits, extraBits⟩ := h
    have symbol := huffDecode_encode ok.ld2 hcode.1 main
    have slot_read := huffDecode_encode ok.rd2 hcode.2 slotBits
    have := j.isLt
    rw [decodeV20, symbol]
    dsimp only
    rw [if_neg (by omega), if_neg (by omega), if_pos (by omega)]
    simp [slot_read, getBits_holds extraBits hwf.2, encode, ← Nat.add_assoc]
  | v20Short n extra =>
    simp only [Instr.wf, decide_eq_true_eq] at hwf
    obtain ⟨main, extraBits⟩ := Holds.append.mp h
    have symbol := huffDecode_encode ok.ld2 hcode main
    have := n.isLt
    rw [decodeV20, symbol]
    dsimp only
    rw [if_neg (by omega), if_neg (by omega), if_neg (by omega), if_pos (by omega)]
    simp [getBits_holds extraBits hwf, encode, ← Nat.add_assoc]
  | v20Match slot extra dslot dextra =>
    simp only [encodable, Bool.and_eq_true] at hcode
    obtain ⟨hmain, hdist⟩ := hcode
    simp only [Instr.wf, length3Wf, Bool.and_eq_true, decide_eq_true_eq] at hwf
    obtain ⟨⟨⟨slot_lt, hextra⟩, -⟩, hdextra⟩ := hwf
    simp only [encode, List.append_assoc, Holds.append, length_bitsOf] at h
    obtain ⟨main, extraBits, distBits, dextraBits⟩ := h
    have symbol := huffDecode_encode ok.ld2 hmain main
    have dist_read := huffDecode_encode ok.dd2 hdist distBits
    rw [decodeV20, symbol]
    dsimp only
    rw [if_neg (by omega), if_neg (by omega), if_neg (by omega), if_neg (by omega), if_neg (by omega), if_pos (by omega)]
    simp [getBits_holds extraBits hextra, dist_read, getBits_holds dextraBits hdextra, encode,
      ← Nat.add_assoc]
  | _ => exact absurd hcode Bool.false_ne_true

theorem decodeAudioSymbol_holds (ok : CanonicalEnv env) (bd : HuffTable) {i : Instr}
    (hcode : encodable .v20Audio env i = true) (h : Holds z p (encode env bd i)) :
    decodeAudioSymbol env z p = .instr env i (p + (encode env bd i).length) := by
  cases i with
  | v20AudSample delta =>
    have symbol := huffDecode_encode ok.md2 hcode h
    have := delta.isLt
    simp [decodeAudioSymbol, symbol, encode, this]
  | v20AudReload =>
    have symbol := huffDecode_encode ok.md2 hcode h
    simp [decodeAudioSymbol, symbol, encode]
  | _ => exact absurd hcode Bool.false_ne_true

/-- Settles O4: by the sub-mode, each row of its opcode map by its main symbol and the fields after it. -/
theorem v20TokenRoundTrip : Obligations.V20TokenRoundTrip := by
  rintro ctx env bd z p i (rfl | rfl) hok hwf hcode h
  · exact decodeV20_holds (canonicalEnv_of_envOk hok) bd hwf hcode h
  · exact decodeAudioSymbol_holds (canonicalEnv_of_envOk hok) bd hcode h

end Sys2Proof.Machine
end

section
/-! The coder's answers: requests as bytes taken and answers given (20_memory.md R71, 70_reset_and_hazards.md R450), and the
PPM tokens as the characters answered (30_encoding.md R102, 45_v29.md R300 to R303). -/

namespace Sys2Proof.Machine

/-! ### Requests -/

section Requests
variable {ppmd : Ppmd} {z : Bits}

/-- A reader is fed exactly the bytes it takes (R450). -/
theorem feed_runReader {α : Type} (r : PpmReader α) (f : Nat → Byte) :
    feed r ((List.range (runReader r f).2).map f) = some (runReader r f).1 := by
  induction r generalizing f with
  | done a => rfl
  | more next ih =>
    rw [runReader_more, List.range_succ_eq_map, List.map_cons, List.map_map]
    exact ih (f 0) fun j => f (j + 1)

/-- The bytes a request takes are those of the stream from its byte position on. -/
theorem exists_feed_runReader {α : Type} (r : PpmReader α) (f : Nat → Byte) :
    ∃ (bytes : List Byte) (a : α), feed r bytes = some a ∧ (∀ j (h : j < bytes.length), bytes[j] = f j) ∧
      runReader r f = (a, bytes.length) :=
  ⟨(List.range (runReader r f).2).map f, (runReader r f).1, feed_runReader r f, fun j h => by simp, by simp⟩

theorem readChars_zero (p st : Nat) : readChars ppmd z 0 p st = (some [], p, st) := rfl

/-- After the characters `as` a longer reading goes on where they end. -/
theorem readChars_add {m p st q st1 : Nat} {as : List Byte} (n : Nat) (h : readChars ppmd z m p st = (some as, q, st1)) :
    readChars ppmd z (m + n) p st = ((readChars ppmd z n q st1).1.map (as ++ ·), (readChars ppmd z n q st1).2) := by
  induction m generalizing p st as with
  | zero =>
    obtain ⟨rfl, rfl, rfl⟩ : [] = as ∧ p = q ∧ st = st1 := by simpa [readChars_zero] using h
    simp
  | succ m ih =>
    rw [Nat.succ_add]
    simp only [readChars] at h ⊢
    split at h
    next eof => simp at h
    next c hc =>
      rcases hrest : readChars ppmd z m (p + 8 * (askChar ppmd z p st).2) (askChar ppmd z p st).1.state with ⟨_ | cs, q', st'⟩
      · simp [hrest] at h
      · simp only [hrest, Option.map_some, Prod.mk.injEq, Option.some.injEq] at h
        obtain ⟨rfl, rfl, rfl⟩ := h
        simp only [ih hrest, Option.map_map]
        rfl

/-- An EOF ends a longer reading too (R303). -/
theorem readChars_add_eof {m p st q st1 : Nat} (n : Nat) (h : readChars ppmd z m p st = (none, q, st1)) :
    readChars ppmd z (m + n) p st = (none, q, st1) := by
  induction m generalizing p st with
  | zero => simp [readChars_zero] at h
  | succ m ih =>
    rw [Nat.succ_add]
    simp only [readChars] at h ⊢
    split at h
    next eof => simpa [eof] using h
    next c hc =>
      obtain ⟨hnone, hend⟩ := Prod.mk.inj h
      have rest := ih (Prod.ext (Option.map_eq_none_iff.mp hnone) hend)
      simp only [rest, Option.map_none]

theorem length_of_readChars {n p st q st1 : Nat} {cs : List Byte} (h : readChars ppmd z n p st = (some cs, q, st1)) :
    cs.length = n := by
  induction n generalizing p st cs with
  | zero => simp only [readChars_zero, Prod.mk.injEq, Option.some.injEq] at h; simp [← h.1]
  | succ n ih =>
    simp only [readChars] at h
    split at h
    next eof => simp at h
    next c hc =>
      obtain ⟨hsome, hend⟩ := Prod.mk.inj h
      obtain ⟨rest, hrest, rfl⟩ := Option.map_eq_some_iff.mp hsome
      rw [List.length_cons, ih (Prod.ext hrest hend)]

/-- The coder in state `st` at position `p` answers the characters `cs`, and is then in state `st'` at position `q`. -/
def Answers (ppmd : Ppmd) (z : Bits) (p st : Nat) (cs : List Byte) (q st' : Nat) : Prop :=
  readChars ppmd z cs.length p st = (some cs, q, st')

theorem answers_of_readChars {n p st q st' : Nat} {cs : List Byte} (h : readChars ppmd z n p st = (some cs, q, st')) :
    Answers ppmd z p st cs q st' := by
  rw [Answers, length_of_readChars h, h]

theorem answers_append_iff {p st q st' : Nat} {as bs : List Byte} :
    Answers ppmd z p st (as ++ bs) q st' ↔
      ∃ q1 st1, Answers ppmd z p st as q1 st1 ∧ Answers ppmd z q1 st1 bs q st' := by
  simp only [Answers, List.length_append]
  constructor
  · intro h
    rcases has : readChars ppmd z as.length p st with ⟨_ | as', q1, st1⟩
    · rw [readChars_add_eof _ has] at h
      simp at h
    · rw [readChars_add _ has] at h
      obtain ⟨hsome, hend⟩ := Prod.mk.inj h
      obtain ⟨bs', hbs, happend⟩ := Option.map_eq_some_iff.mp hsome
      obtain ⟨rfl, rfl⟩ := List.append_inj happend (length_of_readChars has)
      exact ⟨q1, st1, rfl, Prod.ext hbs hend⟩
  · rintro ⟨q1, st1, has, hbs⟩
    rw [readChars_add _ has, hbs]
    rfl

theorem answers_cons_iff {p st q st' : Nat} {c : Byte} {cs : List Byte} :
    Answers ppmd z p st (c :: cs) q st' ↔
      ∃ q1 st1, Answers ppmd z p st [c] q1 st1 ∧ Answers ppmd z q1 st1 cs q st' :=
  answers_append_iff (as := [c])

/-- A reading of one character answers one, or EOF. -/
theorem readChars_one_cases (ppmd : Ppmd) (z : Bits) (p st : Nat) :
    (∃ c q st', readChars ppmd z 1 p st = (some [c], q, st')) ∨ ∃ q st', readChars ppmd z 1 p st = (none, q, st') := by
  rcases h : readChars ppmd z 1 p st with ⟨_ | cs, q, st'⟩
  · exact .inr ⟨q, st', rfl⟩
  · obtain ⟨c, rfl⟩ := List.length_eq_one_iff.mp (length_of_readChars h)
    exact .inl ⟨c, q, st', rfl⟩

end Requests

/-! ### Tokens from their characters -/

/-- The VM-code record after `PPM_ESC, 3` (R300). -/
theorem decodePpmVmCode_of_answers {ppmd : Ppmd} {z : Bits} {p st q st' : Nat} {v : VmCode} (hwf : v.wf = true)
    (h : Answers ppmd z p st (vmCodeBytes v) q st') :
    decodePpmVmCode ppmd z p st = .chars (some (.ppmEscVmCode v)) q st' := by
  obtain ⟨ext, hext, hcode, hv⟩ := exists_ext_of_vmCode_wf hwf
  generalize v.first = first at *
  generalize v.code = code at *
  subst hv
  rw [vmCodeBytes_bigEndian _ hext, answers_cons_iff] at h
  obtain ⟨p1, st1, hfirst, hrest⟩ := h
  obtain ⟨p2, st2, hexts, hcodes⟩ := answers_append_iff.mp hrest
  have first_read : readChars ppmd z 1 p st = (some [first], p1, st1) := hfirst
  rw [Answers, hext] at hexts
  rw [Answers, hcode] at hcodes
  simp only [decodePpmVmCode, first_read, hexts, hcodes, Option.map_some]

/-- The characters that stand for themselves after the escape byte (R102). -/
theorem ppmEscLit_wf_iff (x : Byte) :
    (Instr.ppmEscLit x).wf = true ↔ x ≠ 0 ∧ x ≠ 2 ∧ x ≠ 3 ∧ x ≠ 4 ∧ x ≠ 5 := by revert x; decide

/-- A token after the escape byte, by the character that follows it (R102). -/
theorem decodePpm_of_answers {env : Env} {z : Bits} {p q st : Nat} {i : Instr} (hwf : i.wf = true)
    (htoken : isPpmToken env.ppmEsc i = true)
    (h : Answers env.ppmd z p env.ppmState (encodeChars env.ppmEsc i) q st) :
    decodePpm env z p = .chars (some i) q st := by
  have escaped {x : Byte} {cs : List Byte} (hx : Answers env.ppmd z p env.ppmState (env.ppmEsc :: x :: cs) q st) :
      ∃ p1 st1 p2 st2, readChars env.ppmd z 1 p env.ppmState = (some [env.ppmEsc], p1, st1) ∧
        readChars env.ppmd z 1 p1 st1 = (some [x], p2, st2) ∧ Answers env.ppmd z p2 st2 cs q st := by
    obtain ⟨p1, st1, hesc, hrest⟩ := answers_cons_iff.mp hx
    obtain ⟨p2, st2, hchar, hcs⟩ := answers_cons_iff.mp hrest
    exact ⟨p1, st1, p2, st2, hesc, hchar, hcs⟩
  cases i with
  | ppmLit c =>
    have char_read : readChars env.ppmd z 1 p env.ppmState = (some [c], q, st) := h
    have other : c ≠ env.ppmEsc := by simpa [isPpmToken] using htoken
    simp [decodePpm, char_read, other]
  | ppmEscReload | ppmEscEnd =>
    obtain ⟨p1, st1, p2, st2, hesc, hx, hend⟩ := escaped h
    obtain ⟨rfl, rfl⟩ : p2 = q ∧ st2 = st := by simpa [Answers, readChars_zero] using hend
    simp [decodePpm, hesc, hx]
  | ppmEscLit x =>
    obtain ⟨p1, st1, p2, st2, hesc, hx, hend⟩ := escaped h
    obtain ⟨rfl, rfl⟩ : p2 = q ∧ st2 = st := by simpa [Answers, readChars_zero] using hend
    obtain ⟨h0, h2, h3, h4, h5⟩ := (ppmEscLit_wf_iff x).mp hwf
    simp only [decodePpm, hesc, hx, ne_eq, not_true_eq_false, if_false, h0, h2, h3, h4, h5]
  | ppmEscVmCode v =>
    obtain ⟨p1, st1, p2, st2, hesc, hx, hrecord⟩ := escaped h
    simp [decodePpm, hesc, hx, decodePpmVmCode_of_answers hwf hrecord]
  | ppmEscLz d2 d1 d0 l =>
    obtain ⟨p1, st1, p2, st2, hesc, hx, hfields⟩ := escaped h
    have fields_read : readChars env.ppmd z 4 p2 st2 = (some [d2, d1, d0, l], q, st) := hfields
    simp [decodePpm, hesc, hx, fields_read]
  | ppmEscRle l =>
    obtain ⟨p1, st1, p2, st2, hesc, hx, hlength⟩ := escaped h
    have length_read : readChars env.ppmd z 1 p2 st2 = (some [l], q, st) := hlength
    simp [decodePpm, hesc, hx, length_read]
  | _ => exact absurd htoken Bool.false_ne_true

/-- Settles O7: each row of the PPM opcode map by the characters it begins with. -/
theorem ppmTokenRoundTrip : Obligations.PpmTokenRoundTrip :=
  fun _ _ _ _ _ _ hwf htoken h => decodePpm_of_answers hwf htoken h

/-! ### Characters from their token -/

/-- What R102 and R303 make of the coder's answers: a well-formed token that is exactly the characters answered, or E6 at an
EOF. -/
structure PpmSound (env : Env) (z : Bits) (p : Nat) (d : Decoded) : Prop where
  token : ∀ i, d.res = .ok i → i.wf = true ∧ isPpmToken env.ppmEsc i = true ∧
    Answers env.ppmd z p env.ppmState (encodeChars env.ppmEsc i) d.pos d.ppm
  eof : ∀ e, d.res = .error e → e = .e6 ∧ ∃ n, readChars env.ppmd z (n + 1) p env.ppmState = (none, d.pos, d.ppm)

section Soundness
variable {env : Env} {z : Bits} {p q st : Nat}

theorem PpmSound.of_answers {i : Instr} (hwf : i.wf = true) (htoken : isPpmToken env.ppmEsc i = true)
    (h : Answers env.ppmd z p env.ppmState (encodeChars env.ppmEsc i) q st) : PpmSound env z p (.chars (some i) q st) where
  token j hj := by
    obtain rfl : i = j := Except.ok.inj hj
    exact ⟨hwf, htoken, h⟩
  eof e he := nomatch he

theorem PpmSound.of_eof {n : Nat} (h : readChars env.ppmd z n p env.ppmState = (none, q, st)) :
    PpmSound env z p (.chars none q st) where
  token i hi := nomatch hi
  eof e he := by
    cases n with
    | zero => simp [readChars_zero] at h
    | succ n => exact ⟨(Except.error.inj he).symm, n, h⟩

/-- An EOF after the characters `cs` of the token. -/
theorem PpmSound.of_answers_eof {cs : List Byte} {p1 st1 n : Nat} (hcs : Answers env.ppmd z p env.ppmState cs p1 st1)
    (h : readChars env.ppmd z n p1 st1 = (none, q, st)) : PpmSound env z p (.chars none q st) :=
  .of_eof (n := cs.length + n) (by rw [readChars_add n hcs, h]; rfl)

theorem decodePpmVmCode_sound (h : Answers env.ppmd z p env.ppmState [env.ppmEsc, 3] q st) :
    PpmSound env z p (decodePpmVmCode env.ppmd z q st) := by
  obtain ⟨first, p1, st1, hfirst⟩ | ⟨p1, st1, hfirst⟩ := readChars_one_cases env.ppmd z q st
  · have upto_first := answers_append_iff.mpr ⟨_, _, h, answers_of_readChars hfirst⟩
    rcases hext : readChars env.ppmd z (vmExtBytes first) p1 st1 with ⟨_ | ext, p2, st2⟩
    · simp only [decodePpmVmCode, hfirst, hext]
      exact .of_answers_eof upto_first hext
    · have upto_ext := answers_append_iff.mpr ⟨_, _, upto_first, answers_of_readChars hext⟩
      have ext_length := length_of_readChars hext
      rcases hcode : readChars env.ppmd z (vmLength first (bigEndian ext)) p2 st2 with ⟨_ | code, p3, st3⟩
      · simp only [decodePpmVmCode, hfirst, hext, hcode]
        exact .of_answers_eof upto_ext hcode
      · have all := answers_append_iff.mpr ⟨_, _, upto_ext, answers_of_readChars hcode⟩
        simp only [decodePpmVmCode, hfirst, hext, hcode]
        refine .of_answers (vmCode_wf_bigEndian ext_length (length_of_readChars hcode)) rfl ?_
        rw [encodeChars, vmCodeBytes_bigEndian code ext_length]
        simpa using all
  · simp only [decodePpmVmCode, hfirst]
    exact .of_answers_eof h hfirst

theorem decodePpm_sound (env : Env) (z : Bits) (p : Nat) : PpmSound env z p (decodePpm env z p) := by
  obtain ⟨c, p1, st1, hc⟩ | ⟨p1, st1, hc⟩ := readChars_one_cases env.ppmd z p env.ppmState
  · by_cases hesc : c = env.ppmEsc
    · subst hesc
      have escape := answers_of_readChars hc
      obtain ⟨x, p2, st2, hx⟩ | ⟨p2, st2, hx⟩ := readChars_one_cases env.ppmd z p1 st1
      · have pair : Answers env.ppmd z p env.ppmState [env.ppmEsc, x] p2 st2 :=
          answers_append_iff.mpr ⟨_, _, escape, answers_of_readChars hx⟩
        simp only [decodePpm, hc, hx, ne_eq, not_true_eq_false, if_false]
        split_ifs with h0 h2 h3 h4 h5
        · subst h0; exact .of_answers rfl rfl pair
        · subst h2; exact .of_answers rfl rfl pair
        · subst h3; exact decodePpmVmCode_sound pair
        · subst h4
          rcases hfields : readChars env.ppmd z 4 p2 st2 with ⟨_ | fields, p3, st3⟩
          · exact .of_answers_eof pair hfields
          · obtain ⟨d2, d1, d0, l, rfl⟩ : ∃ d2 d1 d0 l, [d2, d1, d0, l] = fields := by
              simpa [List.length_eq_succ_iff] using length_of_readChars hfields
            exact .of_answers rfl rfl (answers_append_iff.mpr ⟨_, _, pair, answers_of_readChars hfields⟩)
        · subst h5
          obtain ⟨l, p3, st3, hl⟩ | ⟨p3, st3, hl⟩ := readChars_one_cases env.ppmd z p2 st2
          · simp only [hl]
            exact .of_answers rfl rfl (answers_append_iff.mpr ⟨_, _, pair, answers_of_readChars hl⟩)
          · simp only [hl]
            exact .of_answers_eof pair hl
        · exact .of_answers ((ppmEscLit_wf_iff x).mpr ⟨h0, h2, h3, h4, h5⟩) rfl pair
      · simp only [decodePpm, hc, hx, ne_eq, not_true_eq_false, if_false]
        exact .of_answers_eof escape hx
    · simp only [decodePpm, hc, if_pos hesc]
      exact .of_answers rfl (by simpa [isPpmToken] using hesc) (answers_of_readChars hc)
  · simp only [decodePpm, hc]
    exact .of_eof hc

end Soundness

/-! ### The step -/

/-- With no event waiting the decoder core moves by the rule due, once the status and the gate allow it (R210, R212). -/
theorem step_eq_settle {s : State} {ctx : Ctx} (hevents : s.events = []) (hstatus : s.status = .running)
    (hdue : dispatch s = some ctx) (hgate : gateOpen s = true) :
    step s = (settle (fetch ctx s) s).getD (.next (flushMove s)) := by
  have hcore : coreMove s = settle (fetch ctx s) s := by simp [coreMove, hstatus, hdue, hgate]
  simp only [step, hevents, hcore]

/-- The position of a state in ERROR stays (R402). -/
theorem advance_errorState (d : Decoded) (e : ErrCode) (s : State) : advance d (errorState e s) = errorState e s :=
  if_pos rfl

/-- A decoding that formed no token takes its error once its bits are there (R211, R303). -/
theorem settle_error {d : Decoded} {e : ErrCode} {s : State} (herror : d.res = .error e) (hneed : d.need ≤ availBits s) :
    settle d s = some (.next (errorState e s)) := by
  rw [settle, if_pos hneed, run, herror]
  exact congrArg (fun t => some (Host.Outcome.next t)) (advance_errorState d e s)

/-- A set first bit makes a v29 table header the coder's initialisation from the byte that holds it (R97, R283, R284). -/
theorem decodeV29Tables_ppm (env : Env) {z : Bits} {p : Nat} (hform : z (alignByte p) = true) :
    ∃ (bytes : List Byte) (a : PpmInitAnswer),
      feed (.more (env.ppmd.init env.ppmState env.ppmEsc)) bytes = some a ∧
      (∀ j (h : j < bytes.length), bytes[j] = inputByte z (alignByte p / 8 + j)) ∧
      decodeV29Tables env z p = {
        res := .ok (.v29Tables (.ppm a.ok a.esc)), pos := alignByte p + 8 * bytes.length
        need := alignByte p + 8 * bytes.length, ppm := a.state } := by
  obtain ⟨bytes, a, hfeed, hbytes, hanswer⟩ := exists_feed_runReader
    (.more (env.ppmd.init env.ppmState env.ppmEsc)) fun j => inputByte z (alignByte p / 8 + j)
  have form : (peekBits z (alignByte p) 16).testBit 15 = true := (testBit_peekBits (k := 0) (by decide)).trans hform
  have ask : askInit env.ppmd z (alignByte p) env.ppmState env.ppmEsc = (a, bytes.length) := hanswer
  exact ⟨bytes, a, hfeed, hbytes, by simp only [decodeV29Tables, form, if_true, ask]⟩

/-- Settles O33: the token by `decodePpm_sound`, the step by its parts, the requests by what a reader is fed. -/
theorem ppmDecodingIsSound : Obligations.PpmDecodingIsSound := by
  refine ⟨fun env z p => ?_, fun s hevents hstatus hdue hgate => step_eq_settle hevents hstatus hdue hgate,
    fun d e s herror hneed => settle_error herror hneed, fun env z p hform => decodeV29Tables_ppm env hform,
    fun ppmd z p st => exists_feed_runReader (ppmd.char st) fun j => inputByte z (p / 8 + j)⟩
  obtain ⟨token, eof⟩ := decodePpm_sound env z p
  intro d
  cases hres : d.res with
  | ok i => exact token i hres
  | error e => exact eof e hres

end Sys2Proof.Machine
end

section
/-! One length code on the array being read (30_encoding.md R92 to R95, 41_huffman.md R159 to R161), and the code words of
the test programs (95_test_vectors.md). -/

namespace Sys2Proof.Machine

/-! ### What a length code does to the array -/

theorem runLens_eq {s : State} (h : s.desc.lens.length ≤ s.desc.total) (r : Nat) (l : Len) :
    runLens r l s = { s with desc := { s.desc with lens := (s.desc.lens ++ List.replicate r l).take s.desc.total } } := by
  rw [runLens, run_eq h]

/-- A repeat copies the length read last (R159). -/
theorem repeatLen_eq_runLens {s : State} {ls : List Len} {l : Len} (hlast : s.desc.lens = ls ++ [l]) (r : Nat) :
    repeatLen r s = .ok (runLens r l s) := by
  have last : s.desc.lens.getLast? = some l := by rw [hlast]; exact List.getLast?_concat
  simp only [repeatLen, Desc.repeatLast, last, runLens]

/-- A repeat where no length has been read (R160). -/
theorem repeatLen_eq_error {s : State} (hnone : s.desc.lens = []) (r : Nat) : repeatLen r s = .error .e2 := by
  simp only [repeatLen, Desc.repeatLast, hnone, List.getLast?_nil]

section Appending
variable (s : State)

/-- A literal is a run of one length, added to the old length at its index (R159). -/
theorem exec_literal_eq_runLens {i : Instr} {x : Len} (hi : i ∈ [.pl4eLen x, .pl4Len x, .len5Lit x, .len2Lit x]) :
    exec i s = .next (runLens 1 (x + s.desc.old.getD s.desc.lens.length 0) s) := by
  simp only [List.mem_cons, List.not_mem_nil, or_false] at hi
  rcases hi with rfl | rfl | rfl | rfl <;> rfl

/-- The escape of a pre-table description: a length 15, or a run of zeros (R92). -/
theorem exec_pl4eEsc (z : BitVec 4) :
    exec (.pl4eEsc z) s = .next (if z = 0 then runLens 1 15 s else runLens (z.toNat + 2) 0 s) := by
  change Host.Outcome.next { s with desc := s.desc.preEscape z } = _
  rw [Desc.preEscape]
  split <;> rfl

theorem exec_zero3_eq_runLens {i : Instr} {n : BitVec 3} (hi : i ∈ [.len5Zero3 n, .len2Zero3 n]) :
    exec i s = .next (runLens (n.toNat + 3) 0 s) := by
  simp only [List.mem_cons, List.not_mem_nil, or_false] at hi
  rcases hi with rfl | rfl <;> rfl

theorem exec_zero7_eq_runLens {i : Instr} {n : BitVec 7} (hi : i ∈ [.len5Zero7 n, .len2Zero7 n]) :
    exec i s = .next (runLens (n.toNat + 11) 0 s) := by
  simp only [List.mem_cons, List.not_mem_nil, or_false] at hi
  rcases hi with rfl | rfl <;> rfl

end Appending

/-- Settles O58: each code is a run of lengths, which `runLens_eq` says once. -/
theorem lengthCodesAppend : Obligations.LengthCodesAppend := by
  intro s i r l old hi hroom
  suffices run : exec i s = .next (runLens r l s) by rw [run, runLens_eq hroom]
  rcases hi with ⟨x, hi, rfl, rfl⟩ | ⟨rfl, rfl, rfl⟩ | ⟨z, hz, rfl, rfl, rfl⟩ | ⟨n, hi, rfl, rfl⟩ | ⟨n, hi, rfl, rfl⟩
  · exact exec_literal_eq_runLens s hi
  · rw [exec_pl4eEsc, if_pos rfl]
  · rw [exec_pl4eEsc, if_neg hz]
  · exact exec_zero3_eq_runLens s hi
  · exact exec_zero7_eq_runLens s hi

/-- Settles O59: the three codes are one operation, which copies the last length or raises E2. -/
theorem repeatCodes : Obligations.RepeatCodes := by
  intro s i r hi
  have repeats : exec i s = outcome s (repeatLen r s) := by
    rcases hi with ⟨n, rfl, rfl⟩ | ⟨n, rfl, rfl⟩ | ⟨n, rfl, rfl⟩ <;> rfl
  refine ⟨fun hnone => ?_, fun l ls hlast hroom => ?_⟩
  · rw [repeats, repeatLen_eq_error hnone]; rfl
  · rw [repeats, repeatLen_eq_runLens hlast, outcome, runLens_eq hroom]

/-! ### The code words of the test programs -/

/-- Settles O1: each of the ten words is a closed evaluation of the decoder, the tables built from their code lengths. -/
theorem knownWordsDecode : Obligations.KnownWordsDecode := by
  unfold Obligations.KnownWordsDecode
  intro e5 e3 e2
  refine ⟨?_, ?_, ?_, ?_, ?_, ?_, ?_, ?_, ?_, ?_⟩ <;> decide +kernel

end Sys2Proof.Machine
end

section
/-! A step whose bits are not all there (40_bitcursor.md R138, 43_gen_common.md R211, 60_exceptions.md R403). -/

namespace Sys2Proof.Machine

/-- Where the status and the gate allow it, the core's step settles the decoding of the rule due (R210, R212). -/
theorem coreMove_eq_settle {s : State} {ctx : Ctx} (hstatus : s.status = .running) (hdue : dispatch s = some ctx)
    (hgate : gateOpen s = true) : coreMove s = settle (fetch ctx s) s := by
  simp only [coreMove, hstatus, hdue, hgate, ne_eq, not_true_eq_false, if_false, if_true]

/-- While more can come, a step past the delivered input holds (R211). -/
theorem settle_hold {d : Decoded} {s : State} (hpast : availBits s < d.need) (hmore : s.inEnded = false) :
    settle d s = none := by
  rw [settle, if_neg (Nat.not_le.mpr hpast), hmore]
  rfl

theorem settle_exhaust {d : Decoded} {s : State} (hpast : availBits s < d.need) (hended : s.inEnded = true) :
    settle d s = some (.next (exhaust s)) := by
  rw [settle, if_neg (Nat.not_le.mpr hpast), if_pos hended]

/-- R138, the normal end. -/
theorem exhaust_of_size_reached {s : State} (h : s.cfgDeclaredSize.toNat ≤ produced s) : exhaust s = endMember s :=
  if_pos (decide_eq_true h)

/-- R403: bytes of the declared size are missing. -/
theorem exhaust_of_size_missing {s : State} (h : produced s < s.cfgDeclaredSize.toNat) :
    exhaust s = errorState .e7 s := by
  rw [exhaust, sizeReached, decide_eq_false (Nat.not_le.mpr h)]
  rfl

/-- Settles O14: the step settles a decoding past the input, by whether the input and the declared size are at an end. -/
theorem holdAndExhaustion : Obligations.HoldAndExhaustion := by
  intro s ctx hstatus hdue hgate hpast
  have settled := coreMove_eq_settle hstatus hdue hgate
  refine ⟨fun hmore => ?_, fun hended hsize => ?_, fun hended hsize => ?_⟩
  · rw [settled, settle_hold hpast hmore]
  · rw [settled, settle_exhaust hpast hended, exhaust_of_size_reached hsize]
    rfl
  · rw [settled, settle_exhaust hpast hended, exhaust_of_size_missing hsize]

end Sys2Proof.Machine
end

section
/-! What a step decodes depends on the bits below its `NEED` only (40_bitcursor.md R136): readings that look at no bit
behind them compose to such readings, from the fields up to the rules of the dispatch table. A decoder that goes on by
what a field holds is taken apart at the field: what the two streams hold there gets a name each, and
`ReadsLocally.bind` makes them one. -/

namespace Sys2Proof.Machine

theorem AgreeBelow.mono {m n : Nat} {z z' : Bits} (h : AgreeBelow n z z') (hle : m ≤ n) : AgreeBelow m z z' :=
  fun k hk => h k (hk.trans_le hle)

/-! ### Readings -/

/-- `x` is what a reading from position `p` on finds in the stream `z`, and `x'` what it finds in `z'`. The reading goes
forward to the position `stop x`, and finds the same in both when they agree below that position. -/
structure ReadsLocally {α : Type} (z z' : Bits) (stop : α → Nat) (p : Nat) (x x' : α) : Prop where
  le : p ≤ stop x
  congr : AgreeBelow (stop x) z z' → x' = x

section Readings
variable {z z' : Bits} {α β : Type} {stop : α → Nat} {p q : Nat} {x x' : α}

/-- Finding something that does not depend on the stream. -/
theorem ReadsLocally.const (h : p ≤ stop x) : ReadsLocally z z' stop p x x := ⟨h, fun _ => rfl⟩

theorem ReadsLocally.from_le (hx : ReadsLocally z z' stop q x x') (h : p ≤ q) : ReadsLocally z z' stop p x x' :=
  ⟨h.trans hx.le, hx.congr⟩

/-- A reading goes on from where an earlier one stopped, by what that one found. -/
theorem ReadsLocally.bind_of {stop' : β → Nat} {f f' : α → β} (P : α → Prop) (hP : P x)
    (hx : ReadsLocally z z' stop p x x') (hf : ∀ a, P a → ReadsLocally z z' stop' (stop a) (f a) (f' a)) :
    ReadsLocally z z' stop' p (f x) (f' x') where
  le := hx.le.trans (hf x hP).le
  congr h := by
    rw [hx.congr (h.mono (hf x hP).le)]
    exact (hf x hP).congr h

theorem ReadsLocally.bind {stop' : β → Nat} {f f' : α → β} (hx : ReadsLocally z z' stop p x x')
    (hf : ∀ a, ReadsLocally z z' stop' (stop a) (f a) (f' a)) : ReadsLocally z z' stop' p (f x) (f' x') :=
  hx.bind_of (fun _ => True) trivial fun a _ => hf a

theorem ReadsLocally.ite {c : Prop} [Decidable c] {y y' : α} (hx : ReadsLocally z z' stop p x x')
    (hy : ReadsLocally z z' stop p y y') : ReadsLocally z z' stop p (if c then x else y) (if c then x' else y') := by
  split
  · exact hx
  · exact hy

/-- What is made of one reading's finding. -/
theorem ReadsLocally.comp {stop' : β → Nat} (f : α → β) (hx : ReadsLocally z z' stop p x x')
    (h : ∀ a, stop a ≤ stop' (f a)) : ReadsLocally z z' stop' p (f x) (f x') :=
  hx.bind fun a => .const (h a)

/-- A field that is made of what another field holds. -/
theorem ReadsLocally.map {x x' : α × Nat} (f : α → β) (hx : ReadsLocally z z' Prod.snd p x x') :
    ReadsLocally z z' Prod.snd p (f x.1, x.2) (f x'.1, x'.2) :=
  hx.comp (fun y => (f y.1, y.2)) fun _ => le_rfl

/-- A decoding whose instruction ends with a field. -/
theorem ReadsLocally.instr {x x' : α × Nat} (env : Env) (f : α → Instr) (hx : ReadsLocally z z' Prod.snd p x x') :
    ReadsLocally z z' Decoded.need p (.instr env (f x.1) x.2) (.instr env (f x'.1) x'.2) :=
  hx.comp (fun y => Decoded.instr env (f y.1) y.2) fun _ => le_rfl

end Readings

/-! ### Fields -/

section Fields
variable (z z' : Bits)

theorem bit_readsLocally (p : Nat) : ReadsLocally z z' (fun _ => p + 1) p (z p) (z' p) :=
  ⟨Nat.le_succ p, fun h => (h p (Nat.lt_succ_self p)).symm⟩

theorem peekBits_readsLocally (p n : Nat) :
    ReadsLocally z z' (fun _ => p + n) p (peekBits z p n) (peekBits z' p n) where
  le := Nat.le_add_right p n
  congr h := peekBits_congr fun k hk => (h (p + k) (Nat.add_lt_add_left hk p)).symm

theorem getBits_readsLocally (p n : Nat) : ReadsLocally z z' Prod.snd p (getBits z p n) (getBits z' p n) :=
  (peekBits_readsLocally z z' p n).comp (·, p + n) fun _ => le_rfl

/-- A code word is found by its own bits (R158). -/
theorem huffDecode_readsLocally {n : Nat} {t : HuffTable} (h : t.canonical n = true) (p : Nat) :
    ReadsLocally z z' Prod.snd p (huffDecode t z p) (huffDecode t z' p) where
  le := le_huffDecode z t p
  congr hagree := by
    obtain ⟨symbol, length⟩ := huffDecode_local h (p' := p) fun k hk => hagree (p + k) (Nat.add_lt_add_left hk p)
    exact Prod.ext symbol (congrArg (p + ·) length)

theorem peekLE_readsLocally (p k : Nat) :
    ReadsLocally z z' (fun _ => p + 8 * k) p (peekLE z p k) (peekLE z' p k) := by
  induction k generalizing p with
  | zero => exact .const le_rfl
  | succ k ih =>
    have rest := ih (p + 8)
    rw [show p + 8 + 8 * k = p + 8 * (k + 1) by omega] at rest
    exact (peekBits_readsLocally z z' p 8).bind fun low =>
      rest.comp (fun high => low + 256 * high) fun _ => le_rfl

theorem peekBytes_readsLocally (p k : Nat) :
    ReadsLocally z z' (fun _ => p + 8 * k) p (peekBytes z p k) (peekBytes z' p k) := by
  induction k generalizing p with
  | zero => exact .const le_rfl
  | succ k ih =>
    have rest := ih (p + 8)
    rw [show p + 8 + 8 * k = p + 8 * (k + 1) by omega] at rest
    exact (peekBits_readsLocally z z' p 8).bind fun first =>
      rest.comp (fun bs => BitVec.ofNat 8 first :: bs) fun _ => le_rfl

theorem decodePreCode_readsLocally (p : Nat) :
    ReadsLocally z z' Prod.snd p (decodePreCode z p) (decodePreCode z' p) := by
  have first := peekBits_readsLocally z z' p 4
  unfold decodePreCode
  generalize peekBits z p 4 = l, peekBits z' p 4 = l' at first ⊢
  apply first.bind; intro l
  exact .ite ((getBits_readsLocally z z' (p + 4) 4).map fun n => PreCode.esc (BitVec.ofNat 4 n)) (.const le_rfl)

theorem decodePreCodes_readsLocally (fuel i p : Nat) :
    ReadsLocally z z' Prod.snd p (decodePreCodes z fuel i p) (decodePreCodes z' fuel i p) := by
  induction fuel generalizing i p with
  | zero => exact .const le_rfl
  | succ fuel ih =>
    refine .ite (.const le_rfl) ?_
    exact (decodePreCode_readsLocally z z' p).bind fun c => (ih (i + preCodeCount c.1) c.2).map (c.1 :: ·)

theorem decodePlainLens_readsLocally (n p : Nat) :
    ReadsLocally z z' Prod.snd p (decodePlainLens z n p) (decodePlainLens z' n p) := by
  induction n generalizing p with
  | zero => exact .const le_rfl
  | succ n ih => exact (getBits_readsLocally z z' p 4).bind fun l => (ih l.2).map (BitVec.ofNat 4 l.1 :: ·)

theorem decodeLenCode5_readsLocally {n : Nat} {bd : HuffTable} (h : bd.canonical n = true) (p : Nat) :
    ReadsLocally z z' Prod.snd p (decodeLenCode5 bd z p) (decodeLenCode5 bd z' p) := by
  have symbol := huffDecode_readsLocally z z' h p
  unfold decodeLenCode5
  dsimp only
  generalize huffDecode bd z p = s, huffDecode bd z' p = s' at symbol ⊢
  apply symbol.bind; intro s
  refine .ite (.const le_rfl) (.ite ?rep3 (.ite ?rep7 (.ite ?zero3 ?zero7)))
  case rep3 => exact (getBits_readsLocally z z' s.2 3).map fun n => LenCode5.rep3 (BitVec.ofNat 3 n)
  case rep7 => exact (getBits_readsLocally z z' s.2 7).map fun n => LenCode5.rep7 (BitVec.ofNat 7 n)
  case zero3 => exact (getBits_readsLocally z z' s.2 3).map fun n => LenCode5.zero3 (BitVec.ofNat 3 n)
  case zero7 => exact (getBits_readsLocally z z' s.2 7).map fun n => LenCode5.zero7 (BitVec.ofNat 7 n)

theorem decodeLenCode2_readsLocally {n : Nat} {bd : HuffTable} (h : bd.canonical n = true) (p : Nat) :
    ReadsLocally z z' Prod.snd p (decodeLenCode2 bd z p) (decodeLenCode2 bd z' p) := by
  have symbol := huffDecode_readsLocally z z' h p
  unfold decodeLenCode2
  dsimp only
  generalize huffDecode bd z p = s, huffDecode bd z' p = s' at symbol ⊢
  apply symbol.bind; intro s
  refine .ite (.const le_rfl) (.ite ?rep2 (.ite ?zero3 ?zero7))
  case rep2 => exact (getBits_readsLocally z z' s.2 2).map fun n => LenCode2.rep2 (BitVec.ofNat 2 n)
  case zero3 => exact (getBits_readsLocally z z' s.2 3).map fun n => LenCode2.zero3 (BitVec.ofNat 3 n)
  case zero7 => exact (getBits_readsLocally z z' s.2 7).map fun n => LenCode2.zero7 (BitVec.ofNat 7 n)

theorem decodeLens5_readsLocally {m : Nat} {bd : HuffTable} (h : bd.canonical m = true) (n fuel i p : Nat) :
    ReadsLocally z z' Prod.snd p (decodeLens5 bd z n fuel i p) (decodeLens5 bd z' n fuel i p) := by
  induction fuel generalizing i p with
  | zero => exact .const le_rfl
  | succ fuel ih =>
    have code := decodeLenCode5_readsLocally z z' h p
    refine .ite (.const le_rfl) ?_
    dsimp only
    generalize decodeLenCode5 bd z p = c, decodeLenCode5 bd z' p = c' at code ⊢
    apply code.bind; intro c
    exact .ite (.const le_rfl) ((ih (i + lenCode5Count c.1) c.2).map (c.1 :: ·))

theorem decodeLens2_readsLocally {m : Nat} {bd : HuffTable} (h : bd.canonical m = true) (n fuel i p : Nat) :
    ReadsLocally z z' Prod.snd p (decodeLens2 bd z n fuel i p) (decodeLens2 bd z' n fuel i p) := by
  induction fuel generalizing i p with
  | zero => exact .const le_rfl
  | succ fuel ih =>
    have code := decodeLenCode2_readsLocally z z' h p
    refine .ite (.const le_rfl) ?_
    dsimp only
    generalize decodeLenCode2 bd z p = c, decodeLenCode2 bd z' p = c' at code ⊢
    apply code.bind; intro c
    exact .ite (.const le_rfl) ((ih (i + lenCode2Count c.1) c.2).map (c.1 :: ·))

/-- The pre-table is one that `BuildTable` made, so its code words are found by their own bits. -/
theorem decodeTableDesc5_readsLocally (n p : Nat) :
    ReadsLocally z z' Prod.snd p (decodeTableDesc5 z n p) (decodeTableDesc5 z' n p) := by
  have pre := decodePreCodes_readsLocally z z' 20 0 p
  unfold decodeTableDesc5
  dsimp only
  generalize decodePreCodes z 20 0 p = c, decodePreCodes z' 20 0 p = c' at pre ⊢
  apply pre.bind; intro c
  cases hbuild : buildTable (preLens c.1) with
  | error e => exact .const le_rfl
  | ok bd =>
    have short : (preLens c.1).length ≤ 65536 := by
      rw [preLens_eq, preLengths]
      exact (List.length_take_le 20 _).trans (by decide)
    have canonical := buildTable_canonical hbuild short
    exact (decodeLens5_readsLocally z z' canonical n n 0 c.2).map (TableDesc5.mk c.1)

/-! ### Headers and operands -/

theorem decodeBlockHeader_readsLocally (p : Nat) :
    ReadsLocally z z' Prod.snd p (decodeBlockHeader z p) (decodeBlockHeader z' p) := by
  have flags := (peekBits_readsLocally z z' (alignByte p) 8).from_le (le_alignByte p)
  unfold decodeBlockHeader
  dsimp only
  generalize alignByte p = p0 at flags ⊢
  generalize peekBits z p0 8 = x, peekBits z' p0 8 = x' at flags ⊢
  apply flags.bind; intro x
  generalize BitVec.ofNat 8 x = flags
  refine .ite (.const le_rfl) ?_
  have check := peekBits_readsLocally z z' (p0 + 8) 8
  generalize peekBits z (p0 + 8) 8 = y, peekBits z' (p0 + 8) 8 = y' at check ⊢
  apply check.bind; intro y
  have size := peekLE_readsLocally z z' (p0 + 16) (headerByteCount flags)
  generalize peekLE z (p0 + 16) _ = v, peekLE z' (p0 + 16) _ = v' at size ⊢
  apply size.bind; intro v
  refine .ite (.const le_rfl) (.ite ?_ (.const le_rfl))
  exact (decodeTableDesc5_readsLocally z z' 430 _).map fun t =>
    BlockHeader.mk flags (BitVec.ofNat 8 y) (BitVec.ofNat 24 v) (some t)

theorem testBit_peekBits_first (z : Bits) (p : Nat) : (peekBits z p 16).testBit 15 = z p :=
  testBit_peekBits (k := 0) (by decide)

theorem testBit_peekBits_second (z : Bits) (p : Nat) : (peekBits z p 16).testBit 14 = z (p + 1) :=
  testBit_peekBits (k := 1) (by decide)

/-- Bits 13:12 of a peek of 16 bits are the third and the fourth. -/
theorem ofNat_peekBits_shiftRight (z : Bits) (p : Nat) :
    BitVec.ofNat 2 (peekBits z p 16 >>> 12) = BitVec.ofNat 2 (peekBits z (p + 2) 2) := by
  have rest := peekBits_lt z (p + 4) 12
  apply BitVec.eq_of_toNat_eq
  rw [Nat.shiftRight_eq_div_pow, peekBits_add z p 4 12, peekBits_add z p 2 2, BitVec.toNat_ofNat, BitVec.toNat_ofNat]
  omega

/-- The flags of a v20 header (R98): the audio form with its channel count, the keep bit, the position after them. -/
def v20FlagFields (z : Bits) (p : Nat) : Option (BitVec 2) × Bool × Nat :=
  (if z p then some (BitVec.ofNat 2 (peekBits z (p + 2) 2)) else none, z (p + 1), if z p then p + 4 else p + 2)

theorem v20FlagFields_audio (z : Bits) (p : Nat) :
    (if (peekBits z p 16).testBit 15 then some (BitVec.ofNat 2 (peekBits z p 16 >>> 12)) else none) =
      (v20FlagFields z p).1 := by
  rw [testBit_peekBits_first, ofNat_peekBits_shiftRight, v20FlagFields]

theorem v20FlagFields_keep (z : Bits) (p : Nat) : (peekBits z p 16).testBit 14 = (v20FlagFields z p).2.1 :=
  testBit_peekBits_second z p

theorem v20FlagFields_end (z : Bits) (p : Nat) :
    (if (peekBits z p 16).testBit 15 then p + 4 else p + 2) = (v20FlagFields z p).2.2 := by
  rw [testBit_peekBits_first, v20FlagFields]

theorem v20FlagFields_readsLocally (p : Nat) :
    ReadsLocally z z' (fun r => r.2.2) p (v20FlagFields z p) (v20FlagFields z' p) := by
  have audio := bit_readsLocally z z' p
  unfold v20FlagFields
  generalize z p = b, z' p = b' at audio ⊢
  apply audio.bind; intro b
  have keep := bit_readsLocally z z' (p + 1)
  generalize z (p + 1) = k, z' (p + 1) = k' at keep ⊢
  apply keep.bind; intro k
  cases b with
  | false => exact .const le_rfl
  | true =>
    exact (peekBits_readsLocally z z' (p + 2) 2).comp (fun n => (some (BitVec.ofNat 2 n), k, p + 4)) fun _ =>
      le_rfl

theorem length_decodePlainLens (z : Bits) (n p : Nat) : (decodePlainLens z n p).1.length = n := by
  induction n generalizing p with
  | zero => rfl
  | succ n ih => exact congrArg (· + 1) (ih (p + 4))

theorem decodeV20Header_readsLocally (p : Nat) :
    ReadsLocally z z' Prod.snd p (decodeV20Header z p) (decodeV20Header z' p) := by
  have flags := v20FlagFields_readsLocally z z' p
  unfold decodeV20Header
  simp only [v20FlagFields_audio, v20FlagFields_keep, v20FlagFields_end]
  generalize v20FlagFields z p = x, v20FlagFields z' p = x' at flags ⊢
  apply flags.bind; intro x
  have pre := decodePlainLens_readsLocally z z' 19 x.2.2
  have length := length_decodePlainLens z 19 x.2.2
  generalize decodePlainLens z 19 x.2.2 = c, decodePlainLens z' 19 x.2.2 = c' at pre length ⊢
  apply pre.bind_of (fun c => c.1.length = 19) length; intro c hc
  cases hbuild : buildTable c.1 with
  | error e => exact .const le_rfl
  | ok bd =>
    have canonical := buildTable_canonical hbuild (by omega)
    exact (decodeLens2_readsLocally z z' canonical _ _ 0 c.2).map (V20Header.mk x.1 x.2.1 c.1)

/-- R257: the byte count, then as many bytes. -/
theorem decodeFilterData_readsLocally (p : Nat) :
    ReadsLocally z z' (fun r => r.2.2) p (decodeFilterData z p) (decodeFilterData z' p) := by
  have count := peekBits_readsLocally z z' p 2
  unfold decodeFilterData
  dsimp only
  generalize peekBits z p 2 = n, peekBits z' p 2 = n' at count ⊢
  apply count.bind; intro n
  generalize BitVec.ofNat 2 n = count
  exact (peekLE_readsLocally z z' (p + 2) (count.toNat + 1)).comp
    (fun v => (count, BitVec.ofNat 32 v, p + 2 + 8 * (count.toNat + 1))) fun _ => le_rfl

theorem decodeFilterFields_readsLocally (p : Nat) :
    ReadsLocally z z' Prod.snd p (decodeFilterFields z p) (decodeFilterFields z' p) := by
  have start := decodeFilterData_readsLocally z z' p
  unfold decodeFilterFields
  dsimp only
  generalize decodeFilterData z p = x, decodeFilterData z' p = x' at start ⊢
  apply start.bind; intro x
  have length := decodeFilterData_readsLocally z z' x.2.2
  generalize decodeFilterData z x.2.2 = y, decodeFilterData z' x.2.2 = y' at length ⊢
  apply length.bind; intro y
  have type := peekBits_readsLocally z z' y.2.2 3
  generalize peekBits z y.2.2 3 = t, peekBits z' y.2.2 3 = t' at type ⊢
  apply type.bind; intro t
  by_cases delta : BitVec.ofNat 3 t = 0
  · simp only [delta, if_true]
    exact (getBits_readsLocally z z' (y.2.2 + 3) 5).map fun c =>
      FilterFields.mk x.1 x.2.1 y.1 y.2.1 0 (some (BitVec.ofNat 5 c))
  · simp only [delta, if_false]
    exact .const le_rfl

theorem decodeDist5_readsLocally {env : Env} (ok : CanonicalEnv env) (p : Nat) :
    ReadsLocally z z' Prod.snd p (decodeDist5 env z p) (decodeDist5 env z' p) := by
  have slot := huffDecode_readsLocally z z' ok.dd5 p
  unfold decodeDist5
  dsimp only
  generalize huffDecode env.dd5 z p = s, huffDecode env.dd5 z' p = s' at slot ⊢
  apply slot.bind; intro s
  refine .ite ?_ ?_
  · exact (getBits_readsLocally z z' s.2 (distBits5 s.1 - 4)).bind fun hi =>
      (huffDecode_readsLocally z z' ok.ldd5 hi.2).map fun lo => DistField.mk s.1 hi.1 (some lo)
  · exact (getBits_readsLocally z z' s.2 (distBits5 s.1)).map fun x => DistField.mk s.1 x none

theorem decodeDist3_readsLocally {env : Env} (ok : CanonicalEnv env) (p : Nat) :
    ReadsLocally z z' Prod.snd p (decodeDist3 env z p) (decodeDist3 env z' p) := by
  have slot := huffDecode_readsLocally z z' ok.dd3 p
  unfold decodeDist3
  dsimp only
  generalize huffDecode env.dd3 z p = s, huffDecode env.dd3 z' p = s' at slot ⊢
  apply slot.bind; intro s
  have raw := getBits_readsLocally z z' s.2 (rawDistBits3 s.1)
  refine .ite ?_ ?_
  · exact raw.bind fun hi =>
      (huffDecode_readsLocally z z' ok.ldd3 hi.2).map fun lo => DistField.mk s.1 hi.1 (some lo)
  · exact raw.map fun x => DistField.mk s.1 x none

theorem decodeVmCode_readsLocally (p : Nat) :
    ReadsLocally z z' Prod.snd p (decodeVmCode z p) (decodeVmCode z' p) := by
  have first := peekBits_readsLocally z z' p 8
  unfold decodeVmCode
  dsimp only
  generalize peekBits z p 8 = x, peekBits z' p 8 = x' at first ⊢
  apply first.bind; intro x
  generalize BitVec.ofNat 8 x = first
  have ext := peekBytes_readsLocally z z' (p + 8) (vmExtBytes first)
  generalize peekBytes z (p + 8) _ = bs, peekBytes z' (p + 8) _ = bs' at ext ⊢
  apply ext.bind; intro bs
  exact (peekBytes_readsLocally z z' _ (vmLength first (bigEndian bs))).comp
    (fun code => (VmCode.mk first (bigEndian bs) code, _)) fun _ => le_rfl

end Fields

/-! ### Tokens by main symbol -/

section Tokens
variable (z z' : Bits) {env : Env} (ok : CanonicalEnv env)
include ok

theorem decodeV50_readsLocally (p : Nat) :
    ReadsLocally z z' Decoded.need p (decodeV50 env z p) (decodeV50 env z' p) := by
  have symbol := huffDecode_readsLocally z z' ok.ld5 p
  unfold decodeV50
  dsimp only
  generalize huffDecode env.ld5 z p = s, huffDecode env.ld5 z' p = s' at symbol ⊢
  apply symbol.bind; intro s
  refine .ite (.const le_rfl) (.ite ?filter (.ite (.const le_rfl) (.ite ?repOld (.ite ?matched (.const le_rfl)))))
  case filter => exact (decodeFilterFields_readsLocally z z' s.2).instr env .v50Filter
  case repOld =>
    exact ((huffDecode_readsLocally z z' ok.rd5 s.2).bind fun slot =>
      (getBits_readsLocally z z' slot.2 (lengthBits5 slot.1)).instr env (.v50RepOld (Fin.ofNat 4 (s.1 - 258)) slot.1) :)
  case matched =>
    exact (getBits_readsLocally z z' s.2 (lengthBits5 (s.1 - 262))).bind fun x =>
      (decodeDist5_readsLocally z z' ok x.2).instr env (.v50Match _ x.1)

theorem decodeV29_readsLocally (p : Nat) :
    ReadsLocally z z' Decoded.need p (decodeV29 env z p) (decodeV29 env z' p) := by
  have symbol := huffDecode_readsLocally z z' ok.ld3 p
  unfold decodeV29
  dsimp only
  generalize huffDecode env.ld3 z p = s, huffDecode env.ld3 z' p = s' at symbol ⊢
  apply symbol.bind; intro s
  refine .ite (.const le_rfl) (.ite ?eob (.ite ?vmCode (.ite (.const le_rfl) (.ite ?repOld (.ite ?short
    (.ite ?matched (.const le_rfl)))))))
  case eob =>
    have tables := peekBits_readsLocally z z' s.2 1
    generalize peekBits z s.2 1 = n, peekBits z' s.2 1 = n' at tables ⊢
    apply tables.bind; intro n
    exact .ite (.const le_rfl)
      ((getBits_readsLocally z z' (s.2 + 1) 1).instr env fun t => .v29Eob (.endMember (t == 1)))
  case vmCode => exact (decodeVmCode_readsLocally z z' s.2).instr env .v29VmCode
  case repOld =>
    exact ((huffDecode_readsLocally z z' ok.rd3 s.2).bind fun slot =>
      (getBits_readsLocally z z' slot.2 (lengthBits slot.1)).instr env (.v29RepOld (Fin.ofNat 4 (s.1 - 259)) slot.1) :)
  case short => exact (getBits_readsLocally z z' s.2 (shortBits (s.1 - 263))).instr env (.v29Short _)
  case matched =>
    exact (getBits_readsLocally z z' s.2 (lengthBits (s.1 - 271))).bind fun x =>
      (decodeDist3_readsLocally z z' ok x.2).instr env (.v29Match _ x.1)

theorem decodeV20_readsLocally (p : Nat) :
    ReadsLocally z z' Decoded.need p (decodeV20 env z p) (decodeV20 env z' p) := by
  have symbol := huffDecode_readsLocally z z' ok.ld2 p
  unfold decodeV20
  dsimp only
  generalize huffDecode env.ld2 z p = s, huffDecode env.ld2 z' p = s' at symbol ⊢
  apply symbol.bind; intro s
  refine .ite (.const le_rfl) (.ite (.const le_rfl) (.ite ?repOld (.ite ?short (.ite (.const le_rfl)
    (.ite ?matched (.const le_rfl))))))
  case repOld =>
    exact ((huffDecode_readsLocally z z' ok.rd2 s.2).bind fun slot =>
      (getBits_readsLocally z z' slot.2 (lengthBits slot.1)).instr env (.v20RepOld (Fin.ofNat 4 (s.1 - 257)) slot.1) :)
  case short => exact (getBits_readsLocally z z' s.2 (shortBits (s.1 - 261))).instr env (.v20Short _)
  case matched =>
    exact (getBits_readsLocally z z' s.2 (lengthBits (s.1 - 270))).bind fun x =>
      (huffDecode_readsLocally z z' ok.dd2 x.2).bind fun slot =>
        (getBits_readsLocally z z' slot.2 (distBits slot.1)).instr env (.v20Match _ x.1 slot.1)

theorem decodeAudioSymbol_readsLocally (p : Nat) :
    ReadsLocally z z' Decoded.need p (decodeAudioSymbol env z p) (decodeAudioSymbol env z' p) := by
  have symbol := huffDecode_readsLocally z z' ok.md2 p
  unfold decodeAudioSymbol
  dsimp only
  generalize huffDecode env.md2 z p = s, huffDecode env.md2 z' p = s' at symbol ⊢
  apply symbol.bind; intro s
  exact .ite (.const le_rfl) (.ite (.const le_rfl) (.const le_rfl))

/-- The tail's symbol is one of the sub-mode's table (R350). -/
theorem decodeTail_readsLocally (p : Nat) :
    ReadsLocally z z' Decoded.need p (decodeTail env z p) (decodeTail env z' p) := by
  have main {n : Nat} {table : HuffTable} (reload : Nat) (h : table.canonical n = true) :=
    (huffDecode_readsLocally z z' h p).bind fun s => .ite (c := s.1 = reload)
      ((decodeV20Header_readsLocally z z' s.2).instr env fun h => .v20Tail (.reload h))
      (.const (x := .instr env (.v20Tail (.ignored s.1)) s.2) le_rfl)
  unfold decodeTail
  cases env.audio with
  | true => exact main 256 ok.md2
  | false => exact main 269 ok.ld2

end Tokens

/-! ### The coder's requests -/

section Coder
variable (z z' : Bits)

theorem readChars_readsLocally (ppmd : Ppmd) (n p st : Nat) :
    ReadsLocally z z' (fun r => r.2.1) p (readChars ppmd z n p st) (readChars ppmd z' n p st) :=
  ⟨le_readChars ppmd z n p st, readChars_congr⟩

theorem decodePpmVmCode_readsLocally (ppmd : Ppmd) (p st : Nat) :
    ReadsLocally z z' Decoded.need p (decodePpmVmCode ppmd z p st) (decodePpmVmCode ppmd z' p st) := by
  have first := readChars_readsLocally z z' ppmd 1 p st
  unfold decodePpmVmCode
  generalize readChars ppmd z 1 p st = a, readChars ppmd z' 1 p st = a' at first ⊢
  apply first.bind; intro a
  split
  next c p1 st1 =>
    have ext := readChars_readsLocally z z' ppmd (vmExtBytes c) p1 st1
    generalize readChars ppmd z (vmExtBytes c) p1 st1 = b, readChars ppmd z' (vmExtBytes c) p1 st1 = b' at ext ⊢
    apply ext.bind; intro b
    split
    next bs p2 st2 =>
      exact (readChars_readsLocally z z' ppmd (vmLength c (bigEndian bs)) p2 st2).comp
        (stop' := Decoded.need)
        (fun r => .chars (r.1.map fun code => .ppmEscVmCode ⟨c, bigEndian bs, code⟩) r.2.1 r.2.2) fun _ => le_rfl
    next => exact .const le_rfl
  next => exact .const le_rfl

/-- Each character of a token is asked for where the answer before it ended (R102). -/
theorem decodePpm_readsLocally (env : Env) (p : Nat) :
    ReadsLocally z z' Decoded.need p (decodePpm env z p) (decodePpm env z' p) := by
  have first := readChars_readsLocally z z' env.ppmd 1 p env.ppmState
  unfold decodePpm
  generalize readChars env.ppmd z 1 p env.ppmState = a, readChars env.ppmd z' 1 p env.ppmState = a' at first ⊢
  apply first.bind; intro a
  split
  next c p1 st1 =>
    refine .ite (.const le_rfl) ?_
    have second := readChars_readsLocally z z' env.ppmd 1 p1 st1
    generalize readChars env.ppmd z 1 p1 st1 = b, readChars env.ppmd z' 1 p1 st1 = b' at second ⊢
    apply second.bind; intro b
    split
    next x p2 st2 =>
      refine .ite (.const le_rfl) (.ite (.const le_rfl) (.ite ?vmCode (.ite ?lz (.ite ?rle (.const le_rfl)))))
      case vmCode => exact decodePpmVmCode_readsLocally z z' env.ppmd p2 st2
      case lz =>
        have fields := readChars_readsLocally z z' env.ppmd 4 p2 st2
        generalize readChars env.ppmd z 4 p2 st2 = r, readChars env.ppmd z' 4 p2 st2 = r' at fields ⊢
        apply fields.bind; intro r
        split <;> exact .const le_rfl
      case rle =>
        have length := readChars_readsLocally z z' env.ppmd 1 p2 st2
        generalize readChars env.ppmd z 1 p2 st2 = r, readChars env.ppmd z' 1 p2 st2 = r' at length ⊢
        apply length.bind; intro r
        split <;> exact .const le_rfl
    next => exact .const le_rfl
  next => exact .const le_rfl

theorem askInit_readsLocally (ppmd : Ppmd) (p st : Nat) (esc : Byte) :
    ReadsLocally z z' (fun a => p + 8 * a.2) (p + 1) (askInit ppmd z p st esc) (askInit ppmd z' p st esc) where
  le := by have := askInit_pos ppmd z p st esc; omega
  congr := askInit_congr

/-- The flag is the first bit of the byte from which the coder is initialised (R283, R284). -/
theorem decodeV29Tables_readsLocally (env : Env) (p : Nat) :
    ReadsLocally z z' Decoded.need p (decodeV29Tables env z p) (decodeV29Tables env z' p) := by
  have flag := (bit_readsLocally z z' (alignByte p)).from_le (le_alignByte p)
  unfold decodeV29Tables
  simp only [testBit_peekBits_first, testBit_peekBits_second]
  generalize alignByte p = p0 at flag ⊢
  have init := askInit_readsLocally z z' env.ppmd p0 env.ppmState env.ppmEsc
  have keep := bit_readsLocally z z' (p0 + 1)
  generalize z p0 = b, z' p0 = b' at flag ⊢
  apply flag.bind; intro b
  refine .ite ?ppm ?lz
  case ppm =>
    exact init.comp (stop' := Decoded.need)
      (fun a => ⟨.ok (.v29Tables (.ppm a.1.ok a.1.esc)), p0 + 8 * a.2, p0 + 8 * a.2, a.1.state⟩)
      fun _ => le_rfl
  case lz =>
    generalize z (p0 + 1) = k, z' (p0 + 1) = k' at keep ⊢
    apply keep.bind; intro k
    exact (decodeTableDesc5_readsLocally z z' 404 (p0 + 2)).instr env fun d => .v29Tables (.lz k d)

end Coder

/-! ### Rules -/

/-- Every rule of the dispatch table (R214). -/
theorem decodeIn_readsLocally (z z' : Bits) {env : Env} (ok : CanonicalEnv env) (ctx : Ctx) (p : Nat) :
    ReadsLocally z z' Decoded.need p (decodeIn ctx env z p) (decodeIn ctx env z' p) := by
  cases ctx with
  | v50First => exact (decodeBlockHeader_readsLocally z z' p).instr env .v50FirstHeader
  | v50Next => exact (decodeBlockHeader_readsLocally z z' p).instr env .v50NextBlock
  | v50End | v29Init | v20Init | v20SizeDone | v20TailStop => exact .const le_rfl
  | v50Token => exact decodeV50_readsLocally z z' ok p
  | v29Tables => exact decodeV29Tables_readsLocally z z' env p
  | v29Lz => exact decodeV29_readsLocally z z' ok p
  | v29Ppm => exact decodePpm_readsLocally z z' env p
  | v20Tables => exact (decodeV20Header_readsLocally z z' p).instr env .v20Tables
  | v20Lz => exact decodeV20_readsLocally z z' ok p
  | v20Audio => exact decodeAudioSymbol_readsLocally z z' ok p
  | v20TailRead => exact decodeTail_readsLocally z z' ok p
  | v20TailWait =>
    obtain ⟨forward, covered⟩ := decodeIn_readsForward env z .v20TailWait p
    exact .const (forward.trans covered)

/-- Settles O11: each rule is made of readings that are local. -/
theorem peekLocality : Obligations.PeekLocality :=
  fun ctx _ z z' p hok => (decodeIn_readsLocally z z' (canonicalEnv_of_envOk hok) ctx p).congr

end Sys2Proof.Machine
end

section
/-! What a step commits does not depend on how much input stands behind it (40_bitcursor.md R137): no instruction reads
the delivered input, and its decoding reads the bits below its `NEED` only. -/

namespace Sys2Proof.Machine

/-- The state with another delivered input. -/
def withInput (l : List Byte) (s : State) : State := { s with input := l }

/-- An outcome with another delivered input in its state. -/
def outcomeWithInput (l : List Byte) : Host.Outcome State Fault Refusal → Host.Outcome State Fault Refusal
  | .next t => .next (withInput l t)
  | .fault f => .fault f
  | .refused r => .refused r

section Unread
variable (l : List Byte) (s : State)

@[simp] theorem withInput_cfgGen : (withInput l s).cfgGen = s.cfgGen := rfl
@[simp] theorem withInput_phase : (withInput l s).phase = s.phase := rfl
@[simp] theorem withInput_status : (withInput l s).status = s.status := rfl
@[simp] theorem withInput_desc : (withInput l s).desc = s.desc := rfl
@[simp] theorem withInput_filterAccept : (withInput l s).filterAccept = s.filterAccept := rfl
@[simp] theorem withInput_v50 : (withInput l s).v50 = s.v50 := rfl
@[simp] theorem withInput_v29 : (withInput l s).v29 = s.v29 := rfl
@[simp] theorem withInput_v20 : (withInput l s).v20 = s.v20 := rfl

end Unread

/-! ### The operations that always succeed -/

section Updates
variable (l : List Byte) (s : State)

theorem copyMatch_withInput (n : Nat) (dist : BitVec 64) :
    copyMatch n dist (withInput l s) = withInput l (copyMatch n dist s) := by
  induction n generalizing s with
  | zero => rfl
  | succ n ih => exact ih (putByte (memRead s (s.wrAbs - dist)) s)

theorem copyNew_withInput (n : Nat) (dist : BitVec 64) :
    copyNew n dist (withInput l s) = withInput l (copyNew n dist s) :=
  copyMatch_withInput l (setLastLen n s) n dist

theorem copy20_withInput (n : Nat) (dist : BitVec 64) :
    copy20 n dist (withInput l s) = withInput l (copy20 n dist s) :=
  copyNew_withInput l (cacheInsert dist s) n dist

theorem copyLast_withInput : copyLast (withInput l s) = withInput l (copyLast s) := by
  rw [copyLast_eq, copyLast_eq]
  exact copyMatch_withInput l s _ _

/-- R294: the low part read, and the state with the low-distance state after it. -/
theorem lowDistance3_withInput (d : DistField) :
    lowDistance3 d (withInput l s) = ((lowDistance3 d s).1, withInput l (lowDistance3 d s).2) := by
  unfold lowDistance3
  split
  · rw [withInput_v29]
    split
    · rfl
    · split <;> rfl
  · rfl

theorem startTables2_withInput (h : V20Header) :
    startTables2 h (withInput l s) = withInput l (startTables2 h s) := by
  unfold startTables2
  cases h.audio <;> rfl

theorem readPl4_withInput (ls : List Len) : readPl4 ls (withInput l s) = withInput l (readPl4 ls s) := by
  have fold : ∀ t,
      ls.foldl (fun u x => pl4Len x u) (withInput l t) = withInput l (ls.foldl (fun u x => pl4Len x u) t) := by
    induction ls with
    | nil => exact fun _ => rfl
    | cons x ls ih => exact fun t => ih (pl4Len x t)
  exact fold (openDesc 19 [] s)

theorem advance_withInput (d : Decoded) : advance d (withInput l s) = withInput l (advance d s) := by
  unfold advance
  rw [withInput_status]
  split <;> rfl

end Updates

/-! ### The operations that may raise an error -/

section Computations
variable (l : List Byte) (s : State)

/-- A computation goes on with the other input where the one before it committed a state with it. -/
theorem bind_withInput {r r' : Except ErrCode State} {f : State → Except ErrCode State}
    (hr : r' = withInput l <$> r) (hf : ∀ t, f (withInput l t) = withInput l <$> f t) :
    r' >>= f = withInput l <$> (r >>= f) := by
  rw [hr, bind_map_left, map_bind]
  exact congrArg (r >>= ·) (funext hf)

theorem repeatLen_withInput (r : Nat) : repeatLen r (withInput l s) = withInput l <$> repeatLen r s := by
  unfold repeatLen
  rw [withInput_desc]
  cases s.desc.repeatLast r <;> rfl

theorem readLens2_withInput (n : Nat) (old : List Len) (cs : List LenCode2) :
    readLens2 n old cs (withInput l s) = withInput l <$> readLens2 n old cs s := by
  rw [readLens2_eq, readLens2_eq]
  cases lengths2 n old [] cs <;> rfl

theorem emitFilter_withInput (d : FilterDesc) : emitFilter d (withInput l s) = withInput l <$> emitFilter d s := by
  unfold emitFilter
  rw [withInput_filterAccept]
  split <;> rfl

theorem emitVmCode_withInput (v : VmCode) (source : BlockType) :
    emitVmCode v source (withInput l s) = withInput l <$> emitVmCode v source s := by
  unfold emitVmCode
  split
  · rfl
  · exact emitFilter_withInput l s _

theorem ppmBlockStart_withInput (ok : Bool) (esc : Byte) :
    ppmBlockStart ok esc (withInput l s) = withInput l <$> ppmBlockStart ok esc s := by
  cases ok <;> rfl

theorem readTables5_withInput (d : TableDesc5) :
    readTables5 d (withInput l s) = withInput l <$> readTables5 d s := by
  simp only [readTables5_eq, map_bind]
  rfl

theorem readTables3_withInput (d : TableDesc5) :
    readTables3 d (withInput l s) = withInput l <$> readTables3 d s := by
  simp only [readTables3_eq, map_bind]
  rfl

theorem buildTables2_withInput (t : List Len) :
    buildTables2 t (withInput l s) = withInput l <$> buildTables2 t s := by
  unfold buildTables2
  rw [withInput_v20]
  split <;> simp only [map_bind] <;> rfl

theorem readTables2_withInput (h : V20Header) :
    readTables2 h (withInput l s) = withInput l <$> readTables2 h s := by
  unfold readTables2
  simp only [startTables2_withInput, readPl4_withInput, withInput_desc, withInput_v20]
  generalize readPl4 h.pre (startTables2 h s) = u
  cases buildTable (lensSlice u.desc.lens 0 19) with
  | error e => rfl
  | ok bd =>
    refine bind_withInput l (readLens2_withInput l { u with v20.bd := bd } _ _ _) fun t => ?_
    exact bind_withInput l (buildTables2_withInput l { t with v20.tablesRead := true } _) fun _ => rfl

theorem requireTables5_withInput : requireTables5 (withInput l s) = withInput l <$> requireTables5 s := by
  unfold requireTables5
  rw [withInput_v50]
  split <;> rfl

theorem blockHeader_withInput (h : BlockHeader) :
    blockHeader h (withInput l s) = withInput l <$> blockHeader h s := by
  unfold blockHeader
  split
  · rfl
  · split
    · rfl
    · split
      · exact readTables5_withInput l (setBlock h s) _
      · rfl

theorem outcome_withInput {r r' : Except ErrCode State} (h : r' = withInput l <$> r) :
    outcome (withInput l s) r' = outcomeWithInput l (outcome s r) := by
  subst h
  cases r <;> rfl

end Computations
/-! ### The instructions -/

section Instructions
variable (l : List Byte) (s : State)

theorem execV29Tables_withInput (h : V29Header) :
    execV29Tables h (withInput l s) = outcomeWithInput l (execV29Tables h s) := by
  cases h with
  | ppm ok esc => exact outcome_withInput l s (bind_withInput l (ppmBlockStart_withInput l s ok esc) fun _ => rfl)
  | lz keep d =>
    exact outcome_withInput l s (bind_withInput l (readTables3_withInput l (startTables3 keep s) d) fun _ => rfl)

theorem execV20Tail_withInput (probe : TailProbe) :
    execV20Tail probe (withInput l s) = outcomeWithInput l (execV20Tail probe s) := by
  cases probe with
  | stop | ignored _ => rfl
  | reload h => exact outcome_withInput l s (bind_withInput l (readTables2_withInput l s h) fun _ => rfl)

theorem execV29Match_withInput (slot extra : Nat) (d : DistField) :
    execV29Match slot extra d (withInput l s) = outcomeWithInput l (execV29Match slot extra d s) := by
  unfold execV29Match
  rw [lowDistance3_withInput]
  exact congrArg Host.Outcome.next (copyNew_withInput l (cacheInsert _ (lowDistance3 d s).2) _ _)

/-- No instruction reads the delivered input: what it needs of it are its fields. -/
theorem exec_withInput (i : Instr) : exec i (withInput l s) = outcomeWithInput l (exec i s) := by
  cases i with
  | v50FirstHeader h =>
    exact outcome_withInput l s (bind_withInput l (blockHeader_withInput l s h) fun t =>
      bind_withInput l (requireTables5_withInput l t) fun _ => rfl)
  | v50NextBlock h =>
    exact outcome_withInput l s (bind_withInput l (blockHeader_withInput l s h) (requireTables5_withInput l))
  | v29Tables h => exact execV29Tables_withInput l s h
  | v20Tables h => exact outcome_withInput l s (bind_withInput l (readTables2_withInput l s h) fun _ => rfl)
  | v20Tail probe => exact execV20Tail_withInput l s probe
  | v29Eob e => cases e <;> rfl
  | v29Init | v20Init | v20SizeDone | ppmEscReload | v20Reload | v20AudReload | v50End | ppmEscEnd | v15Stream => rfl
  | v50Lit | v29Lit | v20Lit | ppmLit | ppmEscLit | v20AudSample => rfl
  | v50Filter f => exact outcome_withInput l s (emitFilter_withInput l s _)
  | v29VmCode v | ppmEscVmCode v => exact outcome_withInput l s (emitVmCode_withInput l s v _)
  | v50RepLast | v29RepLast => exact congrArg Host.Outcome.next (copyLast_withInput l s)
  | v50RepOld j | v29RepOld j => exact congrArg Host.Outcome.next (copyNew_withInput l (cacheRotate j s) _ _)
  | v50Match | v29Short => exact congrArg Host.Outcome.next (copyNew_withInput l (cacheInsert _ s) _ _)
  | v29Match slot extra d => exact execV29Match_withInput l s slot extra d
  | ppmEscLz | ppmEscRle => exact congrArg Host.Outcome.next (copyMatch_withInput l s _ _)
  | v20RepLast | v20RepOld | v20Short | v20Match => exact congrArg Host.Outcome.next (copy20_withInput l s _ _)
  | pl4eLen | pl4eEsc | pl4Len | len5Lit | len5Zero3 | len5Zero7 | len2Lit | len2Zero3 | len2Zero7 => rfl
  | len5Rep3 | len5Rep7 | len2Rep2 => exact outcome_withInput l s (repeatLen_withInput l s _)

theorem run_withInput (d : Decoded) : run d (withInput l s) = outcomeWithInput l (run d s) := by
  unfold run
  cases d.res with
  | ok i => exact exec_withInput l s i
  | error e => rfl

theorem advanceOutcome_withInput (d : Decoded) (o : Host.Outcome State Fault Refusal) :
    advanceOutcome d (outcomeWithInput l o) = outcomeWithInput l (advanceOutcome d o) := by
  cases o with
  | next t => exact congrArg Host.Outcome.next (advance_withInput l t d)
  | fault | refused => rfl

end Instructions

/-! ### The decoding -/

/-- Input that is delivered behind the input leaves its bits as they are. -/
theorem inputBit_append (input more : List Byte) :
    AgreeBelow (8 * input.length) (inputBit input) (inputBit (input ++ more)) := by
  intro k hk
  rw [inputBit, inputBit, List.getD_append _ _ _ _ (by omega)]

section Decoding
variable {s : State} {ctx : Ctx} (more : List Byte)

theorem availBits_withInput_append :
    availBits (withInput (s.input ++ more) s) = availBits s + 8 * more.length := by
  simp [availBits, inAvail, withInput, Nat.mul_add]

/-- A decoding whose bits are there is not changed by what stands behind them (R136). -/
theorem fetch_withInput_append (hok : envOk (envOf s) = true) (hneed : (fetch ctx s).need ≤ availBits s) :
    fetch ctx (withInput (s.input ++ more) s) = fetch ctx s :=
  peekLocality ctx (envOf s) (inputBits s) _ (bitPos s) hok ((inputBit_append s.input more).mono hneed)

/-- Only the v20 tail's availability test looks at the input to select a rule (R214, R350). -/
theorem dispatch_withInput (l : List Byte) (s : State) :
    dispatch (withInput l s) = dispatch s ∨
      dispatch s = some (tailCtx s) ∧ dispatch (withInput l s) = some (tailCtx (withInput l s)) := by
  unfold dispatch
  rw [withInput_cfgGen, withInput_phase]
  split
  -- the ninth row of the dispatch table is that of the tail
  case h_9 => exact .inr ⟨rfl, rfl⟩
  all_goals exact .inl rfl

/-- A tail step that waits needs bits that are not there, and the one that reads is due with more input too (R350). -/
theorem tailCtx_withInput_append (hmore : s.inEnded = false) (hneed : (fetch (tailCtx s) s).need ≤ availBits s) :
    tailCtx (withInput (s.input ++ more) s) = tailCtx s := by
  by_cases havail : s.posByte.toNat + 5 ≤ inAvail s
  · have havail' : s.posByte.toNat + 5 ≤ inAvail (withInput (s.input ++ more) s) := by
      simp only [inAvail, withInput, List.length_append] at havail ⊢; omega
    exact (if_pos havail').trans (if_pos havail).symm
  · have waits : tailCtx s = .v20TailWait := by rw [tailCtx, if_neg havail, hmore]; rfl
    have past : availBits s < (fetch .v20TailWait s).need := by
      have hbit := s.posBit.isLt
      simp only [fetch, decodeIn, bitPos, availBits]; omega
    rw [waits] at hneed
    exact absurd hneed (Nat.not_le.mpr past)

theorem dispatch_withInput_append (hdue : dispatch s = some ctx) (hmore : s.inEnded = false)
    (hneed : (fetch ctx s).need ≤ availBits s) : dispatch (withInput (s.input ++ more) s) = some ctx := by
  obtain same | ⟨htail, htail'⟩ := dispatch_withInput (s.input ++ more) s
  · exact same.trans hdue
  · obtain rfl : tailCtx s = ctx := Option.some.inj (htail.symm.trans hdue)
    rw [htail', tailCtx_withInput_append more hmore hneed]

end Decoding

/-- Settles O15: with more input the same rule is due, it decodes the same, and what it decoded does the same. -/
theorem chunkingIndependence : Obligations.ChunkingIndependence := by
  intro s t more hok hmore hmove
  have hinput : t.input = s.input := coreMove_input hmove
  obtain ⟨hstatus, ⟨-, hfault⟩ | ⟨ctx, hdue, hgate, ⟨hneed, hrun⟩ | ⟨-, hended, -⟩⟩⟩ := coreMove_cases hmove
  · cases hfault
  · have hdue' := dispatch_withInput_append more hdue hmore hneed
    have hneed' : (fetch ctx s).need ≤ availBits (withInput (s.input ++ more) s) := by
      rw [availBits_withInput_append]; omega
    have settles := coreMove_eq_settle (s := withInput (s.input ++ more) s) hstatus hdue' hgate
    calc coreMove (withInput (s.input ++ more) s)
      _ = settle (fetch ctx s) (withInput (s.input ++ more) s) := by
        rw [settles, fetch_withInput_append more hok hneed]
      _ = some (outcomeWithInput (s.input ++ more) (.next t)) := by
        rw [settle, if_pos hneed', run_withInput, advanceOutcome_withInput, hrun]
      _ = some (.next { t with input := t.input ++ more }) := by rw [hinput]; rfl
  · rw [hmore] at hended; cases hended

end Sys2Proof.Machine
end

section
/-! Oversubscription (41_huffman.md R152): the bounds of R151 leave the code space exactly when the code words of all
lengths together need more than the space has. -/

namespace Sys2Proof.Machine

/-- The counts of the lengths from `i` on find no room exactly when they need more than the space left behind the bound
`upper`, in units of the longest code word's half. -/
theorem leftBounds_eq_none_iff (count : Nat → Nat) {n i upper : Nat} (hin : i + n ≤ 16) (hupper : upper ≤ 2 ^ i) :
    leftBounds i upper ((List.range' i n).map count) = none ↔
      2 ^ 16 < upper * 2 ^ (16 - i) + ((List.range' i n).map fun j => count j * 2 ^ (16 - j)).sum := by
  have space {i : Nat} (hi : i ≤ 16) : 2 ^ i * 2 ^ (16 - i) = 2 ^ 16 := by rw [← pow_add, Nat.add_sub_cancel' hi]
  induction n generalizing i upper with
  | zero =>
    have fits : upper * 2 ^ (16 - i) ≤ 2 ^ 16 := space hin ▸ Nat.mul_le_mul_right _ hupper
    simpa [leftBounds] using fits
  | succ n ih =>
    simp only [List.range'_succ, List.map_cons, List.sum_cons, leftBounds, ← Nat.add_assoc, ← Nat.add_mul]
    split
    case isTrue hover =>
      have overfull : 2 ^ 16 < (upper + count i) * 2 ^ (16 - i) :=
        space (i := i) (by omega) ▸ Nat.mul_lt_mul_of_pos_right hover (Nat.two_pow_pos _)
      exact iff_of_true rfl (Nat.lt_add_right _ overfull)
    case isFalse hfits =>
      have halved : 2 * (upper + count i) * 2 ^ (16 - (i + 1)) = (upper + count i) * 2 ^ (16 - i) := by
        rw [show 16 - i = 16 - (i + 1) + 1 by omega, pow_succ]; ring
      have rest := ih (i := i + 1) (upper := 2 * (upper + count i)) (by omega) (by rw [pow_succ]; omega)
      rw [halved] at rest
      exact Option.map_eq_none_iff.trans rest

/-- The space the counts of R151 need is the space of the code words, symbol by symbol. -/
theorem sum_lenCounts_weighted (lens : List Len) :
    ((List.range' 1 15).map fun i => (lens.countP fun l => l.toNat == i) * 2 ^ (16 - i)).sum =
      2 * (lens.map fun l => if l = 0 then 0 else 2 ^ (15 - l.toNat)).sum := by
  have symbol : ∀ l : Len, ((List.range' 1 15).map fun i => (if l.toNat == i then 1 else 0) * 2 ^ (16 - i)).sum =
      2 * if l = 0 then 0 else 2 ^ (15 - l.toNat) := by decide
  induction lens with
  | nil => simp
  | cons l ls ih =>
    simp only [List.countP_cons, Nat.add_mul, List.sum_map_add, List.map_cons, List.sum_cons, ih, symbol]
    ring

theorem buildTable_eq_e1_iff {lens : List Len} :
    buildTable lens = .error .e1 ↔ leftBounds 1 0 (lenCounts lens) = none := by
  cases hbounds : leftBounds 1 0 (lenCounts lens) with
  | none => simp [buildTable, buildTableWith, hbounds]
  | some bounds => simp [buildTable, buildTableWith, hbounds, Config.rejectIncomplete]

/-- Settles O9: the bounds overflow exactly when the counts of all lengths do, and those count the symbols. -/
theorem oversubscriptionRejected : Obligations.OversubscriptionRejected := by
  intro lens
  rw [buildTable_eq_e1_iff, lenCounts, leftBounds_eq_none_iff _ (by decide) (by decide), sum_lenCounts_weighted]
  omega

end Sys2Proof.Machine
end

section
/-! Code words of the tables `BuildTable` makes (41_huffman.md R154 to R158): where the symbol order lists a symbol, which
code word that gives it, and what is decoded where none stands. -/

namespace Sys2Proof.Machine

/-! ### The unassigned code words -/

namespace Canonical

variable {n : Nat} {t : HuffTable} (c : Canonical n t)
include c

/-- A lookahead below the bound of its length indexes a symbol of that length (R155). -/
theorem codeIndex_lt {l la : Nat} (h1 : 1 ≤ l) (h2 : l ≤ 15) (hla : la < t.bound l) (hlow : t.bound (l - 1) ≤ la) :
    codeIndex t la l < t.position (l + 1) := by
  have step := c.bound_eq l h1 h2
  have order := c.position_le l h1 h2
  have offset : (la - t.bound (l - 1)) / 2 ^ (16 - l) < t.position (l + 1) - t.position l :=
    Nat.div_lt_of_lt_mul (by rw [Nat.mul_comm]; omega)
  rw [codeIndex, Nat.shiftRight_eq_div_pow]
  omega

/-- The bound before the length the search found is not above the lookahead (R155). -/
theorem bound_pred_codeLength_le (la : Nat) : t.bound (codeLength t la - 1) ≤ la := by
  obtain ⟨hpos, -, hbelow, -⟩ := codeLength_spec t la
  rcases Nat.eq_or_lt_of_le hpos with hone | hlong
  · rw [← hone, c.bound_zero]; exact Nat.zero_le la
  · exact hbelow _ (by omega) (by omega)

/-- Past the last bound the search falls back to 15 bits (R155). -/
theorem codeLength_of_bound_le {la : Nat} (h : t.bound 15 ≤ la) : codeLength t la = 15 :=
  codeLength_unique (by decide) le_rfl (fun _ _ hi => (c.bound_mono hi.le le_rfl).trans h) fun h => absurd h (lt_irrefl 15)

/-- R156: the index is past the assigned symbols exactly in the unassigned region. -/
theorem nAssigned_le_codeIndex_iff (la : Nat) : t.nAssigned ≤ codeIndex t la (codeLength t la) ↔ t.bound 15 ≤ la := by
  obtain ⟨hpos, hle, -, habove⟩ := codeLength_spec t la
  constructor
  · intro hindex
    by_contra hbelow
    have below : la < t.bound (codeLength t la) := by
      rcases Nat.eq_or_lt_of_le hle with hlast | hshort
      · rw [hlast]; omega
      · exact habove hshort
    have assigned : codeIndex t la (codeLength t la) < t.position 16 :=
      (c.codeIndex_lt hpos hle below (c.bound_pred_codeLength_le la)).trans_le
        (c.position_mono (by omega) (by omega) le_rfl)
    exact absurd hindex (Nat.not_le.mpr assigned)
  · intro hunassigned
    have step : t.bound 15 = t.bound 14 + (t.position 16 - t.position 15) * 2 := c.bound_eq 15 (by decide) le_rfl
    have index : codeIndex t la 15 = t.position 15 + (la - t.bound 14) / 2 := by
      rw [codeIndex, Nat.shiftRight_eq_div_pow]
    change t.position 16 ≤ _
    rw [c.codeLength_of_bound_le hunassigned, index]
    omega

end Canonical

/-- Settles O10: every table `BuildTable` makes is canonical, and its unassigned region is the one past the last
bound. -/
theorem unassignedCodeFallback : Obligations.UnassignedCodeFallback := by
  intro lens t z p hlen hbuild
  have c := canonical_spec (buildTable_canonical hbuild hlen)
  refine ⟨c.nAssigned_le_codeIndex_iff _, fun hunassigned => Prod.ext ?_ ?_⟩
  · rw [huffDecode_fst, if_pos ((c.nAssigned_le_codeIndex_iff _).mpr hunassigned)]
  · rw [huffDecode_snd, c.codeLength_of_bound_le hunassigned]

/-! ### The order of the symbols -/

/-- The number of symbols below `s` that have code length `l`: the `k` of R157. -/
def codeRank (lens : List Len) (s l : Nat) : Nat := (lens.take s).countP fun x => x.toNat == l

/-- A symbol stands among those of its length behind the smaller ones of that length (R154). -/
theorem getElem?_symbolsOf {lens : List Len} {s l : Nat} (hs : s < lens.length) (hl : lens[s].toNat = l) (first : Nat) :
    (symbolsOf l first lens)[codeRank lens s l]? = some (first + s) := by
  induction lens generalizing s first with
  | nil => simp at hs
  | cons x xs ih =>
    cases s with
    | zero =>
      have hx : x.toNat = l := hl
      simp [symbolsOf, codeRank, hx]
    | succ s =>
      have rest := ih (Nat.lt_of_succ_lt_succ hs) hl (first + 1)
      rw [Nat.add_right_comm, Nat.add_assoc] at rest
      by_cases hx : x.toNat = l <;> simpa [symbolsOf, codeRank, hx] using rest

theorem nodup_symbolsOf (l first : Nat) (lens : List Len) : (symbolsOf l first lens).Nodup := by
  induction lens generalizing first with
  | nil => exact List.nodup_nil
  | cons x xs ih =>
    rw [symbolsOf]
    split
    · refine List.nodup_cons.mpr ⟨fun hmem => ?_, ih _⟩
      have := (mem_symbolsOf.mp hmem).1
      omega
    · exact ih _

/-- No symbol is listed twice: it has one length. -/
theorem nodup_symbolOrder (lens : List Len) : (symbolOrder lens).Nodup := by
  refine List.nodup_flatMap.mpr ⟨fun l _ => nodup_symbolsOf l 0 lens, ?_⟩
  refine (List.nodup_range' 1).imp fun hne => ?_
  refine List.disjoint_left.mpr fun _ hs hs' => hne ?_
  exact (mem_symbolsOf.mp hs).2.2.symm.trans (mem_symbolsOf.mp hs').2.2

/-- The symbols of a length stand together, behind those of the smaller lengths (R154). -/
theorem getElem?_symbolOrder {lens : List Len} {l k s : Nat} (h1 : 1 ≤ l) (h2 : l ≤ 15)
    (hk : (symbolsOf l 0 lens)[k]? = some s) :
    (symbolOrder lens)[((lenCounts lens).take (l - 1)).sum + k]? = some s := by
  have split : List.range' 1 15 = List.range' 1 (l - 1) ++ l :: List.range' (l + 1) (15 - l) := by
    rw [← List.range'_succ, show 15 = (l - 1) + (15 - l + 1) by omega, ← List.range'_append_1]
    congr 2 <;> omega
  have before : ((List.range' 1 (l - 1)).flatMap fun j => symbolsOf j 0 lens).length =
      ((lenCounts lens).take (l - 1)).sum := by
    rw [lenCounts, ← List.map_take, split, List.take_left' (List.length_range' ..), List.length_flatMap]
    congr 1
    exact List.map_congr_left fun j _ => length_symbolsOf j 0 lens
  have hklen : k < (symbolsOf l 0 lens).length := (List.getElem?_eq_some_iff.mp hk).1
  rw [symbolOrder, split, List.flatMap_append, List.flatMap_cons, List.getElem?_append_right (by omega), before,
    Nat.add_sub_cancel_left, List.getElem?_append_left hklen, hk]

/-! ### The code word of a symbol -/

section CodeWord
variable {lens : List Len} {bounds : List Nat} {t : HuffTable} {s l : Nat}

/-- The index of an assigned symbol lies in the positions of its length. -/
theorem Built.position_add_codeRank_lt (b : Built lens bounds t) (hs : s < lens.length) (hl : lens[s].toNat = l)
    (h1 : 1 ≤ l) : t.position l + codeRank lens s l < t.position (l + 1) := by
  have listed := (List.getElem?_eq_some_iff.mp (getElem?_symbolsOf hs hl 0)).1
  have next := b.position_rec (j := l - 1) (by omega)
  rw [lenCounts_getD _ (by omega), show 1 + (l - 1) = l by omega, show l - 1 + 2 = l + 1 by omega,
    show l - 1 + 1 = l by omega, ← length_symbolsOf l 0] at next
  omega

/-- The index of an assigned symbol is its rank behind the smaller lengths (R154). -/
theorem Built.getElem?_symbolOrder_position (b : Built lens bounds t) (hs : s < lens.length) (hl : lens[s].toNat = l)
    (h1 : 1 ≤ l) : (symbolOrder lens)[t.position l + codeRank lens s l]? = some s := by
  have order := getElem?_symbolOrder h1 (by omega) (getElem?_symbolsOf hs hl 0)
  have position := b.position_succ (j := l - 1) (by omega)
  rw [show l - 1 + 1 = l by omega] at position
  rw [position]
  simpa using order

theorem Built.length_symbolOrder_eq (b : Built lens bounds t) : (symbolOrder lens).length = t.nAssigned := by
  rw [length_symbolOrder, b.table]

/-- What the symbol order lists has a code, and its index is where it is listed. -/
theorem Built.indexOf_eq (b : Built lens bounds t) (hlen : lens.length ≤ 65536) {i : Nat}
    (hi : (symbolOrder lens)[i]? = some s) : t.hasCode s = true ∧ t.indexOf s = i := by
  have c := canonical_spec (b.canonical hlen)
  obtain ⟨hlt, hget⟩ := List.getElem?_eq_some_iff.mp hi
  have assigned : i < t.nAssigned := b.length_symbolOrder_eq ▸ hlt
  have hnum : i < t.decodeNum.length := assigned.trans_le (c.numLength ▸ c.assigned)
  have entry : t.decodeNum[i].toNat = s := by
    rw [← hget, ← b.num_getD hlt hlen, List.getD_eq_getElem _ _ hnum]
  have hcode : t.hasCode s = true := by
    refine List.any_eq_true.mpr ⟨t.decodeNum[i], ?_, beq_iff_eq.mpr entry⟩
    exact List.mem_take_iff_getElem.mpr ⟨i, by omega, rfl⟩
  refine ⟨hcode, ?_⟩
  obtain ⟨hindex, hsymbol⟩ := indexOf_spec c hcode
  rw [← b.length_symbolOrder_eq] at hindex
  rw [b.num_getD hindex hlen] at hsymbol
  exact (nodup_symbolOrder lens).getElem_inj_iff.mp (hsymbol.trans hget.symm)

/-- The positions of a length are those of no other. -/
theorem Canonical.lengthAt_eq {n i : Nat} (c : Canonical n t) (h1 : 1 ≤ l) (h2 : l ≤ 15) (hlow : t.position l ≤ i)
    (hhigh : i < t.position (l + 1)) : t.lengthAt i = l := by
  have assigned : i < t.nAssigned := hhigh.trans_le (c.position_mono (by omega) (by omega) (le_refl 16))
  obtain ⟨g1, g2, glow, ghigh⟩ := lengthAt_spec c assigned
  rcases Nat.lt_trichotomy (t.lengthAt i) l with h | h | h
  · have := c.position_mono (i := t.lengthAt i + 1) (by omega) h (by omega); omega
  · exact h
  · have := c.position_mono (i := l + 1) (by omega) h (by omega); omega

/-- The code word of R157, in the terms of the length array, is the one the register file gives (R154). -/
theorem Built.encodeSymbol_eq (b : Built lens bounds t) (hlen : lens.length ≤ 65536) (hs : s < lens.length)
    (hl : lens[s].toNat = l) (h1 : 1 ≤ l) :
    t.hasCode s = true ∧ encodeSymbol t s = bitsOf l ((t.bound (l - 1) >>> (16 - l)) + codeRank lens s l) := by
  have c := canonical_spec (b.canonical hlen)
  obtain ⟨hcode, hindex⟩ := b.indexOf_eq hlen (b.getElem?_symbolOrder_position hs hl h1)
  have hlength := c.lengthAt_eq h1 (by omega) (Nat.le_add_right _ _) (b.position_add_codeRank_lt hs hl h1)
  refine ⟨hcode, ?_⟩
  rw [encodeSymbol, hindex, hlength, Nat.add_sub_cancel_left]

end CodeWord

theorem countP_beq_eq_codeRank (lens : List Len) (s : Nat) (l : Len) :
    (lens.take s).countP (· == l) = codeRank lens s l.toNat :=
  List.countP_congr fun x _ => by simp [BitVec.toNat_inj]

/-- Settles O8: the decoding of a canonical table is local, and the code word of R157 is the register file's. -/
theorem huffmanRoundTrip : Obligations.HuffmanRoundTrip := by
  intro lens t hlen hbuild
  obtain ⟨bounds, b⟩ := buildTable_ok_iff.mp hbuild
  have canonical := b.canonical hlen
  refine ⟨fun z z' p p' hagree => ?_, fun z p s hs hassigned hholds => ?_⟩
  · obtain ⟨symbol, length⟩ := huffDecode_local canonical fun k hk => hagree k (Nat.add_lt_add_left hk p)
    refine ⟨symbol, ?_⟩
    rw [huffDecode_snd, huffDecode_snd, length, Nat.add_sub_cancel_left, Nat.add_sub_cancel_left]
  · have hpos : 1 ≤ lens[s].toNat := Nat.one_le_iff_ne_zero.mpr fun h => hassigned (BitVec.toNat_inj.mp h)
    obtain ⟨hcode, hword⟩ := b.encodeSymbol_eq hlen hs rfl hpos
    rw [countP_beq_eq_codeRank, ← hword] at hholds
    rw [huffDecode_encode canonical hcode hholds, hword, length_bitsOf]

end Sys2Proof.Machine
end

section
/-! The errors of a table read (41_huffman.md R152, R160, R162; 44_v50.md R245, 45_v29.md R285, 46_v20.md R333, R335):
what every read has in common is said once, of a computation that builds the pre-table, reads the lengths and goes on
with both. -/

namespace Sys2Proof.Machine

/-- `lens` is oversubscribed (R152). -/
def Rejected (lens : List Len) : Prop := ∃ e, buildTable lens = .error e

/-- The computation `r` of a table read ends in E1 where the pre-lengths `pre` are oversubscribed, in E2 where the reading
`lens` of the length array stops at a repeat, and in E1 where one of the segments (start, length) of the array is
oversubscribed. -/
structure ReadFails (pre : List Len) (lens : Except ErrCode (List Len)) (segments : List (Nat × Nat))
    (r : Except ErrCode State) : Prop where
  pretable : Rejected pre → r = .error .e1
  repeated : ∀ {bd e}, buildTable pre = .ok bd → lens = .error e → r = .error .e2
  segment : ∀ {bd t}, buildTable pre = .ok bd → lens = .ok t →
    (∃ c ∈ segments, Rejected ((t.drop c.1).take c.2)) → r = .error .e1

/-- E1 where the table's array is rejected, or where what follows raises E1 with any table. -/
theorem buildTable_bind_eq_e1 {α : Type} {lens : List Len} {f : HuffTable → Except ErrCode α}
    (h : Rejected lens ∨ ∀ t, f t = .error .e1) : buildTable lens >>= f = .error .e1 := by
  cases hbuild : buildTable lens with
  | error e => rw [buildTable_error hbuild]; rfl
  | ok t =>
    obtain ⟨e, he⟩ | hrest := h
    · rw [hbuild] at he; cases he
    · exact hrest t

/-- The shape of every table read: the pre-table, the lengths, and the tables of the array's segments. -/
theorem ReadFails.of_bind {pre : List Len} {lens : Except ErrCode (List Len)} {segments : List (Nat × Nat)}
    {build : HuffTable → List Len → Except ErrCode State} (hlens : ∀ e, lens = .error e → e = .e2)
    (hbuild : ∀ bd t, buildTable pre = .ok bd → lens = .ok t →
      (∃ c ∈ segments, Rejected ((t.drop c.1).take c.2)) → build bd t = .error .e1) :
    ReadFails pre lens segments (buildTable pre >>= fun bd => lens >>= build bd) where
  pretable h := buildTable_bind_eq_e1 (.inl h)
  repeated {bd e} hpre herror := by rw [hpre, herror, hlens e herror]; rfl
  segment {bd t} hpre hok hrejected := by rw [hpre, hok]; exact hbuild bd t hpre hok hrejected

/-! ### The v50 and the v29 read -/

/-- Four tables are built from the array's segments one after another; which of them is rejected does not matter. -/
theorem buildFour_eq_e1 {t : List Len} {c₁ c₂ c₃ c₄ : Nat × Nat}
    (hfits : ∀ c ∈ [c₁, c₂, c₃, c₄], c.1 + c.2 ≤ t.length)
    (h : ∃ c ∈ [c₁, c₂, c₃, c₄], Rejected ((t.drop c.1).take c.2))
    (commit : HuffTable → HuffTable → HuffTable → HuffTable → Except ErrCode State) :
    (do
      let ld ← buildTable (lensSlice t c₁.1 c₁.2)
      let dd ← buildTable (lensSlice t c₂.1 c₂.2)
      let ldd ← buildTable (lensSlice t c₃.1 c₃.2)
      let rd ← buildTable (lensSlice t c₄.1 c₄.2)
      commit ld dd ldd rd) = .error .e1 := by
  have slices : ∃ c ∈ [c₁, c₂, c₃, c₄], Rejected (lensSlice t c.1 c.2) := by
    obtain ⟨c, hc, hrejected⟩ := h
    exact ⟨c, hc, lensSlice_eq (hfits c hc) ▸ hrejected⟩
  simp only [List.exists_mem_cons_iff, List.not_mem_nil, false_and, exists_false, or_false] at slices
  exact buildTable_bind_eq_e1 <| slices.imp_right fun h _ => buildTable_bind_eq_e1 <| h.imp_right fun h _ =>
    buildTable_bind_eq_e1 <| h.imp_right fun h _ => buildTable_bind_eq_e1 (.inl h)

theorem readTables5_fails {d : TableDesc5} (hwf : d.wf 430 = true) (s : State) :
    ReadFails (preLengths d.pre) (lengths5 430 [] [] d.lens) [(0, 306), (306, 64), (370, 16), (386, 44)]
      (readTables5 d s) := by
  rw [readTables5_eq, lensSlice_pre (TableDesc5_wf_pre hwf)]
  refine .of_bind (fun _ => lengths5_error) fun bd t hpre hlens hrejected => ?_
  have hlength := TableDesc5_wf_length hwf hpre hlens
  exact buildFour_eq_e1 (by rw [hlength]; decide) hrejected _

theorem readTables3_fails {d : TableDesc5} (hwf : d.wf 404 = true) (s : State) :
    ReadFails (preLengths d.pre) (lengths5 404 s.v29.oldLens [] d.lens) [(0, 299), (299, 60), (359, 17), (376, 28)]
      (readTables3 d s) := by
  rw [readTables3_eq, lensSlice_pre (TableDesc5_wf_pre hwf)]
  refine .of_bind (fun _ => lengths5_error) fun bd t hpre hlens hrejected => ?_
  have hlength := TableDesc5_wf_length hwf hpre hlens
  exact buildFour_eq_e1 (by rw [hlength]; decide) hrejected _

/-! ### The v20 read -/

/-- The segments of a v20 length array, one per table (R335). -/
def segments2 (audio : Option (BitVec 2)) : List (Nat × Nat) :=
  match audio with
  | none => [(0, 298), (298, 48), (346, 28)]
  | some a => (List.range (a.toNat + 1)).map fun k => (257 * k, 257)

/-- The tables of R335 fill the array. -/
theorem segments2_fit {audio : Option (BitVec 2)} : ∀ c ∈ segments2 audio, c.1 + c.2 ≤ v20LensCount audio := by
  cases audio with
  | none => decide
  | some a =>
    intro c hc
    obtain ⟨k, hk, rfl⟩ := List.mem_map.mp hc
    have := List.mem_range.mp hk
    simp only [v20LensCount]
    omega

/-- The audio tables are built in order, up to the first one that is rejected. -/
theorem buildAudioTables_eq_e1 {t : List Len} {n c : Nat} {md : List HuffTable}
    (h : ∃ k < n, Rejected (lensSlice t (257 * (c + k)) 257)) : buildAudioTables t c n md = .error .e1 := by
  induction n generalizing c md with
  | zero => obtain ⟨k, hk, -⟩ := h; omega
  | succ n ih =>
    rw [buildAudioTables]
    refine buildTable_bind_eq_e1 ?_
    obtain ⟨k, hk, hrejected⟩ := h
    cases k with
    | zero => exact .inl hrejected
    | succ k => exact .inr fun m => ih ⟨k, by omega, by rwa [Nat.add_right_comm, Nat.add_assoc]⟩

/-- The state a v20 header has prepared for its read: its sub-mode, and with audio its channels (R333). -/
structure Prepared (audio : Option (BitVec 2)) (s : State) : Prop where
  mode : s.v20.audio = audio.isSome
  channels : ∀ a, audio = some a → s.v20.channels = a.toNat + 1

theorem buildTables2_eq_e1 {audio : Option (BitVec 2)} {s : State} (hs : Prepared audio s) {t : List Len}
    (h : ∃ c ∈ segments2 audio, Rejected (lensSlice t c.1 c.2)) : buildTables2 t s = .error .e1 := by
  cases audio with
  | none =>
    have hmode : s.v20.audio = false := hs.mode
    simp only [segments2, List.exists_mem_cons_iff, List.not_mem_nil, false_and, exists_false, or_false] at h
    rw [buildTables2, hmode]
    exact buildTable_bind_eq_e1 <| h.imp_right fun h _ => buildTable_bind_eq_e1 <| h.imp_right fun h _ =>
      buildTable_bind_eq_e1 (.inl h)
  | some a =>
    have hmode : s.v20.audio = true := hs.mode
    obtain ⟨c, hc, hrejected⟩ := h
    obtain ⟨k, hk, rfl⟩ := List.mem_map.mp hc
    have audioTables : buildAudioTables t 0 s.v20.channels s.v20.md = .error .e1 := by
      rw [hs.channels a rfl]
      exact buildAudioTables_eq_e1 ⟨k, List.mem_range.mp hk, by rwa [Nat.zero_add]⟩
    rw [buildTables2, hmode, audioTables]
    rfl

theorem startTables2_prepared (h : V20Header) (s : State) : Prepared h.audio (startTables2 h s) := by
  unfold startTables2
  cases h.audio with
  | none => exact ⟨rfl, fun _ hnone => nomatch hnone⟩
  | some a => exact ⟨rfl, fun _ hsome => by cases hsome; rfl⟩

/-- The old lengths a v20 read adds to (R333). -/
theorem startTables2_oldLens (h : V20Header) (s : State) :
    (startTables2 h s).v20.oldLens = if h.keep then s.v20.oldLens else List.replicate 1028 0 := by
  unfold startTables2
  cases h.audio <;> rfl

theorem V20Header_wf_pre {h : V20Header} (hwf : h.wf = true) : h.pre.length = 19 := by
  simp only [V20Header.wf, Bool.and_eq_true, beq_iff_eq] at hwf
  exact hwf.1

theorem lensSlice_all {t : List Len} {n : Nat} (h : t.length = n) : lensSlice t 0 n = t := by
  rw [lensSlice_eq (by omega), List.drop_zero, List.take_of_length_le h.le]

theorem readTables2_fails {h : V20Header} (hwf : h.wf = true) (s : State) :
    ReadFails h.pre
      (lengths2 (v20LensCount h.audio) (if h.keep then s.v20.oldLens else List.replicate 1028 0) [] h.lens)
      (segments2 h.audio) (readTables2 h s) := by
  have hpre := V20Header_wf_pre hwf
  rw [readTables2_eq hpre.le, lensSlice_all hpre, ← startTables2_oldLens]
  refine .of_bind (fun _ => lengths2_error) fun bd t hbd hlens ⟨c, hc, hrejected⟩ => ?_
  have hlength := V20Header_wf_length hwf hbd hlens
  have slice : Rejected (lensSlice t c.1 c.2) := by rwa [lensSlice_eq (hlength ▸ segments2_fit c hc)]
  obtain ⟨hmode, hchannels⟩ := startTables2_prepared h s
  rw [lensSlice_all hlength, buildTables2_eq_e1 (audio := h.audio) _ ⟨c, hc, slice⟩]
  · rfl
  · exact ⟨hmode, hchannels⟩

/-! ### The instructions that read tables -/

/-- The instruction `i` in the state `s` is the computation `r`, and what it commits when that succeeds: its errors are those
of `r`, and then nothing else is written (R402). -/
def RaisesWith (i : Instr) (s : State) (r : Except ErrCode State) : Prop :=
  ∀ e, r = .error e → exec i s = .next (errorState e s)

theorem outcome_bind_error {s : State} {r : Except ErrCode State} {e : ErrCode} (h : r = .error e)
    (f : State → Except ErrCode State) : outcome s (r >>= f) = .next (errorState e s) := by
  rw [h]; rfl

/-- A block header whose fields are legal and whose tables bit is set reads the tables (R242 to R244). -/
theorem blockHeader_eq_readTables5 {h : BlockHeader} {d : TableDesc5} (hcount : headerByteCount h.flags ≠ 4)
    (hcheck : h.check.toNat = check5 h.flags h.size.toNat) (hbit : h.flags.getLsbD 7 = true) (htables : h.tables = some d)
    (s : State) : blockHeader h s = readTables5 d (setBlock h s) := by
  rw [blockHeader, if_neg hcount, if_neg (not_not.mpr hcheck), if_pos hbit, htables]
  rfl

theorem blockHeader_raises {h : BlockHeader} {i : Instr} (hi : i = .v50FirstHeader h ∨ i = .v50NextBlock h) (s : State) :
    RaisesWith i s (blockHeader h s) := by
  intro e he
  obtain rfl | rfl := hi
  · exact outcome_bind_error he fun t => do
      let u ← requireTables5 t
      .ok (setPhase .token u)
  · exact outcome_bind_error he requireTables5

theorem v29Tables_raises (keep : Bool) (d : TableDesc5) (s : State) :
    RaisesWith (.v29Tables (.lz keep d)) s (readTables3 d (startTables3 keep s)) :=
  fun _ he => outcome_bind_error he fun t => .ok (setPhase .token t)

theorem readTables2_raises {h : V20Header} {i : Instr} (hi : i = .v20Tables h ∨ i = .v20Tail (.reload h)) (s : State) :
    RaisesWith i s (readTables2 h s) := by
  intro e he
  obtain rfl | rfl := hi
  · exact outcome_bind_error he fun t => .ok (setPhase .token t)
  · exact outcome_bind_error he fun t => .ok (endMember t)

/-- Settles O31: each instruction that reads tables raises the errors of its read, and the reads fail alike. -/
theorem tableReadErrors : Obligations.TableReadErrors := by
  refine ⟨fun d keep h s i n old e sizes hi hwf => ?_, fun h s i e hi hwf => ?_⟩
  · obtain ⟨r, hraises, fails⟩ : ∃ r, RaisesWith i s r ∧
        ReadFails (preLengths d.pre) (lengths5 n old [] d.lens) sizes r := by
      obtain ⟨hi, hcount, hcheck, hbit, htables, rfl, rfl, rfl⟩ | ⟨rfl, rfl, rfl, rfl⟩ := hi
      · refine ⟨_, blockHeader_raises hi s, ?_⟩
        rw [blockHeader_eq_readTables5 hcount hcheck hbit htables]
        exact readTables5_fails hwf _
      · exact ⟨_, v29Tables_raises keep d s, readTables3_fails hwf (startTables3 keep s)⟩
    refine ⟨fun hpre => ?_, fun bd hbd => ⟨fun hlens => ?_, fun t ht hsegment => ?_⟩⟩
    · exact hraises _ (fails.pretable ⟨e, hpre⟩)
    · exact hraises _ (fails.repeated hbd hlens)
    · obtain ⟨c, hc, hrejected⟩ := hsegment
      exact hraises _ (fails.segment hbd ht ⟨c, hc, e, hrejected⟩)
  · have hraises := readTables2_raises hi s
    have fails := readTables2_fails hwf s
    refine ⟨fun hpre => ?_, fun bd hbd hlens => ?_, fun bd t c hbd ht hc hrejected => ?_⟩
    · exact hraises _ (fails.pretable ⟨e, hpre⟩)
    · exact hraises _ (fails.repeated hbd hlens)
    · exact hraises _ (fails.segment hbd ht ⟨c, hc, e, hrejected⟩)

end Sys2Proof.Machine
end

section
/-! The distance cache and the flush engine, each by its own operation (42_window.md R185 to R192). -/

namespace Sys2Proof.Machine

/-! ### The distance cache -/

/-- R192: the entries before the rotated one move back by one. -/
theorem OldDist.get_rotate_of_le (c : OldDist) :
    ∀ {i j : Fin 4}, 0 < j.val → j ≤ i → (c.rotate i).get j = c.get (j - 1)
  | 1, 1, _, _ | 2, 1, _, _ | 2, 2, _, _ | 3, 1, _, _ | 3, 2, _, _ | 3, 3, _, _ => rfl
  | 0, 0, h, _ | 1, 0, h, _ | 2, 0, h, _ | 3, 0, h, _ => absurd h (by decide)
  | 0, 1, _, h | 0, 2, _, h | 0, 3, _, h | 1, 2, _, h | 1, 3, _, h | 2, 3, _, h => absurd h (by decide)

theorem OldDist.get_rotate_of_lt (c : OldDist) : ∀ {i j : Fin 4}, i < j → (c.rotate i).get j = c.get j
  | 0, _, _ | 1, 2, _ | 1, 3, _ | 2, 3, _ => rfl
  | 1, 0, h | 1, 1, h | 2, 0, h | 2, 1, h | 2, 2, h => absurd h (by decide)
  | 3, 0, h | 3, 1, h | 3, 2, h | 3, 3, h => absurd h (by decide)

theorem OldDist.get_rotate_zero (c : OldDist) (i : Fin 4) : (c.rotate i).get 0 = c.get i := by
  fin_cases i <;> rfl

/-- Settles O28: an insertion by its definition, a rotation entry by entry. -/
theorem cacheInsertAndRotate : Obligations.CacheInsertAndRotate :=
  ⟨fun _ _ => ⟨rfl, rfl, rfl, rfl⟩,
    fun c i => ⟨c.get_rotate_zero i, fun _ => c.get_rotate_of_le, fun _ => c.get_rotate_of_lt⟩⟩

/-! ### The flush engine -/

/-- R185, R187 and R188 in words: something is pending below the limit, the member is not over or still has bytes to move,
and the sink takes the byte unless it is to be discarded. -/
theorem flushEnabled_iff {s : State} :
    flushEnabled s = true ↔
      s.flAbs.toNat < s.wrAbs.toNat ∧ (∀ l, s.flushLimit = some l → s.flAbs.toNat < l.toNat) ∧
        (s.status = .running ∨ s.status = .drain ∨ (s.status = .error ∧ 0 < s.errFlushLeft.toNat)) ∧
        (s.cfgDeclaredSize.toNat ≤ emitted s ∨ s.sinkReady = true) := by
  have active : (memberActive s || (s.status == .error && decide (0 < s.errFlushLeft.toNat))) = true ↔
      s.status = .running ∨ s.status = .drain ∨ (s.status = .error ∧ 0 < s.errFlushLeft.toNat) := by
    simp [memberActive_iff, or_assoc]
  simp only [flushEnabled, Bool.and_eq_true, active, Bool.or_eq_true, decide_eq_true_eq, and_assoc]
  refine and_congr_right' (and_congr_left' ?_)
  cases s.flushLimit <;> simp

theorem flushMove_enabled {s : State} (h : flushEnabled s = true) : flushMove s = flushByte s := if_pos h

theorem flushMove_disabled {s : State} (h : ¬ flushEnabled s = true) : flushMove s = s := if_neg h

section FlushByte
variable {s : State}

/-- The flush cursor does not wrap while something is pending. -/
theorem flushByte_flAbs (h : s.flAbs.toNat < s.wrAbs.toNat) : (flushByte s).flAbs.toNat = s.flAbs.toNat + 1 := by
  have next : (flushByte s).flAbs = s.flAbs + 1 := rfl
  have fits := s.wrAbs.isLt
  rw [next]
  bv_omega

theorem flushByte_errFlushLeft (h : s.status = .error → 0 < s.errFlushLeft.toNat) :
    (flushByte s).errFlushLeft.toNat =
      if s.status = .error then s.errFlushLeft.toNat - 1 else s.errFlushLeft.toNat := by
  have left : (flushByte s).errFlushLeft = if s.status = .error then s.errFlushLeft - 1 else s.errFlushLeft := rfl
  rw [left]
  split
  next herror =>
    have := h herror
    bv_omega
  · rfl

theorem flushByte_status (h : s.flAbs.toNat < s.wrAbs.toNat) :
    (flushByte s).status =
      if s.status = .drain ∧ s.flAbs.toNat + 1 = s.wrAbs.toNat then .done else s.status := by
  have last : s.flAbs + 1 = s.wrAbs ↔ s.flAbs.toNat + 1 = s.wrAbs.toNat := by
    rw [← flushByte_flAbs h]
    exact BitVec.toNat_inj.symm
  exact if_congr (and_congr_right' last) rfl rfl

end FlushByte

/-- A flush that is enabled in ERROR has bytes left to move (R187, R402). -/
theorem errFlushLeft_pos_of_flushEnabled {s : State} (h : flushEnabled s = true) (he : s.status = .error) :
    0 < s.errFlushLeft.toNat := by
  obtain ⟨-, -, hactive, -⟩ := flushEnabled_iff.mp h
  simpa [he] using hactive

/-- Settles O37: the move by `flushEnabled_iff` and the fields of `flushByte`, the events and the peek by definition. -/
theorem flushStep : Obligations.FlushStep := by
  intro s on
  have enabled : on ↔ flushEnabled s = true := flushEnabled_iff.symm
  refine ⟨fun h => flushMove_disabled (enabled.not.mp h), fun h => ?_, fun rest => ?_, fun _ => rfl⟩
  · have hpending : s.flAbs.toNat < s.wrAbs.toNat := h.1
    exact ⟨flushByte s, flushMove_enabled (enabled.mp h), flushByte_flAbs hpending, rfl,
      flushByte_errFlushLeft (errFlushLeft_pos_of_flushEnabled (enabled.mp h)), flushByte_status hpending, rfl⟩
  · exact ⟨step_of_events, fun _ => step_of_events, fun _ => step_of_events, fun _ => step_of_events⟩

end Sys2Proof.Machine
end

section
/-! The v20 predictor keeps its ranges (46_v20.md R346, R347): the output value lies in -255..255, LAST_DELTA in the range of
a signed byte, and a coefficient is moved only away from the ends of -17..16. -/

namespace Sys2Proof.Machine

/-! ### Signed registers -/

/-- `lo ≤ x ≤ hi` for the signed value of a 32-bit register. -/
def Within (lo hi : Int) (x : BitVec 32) : Prop := lo ≤ x.toInt ∧ x.toInt ≤ hi

theorem s8_bounds (x : Int) : -128 ≤ s8 x ∧ s8 x ≤ 127 := by
  have low := BitVec.le_toInt (BitVec.ofInt 8 x)
  have high := BitVec.toInt_lt (x := BitVec.ofInt 8 x)
  unfold s8
  omega

/-- A small value is stored as it is. -/
theorem within_ofInt {lo hi x : Int} (hlo : -2 ^ 31 ≤ lo) (hhi : hi < 2 ^ 31) (h : lo ≤ x ∧ x ≤ hi) :
    Within lo hi (BitVec.ofInt 32 x) := by
  have stored : (BitVec.ofInt 32 x).toInt = x := BitVec.toInt_ofInt_eq_self (by decide) (by omega) (by omega)
  rwa [Within, stored]

theorem within_sub_one {lo hi : Int} {x : BitVec 32} (hlo : -2 ^ 31 < lo) (h : Within lo hi x) :
    Within (lo - 1) (hi - 1) (x - 1) := by
  have high := x.toInt_lt
  obtain ⟨h1, h2⟩ := h
  have moved : (x - 1).toInt = x.toInt - 1 := by
    rw [BitVec.toInt_sub]
    exact Int.bmod_eq_of_le_mul_two (by simp; omega) (by simp; omega)
  rw [Within, moved]
  omega

theorem within_add_one {lo hi : Int} {x : BitVec 32} (hhi : hi < 2 ^ 31 - 1) (h : Within lo hi x) :
    Within (lo + 1) (hi + 1) (x + 1) := by
  have low := x.le_toInt
  obtain ⟨h1, h2⟩ := h
  have moved : (x + 1).toInt = x.toInt + 1 := by
    rw [BitVec.toInt_add]
    exact Int.bmod_eq_of_le_mul_two (by simp; omega) (by simp; omega)
  rw [Within, moved]
  omega

theorem recordOk_lastDelta {v : AudRec} (h : recordOk v) : Within (-128) 127 v.lastDelta := by
  obtain ⟨-, -, -, -, hdelta, -⟩ := h
  exact hdelta

/-! ### The adaptation -/

/-- An entry of a register array, or the 0 past its end, lies in every range around 0 that holds the entries. -/
theorem within_getD {lo hi : Int} {l : List (BitVec 32)} (h0 : lo ≤ 0 ∧ 0 ≤ hi) (h : ∀ x ∈ l, Within lo hi x) (i : Nat) :
    Within lo hi (l.getD i 0) := by
  rw [List.getD_eq_getElem?_getD]
  cases hi : l[i]? with
  | none => exact h0
  | some x => exact h x (List.mem_of_getElem? hi)

theorem length_nudge (m : Nat) (k : List (BitVec 32)) : (nudge m k).length = k.length := by
  unfold nudge
  dsimp only
  split_ifs <;> simp

/-- R347: the coefficient stays where the next move would leave -17..16. -/
theorem nudge_within {m : Nat} {k : List (BitVec 32)} (h : ∀ x ∈ k, Within (-17) 16 x) :
    ∀ x ∈ nudge m k, Within (-17) 16 x := by
  obtain ⟨low, high⟩ := within_getD (by decide) h ((m - 1) / 2)
  unfold nudge
  dsimp only
  split_ifs with hodd hmove hmove
  · have down : Within (-17) 15 (k.getD ((m - 1) / 2) 0 - 1) := within_sub_one (by decide) ⟨hmove, high⟩
    intro x hx
    obtain hk | rfl := List.mem_or_eq_of_mem_set hx
    · exact h x hk
    · exact ⟨down.1, down.2.trans (by decide)⟩
  · exact h
  · have up : Within (-16) 16 (k.getD ((m - 1) / 2) 0 + 1) :=
      within_add_one (hi := 15) (by decide) ⟨low, Int.le_of_lt_add_one hmove⟩
    intro x hx
    obtain hk | rfl := List.mem_or_eq_of_mem_set hx
    · exact h x hk
    · exact ⟨le_trans (by decide) up.1, up.2⟩
  · exact h

/-- The adaptation keeps the record's ranges (R347). -/
theorem recordOk_adapt {v : AudRec} (h : recordOk v) : recordOk (adapt v) := by
  obtain ⟨hk, hd, -, hcoeff, hdelta, hchar⟩ := h
  have coefficients : (adapt v).k.length = 5 ∧ ∀ x ∈ (adapt v).k, Within (-17) 16 x := by
    unfold adapt
    dsimp only
    split_ifs
    · exact ⟨hk, hcoeff⟩
    · exact ⟨(length_nudge _ _).trans hk, nudge_within hcoeff⟩
  exact ⟨coefficients.1, hd, List.length_replicate, coefficients.2, hdelta, hchar⟩

/-! ### A sample -/

theorem length_nextDif {dif : List (BitVec 32)} (h : dif.length = 11) (e : Int) (d : List (BitVec 32)) (channelDelta : Int) :
    (nextDif dif (errorTerms e d channelDelta)).length = 11 := by
  simp [nextDif, errorTerms, h]

theorem predict_bounds (v : AudRec) (d : List (BitVec 32)) (channelDelta : Int) :
    0 ≤ predict v d channelDelta ∧ predict v d channelDelta ≤ 255 := by
  unfold predict
  omega

/-- The record after a sample has the ranges of R46 (R346, R347). -/
theorem recordOk_decodeAudio {v : AudRec} (h : recordOk v) (delta : Byte) (channelDelta : Int) :
    recordOk (decodeAudio delta channelDelta v).1 := by
  obtain ⟨hk, -, hdif, hcoeff, -, -⟩ := h
  have predicted := predict_bounds v (nextDeltas v) channelDelta
  have fits := delta.isLt
  have adapted {u : AudRec} (hu : recordOk u) : recordOk (if u.byteCount.toNat % 32 = 0 then adapt u else u) := by
    split
    · exact recordOk_adapt hu
    · exact hu
  refine adapted ⟨hk, rfl, length_nextDif hdif _ _ _, hcoeff, ?_, ?_⟩
  · exact within_ofInt (by decide) (by decide) (s8_bounds _)
  · exact within_ofInt (by decide) (by decide) (by omega)

end Sys2Proof.Machine
end

section
/-! The steps that touch no window byte (43_gen_common.md R211, R214): what a computation that may raise commits, and that a
table read, a header, a phase change and a filter write registers that the invariant allows. -/

namespace Sys2Proof.Machine

/-! ### Computations that may raise -/

/-- The error codes a decoder step can raise (R400): E9 is reserved, E10 and E11 are the refusals of a member start. -/
def Raisable (e : ErrCode) : Prop := e ∈ [.e1, .e2, .e3, .e4, .e5, .e6, .e7, .e8]

/-- What the computation answers satisfies `P`, and what it raises is a code of a decoder step. -/
def Yields {α : Type} (P : α → Prop) : Except ErrCode α → Prop
  | .ok a => P a
  | .error e => Raisable e

section Yields
variable {α β : Type} {P Q : α → Prop}

theorem Yields.ok {a : α} (h : P a) : Yields P (.ok a) := h

theorem Yields.imp {r : Except ErrCode α} (h : Yields P r) (hpq : ∀ a, P a → Q a) : Yields Q r := by
  cases r with
  | ok a => exact hpq a h
  | error e => exact h

theorem Yields.bind {R : β → Prop} {r : Except ErrCode α} {f : α → Except ErrCode β} (h : Yields P r)
    (hf : ∀ a, P a → Yields R (f a)) : Yields R (r >>= f) := by
  cases r with
  | ok a => exact hf a h
  | error e => exact h

/-- A computation that goes on with a table it builds: the table is one of `BuildTable` for its alphabet. -/
theorem Yields.buildTable {R : β → Prop} {t : List Len} {a n : Nat} {f : HuffTable → Except ErrCode β} (hn : n ≤ 65536)
    (hf : ∀ table, table.canonical n = true → Yields R (f table)) : Yields R (buildTable (lensSlice t a n) >>= f) := by
  cases h : Machine.buildTable (lensSlice t a n) with
  | ok table => exact hf table (by simpa using buildTable_canonical h (by simpa using hn))
  | error e => rw [buildTable_error h]; exact List.mem_cons_self

theorem Yields.lengths5 {R : β → Prop} {n : Nat} {old t : List Len} {cs : List LenCode5} {f : List Len → Except ErrCode β}
    (hf : ∀ u, Yields R (f u)) : Yields R (lengths5 n old t cs >>= f) := by
  cases h : Machine.lengths5 n old t cs with
  | ok u => exact hf u
  | error e => rw [lengths5_error h]; exact List.mem_cons_of_mem _ List.mem_cons_self

theorem Yields.lengths2 {R : β → Prop} {n : Nat} {old t : List Len} {cs : List LenCode2} {f : List Len → Except ErrCode β}
    (hf : ∀ u, Yields R (f u)) : Yields R (lengths2 n old t cs >>= f) := by
  cases h : Machine.lengths2 n old t cs with
  | ok u => exact hf u
  | error e => rw [lengths2_error h]; exact List.mem_cons_of_mem _ List.mem_cons_self

end Yields

/-! ### The registers of the three generations -/

/-- The v50 part of the invariant: tables of `BuildTable` and the block's bit size (R38, R40). -/
structure V50Regs.Ok (r : V50Regs) : Prop where
  ld : r.ld.canonical 306 = true
  dd : r.dd.canonical 64 = true
  ldd : r.ldd.canonical 16 = true
  rd : r.rd.canonical 44 = true
  bd : r.bd.canonical 20 = true
  blkBitSize : r.blkBitSize.toNat ≤ 8

/-- The v29 part (R38, R42). -/
structure V29Regs.Ok (r : V29Regs) : Prop where
  ld : r.ld.canonical 299 = true
  dd : r.dd.canonical 60 = true
  ldd : r.ldd.canonical 17 = true
  rd : r.rd.canonical 28 = true
  bd : r.bd.canonical 20 = true
  oldLens : r.oldLens.length = 404

/-- The v20 part (R38, R44 to R46). -/
structure V20Regs.Ok (r : V20Regs) : Prop where
  ld : r.ld.canonical 298 = true
  dd : r.dd.canonical 48 = true
  rd : r.rd.canonical 28 = true
  bd : r.bd.canonical 19 = true
  length_md : r.md.length = 4
  md : ∀ t ∈ r.md, t.canonical 257 = true
  oldLens : r.oldLens.length = 1028
  channels_pos : 1 ≤ r.channels
  channels_le : r.channels ≤ 4
  curChannel : r.curChannel < r.channels
  channelDelta : Within (-128) 127 r.channelDelta
  length_aud : r.aud.length = 4
  records : ∀ v ∈ r.aud, recordOk v

/-- The parts of the invariant about registers, by generation. -/
structure RegistersOk (s : State) : Prop where
  v50 : s.v50.Ok
  v29 : s.v29.Ok
  v20 : s.v20.Ok

theorem registersOk_iff {s : State} : RegistersOk s ↔ tablesOk s ∧ arraysOk s ∧ audioOk s := by
  constructor
  · rintro ⟨⟨ld5, dd5, ldd5, rd5, bd5, bits⟩, ⟨ld3, dd3, ldd3, rd3, bd3, old3⟩, ⟨ld2, dd2, rd2, bd2, len2, md2, old2, c1, c2, c3, c4, c5, c6⟩⟩
    exact ⟨⟨⟨ld5, dd5, ldd5, rd5, bd5⟩, ⟨ld3, dd3, ldd3, rd3, bd3⟩, ⟨ld2, dd2, rd2, bd2, len2, md2⟩⟩,
      ⟨old3, old2, bits⟩, ⟨c1, c2, c3, c4, c5, c6⟩⟩
  · rintro ⟨⟨⟨ld5, dd5, ldd5, rd5, bd5⟩, ⟨ld3, dd3, ldd3, rd3, bd3⟩, ⟨ld2, dd2, rd2, bd2, len2, md2⟩⟩,
      ⟨old3, old2, bits⟩, ⟨c1, c2, c3, c4, c5, c6⟩⟩
    exact ⟨⟨ld5, dd5, ldd5, rd5, bd5, bits⟩, ⟨ld3, dd3, ldd3, rd3, bd3, old3⟩,
      ⟨ld2, dd2, rd2, bd2, len2, md2, old2, c1, c2, c3, c4, c5, c6⟩⟩

/-! ### Updates that touch no window byte -/

/-- The phases a running member of the generation can be in (R36, R214). -/
def PhaseIn : Gen → Phase → Prop
  | .v50, p => p = .init ∨ p = .token
  | .v29, p => p = .init ∨ p = .tables ∨ p = .token
  | .v20, _ => True
  | .v15, _ => False

theorem phaseIn_v50_token : PhaseIn .v50 .token := Or.inr rfl
theorem phaseIn_v29_tables : PhaseIn .v29 .tables := Or.inr (Or.inl rfl)
theorem phaseIn_v29_token : PhaseIn .v29 .token := Or.inr (Or.inr rfl)
theorem phaseIn_v20 (p : Phase) : PhaseIn .v20 p := trivial

/-- `t` is `s` with other registers, phase, descriptors and length array, of which each keeps its part of the invariant for a
running member of generation `g`. -/
structure Update (g : Gen) (s t : State) : Prop where
  frame : t = { s with v50 := t.v50, v29 := t.v29, v20 := t.v20, phase := t.phase, filt := t.filt, desc := t.desc }
  registers : RegistersOk s → RegistersOk t
  phase : PhaseIn g s.phase → PhaseIn g t.phase
  desc : s.desc = Desc.closed → t.desc = Desc.closed

section Update
variable {g : Gen} {s t u : State}

theorem Update.refl (g : Gen) (s : State) : Update g s s := ⟨rfl, id, id, id⟩

theorem Update.trans (h : Update g s t) (h' : Update g t u) : Update g s u where
  frame := by
    have second := h'.frame
    rw [h.frame] at second
    exact second
  registers := h'.registers ∘ h.registers
  phase := h'.phase ∘ h.phase
  desc := h'.desc ∘ h.desc

theorem Update.oldDist (h : Update g s t) : t.oldDist = s.oldDist := by rw [h.frame]
theorem Update.wrAbs (h : Update g s t) : t.wrAbs = s.wrAbs := by rw [h.frame]
theorem Update.lastLen (h : Update g s t) : t.lastLen = s.lastLen := by rw [h.frame]

theorem update_with_v29 {r : V29Regs} (hr : s.v29.Ok → r.Ok) : Update g s { s with v29 := r } :=
  ⟨rfl, fun ok => ⟨ok.v50, hr ok.v29, ok.v20⟩, id, id⟩

theorem update_setPhase {p : Phase} (hp : PhaseIn g p) (s : State) : Update g s (setPhase p s) :=
  ⟨rfl, fun ok => ⟨ok.v50, ok.v29, ok.v20⟩, fun _ => hp, id⟩

theorem update_with_filt (g : Gen) (s : State) (l : List FilterDesc) : Update g s { s with filt := l } :=
  ⟨rfl, fun ok => ⟨ok.v50, ok.v29, ok.v20⟩, id, id⟩

end Update

/-! ### Table reads -/

section Reads
variable (g : Gen) (s : State)

theorem readTables5_yields (d : TableDesc5) : Yields (Update g s) (readTables5 d s) := by
  rw [readTables5_eq]
  refine .buildTable (by decide) fun bd hbd => .lengths5 fun t => .buildTable (by decide) fun ld hld =>
    .buildTable (by decide) fun dd hdd => .buildTable (by decide) fun ldd hldd => .buildTable (by decide) fun rd hrd => ?_
  exact ⟨rfl, fun ok => ⟨⟨hld, hdd, hldd, hrd, hbd, ok.v50.blkBitSize⟩, ok.v29, ok.v20⟩, id, fun _ => rfl⟩

theorem readTables3_yields (d : TableDesc5) : Yields (Update g s) (readTables3 d s) := by
  rw [readTables3_eq]
  refine .buildTable (by decide) fun bd hbd => .lengths5 fun t => .buildTable (by decide) fun ld hld =>
    .buildTable (by decide) fun dd hdd => .buildTable (by decide) fun ldd hldd => .buildTable (by decide) fun rd hrd => ?_
  exact ⟨rfl, fun ok => ⟨ok.v50, ⟨hld, hdd, hldd, hrd, hbd, length_lensSlice ..⟩, ok.v20⟩, id, fun _ => rfl⟩

/-- The audio tables are `MD2[0..3]` (R38). -/
def AudioTablesOk (md : List HuffTable) : Prop := md.length = 4 ∧ ∀ x ∈ md, x.canonical 257 = true

/-- The audio tables (R335): each is built, and the others are those before. -/
theorem buildAudioTables_yields (t : List Len) (c n : Nat) (md : List HuffTable) :
    Yields (fun md' => AudioTablesOk md → AudioTablesOk md') (buildAudioTables t c n md) := by
  induction n generalizing c md with
  | zero => exact id
  | succ n ih =>
    refine .buildTable (by decide) fun m hm => (ih (c + 1) (md.set c m)).imp fun md' hmd' ⟨hlen, hmd⟩ => hmd' ?_
    refine ⟨(List.length_set ..).trans hlen, fun x hx => ?_⟩
    obtain hx | rfl := List.mem_or_eq_of_mem_set hx
    · exact hmd x hx
    · exact hm

/-- R335: the tables of the sub-mode in force. -/
theorem buildTables2_yields (t : List Len) :
    Yields (fun u => ∃ r : V20Regs, (s.v20.Ok → r.Ok) ∧ u = { s with v20 := r }) (buildTables2 t s) := by
  unfold buildTables2
  split
  · refine (buildAudioTables_yields t 0 _ _).bind fun md hmd => ⟨_, fun ok => ?_, rfl⟩
    obtain ⟨hlen, hcanonical⟩ := hmd ⟨ok.length_md, ok.md⟩
    exact { ok with length_md := hlen, md := hcanonical }
  · refine .buildTable (by decide) fun ld hld => .buildTable (by decide) fun dd hdd =>
      .buildTable (by decide) fun rd hrd => ⟨_, fun ok => ?_, rfl⟩
    exact { ok with ld := hld, dd := hdd, rd := hrd }

/-- What a v20 header writes before its read (R333): with audio, the channels, and a current channel among them. -/
theorem startTables2_update (h : V20Header) : Update g s (startTables2 h s) := by
  have old (ok : s.v20.Ok) : (if h.keep then s.v20.oldLens else List.replicate 1028 0).length = 1028 := by
    split
    · exact ok.oldLens
    · exact List.length_replicate
  unfold startTables2
  cases h.audio with
  | none => exact ⟨rfl, fun ok => ⟨ok.v50, ok.v29, { ok.v20 with oldLens := old ok.v20 }⟩, id, id⟩
  | some c =>
    have channels := c.isLt
    refine ⟨rfl, fun ok => ⟨ok.v50, ok.v29, { ok.v20 with
      oldLens := old ok.v20, channels_pos := ?_, channels_le := ?_, curChannel := ?_ }⟩, id, id⟩
    · exact Nat.le_add_left 1 _
    · exact channels
    · dsimp only
      split <;> omega

theorem v20LensCount_le (audio : Option (BitVec 2)) : v20LensCount audio ≤ 1028 := by
  cases audio with
  | none => decide
  | some c => have := c.isLt; simp only [v20LensCount]; omega

theorem readTables2_yields {h : V20Header} (hpre : h.pre.length ≤ 19) : Yields (Update g s) (readTables2 h s) := by
  rw [readTables2_eq hpre]
  have count := v20LensCount_le h.audio
  refine .buildTable (by decide) fun bd hbd => .lengths2 fun t => (buildTables2_yields _ _).bind ?_
  rintro u ⟨r, hr, rfl⟩
  refine (startTables2_update g s h).trans ⟨rfl, fun ok => ⟨ok.v50, ok.v29, ?_⟩, id, fun _ => rfl⟩
  have hlens := ok.v20.oldLens
  exact { hr { ok.v20 with bd := hbd } with
    oldLens := by simp only [List.length_append, length_lensSlice, List.length_drop]; omega }

theorem setBlock_update (h : BlockHeader) : Update g s (setBlock h s) := by
  refine ⟨rfl, fun ok => ⟨{ ok.v50 with blkBitSize := ?_ }, ok.v29, ok.v20⟩, id, id⟩
  have low : h.flags.toNat &&& 7 ≤ 7 := Nat.and_le_right
  simp only [setBlock, BitVec.toNat_ofNat]
  omega

/-- The low-distance state and the block type are not in the invariant; the old lengths are kept or cleared (R283). -/
theorem startTables3_update (keep : Bool) : Update g s (startTables3 keep s) := by
  refine ⟨rfl, fun ok => ⟨ok.v50, { ok.v29 with oldLens := ?_ }, ok.v20⟩, id, id⟩
  simp only [startTables3]
  split
  · exact ok.v29.oldLens
  · exact List.length_replicate

/-- R294 writes the low-distance state, which is free. -/
theorem lowDistance3_update (d : DistField) : Update g s (lowDistance3 d s).2 := by
  unfold lowDistance3
  split_ifs
  · exact update_with_v29 fun ok => { ok with }
  · exact update_with_v29 fun ok => { ok with }
  · exact update_with_v29 fun ok => { ok with }
  · exact .refl g s

theorem blockHeader_yields (h : BlockHeader) : Yields (Update g s) (blockHeader h s) := by
  have illegal : Raisable .e3 := by simp [Raisable]
  unfold blockHeader
  split
  · exact illegal
  · split
    · exact illegal
    · split
      · exact (readTables5_yields g _ _).imp fun _ hread => (setBlock_update g s h).trans hread
      · exact setBlock_update g s h

theorem requireTables5_yields : Yields (Update g s) (requireTables5 s) := by
  unfold requireTables5
  split
  · exact .refl g s
  · exact (by simp [Raisable] : Raisable .e4)

theorem ppmBlockStart_yields (ok : Bool) (esc : Byte) : Yields (Update g s) (ppmBlockStart ok esc s) := by
  cases ok with
  | false => exact (by simp [Raisable] : Raisable .e6)
  | true => exact update_with_v29 fun ok => { ok with }

end Reads

/-! ### Filters -/

theorem emitFilter_yields (g : Gen) (d : FilterDesc) (s : State) : Yields (Update g s) (emitFilter d s) := by
  obtain ⟨-, hok⟩ | ⟨-, herr⟩ := emitFilter_cases d s
  · rw [hok]; exact update_with_filt g s _
  · rw [herr]; exact (by simp [Raisable] : Raisable .e8)

theorem emitVmCode_yields (g : Gen) (v : VmCode) (source : BlockType) (s : State) :
    Yields (Update g s) (emitVmCode v source s) := by
  unfold emitVmCode
  split
  · exact (by simp [Raisable] : Raisable .e5)
  · exact emitFilter_yields g _ s

/-! ### What a step of the decoder core answers -/

/-- The ways a decoder step can end, with what it commits in `P`: an error that discards it (R402), its writes, or its writes
and the end of the member (R221). -/
inductive Effect (P : State → Prop) (s : State) : State → Prop
  | raises {e : ErrCode} (he : Raisable e) : Effect P s (errorState e s)
  | commits {u : State} (hu : P u) : Effect P s u
  | ends {u : State} (hu : P u) : Effect P s (endMember u)

theorem Effect.imp {P Q : State → Prop} {s t : State} (h : Effect P s t) (hpq : ∀ u, P u → Q u) : Effect Q s t := by
  cases h with
  | raises he => exact .raises he
  | commits hu => exact .commits (hpq _ hu)
  | ends hu => exact .ends (hpq _ hu)

/-- A computation whose every result is an effect. -/
theorem Effect.of_outcome {P : State → Prop} {s t : State} {r : Except ErrCode State} (ht : outcome s r = .next t)
    (h : Yields (Effect P s) r) : Effect P s t := by
  obtain rfl | ⟨e, rfl, rfl⟩ := outcome_cases ht
  · exact h
  · exact .raises h

section Structural
variable {g : Gen} {s t : State}

theorem outcome_effect {r : Except ErrCode State} (ht : outcome s r = .next t) (h : Yields (Update g s) r) :
    Effect (Update g s) s t :=
  .of_outcome ht (h.imp fun _ => .commits)

theorem execV50FirstHeader_effect {h : BlockHeader} (ht : execV50FirstHeader h s = .next t) :
    Effect (Update .v50 s) s t := by
  refine outcome_effect ht <| (blockHeader_yields .v50 s h).bind fun u hu =>
    (requireTables5_yields .v50 u).bind fun v hv => .ok ?_
  exact (hu.trans hv).trans (update_setPhase phaseIn_v50_token v)

theorem execV50NextBlock_effect {h : BlockHeader} (ht : execV50NextBlock h s = .next t) :
    Effect (Update .v50 s) s t :=
  outcome_effect ht <| (blockHeader_yields .v50 s h).bind fun u hu =>
    (requireTables5_yields .v50 u).imp fun _ hv => hu.trans hv

theorem execV29Tables_effect {h : V29Header} (ht : execV29Tables h s = .next t) : Effect (Update .v29 s) s t := by
  have commit (u : State) (hu : Update .v29 s u) : Update .v29 s (setPhase .token u) :=
    hu.trans (update_setPhase phaseIn_v29_token u)
  cases h with
  | ppm ok esc => exact outcome_effect ht <| (ppmBlockStart_yields .v29 s ok esc).bind fun u hu => .ok (commit u hu)
  | lz keep d =>
    exact outcome_effect ht <| (readTables3_yields .v29 (startTables3 keep s) d).bind fun u hu =>
      .ok (commit u ((startTables3_update .v29 s keep).trans hu))

theorem execV20Tables_effect {h : V20Header} (hpre : h.pre.length ≤ 19) (ht : execV20Tables h s = .next t) :
    Effect (Update .v20 s) s t :=
  outcome_effect ht <| (readTables2_yields .v20 s hpre).bind fun u hu => .ok (hu.trans (update_setPhase (phaseIn_v20 .token) u))

theorem execV20Tail_effect {probe : TailProbe} (hpre : ∀ h, probe = .reload h → h.pre.length ≤ 19)
    (ht : execV20Tail probe s = .next t) : Effect (Update .v20 s) s t := by
  cases probe with
  | stop | ignored _ => cases ht; exact .ends (.refl _ s)
  | reload h => exact .of_outcome ht <| (readTables2_yields .v20 s (hpre h rfl)).bind fun u hu => .ok (.ends hu)

theorem execV29Init_effect (ht : execV29Init s = .next t) : Effect (Update .v29 s) s t := by
  cases ht
  refine .commits (update_setPhase ?_ s)
  split
  · exact phaseIn_v29_token
  · exact phaseIn_v29_tables

theorem execV29Eob_effect {e : EobForm} (ht : execV29Eob e s = .next t) : Effect (Update .v29 s) s t := by
  cases e with
  | newTables =>
    cases ht
    have cleared : Update .v29 s { s with v29.tablesRead := false } := update_with_v29 fun ok => { ok with }
    exact .commits (cleared.trans (update_setPhase phaseIn_v29_tables _))
  | endMember last =>
    cases ht
    exact .ends (update_with_v29 fun ok => { ok with })

end Structural

end Sys2Proof.Machine
end

section
/-! What each token leaves in the distance cache and in LAST_LEN (42_window.md R190 to R194): the bounds of its operands, and
its operations on the cache. -/

namespace Sys2Proof.Machine

/-! ### Lengths -/

section Lengths
variable {slot extra : Nat}

/-- R255: the last slot with all extra bits set is the longest length. -/
theorem slotToLength_le (h : length5Wf slot extra = true) : slotToLength slot extra ≤ 4097 := by
  obtain ⟨hslot, hextra⟩ : slot < 44 ∧ extra < 2 ^ lengthBits5 slot := by simpa [length5Wf] using h
  have largest : ∀ n < 44, slotToLength n 0 + 2 ^ lengthBits5 n ≤ 4098 := by decide
  have grows : slotToLength slot extra ≤ slotToLength slot 0 + extra := by
    unfold slotToLength
    split <;> omega
  have := largest slot hslot
  omega

theorem lengthBase_add_le (h : length3Wf slot extra = true) : lengthBase slot + extra ≤ 255 := by
  obtain ⟨hslot, hextra⟩ : slot < 28 ∧ extra < 2 ^ lengthBits slot := by simpa [length3Wf] using h
  have largest : ∀ n < 28, lengthBase n + 2 ^ lengthBits n ≤ 256 := by decide
  have := largest slot hslot
  omega

theorem repeatLength_le (h : length3Wf slot extra = true) : repeatLength slot extra ≤ 257 := by
  have := lengthBase_add_le h
  unfold repeatLength
  omega

theorem matchLength_le (h : length3Wf slot extra = true) : matchLength slot extra ≤ 258 := by
  have := lengthBase_add_le h
  unfold matchLength
  omega

end Lengths

theorem one_le_one (b : Bool) : one b ≤ 1 := by cases b <;> decide

theorem bonus5_le (dist : Nat) : bonus5 dist ≤ 3 :=
  Nat.add_le_add (Nat.add_le_add (one_le_one _) (one_le_one _)) (one_le_one _)

theorem bonus3_le (dist : Nat) : bonus3 dist ≤ 2 := Nat.add_le_add (one_le_one _) (one_le_one _)

theorem bonusRepeat2_le (dist : Nat) : bonusRepeat2 dist ≤ 3 :=
  Nat.add_le_add (Nat.add_le_add (one_le_one _) (one_le_one _)) (one_le_one _)

/-! ### Distances -/

/-- A distance that is stored as it is, and is no 0. -/
def Storable (dist : Nat) : Prop := 1 ≤ dist ∧ dist < 2 ^ 64

/-- R256: the base is at least 1, and the last slot with all its bits set ends at 2 ^ 32. -/
theorem distance5_storable {d : DistField} (h : d.wf5 = true) : Storable (distance5 d) := by
  simp only [DistField.wf5, Bool.and_eq_true, decide_eq_true_eq] at h
  obtain ⟨hslot, hfields⟩ := h
  have base : ∀ n < 64, 1 ≤ distBase5 n ∧ distBase5 n ≤ 2 ^ 32 ∧ distBits5 n ≤ 30 := by decide
  obtain ⟨hone, hle, hbits⟩ := base d.slot hslot
  unfold distance5
  split at hfields
  next hlow =>
    simp only [hlow, if_true, Bool.and_eq_true, decide_eq_true_eq] at hfields ⊢
    obtain ⟨hextra, hsymbol⟩ := hfields
    obtain ⟨l, hl, hlt⟩ : ∃ l, d.low = some l ∧ l < 16 := by simpa [Option.any_eq_true] using hsymbol
    have high : d.extra < 2 ^ 26 := hextra.trans_le (Nat.pow_le_pow_right (by decide) (by omega))
    rw [hl, Option.getD_some, Nat.shiftLeft_eq, Storable]
    omega
  next hlow =>
    simp only [hlow, if_false, Bool.and_eq_true, decide_eq_true_eq] at hfields ⊢
    have high : d.extra < 2 ^ 30 := hfields.1.trans_le (Nat.pow_le_pow_right (by decide) hbits)
    rw [Storable]
    omega

theorem lowDistance3_fst_le {d : DistField} (h : d.wf3 = true) (s : State) : (lowDistance3 d s).1 ≤ 16 := by
  have previous := s.v29.prevLowDist.isLt
  have symbol : d.low.getD 0 ≤ 16 := by
    cases hlow : d.low with
    | none => exact Nat.zero_le 16
    | some l =>
      simp only [DistField.wf3, hlow, Bool.and_eq_true, decide_eq_true_eq] at h
      exact Nat.le_of_lt_succ h.2.2
  unfold lowDistance3
  split_ifs <;> dsimp only <;> omega

/-- R294: the bases of the table, the raw bits above the low part, and the low part. -/
theorem distance3_storable {d : DistField} (h : d.wf3 = true) (s : State) :
    Storable (rawDistance3 d + (lowDistance3 d s).1) := by
  have hlow := lowDistance3_fst_le h s
  simp only [DistField.wf3, Bool.and_eq_true, decide_eq_true_eq] at h
  obtain ⟨⟨hslot, hextra⟩, -⟩ := h
  have base : ∀ n < 60, distBase n ≤ 2 ^ 22 ∧ 2 ^ rawDistBits3 n ≤ 2 ^ 18 := by decide
  obtain ⟨hle, hbits⟩ := base d.slot hslot
  unfold rawDistance3 Storable
  rw [Nat.shiftLeft_eq]
  split <;> omega

theorem distance2_storable {dslot dextra : Nat} (hslot : dslot < 48) (hextra : dextra < 2 ^ distBits dslot) :
    Storable (distBase dslot + 1 + dextra) := by
  have base : ∀ n < 48, distBase n + 2 ^ distBits n ≤ 2 ^ 22 := by decide
  have := base dslot hslot
  unfold Storable
  omega

theorem shortDistance_storable {n : Fin 8} {extra : Nat} (h : extra < 2 ^ shortBits n.val) :
    Storable (shortDistance n.val extra) := by
  have base : ∀ k < 8, sdDecode.getD k 0 + 2 ^ shortBits k ≤ 256 := by decide
  have := base n.val n.isLt
  unfold shortDistance Storable
  omega

/-! ### Copies and the cache -/

section Copies
variable (len : Nat) (dist : BitVec 64) (s : State)

@[simp] theorem copyMatch_oldDist : (copyMatch len dist s).oldDist = s.oldDist := by rw [copyMatch_wrote]; rfl
@[simp] theorem copyMatch_lastLen : (copyMatch len dist s).lastLen = s.lastLen := by rw [copyMatch_wrote]; rfl
@[simp] theorem copyNew_oldDist : (copyNew len dist s).oldDist = s.oldDist := copyMatch_oldDist ..
@[simp] theorem copyNew_lastLen : (copyNew len dist s).lastLen = BitVec.ofNat 32 len := copyMatch_lastLen ..
@[simp] theorem copyNew_wrAbs : (copyNew len dist s).wrAbs = s.wrAbs + BitVec.ofNat 64 len := copyMatch_wrAbs ..

end Copies

/-- LAST_LEN is the count of bytes the step appends (R33, R218). -/
def CountsCopy (s t : State) : Prop := t.wrAbs = s.wrAbs + BitVec.ofNat 64 t.lastLen.toNat

/-- A new distance, which is no 0, stands first in the cache, and LAST_LEN counts the copy (R191, R218). -/
def InsertsMatch (s t : State) : Prop :=
  t.oldDist = s.oldDist.insert t.oldDist.d0 ∧ 1 ≤ t.oldDist.d0.toNat ∧ CountsCopy s t

/-- Neither the cache nor LAST_LEN changes. -/
def KeepsCache (s t : State) : Prop := t.oldDist = s.oldDist ∧ t.lastLen = s.lastLen

section Tokens
variable {len dist : Nat} {s t : State}

theorem copyNew_countsCopy (hlen : len < 2 ^ 32) (d : BitVec 64) (s : State) : CountsCopy s (copyNew len d s) := by
  rw [CountsCopy, copyNew_wrAbs, copyNew_lastLen, BitVec.toNat_ofNat, Nat.mod_eq_of_lt hlen]

theorem copyNew_insertsMatch (hlen : len < 2 ^ 32) (hdist : Storable dist) (s : State) :
    InsertsMatch s (copyNew len (BitVec.ofNat 64 dist) (cacheInsert (BitVec.ofNat 64 dist) s)) := by
  refine ⟨by simp [OldDist.insert], ?_, copyNew_countsCopy hlen _ _⟩
  have stored : (BitVec.ofNat 64 dist).toNat = dist := by rw [BitVec.toNat_ofNat, Nat.mod_eq_of_lt hdist.2]
  rw [copyNew_oldDist]
  exact hdist.1.trans stored.ge

theorem InsertsMatch.of_update {g : Gen} {u : State} (hu : Update g s u) (h : InsertsMatch u t) : InsertsMatch s t := by
  rwa [InsertsMatch, CountsCopy, ← hu.oldDist, ← hu.wrAbs]

theorem Update.keepsCache {g : Gen} (h : Update g s t) : KeepsCache s t := ⟨h.oldDist, h.lastLen⟩

/-- An error and the end of the member leave both alone too (R402, R221). -/
theorem Effect.keepsCache {P : State → Prop} (h : Effect P s t) (hp : ∀ u, P u → KeepsCache s u) : KeepsCache s t := by
  cases h with
  | raises _ => exact ⟨rfl, rfl⟩
  | commits hu => exact hp _ hu
  | ends hu =>
    obtain ⟨hcache, hlen⟩ := hp _ hu
    exact ⟨hcache, hlen⟩

theorem Effect.keepsCache_of_update {g : Gen} (h : Effect (Update g s) s t) : KeepsCache s t :=
  h.keepsCache fun _ => Update.keepsCache

/-- A repeat code writes the length array only, or raises E2. -/
theorem repeatLen_keepsCache {r : Nat} (h : outcome s (repeatLen r s) = .next t) : KeepsCache s t := by
  obtain hok | ⟨e, -, rfl⟩ := outcome_cases h
  · unfold repeatLen at hok
    split at hok <;> cases hok
    exact ⟨rfl, rfl⟩
  · exact ⟨rfl, rfl⟩

theorem copyLast_keepsCache (s : State) : KeepsCache s (copyLast s) := by
  rw [copyLast_eq]
  exact ⟨copyMatch_oldDist .., copyMatch_lastLen ..⟩

end Tokens

/-! ### Every token -/

/-- R194, instruction by instruction: each arm by the operations of its meaning. -/
theorem exec_cache {i : Instr} {s t : State} (hwf : i.wf = true) (h : exec i s = .next t) :
    match i with
    | .v50Match _ _ _ | .v29Match _ _ _ | .v29Short _ _ | .v20Match _ _ _ _ | .v20Short _ _ => InsertsMatch s t
    | .v50RepOld j _ _ | .v29RepOld j _ _ => t.oldDist = s.oldDist.rotate j ∧ CountsCopy s t
    | .v20RepOld j _ _ => t.oldDist = s.oldDist.insert (s.oldDist.get j) ∧ CountsCopy s t
    | .v20RepLast =>
      t.oldDist = s.oldDist.insert s.oldDist.d0 ∧ t.lastLen = s.lastLen ∧
        t.wrAbs = s.wrAbs + BitVec.ofNat 64 s.lastLen.toNat
    | .v50RepLast | .v29RepLast =>
      t.oldDist = s.oldDist ∧ t.lastLen = s.lastLen ∧ t.wrAbs = s.wrAbs + BitVec.ofNat 64 s.lastLen.toNat
    | _ => KeepsCache s t := by
  cases i with
  | v50Match slot extra d =>
    cases h
    obtain ⟨hlength, hdist⟩ := Bool.and_eq_true_iff.mp hwf
    have := slotToLength_le hlength
    have := bonus5_le (distance5 d)
    exact copyNew_insertsMatch (by omega) (distance5_storable hdist) s
  | v29Match slot extra d =>
    cases h
    obtain ⟨hlength, hdist⟩ := Bool.and_eq_true_iff.mp hwf
    have := matchLength_le hlength
    have := bonus3_le (rawDistance3 d + (lowDistance3 d s).1)
    exact (copyNew_insertsMatch (by omega) (distance3_storable hdist s) _).of_update (lowDistance3_update .v29 s d)
  | v20Match slot extra dslot dextra =>
    cases h
    simp only [Instr.wf, Bool.and_eq_true, decide_eq_true_eq] at hwf
    obtain ⟨⟨hlength, hslot⟩, hextra⟩ := hwf
    have := matchLength_le hlength
    have := bonus3_le (distBase dslot + 1 + dextra)
    exact copyNew_insertsMatch (by omega) (distance2_storable hslot hextra) s
  | v29Short n extra | v20Short n extra =>
    cases h
    exact copyNew_insertsMatch (by decide) (shortDistance_storable (of_decide_eq_true hwf)) s
  | v50RepOld j slot extra =>
    cases h
    have := slotToLength_le hwf
    exact ⟨copyNew_oldDist .., copyNew_countsCopy (by omega) _ _⟩
  | v29RepOld j slot extra =>
    cases h
    have := repeatLength_le hwf
    exact ⟨copyNew_oldDist .., copyNew_countsCopy (by omega) _ _⟩
  | v20RepOld j slot extra =>
    cases h
    have := repeatLength_le hwf
    have := bonusRepeat2_le (s.oldDist.get j).toNat
    exact ⟨copyNew_oldDist .., copyNew_countsCopy (by omega) _ _⟩
  | v20RepLast =>
    cases h
    exact ⟨copyNew_oldDist .., (copyNew_lastLen ..).trans (by simp), copyNew_wrAbs ..⟩
  | v50RepLast | v29RepLast =>
    cases h
    obtain ⟨hcache, hlen⟩ := copyLast_keepsCache s
    exact ⟨hcache, hlen, by rw [copyLast_eq, copyMatch_wrAbs]⟩
  | v50FirstHeader hd => exact (execV50FirstHeader_effect h).keepsCache_of_update
  | v50NextBlock hd => exact (execV50NextBlock_effect h).keepsCache_of_update
  | v29Tables hd => exact (execV29Tables_effect h).keepsCache_of_update
  | v20Tables hd => exact (execV20Tables_effect (V20Header_wf_pre hwf).le h).keepsCache_of_update
  | v20Tail probe =>
    refine (execV20Tail_effect (fun hd hprobe => ?_) h).keepsCache_of_update
    subst hprobe
    exact (V20Header_wf_pre hwf).le
  | v29Eob e => exact (execV29Eob_effect h).keepsCache_of_update
  | v50Filter f => exact (outcome_effect h (emitFilter_yields .v50 _ s)).keepsCache_of_update
  | v29VmCode v | ppmEscVmCode v => exact (outcome_effect h (emitVmCode_yields .v29 v _ s)).keepsCache_of_update
  | ppmEscLz | ppmEscRle => cases h; exact ⟨copyMatch_oldDist .., copyMatch_lastLen ..⟩
  | len5Rep3 | len5Rep7 | len2Rep2 => exact repeatLen_keepsCache h
  | v50Lit | v29Lit | v20Lit | ppmLit | ppmEscLit | v20AudSample | v50End | ppmEscEnd | v15Stream | v29Init | v20Init
  | v20SizeDone | ppmEscReload | v20Reload | v20AudReload | pl4eLen | pl4eEsc | pl4Len | len5Lit | len5Zero3
  | len5Zero7 | len2Lit | len2Zero3 | len2Zero7 => cases h; exact ⟨rfl, rfl⟩

/-- R193: four insertions replace the whole cache. -/
theorem insert_four (c : OldDist) (d1 d2 d3 d4 : BitVec 64) :
    (((c.insert d1).insert d2).insert d3).insert d4 = { d0 := d4, d1 := d3, d2 := d2, d3 := d1 } := rfl

/-- Settles O60: R194 by `exec_cache`; for R193 the four entries are named, and the rotation is read off. -/
theorem cacheAndLastLenPerToken : Obligations.CacheAndLastLenPerToken := by
  refine ⟨fun i s t hwf h => ?_, fun c d1 d2 d3 d4 i => ⟨insert_four .., ?_, ?_⟩⟩
  · have := exec_cache hwf h
    cases i <;> exact this
  · fin_cases i <;> rfl
  · fin_cases i <;> rfl

end Sys2Proof.Machine
end

section
/-! What the rule due can decode (43_gen_common.md R214, 30_encoding.md R100 to R104): instructions of the member's generation,
with lengths of their tables, and no error but the coder's (R107, R303). -/

namespace Sys2Proof.Machine

/-! ### Instructions by generation -/

/-- A rule of generation `g` can decode the instruction: it is one of the generation's, a length is one of its table's, and a
v20 header lists the 19 pre-lengths of its table. -/
def Fits (g : Gen) : Instr → Prop
  | .v50FirstHeader _ | .v50NextBlock _ | .v50End | .v50Lit _ | .v50Filter _ | .v50RepLast => g = .v50
  | .v50RepOld _ slot extra | .v50Match slot extra _ => g = .v50 ∧ length5Wf slot extra = true
  | .v29Init | .v29Tables _ | .v29Lit _ | .v29Eob _ | .v29VmCode _ | .v29RepLast | .v29Short _ _ => g = .v29
  | .v29RepOld _ slot extra | .v29Match slot extra _ => g = .v29 ∧ length3Wf slot extra = true
  | .ppmLit _ | .ppmEscReload | .ppmEscLit _ | .ppmEscEnd | .ppmEscVmCode _ | .ppmEscLz _ _ _ _ | .ppmEscRle _ => g = .v29
  | .v20Init | .v20SizeDone | .v20Lit _ | .v20RepLast | .v20Short _ _ | .v20Reload | .v20AudSample _ | .v20AudReload =>
    g = .v20
  | .v20Tables h => g = .v20 ∧ h.pre.length = 19
  | .v20Tail p => g = .v20 ∧ ∀ h, p = .reload h → h.pre.length = 19
  | .v20RepOld _ slot extra | .v20Match slot extra _ _ => g = .v20 ∧ length3Wf slot extra = true
  | _ => False

/-- The decoding forms an instruction that fits the generation, or ends in the coder's error (R303). -/
def Forms (g : Gen) (d : Decoded) : Prop :=
  match d.res with
  | .ok i => Fits g i
  | .error e => e = .e6

section Forms
variable {g : Gen} {env : Env} {z : Bits}

theorem Forms.instr {i : Instr} {p : Nat} (h : Fits g i) : Forms g (.instr env i p) := h

theorem Forms.fits {d : Decoded} {i : Instr} (h : Forms g d) (hi : d.res = .ok i) : Fits g i := by
  rwa [Forms, hi] at h

theorem Forms.error {d : Decoded} {e : ErrCode} (h : Forms g d) (he : d.res = .error e) : e = .e6 := by
  rwa [Forms, he] at h

theorem getBits_fst_lt (z : Bits) (p n : Nat) : (getBits z p n).1 < 2 ^ n := peekBits_lt z p n

theorem length5Wf_getBits {slot : Nat} (h : slot < 44) (z : Bits) (p : Nat) :
    length5Wf slot (getBits z p (lengthBits5 slot)).1 = true := by
  simp [length5Wf, h, getBits_fst_lt]

theorem length3Wf_getBits {slot : Nat} (h : slot < 28) (z : Bits) (p : Nat) :
    length3Wf slot (getBits z p (lengthBits slot)).1 = true := by
  simp [length3Wf, h, getBits_fst_lt]

theorem length_pre_decodeV20Header (z : Bits) (p : Nat) : (decodeV20Header z p).1.pre.length = 19 := by
  unfold decodeV20Header
  dsimp only
  split <;> exact length_decodePlainLens ..

/-! ### The opcode maps -/

variable (ok : CanonicalEnv env)
include ok

theorem decodeV50_forms (p : Nat) : Forms .v50 (decodeV50 env z p) := by
  have symbol := huffDecode_lt ok.ld5 (by decide) z p
  unfold decodeV50
  dsimp only
  split_ifs
  · exact .instr rfl
  · exact .instr rfl
  · exact .instr rfl
  · exact .instr ⟨rfl, length5Wf_getBits (huffDecode_lt ok.rd5 (by decide) ..) ..⟩
  · exact .instr ⟨rfl, length5Wf_getBits (by omega) ..⟩

theorem decodeV29_forms (p : Nat) : Forms .v29 (decodeV29 env z p) := by
  have symbol := huffDecode_lt ok.ld3 (by decide) z p
  unfold decodeV29
  dsimp only
  split_ifs
  · exact .instr rfl
  · exact .instr rfl
  · exact .instr rfl
  · exact .instr rfl
  · exact .instr rfl
  · exact .instr ⟨rfl, length3Wf_getBits (huffDecode_lt ok.rd3 (by decide) ..) ..⟩
  · exact .instr rfl
  · exact .instr ⟨rfl, length3Wf_getBits (by omega) ..⟩

theorem decodeV20_forms (p : Nat) : Forms .v20 (decodeV20 env z p) := by
  have symbol := huffDecode_lt ok.ld2 (by decide) z p
  unfold decodeV20
  dsimp only
  split_ifs
  · exact .instr rfl
  · exact .instr rfl
  · exact .instr ⟨rfl, length3Wf_getBits (huffDecode_lt ok.rd2 (by decide) ..) ..⟩
  · exact .instr rfl
  · exact .instr rfl
  · exact .instr ⟨rfl, length3Wf_getBits (by omega) ..⟩

theorem decodeAudioSymbol_forms (p : Nat) : Forms .v20 (decodeAudioSymbol env z p) := by
  have symbol := huffDecode_lt ok.md2 (by decide) z p
  unfold decodeAudioSymbol
  dsimp only
  split_ifs
  · exact .instr rfl
  · exact .instr rfl
  · omega

omit ok

theorem decodePpm_forms (p : Nat) : Forms .v29 (decodePpm env z p) := by
  obtain ⟨htoken, heof⟩ := decodePpm_sound env z p
  cases hres : (decodePpm env z p).res with
  | error e => rw [Forms, hres]; exact (heof e hres).1
  | ok i =>
    obtain ⟨-, hi, -⟩ := htoken i hres
    rw [Forms, hres]
    cases i with
    | ppmLit | ppmEscReload | ppmEscLit | ppmEscEnd | ppmEscVmCode | ppmEscLz | ppmEscRle => rfl
    | _ => cases hi

theorem decodeV29Tables_forms (p : Nat) : Forms .v29 (decodeV29Tables env z p) := by
  unfold decodeV29Tables
  dsimp only
  split <;> exact .instr (env := env) (p := p) rfl

theorem decodeTail_forms (p : Nat) : Forms .v20 (decodeTail env z p) := by
  unfold decodeTail
  generalize (if env.audio then env.md2 else env.ld2) = table
  generalize (if env.audio then 256 else 269) = reload
  dsimp only
  split
  · refine .instr (i := .v20Tail (.reload _)) ⟨rfl, fun h hprobe => ?_⟩
    cases hprobe
    exact length_pre_decodeV20Header ..
  · exact .instr (i := .v20Tail (.ignored _)) ⟨rfl, nofun⟩

end Forms

/-- Every rule of the dispatch table, under tables of `BuildTable` (R107). -/
theorem decodeIn_forms {env : Env} (ok : CanonicalEnv env) (ctx : Ctx) (z : Bits) (p : Nat) :
    Forms (ctxGen ctx) (decodeIn ctx env z p) := by
  cases ctx with
  | v50First | v50Next | v50End | v29Init | v20Init | v20SizeDone => exact .instr rfl
  | v50Token => exact decodeV50_forms ok p
  | v29Tables => exact decodeV29Tables_forms p
  | v29Lz => exact decodeV29_forms ok p
  | v29Ppm => exact decodePpm_forms p
  | v20Tables => exact .instr (i := .v20Tables _) ⟨rfl, length_pre_decodeV20Header ..⟩
  | v20Lz => exact decodeV20_forms ok p
  | v20Audio => exact decodeAudioSymbol_forms ok p
  | v20TailRead => exact decodeTail_forms p
  | v20TailStop | v20TailWait => exact .instr (env := env) (i := .v20Tail .stop) (p := p) ⟨rfl, nofun⟩

/-! ### The rule due -/

theorem ctxGen_tailCtx (s : State) : ctxGen (tailCtx s) = .v20 := by
  unfold tailCtx
  split_ifs <;> rfl

/-- The rule due is one of the member's generation (R214). -/
theorem cfgGen_of_dispatch {s : State} {ctx : Ctx} (h : dispatch s = some ctx) : s.cfgGen = some (ctxGen ctx) := by
  unfold dispatch at h
  split at h
  case h_1 hgen _ | h_3 hgen _ | h_4 hgen _ | h_6 hgen _ | h_7 hgen _ => cases h; exact hgen
  case h_2 hgen _ | h_5 hgen _ | h_8 hgen _ =>
    cases h
    rw [hgen]
    split_ifs <;> rfl
  case h_9 hgen _ => cases h; rw [hgen, ctxGen_tailCtx]
  case h_10 => cases h

end Sys2Proof.Machine
end

section
/-! What a step of the decoder core commits (43_gen_common.md R210 to R214): at most MAXOUT bytes at the write cursor, and
registers, phase and LAST_LEN as the invariant has them. -/

namespace Sys2Proof.Machine

/-! ### A core step that may begin -/

/-- The decoder core's step is enabled in a state with the invariant: a running member of generation `g` whose gate lets it pass
(R210, R212). -/
structure Ready (g : Gen) (s : State) : Prop where
  inv : Inv s
  running : s.status = .running
  gen : s.cfgGen = some g
  room : pending s + maxOut g ≤ windowSize s

theorem ready_of_dispatch {s : State} {ctx : Ctx} (h : Inv s) (hrun : s.status = .running)
    (hdue : dispatch s = some ctx) (hgate : gateOpen s = true) : Ready (ctxGen ctx) s := by
  have hgen := cfgGen_of_dispatch hdue
  simp only [gateOpen, hgen] at hgate
  exact ⟨h, hrun, hgen, of_decide_eq_true hgate⟩

theorem Inv.registersOk {s : State} (h : Inv s) : RegistersOk s := registersOk_iff.mpr ⟨h.tables, h.arrays, h.audio⟩

/-- Under the invariant a step decodes with tables of `BuildTable` (R109). -/
theorem canonicalEnv_envOf {s : State} (h : RegistersOk s) : CanonicalEnv (envOf s) := by
  obtain ⟨h5, h3, h2⟩ := h
  have channel : s.v20.curChannel < s.v20.md.length := by
    have := h2.curChannel
    have := h2.channels_le
    have := h2.length_md
    omega
  refine ⟨h5.ld, h5.dd, h5.ldd, h5.rd, h3.ld, h3.dd, h3.ldd, h3.rd, h2.ld, h2.dd, h2.rd, ?_⟩
  simp only [envOf, List.getD_eq_getElem _ _ channel]
  exact h2.md _ (List.getElem_mem channel)

theorem fetch_forms {s : State} (h : RegistersOk s) (ctx : Ctx) : Forms (ctxGen ctx) (fetch ctx s) :=
  decodeIn_forms (canonicalEnv_envOf h) ctx _ _

theorem phaseOk_iff {g : Gen} {s : State} (hrun : s.status = .running) (hgen : s.cfgGen = some g) :
    phaseOk s ↔ PhaseIn g s.phase := by
  simp only [phaseOk, hrun, hgen, true_implies]
  cases g <;> rfl

theorem lastLenOk_iff {g : Gen} {s : State} (hgen : s.cfgGen = some g) : lastLenOk s ↔ s.lastLen.toNat ≤ maxOut g := by
  simp only [lastLenOk, hgen]

theorem maxOut_le (g : Gen) : maxOut g ≤ 4100 := by cases g <;> decide

/-! ### Writes at the cursor -/

/-- `n` bytes were appended at the write cursor, and no other position reads otherwise (R180, R181). -/
structure Written (n : Nat) (s t : State) : Prop where
  wrAbs : t.wrAbs = s.wrAbs + BitVec.ofNat 64 n
  elsewhere : ∀ a, (∀ i < n, windowIndex s a ≠ windowIndex s (s.wrAbs + BitVec.ofNat 64 i)) → memRead t a = memRead s a

/-- What a core step of generation `g` that writes `n` bytes leaves: everything but the named fields as it was, and those as
the invariant of a running member has them. -/
structure Commits (g : Gen) (n : Nat) (s t : State) : Prop where
  frame : t = { s with
    win := t.win, wrAbs := t.wrAbs, oldDist := t.oldDist, lastLen := t.lastLen, phase := t.phase
    v50 := t.v50, v29 := t.v29, v20 := t.v20, filt := t.filt, desc := t.desc }
  written : Written n s t
  window : windowOk t
  lastLen : t.lastLen.toNat ≤ maxOut g
  phase : PhaseIn g t.phase
  registers : RegistersOk t
  desc : t.desc = Desc.closed

theorem putByte_windowOk {s : State} (b : Byte) (h : windowOk s) : windowOk (putByte b s) := by
  refine ⟨Memory.wf_write _ _ h.1, fun c hc => ?_⟩
  obtain hk | hc := Memory.mem_write hc
  · rw [hk]; exact windowIndex_lt s s.wrAbs
  · exact h.2 c hc

section Commits
variable {g : Gen} {n len : Nat} {s t u : State}

theorem Ready.commits (r : Ready g s) : Commits g 0 s s where
  frame := rfl
  written := ⟨by simp, fun _ _ => rfl⟩
  window := r.inv.window
  lastLen := (lastLenOk_iff r.gen).mp r.inv.lastLen
  phase := (phaseOk_iff r.running r.gen).mp r.inv.phase
  registers := r.inv.registersOk
  desc := r.inv.desc

theorem Commits.windowIndex_eq (h : Commits g n s u) (a : BitVec 64) : windowIndex u a = windowIndex s a := by
  rw [h.frame]; rfl

theorem Commits.putByte (h : Commits g n s u) (b : Byte) : Commits g (n + 1) s (putByte b u) where
  frame := by rw [h.frame]; rfl
  written := by
    refine ⟨?_, fun a ha => ?_⟩
    · rw [putByte_wrAbs, h.written.wrAbs, BitVec.ofNat_add, ← BitVec.add_assoc]; rfl
    · have last := ha n n.lt_succ_self
      rw [← h.written.wrAbs, ← h.windowIndex_eq, ← h.windowIndex_eq] at last
      rw [memRead_putByte_other b last, h.written.elsewhere a fun i hi => ha i (Nat.lt_succ_of_lt hi)]
  window := putByte_windowOk b h.window
  lastLen := h.lastLen
  phase := h.phase
  registers := ⟨h.registers.v50, h.registers.v29, h.registers.v20⟩
  desc := h.desc

/-- A copy is its bytes, one after another (R181). -/
theorem Commits.copyMatch (h : Commits g n s u) (dist : BitVec 64) : Commits g (n + len) s (copyMatch len dist u) := by
  induction len generalizing n u with
  | zero => exact h
  | succ len ih =>
    rw [show n + (len + 1) = n + 1 + len by omega]
    exact ih (h.putByte _)

theorem Commits.update (h : Commits g n s u) (ht : Update g u t) : Commits g n s t := by
  have moved := ht.frame
  have memory (a : BitVec 64) : memRead t a = memRead u a := by rw [moved]; rfl
  refine ⟨?_, ⟨ht.wrAbs.trans h.written.wrAbs, fun a ha => (memory a).trans (h.written.elsewhere a ha)⟩, ?_,
    ht.lastLen ▸ h.lastLen, ht.phase h.phase, ht.registers h.registers, ht.desc h.desc⟩
  · rw [h.frame] at moved; rw [moved]
  · rw [moved]; exact h.window

theorem Commits.setCache (h : Commits g n s u) (c : OldDist) : Commits g n s { u with oldDist := c } where
  frame := by rw [h.frame]
  written := ⟨h.written.wrAbs, h.written.elsewhere⟩
  window := h.window
  lastLen := h.lastLen
  phase := h.phase
  registers := ⟨h.registers.v50, h.registers.v29, h.registers.v20⟩
  desc := h.desc

theorem Commits.setLastLen (h : Commits g n s u) (hlen : len ≤ maxOut g) : Commits g n s (setLastLen len u) where
  frame := by rw [h.frame]; rfl
  written := ⟨h.written.wrAbs, h.written.elsewhere⟩
  window := h.window
  lastLen := by
    rw [setLastLen_lastLen, BitVec.toNat_ofNat]
    exact (Nat.mod_le ..).trans hlen
  phase := h.phase
  registers := ⟨h.registers.v50, h.registers.v29, h.registers.v20⟩
  desc := h.desc

/-- The step's writes stay within the room that the gate has left (R212, R213). -/
def CommitsWithin (g : Gen) (s t : State) : Prop := ∃ n ≤ maxOut g, Commits g n s t

theorem Commits.within (h : Commits g n s t) (hn : n ≤ maxOut g) : CommitsWithin g s t := ⟨n, hn, h⟩

theorem Commits.copyNew (h : Commits g 0 s u) (dist : BitVec 64) (hlen : len ≤ maxOut g) :
    CommitsWithin g s (copyNew len dist u) :=
  ((h.setLastLen hlen).copyMatch dist).within (by omega)

theorem Ready.copyLast (r : Ready g s) : CommitsWithin g s (copyLast s) := by
  rw [copyLast_eq]
  have hlen : s.lastLen.toNat ≤ maxOut g := r.commits.lastLen
  exact (r.commits.copyMatch _).within (by omega)

theorem Ready.copy20 (r : Ready g s) (dist : BitVec 64) (hlen : len ≤ maxOut g) : CommitsWithin g s (copy20 len dist s) :=
  (r.commits.setCache _).copyNew dist hlen

theorem Ready.putByte (r : Ready g s) (hg : 1 ≤ maxOut g) (b : Byte) : CommitsWithin g s (putByte b s) :=
  (r.commits.putByte b).within hg

theorem Ready.update (r : Ready g s) (h : Update g s t) : CommitsWithin g s t :=
  (r.commits.update h).within (Nat.zero_le _)

theorem Ready.effect (r : Ready g s) (h : Effect (Update g s) s t) : Effect (CommitsWithin g s) s t :=
  h.imp fun _ => r.update

/-- The sample of R344: after its byte the record, the delta and the channel, which keep their ranges. -/
theorem audioSample_update (delta : Byte) (s : State) : ∃ b, Update .v20 (Machine.putByte b s) (audioSample delta s) := by
  refine ⟨_, rfl, fun ok => ⟨ok.v50, ok.v29, ?_⟩, id, id⟩
  have ok2 : s.v20.Ok := ok.v20
  have channel : s.v20.curChannel < s.v20.aud.length := by
    have := ok2.curChannel
    have := ok2.channels_le
    have := ok2.length_aud
    omega
  have current : recordOk (s.v20.aud.getD s.v20.curChannel AudRec.zero) := by
    rw [List.getD_eq_getElem _ _ channel]
    exact ok2.records _ (List.getElem_mem channel)
  have sampled := recordOk_decodeAudio current delta s.v20.channelDelta.toInt
  exact { ok2 with
    channelDelta := recordOk_lastDelta sampled
    curChannel := Nat.mod_lt _ ok2.channels_pos
    length_aud := (List.length_set ..).trans ok2.length_aud
    records := fun v hv => (List.mem_or_eq_of_mem_set hv).elim (ok2.records v) fun h => h ▸ sampled }

theorem Ready.audioSample (r : Ready .v20 s) (delta : Byte) : CommitsWithin .v20 s (audioSample delta s) := by
  obtain ⟨b, h⟩ := audioSample_update delta s
  exact ((r.commits.putByte b).update h).within (by decide)

end Commits

/-! ### The instructions -/

/-- R211 and R213, instruction by instruction: what each commits stays within MAXOUT and the invariant. -/
theorem exec_effect {g : Gen} {i : Instr} {s t : State} (r : Ready g s) (hfits : Fits g i) (h : exec i s = .next t) :
    Effect (CommitsWithin g s) s t := by
  cases i with
  | v50FirstHeader hd => cases hfits; exact r.effect (execV50FirstHeader_effect h)
  | v50NextBlock hd => cases hfits; exact r.effect (execV50NextBlock_effect h)
  | v29Tables hd => cases hfits; exact r.effect (execV29Tables_effect h)
  | v29Init => cases hfits; exact r.effect (execV29Init_effect h)
  | v29Eob e => cases hfits; exact r.effect (execV29Eob_effect h)
  | v20Tables hd =>
    obtain ⟨rfl, hpre⟩ := hfits
    exact r.effect (execV20Tables_effect hpre.le h)
  | v20Tail probe =>
    obtain ⟨rfl, hpre⟩ := hfits
    exact r.effect (execV20Tail_effect (fun hd hprobe => (hpre hd hprobe).le) h)
  | v20Init | v20SizeDone | v20Reload | v20AudReload =>
    cases hfits; cases h
    exact .commits (r.update (update_setPhase (phaseIn_v20 _) s))
  | ppmEscReload => cases hfits; cases h; exact .commits (r.update (update_setPhase phaseIn_v29_tables s))
  | v50End | ppmEscEnd => cases h; exact .ends (r.update (.refl g s))
  | v50Filter f => exact r.effect (outcome_effect h (emitFilter_yields g _ s))
  | v29VmCode v | ppmEscVmCode v => exact r.effect (outcome_effect h (emitVmCode_yields g v _ s))
  | v50Lit | v29Lit | v20Lit | ppmLit | ppmEscLit => cases hfits; cases h; exact .commits (r.putByte (by decide) _)
  | v20AudSample delta => cases hfits; cases h; exact .commits (r.audioSample delta)
  | v50RepLast | v29RepLast => cases h; exact .commits r.copyLast
  | v20RepLast =>
    cases h
    exact .commits (r.copy20 _ r.commits.lastLen)
  | v50RepOld j slot extra =>
    obtain ⟨rfl, hlength⟩ := hfits
    cases h
    have := slotToLength_le hlength
    exact .commits ((r.commits.setCache _).copyNew _ (by simp only [maxOut]; omega))
  | v29RepOld j slot extra =>
    obtain ⟨rfl, hlength⟩ := hfits
    cases h
    have := repeatLength_le hlength
    exact .commits ((r.commits.setCache _).copyNew _ (by simp only [maxOut]; omega))
  | v20RepOld j slot extra =>
    obtain ⟨rfl, hlength⟩ := hfits
    cases h
    have := repeatLength_le hlength
    have := bonusRepeat2_le (s.oldDist.get j).toNat
    exact .commits (r.copy20 _ (by simp only [maxOut]; omega))
  | v29Short n extra => cases hfits; cases h; exact .commits ((r.commits.setCache _).copyNew _ (by decide))
  | v20Short n extra => cases hfits; cases h; exact .commits (r.copy20 _ (by decide))
  | v50Match slot extra d =>
    obtain ⟨rfl, hlength⟩ := hfits
    cases h
    have := slotToLength_le hlength
    have := bonus5_le (distance5 d)
    exact .commits ((r.commits.setCache _).copyNew _ (by simp only [maxOut]; omega))
  | v29Match slot extra d =>
    obtain ⟨rfl, hlength⟩ := hfits
    cases h
    have := matchLength_le hlength
    have := bonus3_le (rawDistance3 d + (lowDistance3 d s).1)
    have low := r.commits.update (lowDistance3_update .v29 s d)
    exact .commits ((low.setCache _).copyNew _ (by simp only [maxOut]; omega))
  | v20Match slot extra dslot dextra =>
    obtain ⟨rfl, hlength⟩ := hfits
    cases h
    have := matchLength_le hlength
    have := bonus3_le (distBase dslot + 1 + dextra)
    exact .commits (r.copy20 _ (by simp only [maxOut]; omega))
  | ppmEscLz d2 d1 d0 l =>
    cases hfits; cases h
    have := l.isLt
    exact .commits ((r.commits.copyMatch _).within (by simp only [maxOut]; omega))
  | ppmEscRle l =>
    cases hfits; cases h
    have := l.isLt
    exact .commits ((r.commits.copyMatch _).within (by simp only [maxOut]; omega))
  | v15Stream | pl4eLen | pl4eEsc | pl4Len | len5Lit | len5Rep3 | len5Rep7 | len5Zero3 | len5Zero7 | len2Lit | len2Rep2
  | len2Zero3 | len2Zero7 => exact hfits.elim

theorem run_effect {g : Gen} {d : Decoded} {s t : State} (r : Ready g s) (hforms : Forms g d) (h : run d s = .next t) :
    Effect (CommitsWithin g s) s t := by
  obtain ⟨i, hi, hexec⟩ | ⟨e, he, rfl⟩ := run_cases h
  · exact exec_effect r (hforms.fits hi) hexec
  · rw [hforms.error he]
    exact .raises (by simp [Raisable])

theorem exhaust_effect {g : Gen} {s : State} (r : Ready g s) : Effect (CommitsWithin g s) s (exhaust s) := by
  unfold exhaust
  split
  · exact .ends (r.update (.refl g s))
  · exact .raises (by simp [Raisable])

/-- The decoder core's step from a state with the invariant: an effect within the gate's room, after which a decoding whose
bits were all there moves the position on (R211, R138). -/
theorem coreMove_effect {s t : State} (h : Inv s) (hmove : coreMove s = some (.next t)) :
    ∃ g, Ready g s ∧ (Effect (CommitsWithin g s) s t ∨
      ∃ ctx u, (fetch ctx s).need ≤ availBits s ∧ availBits u = availBits s ∧ Effect (CommitsWithin g s) s u ∧
        t = advance (fetch ctx s) u) := by
  obtain ⟨hrun, ⟨-, hfault⟩ | ⟨ctx, hdue, hgate, ⟨hneed, hnext⟩ | ⟨-, -, hend⟩⟩⟩ := coreMove_cases hmove
  · cases hfault
  · have r := ready_of_dispatch h hrun hdue hgate
    obtain ⟨u, hu, rfl⟩ := advanceOutcome_next hnext.symm
    have input : u.input = s.input := congrArg FixedPart.input (run_fixes _ s u hu)
    exact ⟨_, r, .inr ⟨ctx, u, hneed, congrArg (8 * ·.length) input, run_effect r (fetch_forms h.registersOk ctx) hu, rfl⟩⟩
  · cases hend
    have r := ready_of_dispatch h hrun hdue hgate
    exact ⟨_, r, .inl (exhaust_effect r)⟩

end Sys2Proof.Machine
end

section
/-! The invariant of the machine (42_window.md R185 to R189, 60_exceptions.md R400 to R404): every agent's move keeps it. -/

namespace Sys2Proof.Machine

/-! ### Control: an error, the end of the member, the position -/

section Control
variable {s : State}

theorem Inv.cfgGen_ne_none (h : Inv s) (hrun : memberActive s = true) : s.cfgGen ≠ none := by
  intro hnone
  have idle := h.status.1 hnone
  rw [memberActive_iff] at hrun
  rcases hrun with hs | hs <;> simp [hs] at idle

theorem Inv.errCode_eq_none (h : Inv s) (hrun : memberActive s = true) : s.errCode = none := by
  have code := h.code
  rw [memberActive_iff] at hrun
  rcases hrun with hs | hs <;> simpa only [codeOk, hs] using code

theorem memberActive_of_running (h : s.status = .running) : memberActive s = true := memberActive_iff.mpr (.inl h)

/-- An error of a running member (R402): its code, and at most PENDING bytes left to move. -/
theorem Inv.errorState (h : Inv s) (hrun : s.status = .running) {e : ErrCode} (he : Raisable e) : Inv (errorState e s) :=
  { h with
    phase := nofun
    code := List.mem_map_of_mem (f := some) he
    status := by
      have active := h.cfgGen_ne_none (memberActive_of_running hrun)
      refine ⟨fun hnone => absurd hnone active, nofun, fun _ => ?_⟩
      have drawn : errorDraw s ≤ pending s := Nat.le_of_lt_succ (Nat.mod_lt _ (Nat.succ_pos _))
      exact (Nat.mod_le ..).trans drawn }

/-- The end of a running member (R221): something is pending in DRAIN, and nothing in DONE. -/
theorem Inv.endMember (h : Inv s) (hrun : s.status = .running) : Inv (endMember s) := by
  have active := memberActive_of_running hrun
  have code := h.errCode_eq_none active
  have gen := h.cfgGen_ne_none active
  unfold Machine.endMember
  split
  · exact { h with phase := nofun, code := code, status := ⟨fun hnone => absurd hnone gen, nofun, nofun⟩ }
  · next hpending =>
    exact { h with
      phase := nofun
      code := code
      status := ⟨fun hnone => absurd hnone gen, fun _ => Nat.lt_of_sub_ne_zero hpending, nofun⟩ }

/-- The position goes to the end of the fields, which the input holds (R24, R63). -/
theorem Inv.advance (h : Inv s) {d : Decoded} (hpos : d.pos ≤ availBits s) : Inv (advance d s) := by
  unfold Machine.advance
  split
  · exact h
  · refine { h with position := le_trans ?_ hpos }
    simp only [bitPos, BitVec.toNat_ofNat]
    omega

end Control

/-! ### The decoder core -/

section Core
variable {g : Gen} {n : Nat} {s t : State}

/-- The write cursor before it wraps (log 8). -/
theorem Written.wrAbs_toNat (h : Written n s t) (hn : n ≤ 4100) (hfits : s.wrAbs.toNat + 4100 < 2 ^ 64) :
    t.wrAbs.toNat = s.wrAbs.toNat + n := by
  rw [h.wrAbs, BitVec.toNat_add, BitVec.toNat_ofNat]
  omega

/-- R189: what a step writes was free before it, by the gate (R212). -/
theorem Commits.cursorsOk (h : Commits g n s t) (r : Ready g s) (hn : n ≤ maxOut g)
    (hfits : s.wrAbs.toNat + 4100 < 2 ^ 64) : cursorsOk t := by
  have cursor := h.written.wrAbs_toNat (hn.trans (maxOut_le g)) hfits
  have room := r.room
  obtain ⟨hbase, hflush, -⟩ := r.inv.cursors
  have moved : t.memberBase = s.memberBase ∧ t.flAbs = s.flAbs ∧ windowSize t = windowSize s := by
    rw [h.frame]; exact ⟨rfl, rfl, rfl⟩
  obtain ⟨hbase', hflush', hsize⟩ := moved
  rw [Machine.cursorsOk, cursor, hbase', hflush', hsize]
  unfold pending at room
  omega

theorem Commits.running (h : Commits g n s t) (r : Ready g s) : t.status = .running := by
  rw [h.frame]; exact r.running

theorem Commits.inv (h : Commits g n s t) (r : Ready g s) (hn : n ≤ maxOut g) (hfits : s.wrAbs.toNat + 4100 < 2 ^ 64) :
    Inv t := by
  have gen : t.cfgGen = some g := by rw [h.frame]; exact r.gen
  have running := h.running r
  obtain ⟨htables, harrays, haudio⟩ := registersOk_iff.mp h.registers
  have code : t.errCode = none := by
    rw [h.frame]; exact r.inv.errCode_eq_none (memberActive_of_running r.running)
  exact {
    window := h.window
    cursors := h.cursorsOk r hn hfits
    config := by rw [h.frame]; exact r.inv.config
    phase := (phaseOk_iff running gen).mpr h.phase
    lastLen := (lastLenOk_iff gen).mpr h.lastLen
    tables := htables
    arrays := harrays
    audio := haudio
    code := by simp only [codeOk, running, code]
    status := by simp [statusOk, running, gen]
    output := by rw [h.frame]; exact r.inv.output
    position := by rw [h.frame]; exact r.inv.position
    desc := h.desc }

theorem Effect.inv (h : Effect (CommitsWithin g s) s t) (r : Ready g s) (hfits : s.wrAbs.toNat + 4100 < 2 ^ 64) :
    Inv t := by
  cases h with
  | raises he => exact r.inv.errorState r.running he
  | commits hu =>
    obtain ⟨n, hn, hcommits⟩ := hu
    exact hcommits.inv r hn hfits
  | ends hu =>
    obtain ⟨n, hn, hcommits⟩ := hu
    exact (hcommits.inv r hn hfits).endMember (hcommits.running r)

theorem Inv.coreMove (h : Inv s) (hfits : s.wrAbs.toNat + 4100 < 2 ^ 64) (hmove : coreMove s = some (.next t)) :
    Inv t := by
  obtain ⟨g, r, heffect | ⟨ctx, u, hneed, havail, heffect, rfl⟩⟩ := coreMove_effect h hmove
  · exact heffect.inv r hfits
  · refine (heffect.inv r hfits).advance ?_
    rw [havail]
    exact (fetch_readsForward ctx s).pos_le_need.trans hneed

end Core

/-! ### The flush engine -/

/-- R186: OUT grows exactly while EMITTED is below the declared size. -/
theorem flushByte_outputOk {s : State} (h : Inv s) (hpending : s.flAbs.toNat < s.wrAbs.toNat) : outputOk (flushByte s) := by
  have next := flushByte_flAbs hpending
  have output : s.out.length = min (emitted s) s.cfgDeclaredSize.toNat := h.output
  obtain ⟨hbase, -, -⟩ := h.cursors
  have emits : emitted (flushByte s) = emitted s + 1 := by
    have base : (flushByte s).memberBase = s.memberBase := rfl
    rw [emitted, emitted, next, base]
    omega
  have out : (flushByte s).out =
      if emitted s < s.cfgDeclaredSize.toNat then s.out ++ [memRead s s.flAbs] else s.out := rfl
  have size : (flushByte s).cfgDeclaredSize = s.cfgDeclaredSize := rfl
  rw [outputOk, emits, out, size]
  split
  · rw [List.length_append, List.length_singleton]; omega
  · omega

theorem flushByte_cursorsOk {s : State} (h : cursorsOk s) (hpending : s.flAbs.toNat < s.wrAbs.toNat) :
    cursorsOk (flushByte s) := by
  have next := flushByte_flAbs hpending
  obtain ⟨hbase, -, hsize⟩ := h
  refine ⟨?_, ?_, ?_⟩ <;> rw [next]
  · exact Nat.le_succ_of_le hbase
  · exact hpending
  · exact hsize.trans (Nat.add_le_add_right (Nat.le_succ _) _)

/-- A drained member is done without a code (R188). -/
theorem flushByte_codeOk {s : State} (h : Inv s) (hpending : s.flAbs.toNat < s.wrAbs.toNat) : codeOk (flushByte s) := by
  have code : (flushByte s).errCode = s.errCode := rfl
  have before := h.code
  rw [codeOk, flushByte_status hpending, code]
  split_ifs with hlast
  · exact h.errCode_eq_none (memberActive_iff.mpr (.inr hlast.1))
  · exact before

/-- DRAIN is left with its last byte, and an aborted member has one byte fewer both pending and to move (R52, R188). -/
theorem flushByte_statusOk {s : State} (h : Inv s) (hon : flushEnabled s = true) : statusOk (flushByte s) := by
  obtain ⟨hpending, -, -, -⟩ := flushEnabled_iff.mp hon
  have next := flushByte_flAbs hpending
  have left := flushByte_errFlushLeft (errFlushLeft_pos_of_flushEnabled hon)
  have gen : (flushByte s).cfgGen = s.cfgGen := rfl
  have cursor : (flushByte s).wrAbs = s.wrAbs := rfl
  obtain ⟨hnone, -, herror⟩ := h.status
  rw [statusOk, flushByte_status hpending, gen, pending, cursor, next, left]
  by_cases hlast : s.status = .drain ∧ s.flAbs.toNat + 1 = s.wrAbs.toNat
  · rw [if_pos hlast]
    refine ⟨fun hg => ?_, nofun, nofun⟩
    have idle := hnone hg
    simp [hlast.1] at idle
  · rw [if_neg hlast]
    refine ⟨hnone, fun hdrain => ?_, fun herr => ?_⟩
    · have more : s.flAbs.toNat + 1 ≠ s.wrAbs.toNat := fun heq => hlast ⟨hdrain, heq⟩
      omega
    · have few := herror herr
      rw [pending] at few
      rw [if_pos herr]
      omega

theorem Inv.flushByte {s : State} (h : Inv s) (hon : flushEnabled s = true) : Inv (flushByte s) := by
  obtain ⟨hpending, -, -, -⟩ := flushEnabled_iff.mp hon
  refine { h with
    cursors := flushByte_cursorsOk h.cursors hpending
    phase := fun hrun => h.phase ?_
    code := flushByte_codeOk h hpending
    status := flushByte_statusOk h hon
    output := flushByte_outputOk h hpending }
  rw [flushByte_status hpending] at hrun
  split at hrun
  · cases hrun
  · exact hrun

theorem Inv.flushMove {s : State} (h : Inv s) : Inv (flushMove s) := by
  by_cases hon : flushEnabled s = true
  · rw [flushMove_enabled hon]; exact h.flushByte hon
  · rwa [flushMove_disabled hon]

/-! ### The host -/

/-- The reset tables (R37) are those of all-zero lengths. -/
theorem emptyTable_canonical {n : Nat} (hn : n ≤ 65536) : (emptyTable n).canonical n = true := by
  have built := buildTable_canonical (buildTable_replicate_zero n) (by simpa using hn)
  rwa [List.length_replicate] at built

theorem V50Regs.ok_reset : V50Regs.reset.Ok where
  ld := emptyTable_canonical (by decide)
  dd := emptyTable_canonical (by decide)
  ldd := emptyTable_canonical (by decide)
  rd := emptyTable_canonical (by decide)
  bd := emptyTable_canonical (by decide)
  blkBitSize := by decide

theorem V29Regs.ok_reset : V29Regs.reset.Ok where
  ld := emptyTable_canonical (by decide)
  dd := emptyTable_canonical (by decide)
  ldd := emptyTable_canonical (by decide)
  rd := emptyTable_canonical (by decide)
  bd := emptyTable_canonical (by decide)
  oldLens := List.length_replicate

theorem recordOk_zero : recordOk AudRec.zero := by
  refine ⟨rfl, rfl, rfl, fun x hx => ?_, by decide, by decide⟩
  rw [List.eq_of_mem_replicate hx]
  decide

theorem V20Regs.ok_reset : V20Regs.reset.Ok where
  ld := emptyTable_canonical (by decide)
  dd := emptyTable_canonical (by decide)
  rd := emptyTable_canonical (by decide)
  bd := emptyTable_canonical (by decide)
  length_md := rfl
  md t ht := by rw [List.eq_of_mem_replicate ht]; exact emptyTable_canonical (by decide)
  oldLens := List.length_replicate
  channels_pos := le_rfl
  channels_le := by decide
  curChannel := by decide
  channelDelta := by unfold Within; decide
  length_aud := rfl
  records v hv := by rw [List.eq_of_mem_replicate hv]; exact recordOk_zero

/-- What an accepted start has checked (R444): the generation, the size, and in a continuation that both stay. -/
structure Accepted (g : Gen) (cont : Bool) (log2 : Nat) (s : State) : Prop where
  gen : g ≠ .v15
  log2_ge : 16 ≤ log2
  log2_le : log2 ≤ 32
  same : cont = true → s.cfgGen = some g ∧ s.cfgWindowLog2 = some log2

/-- A member start is refused with its code, or accepted (R440, R444). -/
theorem memberStart_cases {g : Gen} {solid : Bool} {size : BitVec 64} {log2 : Nat} {s t : State}
    (h : memberStart g solid size log2 s = .next t) :
    t = raiseRefused .e10 s ∨ t = raiseRefused .e11 s ∨
      ∃ cont, Accepted g cont log2 s ∧ t = acceptMember g cont size log2 s := by
  unfold memberStart execV15Stream at h
  dsimp only at h
  split_ifs at h with hgen hrefused
  · cases h; exact .inl rfl
  · cases h; exact .inr (.inl rfl)
  · cases h
    simp only [configRefused, Bool.or_eq_true, Bool.and_eq_true, decide_eq_true_eq, bne_iff_ne, not_or, not_and,
      not_not] at hrefused
    obtain ⟨⟨⟨hge, hle⟩, hsame⟩, hsize⟩ := hrefused
    exact .inr (.inr ⟨_, ⟨hgen, by omega, by omega, fun hc => ⟨hsame hc, hsize hc⟩⟩, rfl⟩)

section Host
variable {s t : State}

theorem Inv.raiseRefused (h : Inv s) {e : ErrCode} (he : e = .e10 ∨ e = .e11) : Inv (raiseRefused e s) :=
  { h with
    phase := nofun
    code := he.imp (congrArg some) (congrArg some)
    status := ⟨fun _ => .inr rfl, nofun, nofun⟩ }

theorem phaseIn_init {g : Gen} (h : g ≠ .v15) : PhaseIn g .init := by
  cases g with
  | v15 => exact absurd rfl h
  | v20 => trivial
  | v29 | v50 => exact Or.inl rfl

/-- The control registers, the cursors and the ports as an accepted member start leaves them (R440). -/
structure Started (g : Gen) (log2 : Nat) (t : State) : Prop where
  cfgGen : t.cfgGen = some g
  cfgWindowLog2 : t.cfgWindowLog2 = some log2
  status : t.status = .running
  errCode : t.errCode = none
  phase : t.phase = .init
  memberBase : t.memberBase = t.wrAbs
  flAbs : t.flAbs = t.wrAbs
  out : t.out = []
  bitPos : bitPos t = 0

theorem acceptMember_started (g : Gen) (cont : Bool) (size : BitVec 64) (log2 : Nat) (s : State) :
    Started g log2 (acceptMember g cont size log2 s) := by
  cases cont <;> exact ⟨rfl, rfl, rfl, rfl, rfl, rfl, rfl, rfl, rfl⟩

/-- Nothing is pending and nothing has been read at the start of a member. -/
theorem Started.inv {g : Gen} {log2 : Nat} (h : Started g log2 t) (ha : Accepted g cont log2 s) (hwin : windowOk t)
    (hlen : t.lastLen.toNat ≤ maxOut g) (hregs : RegistersOk t) (hdesc : t.desc = Desc.closed) : Inv t := by
  obtain ⟨htables, harrays, haudio⟩ := registersOk_iff.mp hregs
  obtain ⟨hgen, hlog, hrun, hcode, hphase, hbase, hflush, hout, hpos⟩ := h
  exact {
    window := hwin
    cursors := by rw [cursorsOk, hbase, hflush]; exact ⟨le_rfl, le_rfl, Nat.le_add_right ..⟩
    config := by rw [configOk, hgen, hlog]; exact ⟨ha.gen, ha.log2_ge, ha.log2_le⟩
    phase := (phaseOk_iff hrun hgen).mpr (hphase ▸ phaseIn_init ha.gen)
    lastLen := (lastLenOk_iff hgen).mpr hlen
    tables := htables
    arrays := harrays
    audio := haudio
    code := by rw [codeOk, hrun]; exact hcode
    status := by simp [statusOk, hrun, hgen]
    output := by simp [outputOk, emitted, hout, hflush, hbase]
    position := by rw [positionOk, hpos]; exact Nat.zero_le _
    desc := hdesc }

/-- The start of an accepted member (R440, R441): a continuation keeps the window, the last length and the registers, any
other start resets them. -/
theorem Inv.acceptMember (h : Inv s) {g : Gen} {cont : Bool} {size : BitVec 64} {log2 : Nat}
    (ha : Accepted g cont log2 s) : Inv (acceptMember g cont size log2 s) := by
  have started := acceptMember_started g cont size log2 s
  cases cont with
  | true =>
    obtain ⟨hgen, hlog⟩ := ha.same rfl
    have window := h.window
    rw [windowOk, windowSize, hlog] at window
    obtain ⟨h5, h3, h2⟩ := h.registersOk
    exact started.inv ha window ((lastLenOk_iff hgen).mp h.lastLen) ⟨h5, h3, h2⟩ h.desc
  | false =>
    have empty : windowOk (Machine.acceptMember g false size log2 s) := ⟨rfl, nofun⟩
    exact started.inv ha empty (Nat.zero_le _) ⟨V50Regs.ok_reset, V29Regs.ok_reset, V20Regs.ok_reset⟩ h.desc

theorem Inv.memberStart (h : Inv s) {g : Gen} {solid : Bool} {size : BitVec 64} {log2 : Nat}
    (ht : memberStart g solid size log2 s = .next t) : Inv t := by
  obtain rfl | rfl | ⟨cont, ha, rfl⟩ := memberStart_cases ht
  · exact h.raiseRefused (.inl rfl)
  · exact h.raiseRefused (.inr rfl)
  · exact h.acceptMember ha

theorem Inv.deliver (h : Inv s) (b : Byte) : Inv (deliver b s) := by
  obtain hd | hd := deliver_cases b s <;> rw [hd]
  · refine { h with position := h.position.trans ?_ }
    simp [availBits, inAvail]
  · exact h

theorem Inv.endInput (h : Inv s) : Inv (endInput s) := by
  obtain he | he := endInput_cases s <;> rw [he]
  · exact { h with }
  · exact h

/-- A cancelled member raised nothing (R76). -/
theorem Inv.cancel (h : Inv s) : Inv (cancel s) := by
  by_cases hactive : memberActive s = true
  · rw [cancel_enabled hactive]
    have active := h.cfgGen_ne_none hactive
    exact { h with
      phase := nofun
      code := h.errCode_eq_none hactive
      status := ⟨fun hnone => absurd hnone active, nofun, nofun⟩ }
  · rwa [cancel_disabled hactive]

end Host

/-! ### Every step -/

theorem Inv.eventMove {e : Event} {s t : State} (h : Inv s) (hfits : s.wrAbs.toNat + 4100 < 2 ^ 64)
    (hmove : eventMove e s = .next t) : Inv t := by
  cases e with
  | memberStart g solid size log2 =>
    simp only [Machine.eventMove] at hmove
    split at hmove
    · exact h.memberStart hmove
    · cases hmove; exact h
  | deliver b => cases hmove; exact h.deliver b
  | endInput => cases hmove; exact h.endInput
  | cancel => cases hmove; exact h.cancel
  | core =>
    obtain hcore | rfl := eventMove_core_cases hmove
    · exact h.coreMove hfits hcore
    · exact h
  | flush => cases hmove; exact h.flushMove
  | sinkReady | flushLimit | filterAccept => cases hmove; exact { h with }

/-- The waiting moves are not in the invariant. -/
theorem Inv.with_events {s : State} (h : Inv s) (l : List Event) : Inv { s with events := l } := { h with }

/-- Settles O20, by the three kinds of step: a scheduled event, the core's move, and the flush engine's. -/
theorem stepKeepsInvariant : Obligations.StepKeepsInvariant := by
  intro s t h hfits hstep
  obtain ⟨e, rest, -, hmove⟩ | ⟨-, hcore⟩ | ⟨-, -, rfl⟩ := step_cases hstep
  · exact (h.with_events rest).eventMove hfits hmove
  · exact h.coreMove hfits hcore
  · exact h.flushMove

end Sys2Proof.Machine
end

section
/-! Pending bytes (42_window.md R189, 70_reset_and_hazards.md R447): what is pending before and after a step reads the same,
because the gate leaves room for all that the step writes. -/

namespace Sys2Proof.Machine

/-- What is pending in both states reads the same. -/
def KeepsPending (s t : State) : Prop :=
  ∀ a : BitVec 64, s.flAbs.toNat ≤ a.toNat → a.toNat < s.wrAbs.toNat → t.flAbs.toNat ≤ a.toNat →
    a.toNat < t.wrAbs.toNat → memRead t a = memRead s a

section Pending
variable {g : Gen} {s t : State}

theorem KeepsPending.of_memRead (h : ∀ a, memRead t a = memRead s a) : KeepsPending s t := fun a _ _ _ _ => h a

/-- A pending position and one of the next `m` at the write cursor are different cells while PENDING leaves room for `m`. -/
theorem windowIndex_ne_of_pending {a : BitVec 64} {m i : Nat} (hflush : s.flAbs.toNat ≤ a.toNat)
    (hwrite : a.toNat < s.wrAbs.toNat) (hroom : pending s + m ≤ windowSize s) (hi : i < m)
    (hfits : s.wrAbs.toNat + m < 2 ^ 64) : windowIndex s a ≠ windowIndex s (s.wrAbs + BitVec.ofNat 64 i) := by
  have cursor : (s.wrAbs + BitVec.ofNat 64 i).toNat = s.wrAbs.toNat + i := by
    rw [BitVec.toNat_add, BitVec.toNat_ofNat]
    omega
  unfold pending at hroom
  intro heq
  rw [windowIndex, windowIndex, cursor] at heq
  have multiple := Nat.sub_mod_eq_zero_of_mod_eq heq.symm
  rw [Nat.mod_eq_of_lt (by omega)] at multiple
  omega

theorem CommitsWithin.keepsPending (h : CommitsWithin g s t) (r : Ready g s) (hfits : s.wrAbs.toNat + 4100 < 2 ^ 64) :
    ∀ a : BitVec 64, s.flAbs.toNat ≤ a.toNat → a.toNat < s.wrAbs.toNat → memRead t a = memRead s a := by
  obtain ⟨n, hn, hcommits⟩ := h
  have most := maxOut_le g
  exact fun a hflush hwrite => hcommits.written.elsewhere a fun i hi =>
    windowIndex_ne_of_pending hflush hwrite r.room (hi.trans_le hn) (by omega)

/-- An error and the end of the member write no byte. -/
theorem Effect.keepsPending (h : Effect (CommitsWithin g s) s t) (r : Ready g s)
    (hfits : s.wrAbs.toNat + 4100 < 2 ^ 64) : KeepsPending s t := by
  cases h with
  | raises he => exact .of_memRead fun _ => rfl
  | commits hu => exact fun a hflush hwrite _ _ => hu.keepsPending r hfits a hflush hwrite
  | ends hu => exact fun a hflush hwrite _ _ => hu.keepsPending r hfits a hflush hwrite

theorem memRead_advance (d : Decoded) (s : State) (a : BitVec 64) : memRead (advance d s) a = memRead s a := by
  unfold advance
  split <;> rfl

theorem advance_flAbs (d : Decoded) (s : State) : (advance d s).flAbs = s.flAbs := by
  unfold advance
  split <;> rfl

theorem advance_wrAbs (d : Decoded) (s : State) : (advance d s).wrAbs = s.wrAbs := by
  unfold advance
  split <;> rfl

theorem coreMove_keepsPending (h : Inv s) (hfits : s.wrAbs.toNat + 4100 < 2 ^ 64)
    (hmove : coreMove s = some (.next t)) : KeepsPending s t := by
  obtain ⟨g, r, heffect | ⟨ctx, u, -, -, heffect, rfl⟩⟩ := coreMove_effect h hmove
  · exact heffect.keepsPending r hfits
  · intro a hflush hwrite hflush' hwrite'
    rw [advance_flAbs] at hflush'
    rw [advance_wrAbs] at hwrite'
    rw [memRead_advance]
    exact heffect.keepsPending r hfits a hflush hwrite hflush' hwrite'

theorem flushMove_keepsPending (s : State) : KeepsPending s (flushMove s) := by
  refine .of_memRead fun a => ?_
  unfold flushMove
  split <;> rfl

/-- A refused start changes no byte, and after an accepted one nothing is pending (R440). -/
theorem memberStart_keepsPending {solid : Bool} {size : BitVec 64} {log2 : Nat}
    (h : memberStart g solid size log2 s = .next t) : KeepsPending s t := by
  obtain rfl | rfl | ⟨cont, -, rfl⟩ := memberStart_cases h
  · exact .of_memRead fun _ => rfl
  · exact .of_memRead fun _ => rfl
  · intro a _ _ hflush hwrite
    rw [(acceptMember_started g cont size log2 s).flAbs] at hflush
    omega

theorem eventMove_keepsPending {e : Event} (h : Inv s) (hfits : s.wrAbs.toNat + 4100 < 2 ^ 64)
    (hmove : eventMove e s = .next t) : KeepsPending s t := by
  cases e with
  | memberStart g solid size log2 =>
    simp only [eventMove] at hmove
    split at hmove
    · exact memberStart_keepsPending hmove
    · cases hmove; exact .of_memRead fun _ => rfl
  | deliver b => cases hmove; obtain h | h := deliver_cases b s <;> rw [h] <;> exact .of_memRead fun _ => rfl
  | endInput => cases hmove; obtain h | h := endInput_cases s <;> rw [h] <;> exact .of_memRead fun _ => rfl
  | cancel => cases hmove; obtain h | h := cancel_cases s <;> rw [h] <;> exact .of_memRead fun _ => rfl
  | core =>
    obtain hcore | rfl := eventMove_core_cases hmove
    · exact coreMove_keepsPending h hfits hcore
    · exact .of_memRead fun _ => rfl
  | flush => cases hmove; exact flushMove_keepsPending s
  | sinkReady | flushLimit | filterAccept => cases hmove; exact .of_memRead fun _ => rfl

end Pending

/-- Settles O22, by the three kinds of step. -/
theorem pendingBytesSurvive : Obligations.PendingBytesSurvive := by
  intro s t h hfits hstep
  obtain ⟨e, rest, -, hmove⟩ | ⟨-, hcore⟩ | ⟨-, -, rfl⟩ := step_cases hstep
  · have scheduled := eventMove_keepsPending (h.with_events rest) hfits hmove
    exact scheduled
  · exact coreMove_keepsPending h hfits hcore
  · exact flushMove_keepsPending s

end Sys2Proof.Machine
end

section
/-! The dispatch table (43_gen_common.md R214): the rule due in each generation and phase, and the block-end test of v50
(44_v50.md R247). -/

namespace Sys2Proof.Machine

section Rows
variable {s : State}

/-! ### The rows by generation and phase -/

theorem dispatch_v50_init (hgen : s.cfgGen = some .v50) (hphase : s.phase = .init) : dispatch s = some .v50First := by
  simp only [dispatch, hgen, hphase]

theorem dispatch_v50_token (hgen : s.cfgGen = some .v50) (hphase : s.phase = .token) :
    dispatch s = some (if pastEnd s then (if s.v50.blkLast then .v50End else .v50Next) else .v50Token) := by
  simp only [dispatch, hgen, hphase]

theorem dispatch_v29_init (hgen : s.cfgGen = some .v29) (hphase : s.phase = .init) : dispatch s = some .v29Init := by
  simp only [dispatch, hgen, hphase]

theorem dispatch_v29_tables (hgen : s.cfgGen = some .v29) (hphase : s.phase = .tables) :
    dispatch s = some .v29Tables := by
  simp only [dispatch, hgen, hphase]

theorem dispatch_v29_token (hgen : s.cfgGen = some .v29) (hphase : s.phase = .token) :
    dispatch s = some (if s.v29.blockType = .lz then .v29Lz else .v29Ppm) := by
  simp only [dispatch, hgen, hphase]

theorem dispatch_v20_init (hgen : s.cfgGen = some .v20) (hphase : s.phase = .init) : dispatch s = some .v20Init := by
  simp only [dispatch, hgen, hphase]

theorem dispatch_v20_tables (hgen : s.cfgGen = some .v20) (hphase : s.phase = .tables) :
    dispatch s = some .v20Tables := by
  simp only [dispatch, hgen, hphase]

theorem dispatch_v20_token (hgen : s.cfgGen = some .v20) (hphase : s.phase = .token) :
    dispatch s = some (if sizeReached s then .v20SizeDone else if s.v20.audio then .v20Audio else .v20Lz) := by
  simp only [dispatch, hgen, hphase]

theorem dispatch_v20_tail (hgen : s.cfgGen = some .v20) (hphase : s.phase = .tail) :
    dispatch s = some (tailCtx s) := by
  simp only [dispatch, hgen, hphase]

/-- Every phase a running member can be in has a row. -/
theorem dispatch_ne_none {g : Gen} (hgen : s.cfgGen = some g) (hphase : PhaseIn g s.phase) : dispatch s ≠ none := by
  cases g with
  | v50 =>
    obtain hp | hp := hphase
    · simp [dispatch_v50_init hgen hp]
    · simp [dispatch_v50_token hgen hp]
  | v29 =>
    obtain hp | hp | hp := hphase
    · simp [dispatch_v29_init hgen hp]
    · simp [dispatch_v29_tables hgen hp]
    · simp [dispatch_v29_token hgen hp]
  | v20 =>
    cases hp : s.phase with
    | init => simp [dispatch_v20_init hgen hp]
    | tables => simp [dispatch_v20_tables hgen hp]
    | token => simp [dispatch_v20_token hgen hp]
    | tail => simp [dispatch_v20_tail hgen hp]
  | v15 => exact hphase.elim

/-! ### The tests the rows name -/

/-- R247, with the subtraction of its `last` moved to the other side. -/
theorem pastEnd_iff : pastEnd s = true ↔
    s.v50.blkStart.toNat + s.v50.blkSize.toNat ≤ s.posByte.toNat ∨
      (s.posByte.toNat + 1 = s.v50.blkStart.toNat + s.v50.blkSize.toNat ∧ s.v50.blkBitSize.toNat ≤ s.posBit.toNat) := by
  simp only [pastEnd, Bool.or_eq_true, Bool.and_eq_true, decide_eq_true_eq]
  omega

theorem sizeReached_iff : sizeReached s = true ↔ s.cfgDeclaredSize.toNat ≤ produced s := decide_eq_true_iff

theorem sizeReached_eq_false (h : produced s < s.cfgDeclaredSize.toNat) : sizeReached s = false :=
  decide_eq_false (Nat.not_le.mpr h)

/-- Five bytes are there for the tail (R350). -/
theorem tailCtx_read (h : s.posByte.toNat + 5 ≤ s.input.length) : tailCtx s = .v20TailRead := if_pos h

theorem tailCtx_short (h : s.input.length < s.posByte.toNat + 5) :
    tailCtx s = if s.inEnded then .v20TailStop else .v20TailWait :=
  if_neg (Nat.not_le.mpr h)

end Rows

/-- Settles O18, by the equation of each row and what its tests say. -/
theorem dispatchTable : Obligations.DispatchTable := by
  intro s
  exact ⟨pastEnd_iff,
    dispatch_v50_init,
    fun hgen hphase hpast hlast => by simp [dispatch_v50_token hgen hphase, hpast, hlast],
    fun hgen hphase hpast hlast => by simp [dispatch_v50_token hgen hphase, hpast, hlast],
    fun hgen hphase hpast => by simp [dispatch_v50_token hgen hphase, hpast],
    dispatch_v29_init,
    dispatch_v29_tables,
    fun hgen hphase htype => by simp [dispatch_v29_token hgen hphase, htype],
    fun hgen hphase htype => by simp [dispatch_v29_token hgen hphase, htype],
    dispatch_v20_init,
    dispatch_v20_tables,
    fun hgen hphase hsize => by simp [dispatch_v20_token hgen hphase, sizeReached_iff.mpr hsize],
    fun hgen hphase hsize haudio => by simp [dispatch_v20_token hgen hphase, sizeReached_eq_false hsize, haudio],
    fun hgen hphase hsize haudio => by simp [dispatch_v20_token hgen hphase, sizeReached_eq_false hsize, haudio],
    fun hgen hphase hread => by rw [dispatch_v20_tail hgen hphase, tailCtx_read hread],
    fun hgen hphase hshort hended => by simp [dispatch_v20_tail hgen hphase, tailCtx_short hshort, hended],
    fun hgen hphase hshort hended => by simp [dispatch_v20_tail hgen hphase, tailCtx_short hshort, hended]⟩

end Sys2Proof.Machine
end

section
/-! Whose move a step is (43_gen_common.md R210 to R212): where the decoder core's move is taken, where the status or the
gate stops it, and that from the invariant it always answers a state. -/

namespace Sys2Proof.Machine

/-! ### Where the core stands still -/

section Still
variable {s : State}

/-- R210. -/
theorem coreMove_of_not_running (h : s.status ≠ .running) : coreMove s = none := if_pos h

/-- R212. -/
theorem coreMove_of_gate_closed (hgate : gateOpen s = false) (hrun : s.status = .running) (hdue : dispatch s ≠ none) :
    coreMove s = none := by
  obtain ⟨ctx, hctx⟩ := Option.ne_none_iff_exists'.mp hdue
  simp [coreMove, hrun, hctx, hgate]

/-- The gate compares FREE with MAXOUT (R212). -/
theorem gateOpen_iff {g : Gen} (hgen : s.cfgGen = some g) (hpending : pending s ≤ windowSize s) :
    gateOpen s = true ↔ maxOut g ≤ windowSize s - pending s := by
  simp only [gateOpen, hgen, decide_eq_true_eq]
  omega

/-- With nothing scheduled the core moves first, and the flush engine where the core has no step (log 1). -/
theorem step_of_no_events (h : s.events = []) : step s = (coreMove s).getD (.next (flushMove s)) := by
  simp only [step, h]

end Still

/-- Settles O16, by the equations of the core's move and of the step. -/
theorem gateAndStatusStopTheDecoder : Obligations.GateAndStatusStopTheDecoder := by
  refine fun s => ⟨coreMove_of_not_running, fun g hgen _ hpending => gateOpen_iff hgen hpending,
    coreMove_of_gate_closed, fun hevents hnone => ?_, fun rest hevents hnone => ?_⟩
  · rw [step_of_no_events hevents, hnone]
    rfl
  · rw [step_of_events hevents, eventMove, hnone]
    rfl

/-! ### Where the core moves -/

section Turn
variable {s u : State}

/-- The core moves next, from the state `u`: no event waits, or the oldest one is its move (log 1). -/
def CoreTurn (s u : State) : Prop :=
  (s.events = [] ∧ u = s) ∨ ∃ rest, s.events = .core :: rest ∧ u = { s with events := rest }

theorem CoreTurn.step_eq {o : Host.Outcome State Fault Refusal} (h : CoreTurn s u) (hmove : coreMove u = some o) :
    step s = o := by
  obtain ⟨hevents, rfl⟩ | ⟨rest, hevents, rfl⟩ := h
  · rw [step_of_no_events hevents, hmove]
    rfl
  · rw [step_of_events hevents, eventMove, hmove]
    rfl

/-- The state the core moves from is the state of the step but for the waiting moves. -/
theorem CoreTurn.exists_events (h : CoreTurn s u) : ∃ l, u = { s with events := l } := by
  obtain ⟨-, rfl⟩ | ⟨rest, -, rfl⟩ := h
  · exact ⟨u.events, rfl⟩
  · exact ⟨rest, rfl⟩

/-- In a running member with an open gate and the bits of the rule due, the core runs the instruction decoded (R211). -/
theorem coreMove_eq_exec {ctx : Ctx} {i : Instr} (hrun : s.status = .running) (hdue : dispatch s = some ctx)
    (hgate : gateOpen s = true) (hres : (fetch ctx s).res = .ok i) (hneed : (fetch ctx s).need ≤ availBits s) :
    coreMove s = some (advanceOutcome (fetch ctx s) (exec i s)) := by
  rw [coreMove_eq_settle hrun hdue hgate, settle, if_pos hneed, run, hres]

end Turn

/-- Settles O13: the step is the core's move, which is the instruction decoded and the advance behind its fields. -/
theorem stepRunsDecodedInstruction : Obligations.StepRunsDecodedInstruction := by
  intro s u (turn : CoreTurn s u)
  refine ⟨fun ctx i hrun hdue hgate hres _ hneed => ?_, fun o => turn.step_eq⟩
  have ran : step s = advanceOutcome (fetch ctx s) (exec i u) := by
    refine turn.step_eq ?_
    obtain ⟨l, rfl⟩ := turn.exists_events
    exact coreMove_eq_exec hrun hdue hgate hres hneed
  refine ⟨ran, fun t hexec hok => ?_⟩
  rw [ran, hexec, advanceOutcome, advance, if_neg hok]

/-! ### Every move answers a state -/

section Answers
variable {s : State}

theorem run_answers (d : Decoded) (s : State) : ∃ t, run d s = .next t := by
  unfold run
  split
  · exact exec_answers _ s
  · exact ⟨_, rfl⟩

/-- A running member is in a phase of its generation, so a row selects a rule (R214). -/
theorem Inv.dispatch_ne_none (h : Inv s) (hrun : s.status = .running) : dispatch s ≠ none := by
  obtain ⟨g, hgen⟩ := Option.ne_none_iff_exists'.mp (h.cfgGen_ne_none (memberActive_of_running hrun))
  exact Machine.dispatch_ne_none hgen ((phaseOk_iff hrun hgen).mp h.phase)

theorem Inv.coreMove_answers (h : Inv s) {o : Host.Outcome State Fault Refusal} (hmove : Machine.coreMove s = some o) :
    ∃ t, o = .next t := by
  obtain ⟨hrun, ⟨hdue, -⟩ | ⟨ctx, -, -, ⟨-, rfl⟩ | ⟨-, -, rfl⟩⟩⟩ := coreMove_cases hmove
  · exact absurd hdue (h.dispatch_ne_none hrun)
  · obtain ⟨t, ht⟩ := run_answers (fetch ctx s) s
    exact ⟨_, congrArg (advanceOutcome (fetch ctx s)) ht⟩
  · exact ⟨_, rfl⟩

/-- Where the core has no step, what moves in its place answers a state. -/
theorem Inv.coreMove_getD_answers (h : Inv s) (t : State) : ∃ t', (Machine.coreMove s).getD (.next t) = .next t' := by
  cases hmove : Machine.coreMove s with
  | none => exact ⟨t, rfl⟩
  | some o => exact h.coreMove_answers hmove

/-- A member start is accepted, or refused in the state it leaves (R404, R440, R444). -/
theorem memberStart_answers (g : Gen) (solid : Bool) (size : BitVec 64) (log2 : Nat) (s : State) :
    ∃ t, memberStart g solid size log2 s = .next t := by
  unfold memberStart execV15Stream
  dsimp only
  split_ifs <;> exact ⟨_, rfl⟩

theorem Inv.eventMove_answers (h : Inv s) (e : Event) : ∃ t, Machine.eventMove e s = .next t := by
  cases e with
  | memberStart g solid size log2 =>
    simp only [Machine.eventMove]
    split
    · exact memberStart_answers g solid size log2 s
    · exact ⟨s, rfl⟩
  | core => exact h.coreMove_getD_answers s
  | deliver | endInput | cancel | flush | sinkReady | flushLimit | filterAccept => exact ⟨_, rfl⟩

end Answers

/-- Settles O21, by the scheduled move, or the core's with the flush engine's in its place. -/
theorem stepNeverStops : Obligations.StepNeverStops := by
  intro s h
  cases hevents : s.events with
  | nil =>
    rw [step_of_no_events hevents]
    exact h.coreMove_getD_answers (flushMove s)
  | cons e rest =>
    rw [step_of_events hevents]
    exact (h.with_events rest).eventMove_answers e

end Sys2Proof.Machine
end

section
/-! The instructions of one effect (43_gen_common.md R216, R221; 47_v15.md R370): the literals put one byte, and the
member-ending ones end the member. -/

namespace Sys2Proof.Machine

/-! ### Literals -/

theorem exec_literal_eq_putByte {b : Byte} {s : State} {i : Instr}
    (hi : i ∈ [.v50Lit b, .v29Lit b, .v20Lit b, .ppmLit b] ∨ (∃ x, i = .ppmEscLit x ∧ b = s.v29.ppmEsc)) :
    exec i s = .next (putByte b s) := by
  obtain hlist | ⟨x, rfl, rfl⟩ := hi
  · simp only [List.mem_cons, List.not_mem_nil, or_false] at hlist
    obtain rfl | rfl | rfl | rfl := hlist <;> rfl
  · rfl

/-- Settles O38: a literal is PutByte of its byte, or of the escape byte. -/
theorem literalTokens : Obligations.LiteralTokens := fun b s _ hi =>
  ⟨putByte b s, exec_literal_eq_putByte hi, putByte_wrote b s, putByte_appended b s⟩

/-! ### The end of the member -/

theorem pending_eq_zero_iff {s : State} : pending s = 0 ↔ s.wrAbs.toNat ≤ s.flAbs.toNat := Nat.sub_eq_zero_iff_le

/-- R221 in terms of the cursors: only the status changes. -/
theorem endMember_eq (s : State) :
    endMember s = { s with status := if s.wrAbs.toNat ≤ s.flAbs.toNat then .done else .drain } := by
  simp only [endMember, pending_eq_zero_iff]

/-- What an instruction leaves that ends the member from the state `u`. -/
theorem exec_of_endMember {i : Instr} {s : State} (u : State) (h : exec i s = .next (endMember u)) :
    exec i s = .next { u with status := if u.wrAbs.toNat ≤ u.flAbs.toNat then .done else .drain } := by
  rw [h, endMember_eq]

/-- Settles O50: each of the instructions is EndMember, after the v29 write of TABLES_READ3, or the refusal of R404. -/
theorem memberEndsAndRefusal : Obligations.MemberEndsAndRefusal := fun s _ t =>
  ⟨exec_of_endMember s rfl, exec_of_endMember s rfl, exec_of_endMember s rfl, exec_of_endMember s rfl,
    exec_of_endMember { s with v29.tablesRead := !t } rfl, rfl⟩

end Sys2Proof.Machine
end

section
/-! The copies of v50 and of its neighbour v29 (44_v50.md R252 to R256, 45_v29.md R290, R291): every one is CopyMatch from a
state whose cache and LAST_LEN the token has set, with the length and the distance assembled from slots and extra bits. -/

namespace Sys2Proof.Machine

/-! ### Copies of at most WINDOW_SIZE bytes -/

section Copies
variable {len : Nat} {s : State}

theorem copyMatch_copyToken (h : legalWindow s) (hlen : len ≤ windowSize s) (dist : BitVec 64) :
    CopyToken len dist.toNat s (copyMatch len dist s) :=
  ⟨copyMatch_wrote len dist s, copyMatch_appended h dist hlen⟩

theorem copyNew_copyToken (h : legalWindow s) (hlen : len ≤ windowSize s) (dist : BitVec 64) :
    CopyToken len dist.toNat { s with lastLen := BitVec.ofNat 32 len } (copyNew len dist s) :=
  copyMatch_copyToken (s := setLastLen len s) h hlen dist

/-- The longest copy of any token is shorter than the smallest window (R27, R213). -/
theorem le_windowSize (h : legalWindow s) (hlen : len ≤ 4100) : len ≤ windowSize s := by
  have := (legal_size h).1
  omega

end Copies

/-- Settles O39: CopyMatch of LAST_LEN bytes, which are none while it is 0. -/
theorem repeatLastV50V29 : Obligations.RepeatLastV50V29 := by
  intro s i hi hlegal hlen
  have hexec : exec i s = .next (copyMatch s.lastLen.toNat s.oldDist.d0 s) := by
    rw [← copyLast_eq]
    obtain rfl | rfl := hi <;> rfl
  exact ⟨_, hexec, copyMatch_copyToken hlegal hlen _⟩

/-! ### Lengths and distances of v50 in terms of division -/

/-- A value below 4 in the low two bits of a 4 (R255). -/
theorem four_or_and_three (n : Nat) : 4 ||| (n &&& 3) = 4 + n % 4 := by
  have low : ∀ r < 4, 4 ||| r = 4 + r := by decide
  rw [Nat.and_two_pow_sub_one_eq_mod n 2]
  exact low _ (Nat.mod_lt _ (by decide))

theorem two_or_and_one (n : Nat) : 2 ||| (n &&& 1) = 2 + n % 2 := by
  have low : ∀ r < 2, 2 ||| r = 2 + r := by decide
  rw [Nat.and_one_is_mod]
  exact low _ (Nat.mod_lt _ (by decide))

theorem slotToLength_eq (slot extra : Nat) :
    slotToLength slot extra = if slot < 8 then slot + 2 else 2 + (4 + slot % 4) * 2 ^ (slot / 4 - 1) + extra := by
  unfold slotToLength lengthBits5
  split
  · rfl
  · rw [four_or_and_three, Nat.shiftLeft_eq]

theorem add_bonus5 (n dist : Nat) :
    n + bonus5 dist =
      n + (if 0x100 < dist then 1 else 0) + (if 0x2000 < dist then 1 else 0) + (if 0x40000 < dist then 1 else 0) := by
  simp only [bonus5, one, decide_eq_true_eq, gt_iff_lt, Nat.add_assoc]

/-- R256: without extra bits below slot 4, raw below 4 bits, and above with the low-distance symbol. -/
theorem distance5_eq {d : DistField} (h : d.wf5 = true) :
    distance5 d = if d.slot < 4 then 1 + d.slot
      else if d.slot / 2 - 1 < 4 then 1 + (2 + d.slot % 2) * 2 ^ (d.slot / 2 - 1) + d.extra
      else 1 + (2 + d.slot % 2) * 2 ^ (d.slot / 2 - 1) + d.extra * 16 + d.low.getD 0 := by
  by_cases hslot : d.slot < 4
  · have bits : distBits5 d.slot = 0 := if_pos hslot
    have extra : d.extra = 0 ∧ d.low = none := by simpa [DistField.wf5, bits] using (Bool.and_eq_true_iff.mp h).2
    simp [distance5, distBase5, bits, hslot, extra.1]
  · have bits : distBits5 d.slot = d.slot / 2 - 1 := if_neg hslot
    simp only [distance5, distBase5, bits, hslot, if_false, two_or_and_one, Nat.shiftLeft_eq]
    split <;> split <;> omega

/-- The last slot with all its bits set ends at 2 ^ 32 (R256). -/
theorem distance5_le {d : DistField} (h : d.wf5 = true) : distance5 d ≤ 2 ^ 32 := by
  simp only [DistField.wf5, Bool.and_eq_true, decide_eq_true_eq] at h
  obtain ⟨hslot, hfields⟩ := h
  have largest : ∀ n < 64, distBase5 n + 2 ^ distBits5 n ≤ 2 ^ 32 + 1 := by decide
  have := largest d.slot hslot
  unfold distance5
  split at hfields
  next hlow =>
    obtain ⟨hextra, hsymbol⟩ := Bool.and_eq_true_iff.mp hfields
    obtain ⟨l, hl, hlt⟩ : ∃ l, d.low = some l ∧ l < 16 := by simpa [Option.any_eq_true] using hsymbol
    have raw : 2 ^ distBits5 d.slot = 2 ^ (distBits5 d.slot - 4) * 16 := by
      rw [← Nat.pow_add (n := 4)]; congr 1; omega
    have hextra : d.extra < 2 ^ (distBits5 d.slot - 4) := of_decide_eq_true hextra
    rw [if_pos hlow, hl, Option.getD_some, Nat.shiftLeft_eq]
    omega
  next hlow =>
    have hextra := of_decide_eq_true (Bool.and_eq_true_iff.mp hfields).1
    rw [if_neg hlow]
    omega

/-! ### The tokens -/

/-- Settles O41: both tokens are a copy from the rotated cache; only the base of the length differs. -/
theorem repeatOldRotates : Obligations.RepeatOldRotates := by
  intro i slot extra s hlegal
  have token (n : Nat) (hn : n ≤ 4100) :=
    copyNew_copyToken (s := cacheRotate i s) hlegal (le_windowSize hlegal hn) (s.oldDist.get i)
  refine ⟨fun hwf => ?_, fun hwf => ⟨_, rfl, token _ ?_⟩⟩
  · have bound : slotToLength slot extra ≤ 4097 := slotToLength_le hwf
    rw [← slotToLength_eq]
    exact ⟨_, rfl, token _ (by omega)⟩
  · have bound : repeatLength slot extra ≤ 257 := repeatLength_le hwf
    unfold repeatLength at bound
    omega

/-- Settles O44: the length, the bonus and the distance are those of the model, whose match is a copy from the cache with the
distance inserted. -/
theorem matchV50 : Obligations.MatchV50 := by
  intro slot extra d s hlegal hwf
  obtain ⟨hlength, hdist⟩ := Bool.and_eq_true_iff.mp hwf
  have hlen : slotToLength slot extra + bonus5 (distance5 d) ≤ 4100 :=
    Nat.add_le_add (slotToLength_le hlength) (bonus5_le (distance5 d))
  obtain ⟨hpos, hword⟩ := distance5_storable hdist
  have stored : (BitVec.ofNat 64 (distance5 d)).toNat = distance5 d := Nat.mod_eq_of_lt hword
  have token := copyNew_copyToken (s := cacheInsert (BitVec.ofNat 64 (distance5 d)) s) hlegal (le_windowSize hlegal hlen)
    (BitVec.ofNat 64 (distance5 d))
  rw [stored] at token
  dsimp only
  rw [← slotToLength_eq, ← distance5_eq hdist, ← add_bonus5]
  exact ⟨hlen, hpos, distance5_le hdist, _, rfl, token⟩

end Sys2Proof.Machine
end

section
/-! The block headers of v50 (44_v50.md R241 to R248): the checks in stream order, the registers a legal header writes, and
the tables one with tables builds. -/

namespace Sys2Proof.Machine

/-! ### The header's fields in terms of division -/

theorem headerByteCount_eq (flags : BitVec 8) : headerByteCount flags = flags.toNat / 8 % 4 + 1 := by
  rw [headerByteCount, Nat.shiftRight_eq_div_pow, Nat.and_two_pow_sub_one_eq_mod _ 2]

theorem check5_eq (flags : BitVec 8) (size : Nat) :
    check5 flags size = (0x5A ^^^ flags.toNat ^^^ size ^^^ (size / 2 ^ 8) ^^^ (size / 2 ^ 16)) % 256 := by
  rw [check5, Nat.shiftRight_eq_div_pow, Nat.shiftRight_eq_div_pow, Nat.and_two_pow_sub_one_eq_mod _ 8]

theorem alignByte_div (p : Nat) : alignByte p / 8 = (p + 7) / 8 := by
  unfold alignByte
  split <;> omega

theorem headerEnd_eq (p : Nat) (h : BlockHeader) : headerEnd p h = (p + 7) / 8 + 2 + (h.flags.toNat / 8 % 4 + 1) := by
  rw [headerEnd, alignByte_div, headerByteCount_eq]

/-- The block registers of R242, in the terms of the statements. -/
theorem setBlock_eq (h : BlockHeader) (s : State) :
    setBlock h s = { s with
      v50.blkStart := BitVec.ofNat 64 ((bitPos s + 7) / 8 + 2 + (h.flags.toNat / 8 % 4 + 1))
      v50.blkSize := h.size
      v50.blkBitSize := BitVec.ofNat 4 (h.flags.toNat % 8 + 1)
      v50.blkLast := h.flags.getLsbD 6
      v50.blkTables := h.flags.getLsbD 7 } := by
  rw [setBlock, headerEnd_eq, Nat.and_two_pow_sub_one_eq_mod _ 3]

/-! ### The checks, and what follows them -/

section Headers
variable {h : BlockHeader} {s t : State}

theorem blockHeader_reserved (hcount : headerByteCount h.flags = 4) (s : State) : blockHeader h s = .error .e3 := if_pos hcount

theorem blockHeader_checksum (hcount : headerByteCount h.flags ≠ 4)
    (hcheck : h.check.toNat ≠ check5 h.flags h.size.toNat) (s : State) : blockHeader h s = .error .e3 := by
  rw [blockHeader, if_neg hcount, if_pos hcheck]

theorem blockHeader_eq_setBlock (hcount : headerByteCount h.flags ≠ 4)
    (hcheck : h.check.toNat = check5 h.flags h.size.toNat) (hbit : h.flags.getLsbD 7 = false) (s : State) :
    blockHeader h s = .ok (setBlock h s) := by
  rw [blockHeader, if_neg hcount, if_neg (not_not.mpr hcheck), hbit]
  rfl

/-- Both header steps commit what the header writes once a v50 table has been read, and the first one moves to TOKEN. -/
theorem exec_header_of_ok (hheader : blockHeader h s = .ok t) (htables : t.v50.tablesRead = true) :
    exec (.v50NextBlock h) s = .next t ∧ exec (.v50FirstHeader h) s = .next { t with phase := .token } := by
  have required : requireTables5 t = .ok t := if_pos htables
  constructor
  · show outcome s (blockHeader h s >>= requireTables5) = .next t
    rw [hheader]
    exact congrArg (outcome s) required
  · show outcome s (blockHeader h s >>= fun t => requireTables5 t >>= fun u => .ok (setPhase .token u)) = _
    rw [hheader]
    exact congrArg (fun r => outcome s (r >>= fun u => .ok (setPhase .token u))) required

/-- Both header steps raise E4 after a header that leaves no v50 table read (R246). -/
theorem exec_header_of_no_tables {i : Instr} (hi : i = .v50FirstHeader h ∨ i = .v50NextBlock h)
    (hheader : blockHeader h s = .ok t) (htables : t.v50.tablesRead = false) : exec i s = .next (errorState .e4 s) := by
  have required : requireTables5 t = .error .e4 := if_neg (by rw [htables]; decide)
  obtain rfl | rfl := hi
  · show outcome s (blockHeader h s >>= fun t => requireTables5 t >>= fun u => .ok (setPhase .token u)) = _
    rw [hheader]
    exact outcome_bind_error required fun u => .ok (setPhase .token u)
  · show outcome s (blockHeader h s >>= requireTables5) = _
    rw [hheader]
    exact congrArg (outcome s) required

end Headers

/-- Settles O30: the reserved count, then the checksum, then the table a block needs. -/
theorem blockHeaderErrors : Obligations.BlockHeaderErrors := by
  intro h s i hi
  refine ⟨fun hcount => ?_, fun hcount hcheck => ?_, fun hcount hcheck hbit hread => ?_⟩
  · exact blockHeader_raises hi s _ (blockHeader_reserved hcount s)
  · rw [← check5_eq] at hcheck
    exact blockHeader_raises hi s _ (blockHeader_checksum hcount hcheck s)
  · exact exec_header_of_no_tables hi (blockHeader_eq_setBlock hcount hcheck hbit s) hread

/-- Settles O51: the header writes the block registers, and the tables read before stay. -/
theorem blockHeaderWithoutTables : Obligations.BlockHeaderWithoutTables := by
  intro h s hcount hcheck hbit hread
  have hheader := blockHeader_eq_setBlock hcount hcheck hbit s
  rw [setBlock_eq, hbit] at hheader
  exact exec_header_of_ok hheader hread

/-! ### A header with tables -/

/-- A description whose five arrays are accepted is read (R245): the tables are those `BuildTable` makes of the pre-lengths and
of the segments of the length array. -/
theorem readTables5_ok {d : TableDesc5} {t : List Len} {bd ld dd ldd rd : HuffTable} (hwf : d.wf 430 = true)
    (hbd : buildTable (preLengths d.pre) = .ok bd) (hlens : lengths5 430 [] [] d.lens = .ok t)
    (hld : buildTable (t.take 306) = .ok ld) (hdd : buildTable ((t.drop 306).take 64) = .ok dd)
    (hldd : buildTable ((t.drop 370).take 16) = .ok ldd) (hrd : buildTable (t.drop 386) = .ok rd) (s : State) :
    readTables5 d s = .ok { s with
      v50 := { s.v50 with ld := ld, dd := dd, ldd := ldd, rd := rd, bd := bd, tablesRead := true }
      desc := Desc.closed } := by
  have length : t.length = 430 := TableDesc5_wf_length hwf hbd hlens
  have segment (a n : Nat) (h : a + n ≤ 430) : (t.drop a).take n = lensSlice t a n := (lensSlice_eq (h.trans length.ge)).symm
  have first : t.take 306 = lensSlice t 0 306 := segment 0 306 (by decide)
  have last : t.drop 386 = lensSlice t 386 44 := by
    rw [← segment 386 44 (by decide), List.take_of_length_le (by rw [List.length_drop, length])]
  rw [first] at hld
  rw [segment 306 64 (by decide)] at hdd
  rw [segment 370 16 (by decide)] at hldd
  rw [last] at hrd
  simp only [readTables5_eq, lensSlice_pre (TableDesc5_wf_pre hwf), hbd, hlens, hld, hdd, hldd, hrd, bind, Except.bind]

/-- The description of a well-formed header with tables is well-formed (R96). -/
theorem BlockHeader_wf_tables {h : BlockHeader} {d : TableDesc5} (hwf : h.wf = true)
    (hcount : headerByteCount h.flags ≠ 4) (hcheck : h.check.toNat = check5 h.flags h.size.toNat)
    (hbit : h.flags.getLsbD 7 = true) (htables : h.tables = some d) : d.wf 430 = true := by
  simp only [BlockHeader.wf, hcount, hcheck, hbit, htables] at hwf
  simpa using (Bool.and_eq_true_iff.mp hwf).2

/-- Settles O52: the header writes the block registers, and its description is read into all five tables. -/
theorem blockHeaderWithTables : Obligations.BlockHeaderWithTables := by
  intro h d s t bd ld dd ldd rd hwf hcheck hcount hbit htables hbd hlens hld hdd hldd hrd
  have hdesc := BlockHeader_wf_tables hwf hcount hcheck hbit htables
  have hheader := blockHeader_eq_readTables5 hcount hcheck hbit htables s
  rw [readTables5_ok hdesc hbd hlens hld hdd hldd hrd, setBlock_eq, hbit] at hheader
  exact exec_header_of_ok hheader rfl

end Sys2Proof.Machine
end

section
/-! The filter tokens (44_v50.md R251, R258, R259; 45_v29.md R289, R300): an accepted one appends its descriptor to FILT. -/

namespace Sys2Proof.Machine

/-- R72: the scheduler accepts, and the descriptor is all that is written. -/
theorem emitFilter_accepted {s : State} (h : s.filterAccept = true) (d : FilterDesc) :
    emitFilter d s = .ok { s with filt := s.filt ++ [d] } := if_pos h

/-- The descriptor of well-formed fields, whose channel field is there exactly with type 0 (R258). -/
theorem v50FilterDesc_eq {f : FilterFields} (h : f.wf = true) (s : State) :
    v50FilterDesc f s = .v50Filter f.start (s.wrAbs + f.start.setWidth 64)
      (if f.length.toNat > 0x400000 then 0 else f.length) f.type (f.channels.map fun c => c.toNat + 1) s.wrAbs := by
  have present : f.channels.isSome = (f.type == 0) := beq_iff_eq.mp (Bool.and_eq_true_iff.mp h).2
  have channels : (if f.type = 0 then some ((f.channels.getD 0).toNat + 1) else none) =
      f.channels.map fun c => c.toNat + 1 := by
    cases hchannels : f.channels with
    | none =>
      rw [hchannels] at present
      exact if_neg (beq_eq_false_iff_ne.mp present.symm)
    | some c =>
      rw [hchannels] at present
      exact if_pos (beq_iff_eq.mp present.symm)
  rw [v50FilterDesc, channels]
  rfl

/-- A VM-code token that holds code is no E5 (R289). -/
theorem emitVmCode_of_code {v : VmCode} (hwf : v.wf = true) (hcode : v.code ≠ []) (source : BlockType) (s : State) :
    emitVmCode v source s = emitFilter (vmCodeDesc v source s) s := by
  have length : v.code.length = vmLength v.first v.ext := beq_iff_eq.mp (Bool.and_eq_true_iff.mp hwf).2
  exact if_neg (length ▸ mt List.length_eq_zero_iff.mp hcode)

/-- Settles O48: each token is the emission of its descriptor, which is accepted. -/
theorem filterTokens : Obligations.FilterTokens := by
  refine ⟨fun f s hwf haccept => ?_, fun v s hwf hcode haccept => ?_⟩
  · rw [← v50FilterDesc_eq hwf]
    exact congrArg (outcome s) (emitFilter_accepted haccept _)
  · have token (source : BlockType) : emitVmCode v source s = .ok { s with filt := s.filt ++ [vmCodeDesc v source s] } := by
      rw [emitVmCode_of_code hwf hcode, emitFilter_accepted haccept]
    exact ⟨congrArg (outcome s) (token .lz), congrArg (outcome s) (token .ppm)⟩

end Sys2Proof.Machine
end

section
/-! R213: whatever state it starts in, an instruction of a generation moves the write cursor by at most MAXOUT, and leaves in
LAST_LEN at most MAXOUT. -/

namespace Sys2Proof.Machine

/-- The step's writes and LAST_LEN stay within MAXOUT (R213). -/
def WritesWithin (g : Gen) (s t : State) : Prop :=
  (∃ n, n ≤ maxOut g ∧ t.wrAbs = s.wrAbs + BitVec.ofNat 64 n) ∧ t.lastLen.toNat ≤ maxOut g

section WritesWithin
variable {g : Gen} {len : Nat} {dist : BitVec 64} {s t u : State}

/-- `u` has the write cursor of `s`, and a LAST_LEN within MAXOUT. -/
structure BeforeWrite (g : Gen) (s u : State) : Prop where
  wrAbs : u.wrAbs = s.wrAbs
  lastLen : u.lastLen.toNat ≤ maxOut g

theorem BeforeWrite.writesWithin (h : BeforeWrite g s u) : WritesWithin g s u :=
  ⟨⟨0, Nat.zero_le _, by simp [h.wrAbs]⟩, h.lastLen⟩

theorem BeforeWrite.putByte (h : BeforeWrite g s u) {b : Byte} (hg : 1 ≤ maxOut g) : WritesWithin g s (putByte b u) :=
  ⟨⟨1, hg, by rw [putByte_wrAbs, h.wrAbs]; rfl⟩, h.lastLen⟩

theorem BeforeWrite.copyMatch (h : BeforeWrite g s u) (hlen : len ≤ maxOut g) :
    WritesWithin g s (copyMatch len dist u) :=
  ⟨⟨len, hlen, by rw [copyMatch_wrAbs, h.wrAbs]⟩, by rw [copyMatch_lastLen]; exact h.lastLen⟩

theorem copyNew_writesWithin (hwr : u.wrAbs = s.wrAbs) (hlen : len ≤ maxOut g) :
    WritesWithin g s (copyNew len dist u) := by
  have short : (setLastLen len u).lastLen.toNat ≤ maxOut g := by
    rw [setLastLen_lastLen, BitVec.toNat_ofNat]
    exact (Nat.mod_le ..).trans hlen
  exact BeforeWrite.copyMatch (u := setLastLen len u) ⟨hwr, short⟩ hlen

theorem copy20_writesWithin (hlen : len ≤ maxOut g) : WritesWithin g s (copy20 len dist s) :=
  copyNew_writesWithin (u := cacheInsert dist s) rfl hlen

/-- A step that only updates registers, raises an error or ends the member writes no byte. -/
theorem Effect.writesWithin (h : Effect (Update g s) s t) (hlast : s.lastLen.toNat ≤ maxOut g) : WritesWithin g s t := by
  refine BeforeWrite.writesWithin ?_
  cases h with
  | raises _ => exact ⟨rfl, hlast⟩
  | commits hu => exact ⟨hu.wrAbs, hu.lastLen ▸ hlast⟩
  | ends hu => exact ⟨hu.wrAbs, hu.lastLen ▸ hlast⟩

end WritesWithin

/-- R213, instruction by instruction: a literal writes one byte, a copy its length, anything else none. -/
theorem exec_writesWithin {g : Gen} {i : Instr} {s t : State} (hfits : Fits g i) (hlast : s.lastLen.toNat ≤ maxOut g)
    (h : exec i s = .next t) : WritesWithin g s t := by
  have start : BeforeWrite g s s := ⟨rfl, hlast⟩
  cases i with
  | v50FirstHeader hd => cases hfits; exact (execV50FirstHeader_effect h).writesWithin hlast
  | v50NextBlock hd => cases hfits; exact (execV50NextBlock_effect h).writesWithin hlast
  | v29Tables hd => cases hfits; exact (execV29Tables_effect h).writesWithin hlast
  | v29Eob e => cases hfits; exact (execV29Eob_effect h).writesWithin hlast
  | v20Tables hd =>
    obtain ⟨rfl, hpre⟩ := hfits
    exact (execV20Tables_effect hpre.le h).writesWithin hlast
  | v20Tail probe =>
    obtain ⟨rfl, hpre⟩ := hfits
    exact (execV20Tail_effect (fun hd hprobe => (hpre hd hprobe).le) h).writesWithin hlast
  | v50Filter f => exact (outcome_effect h (emitFilter_yields g _ s)).writesWithin hlast
  | v29VmCode v | ppmEscVmCode v => exact (outcome_effect h (emitVmCode_yields g v _ s)).writesWithin hlast
  | v29Init | v20Init | v20SizeDone | v20Reload | v20AudReload | ppmEscReload | v50End | ppmEscEnd =>
    cases h
    exact BeforeWrite.writesWithin ⟨rfl, hlast⟩
  | v50Lit | v29Lit | v20Lit | ppmLit | ppmEscLit => cases hfits; cases h; exact start.putByte (by decide)
  | v20AudSample delta =>
    cases hfits; cases h
    obtain ⟨b, hsample⟩ := audioSample_update delta s
    obtain ⟨moved, last⟩ := start.putByte (b := b) (by decide)
    rw [← hsample.wrAbs] at moved
    rw [← hsample.lastLen] at last
    exact ⟨moved, last⟩
  | v50RepLast | v29RepLast =>
    cases h
    rw [copyLast_eq]
    exact start.copyMatch hlast
  | v20RepLast => cases h; exact copy20_writesWithin hlast
  | v50RepOld j slot extra =>
    obtain ⟨rfl, hlength⟩ := hfits
    cases h
    have := slotToLength_le hlength
    exact copyNew_writesWithin rfl (by rw [maxOut]; omega)
  | v29RepOld j slot extra =>
    obtain ⟨rfl, hlength⟩ := hfits
    cases h
    have := repeatLength_le hlength
    exact copyNew_writesWithin rfl (by rw [maxOut]; omega)
  | v20RepOld j slot extra =>
    obtain ⟨rfl, hlength⟩ := hfits
    cases h
    have := repeatLength_le hlength
    have := bonusRepeat2_le (s.oldDist.get j).toNat
    exact copy20_writesWithin (by rw [maxOut]; omega)
  | v29Short n extra => cases hfits; cases h; exact copyNew_writesWithin rfl (by decide)
  | v20Short n extra => cases hfits; cases h; exact copy20_writesWithin (by decide)
  | v50Match slot extra d =>
    obtain ⟨rfl, hlength⟩ := hfits
    cases h
    have := slotToLength_le hlength
    have := bonus5_le (distance5 d)
    exact copyNew_writesWithin rfl (by rw [maxOut]; omega)
  | v29Match slot extra d =>
    obtain ⟨rfl, hlength⟩ := hfits
    cases h
    have := matchLength_le hlength
    have := bonus3_le (rawDistance3 d + (lowDistance3 d s).1)
    exact copyNew_writesWithin (lowDistance3_update .v29 s d).wrAbs (by rw [maxOut]; omega)
  | v20Match slot extra dslot dextra =>
    obtain ⟨rfl, hlength⟩ := hfits
    cases h
    have := matchLength_le hlength
    have := bonus3_le (distBase dslot + 1 + dextra)
    exact copy20_writesWithin (by rw [maxOut]; omega)
  | ppmEscLz d2 d1 d0 l =>
    cases hfits; cases h
    have := l.isLt
    exact start.copyMatch (by rw [maxOut]; omega)
  | ppmEscRle l =>
    cases hfits; cases h
    have := l.isLt
    exact start.copyMatch (by rw [maxOut]; omega)
  | v15Stream | pl4eLen | pl4eEsc | pl4Len | len5Lit | len5Rep3 | len5Rep7 | len5Zero3 | len5Zero7 | len2Lit | len2Rep2
  | len2Zero3 | len2Zero7 => exact hfits.elim

/-- Settles O26: what a rule decodes under tables of `BuildTable` fits its generation, and such an instruction stays within
MAXOUT. -/
theorem tokenWritesAtMostMaxOut : Obligations.TokenWritesAtMostMaxOut := by
  rintro g i s t ⟨ctx, env, rfl, z, p, henv, hdecoded⟩ hlast hexec
  exact exec_writesWithin ((decodeIn_forms (canonicalEnv_of_envOk henv) ctx z p).fits hdecoded) hlast hexec

end Sys2Proof.Machine
end

section
/-! The copies of v29 and of its neighbour v20 that insert a distance, and the two of the PPM block type (45_v29.md R292 to R295,
R301, R302; 46_v20.md R339): the match by the four cases of its low distance bits. -/

namespace Sys2Proof.Machine

/-! ### A copy at a distance the token inserts -/

/-- The copy of the tokens that insert a new distance (R218), at that distance as a number. -/
theorem copyNew_cacheInsert_copyToken {len dist : Nat} {s : State} (h : legalWindow s) (hlen : len ≤ 4100)
    (hdist : Storable dist) :
    CopyToken len dist
      { s with oldDist := s.oldDist.insert (BitVec.ofNat 64 dist), lastLen := BitVec.ofNat 32 len }
      (copyNew len (BitVec.ofNat 64 dist) (cacheInsert (BitVec.ofNat 64 dist) s)) := by
  have stored : (BitVec.ofNat 64 dist).toNat = dist := Nat.mod_eq_of_lt hdist.2
  have token := copyNew_copyToken (s := cacheInsert (BitVec.ofNat 64 dist) s) h (le_windowSize h hlen)
    (BitVec.ofNat 64 dist)
  rwa [stored] at token

/-! ### Short matches -/

/-- R281: the last slot with all its bits set ends at 256. -/
theorem shortDistance_le {n : Fin 8} {extra : Nat} (h : extra < 2 ^ shortBits n.val) : shortDistance n.val extra ≤ 256 := by
  have largest : ∀ k < 8, sdDecode.getD k 0 + 2 ^ shortBits k ≤ 256 := by decide
  have := largest n.val n.isLt
  unfold shortDistance
  omega

/-- Settles O43: both generations copy two bytes at the distance of the slot, which they have inserted. -/
theorem shortMatches : Obligations.ShortMatches := by
  intro n extra s i hi hlegal hwf
  have hextra : extra < 2 ^ shortBits n.val := by
    obtain rfl | rfl := hi <;> exact of_decide_eq_true hwf
  have hexec : exec i s = .next (copyNew 2 (BitVec.ofNat 64 (shortDistance n.val extra))
      (cacheInsert (BitVec.ofNat 64 (shortDistance n.val extra)) s)) := by
    obtain rfl | rfl := hi <;> rfl
  have hdist := shortDistance_storable hextra
  exact ⟨hdist.1, shortDistance_le hextra, _, hexec, copyNew_cacheInsert_copyToken hlegal (by decide) hdist⟩

/-! ### The low bits of a v29 distance -/

/-- The registers of R294: the low part kept for a repeat, and how many repeats are left. -/
def setLowState (prev rep : BitVec 4) (s : State) : State :=
  { s with v29.prevLowDist := prev, v29.lowDistRep := rep }

section LowDistance
variable {d : DistField} {s : State}

theorem splitsLow3_of_le (h : d.slot ≤ 9) : splitsLow3 d.slot = false := by
  simp [splitsLow3, h]

/-- R281, R294: every slot above 9 has extra bits. -/
theorem splitsLow3_of_lt (hwf : d.wf3 = true) (h : 9 < d.slot) : splitsLow3 d.slot = true := by
  simp only [DistField.wf3, Bool.and_eq_true, decide_eq_true_eq] at hwf
  obtain ⟨⟨hslot, -⟩, -⟩ := hwf
  have split : ∀ n < 60, 9 < n → splitsLow3 n = true := by decide
  exact split d.slot hslot h

theorem rawDistance3_of_whole (h : splitsLow3 d.slot = false) : rawDistance3 d = distBase d.slot + 1 + d.extra := by
  rw [rawDistance3, h]
  rfl

theorem rawDistance3_of_split (h : splitsLow3 d.slot = true) :
    rawDistance3 d = distBase d.slot + 1 + d.extra * 16 := by
  rw [rawDistance3, if_pos h, Nat.shiftLeft_eq]

/-- No low bits are split off: nothing is added, and no register written. -/
theorem lowDistance3_of_whole (h : splitsLow3 d.slot = false) :
    lowDistance3 d s = (0, setLowState s.v29.prevLowDist s.v29.lowDistRep s) := by
  rw [lowDistance3, h]
  rfl

/-- A repeat is in progress: the kept low part is added, and one repeat used up. -/
theorem lowDistance3_of_repeat (h : splitsLow3 d.slot = true) (hrep : s.v29.lowDistRep ≠ 0) :
    lowDistance3 d s =
      (s.v29.prevLowDist.toNat, setLowState s.v29.prevLowDist (s.v29.lowDistRep - 1) s) := by
  rw [lowDistance3, if_pos h, if_pos hrep]
  rfl

/-- The repeat code 16 starts a repeat, of which this token is the first. -/
theorem lowDistance3_of_code (h : splitsLow3 d.slot = true) (hrep : s.v29.lowDistRep = 0) (hlow : d.low = some 16) :
    lowDistance3 d s = (s.v29.prevLowDist.toNat, setLowState s.v29.prevLowDist 15 s) := by
  rw [lowDistance3, if_pos h, if_neg (not_not.mpr hrep), hlow]
  rfl

/-- A low-distance symbol is added, and kept. -/
theorem lowDistance3_of_symbol (h : splitsLow3 d.slot = true) (hrep : s.v29.lowDistRep = 0) {l : Nat} (hl : l < 16)
    (hlow : d.low = some l) :
    lowDistance3 d s = (l, setLowState (BitVec.ofNat 4 l) s.v29.lowDistRep s) := by
  rw [lowDistance3, if_pos h, if_neg (not_not.mpr hrep), hlow, Option.getD_some, if_neg hl.ne]
  rfl

end LowDistance

/-! ### The match -/

theorem add_bonus3 (n dist : Nat) :
    n + bonus3 dist = n + (if 0x2000 ≤ dist then 1 else 0) + (if 0x40000 ≤ dist then 1 else 0) := by
  simp only [bonus3, one, decide_eq_true_eq, ge_iff_le, Nat.add_assoc]

/-- A v29 match, for what R294 makes of its low bits: the length with its bonus, the distance inserted and the copy. -/
theorem v29Match_copyToken {slot extra low : Nat} {d : DistField} {s : State} {prev rep : BitVec 4} (hlegal : legalWindow s)
    (hwf : (Instr.v29Match slot extra d).wf = true) (hlow : lowDistance3 d s = (low, setLowState prev rep s))
    {dist : Nat} (hdist : rawDistance3 d + low = dist) :
    let len := lengthBase slot + 3 + extra + (if 0x2000 ≤ dist then 1 else 0) + (if 0x40000 ≤ dist then 1 else 0)
    ∃ t, exec (.v29Match slot extra d) s = .next t ∧
      CopyToken len dist
        { s with
          oldDist := s.oldDist.insert (BitVec.ofNat 64 dist), lastLen := BitVec.ofNat 32 len
          v29.prevLowDist := prev, v29.lowDistRep := rep } t := by
  obtain ⟨hlength, hfield⟩ := Bool.and_eq_true_iff.mp hwf
  have storable : Storable dist := by
    have := distance3_storable hfield s
    rwa [hlow, hdist] at this
  have hlen : matchLength slot extra + bonus3 dist ≤ 4100 := by
    have := matchLength_le hlength
    have := bonus3_le dist
    omega
  have hexec : exec (.v29Match slot extra d) s = .next (copyNew (matchLength slot extra + bonus3 dist)
      (BitVec.ofNat 64 dist) (cacheInsert (BitVec.ofNat 64 dist) (setLowState prev rep s))) := by
    show execV29Match slot extra d s = _
    simp only [execV29Match, hlow, hdist]
  dsimp only
  rw [← add_bonus3]
  exact ⟨_, hexec, copyNew_cacheInsert_copyToken (s := setLowState prev rep s) hlegal hlen storable⟩

/-- Settles O45: the four cases of R294 give the low part and its registers, and the match goes on with them. -/
theorem matchV29 : Obligations.MatchV29 := by
  intro slot extra d s hlegal hwf
  have hfield : d.wf3 = true := (Bool.and_eq_true_iff.mp hwf).2
  refine ⟨fun hslot => ?whole, fun hslot hrep _ => ?inProgress, fun hslot hrep hlow => ?code,
    fun hslot hrep l hl hlow => ?symbol⟩
  case whole =>
    have hsplit := splitsLow3_of_le hslot
    exact v29Match_copyToken hlegal hwf (lowDistance3_of_whole hsplit) (rawDistance3_of_whole hsplit)
  case inProgress =>
    have hsplit := splitsLow3_of_lt hfield hslot
    have hne : s.v29.lowDistRep ≠ 0 := fun hzero => hrep.ne' (congrArg BitVec.toNat hzero)
    exact v29Match_copyToken hlegal hwf (lowDistance3_of_repeat hsplit hne) (by rw [rawDistance3_of_split hsplit])
  case code =>
    have hsplit := splitsLow3_of_lt hfield hslot
    exact v29Match_copyToken hlegal hwf (lowDistance3_of_code hsplit hrep hlow) (by rw [rawDistance3_of_split hsplit])
  case symbol =>
    have hsplit := splitsLow3_of_lt hfield hslot
    exact v29Match_copyToken hlegal hwf (lowDistance3_of_symbol hsplit hrep hl hlow) (by rw [rawDistance3_of_split hsplit])

/-! ### The copies of the PPM block type -/

theorem bigEndian_three (b2 b1 b0 : Byte) :
    bigEndian [b2, b1, b0] = b2.toNat * 2 ^ 16 + b1.toNat * 2 ^ 8 + b0.toNat := by
  simp only [bigEndian, List.foldl_cons, List.foldl_nil]
  omega

/-- Settles O47: both are CopyMatch alone, of at most 287 bytes. -/
theorem ppmCopies : Obligations.PpmCopies := by
  intro d2 d1 d0 l s hlegal
  have hl := l.isLt
  have copies (len : Nat) (hlen : len ≤ 287) (dist : BitVec 64) : CopyToken len dist.toNat s (copyMatch len dist s) :=
    copyMatch_copyToken hlegal (le_windowSize hlegal (by omega)) dist
  have stored : (BitVec.ofNat 64 (bigEndian [d2, d1, d0] + 2)).toNat =
      d2.toNat * 2 ^ 16 + d1.toNat * 2 ^ 8 + d0.toNat + 2 := by
    have := d2.isLt
    have := d1.isLt
    have := d0.isLt
    rw [bigEndian_three, BitVec.toNat_ofNat]
    omega
  rw [← stored]
  exact ⟨⟨_, rfl, copies _ (by omega) _⟩, ⟨_, rfl, copies _ (by omega) 1⟩⟩

end Sys2Proof.Machine
end

section
/-! The v29 table header (45_v29.md R283 to R286): the tables one of the LZ block type builds, and the escape byte one of the
PPM block type takes. -/

namespace Sys2Proof.Machine

/-! ### The first and the last segment of a length array -/

theorem lensSlice_eq_take {t : List Len} {n : Nat} (h : n ≤ t.length) : lensSlice t 0 n = t.take n := by
  rw [lensSlice_eq (by omega), List.drop_zero]

theorem lensSlice_eq_drop {t : List Len} {a n : Nat} (h : a + n = t.length) : lensSlice t a n = t.drop a := by
  rw [lensSlice_eq h.le, List.take_of_length_le (by rw [List.length_drop]; omega)]

/-! ### The read -/

/-- A description whose five arrays are accepted is read (R285, R286): the tables are those `BuildTable` makes of the
pre-lengths and of the segments of the length array, which becomes the old one. -/
theorem readTables3_ok {d : TableDesc5} {s : State} {t : List Len} {bd ld dd ldd rd : HuffTable} (hwf : d.wf 404 = true)
    (hbd : buildTable (preLengths d.pre) = .ok bd) (hlens : lengths5 404 s.v29.oldLens [] d.lens = .ok t)
    (hld : buildTable (t.take 299) = .ok ld) (hdd : buildTable ((t.drop 299).take 60) = .ok dd)
    (hldd : buildTable ((t.drop 359).take 17) = .ok ldd) (hrd : buildTable (t.drop 376) = .ok rd) :
    readTables3 d s = .ok { s with
      v29 := { s.v29 with
        ld := ld, dd := dd, ldd := ldd, rd := rd, bd := bd, tablesRead := true, oldLens := t }
      desc := Desc.closed } := by
  have length : t.length = 404 := TableDesc5_wf_length hwf hbd hlens
  rw [← lensSlice_eq_take (by omega)] at hld
  rw [← lensSlice_eq (by omega)] at hdd hldd
  rw [← lensSlice_eq_drop (n := 28) (by omega)] at hrd
  simp only [readTables3_eq, lensSlice_pre (TableDesc5_wf_pre hwf), lensSlice_all length, hbd, hlens, hld, hdd, hldd, hrd,
    bind, Except.bind]

/-- A header of the LZ block type that reads its tables moves to TOKEN (R283). -/
theorem exec_v29Tables_of_ok {keep : Bool} {d : TableDesc5} {s t : State}
    (h : readTables3 d (startTables3 keep s) = .ok t) :
    exec (.v29Tables (.lz keep d)) s = .next { t with phase := .token } :=
  congrArg (fun r => outcome s (r >>= fun u => .ok (setPhase .token u))) h

/-- Settles O53: the LZ form reads its tables after the writes of R283; the PPM form is its three register writes. -/
theorem v29TableRead : Obligations.V29TableRead := by
  refine ⟨fun keep d s t bd ld dd ldd rd hwf hbd hlens hld hdd hldd hrd => ?_, fun esc s => rfl⟩
  exact exec_v29Tables_of_ok (readTables3_ok (s := startTables3 keep s) hwf hbd hlens hld hdd hldd hrd)

end Sys2Proof.Machine
end

section
/-! The base tables of v29 and v20 (45_v29.md R281). -/

namespace Sys2Proof.Machine

/-- R281: the distance bases, each the base before it plus 2 to its bit count. -/
theorem dDecode_generated : ∀ n < 59, dDecode.getD (n + 1) 0 = dDecode.getD n 0 + 2 ^ dBits.getD n 0 := by decide

/-- The length bases by the same rule. -/
theorem lDecode_generated : ∀ n < 27, lDecode.getD (n + 1) 0 = lDecode.getD n 0 + 2 ^ lBits.getD n 0 := by decide

/-- The short-distance bases by the same rule. -/
theorem sdDecode_generated : ∀ n < 7, sdDecode.getD (n + 1) 0 = sdDecode.getD n 0 + 2 ^ sdBits.getD n 0 := by decide

/-- Settles O29: the three recurrences; lengths, first entries, bit counts and the largest distance are read off the tables. -/
theorem baseTablesAreGenerated : Obligations.BaseTablesAreGenerated :=
  ⟨rfl, rfl, rfl, dDecode_generated, rfl, rfl, rfl, rfl, lDecode_generated, rfl, rfl, rfl, sdDecode_generated, rfl⟩

end Sys2Proof.Machine
end

section
/-! The errors of the coder's start and of the filter tokens (45_v29.md R284, R289, R300; 60_exceptions.md R420). -/

namespace Sys2Proof.Machine

/-- R420: the scheduler rejects, whatever the descriptor. -/
theorem emitFilter_rejected {s : State} (h : s.filterAccept = false) (d : FilterDesc) : emitFilter d s = .error .e8 :=
  if_neg (by rw [h]; decide)

/-- A VM-code token without code has the illegal length 0 (R289). -/
theorem emitVmCode_of_no_code {v : VmCode} (hwf : v.wf = true) (hcode : v.code = []) (source : BlockType) (s : State) :
    emitVmCode v source s = .error .e5 := by
  have length : v.code.length = vmLength v.first v.ext := beq_iff_eq.mp (Bool.and_eq_true_iff.mp hwf).2
  exact if_pos (by rw [← length, hcode]; rfl)

/-- Both VM-code tokens raise what their emission raises, whichever block type it names. -/
theorem exec_vmCode_of_error {v : VmCode} {s : State} {e : ErrCode} (h : ∀ source, emitVmCode v source s = .error e) :
    exec (.v29VmCode v) s = .next (errorState e s) ∧ exec (.ppmEscVmCode v) s = .next (errorState e s) :=
  ⟨congrArg (outcome s) (h .lz), congrArg (outcome s) (h .ppm)⟩

/-- Settles O32: E6 is the coder's answer; of the filter tokens E5 comes before the verdict, and E8 is the verdict. -/
theorem coderAndFilterErrors : Obligations.CoderAndFilterErrors := by
  refine ⟨fun esc s => rfl, fun v s hwf hcode => ?_, fun v s hwf hcode hreject => ?_, fun f s hreject => ?_⟩
  · exact exec_vmCode_of_error fun source => emitVmCode_of_no_code hwf hcode source s
  · refine exec_vmCode_of_error fun source => ?_
    rw [emitVmCode_of_code hwf hcode, emitFilter_rejected hreject]
  · exact congrArg (outcome s) (emitFilter_rejected hreject _)

end Sys2Proof.Machine
end

section
/-! The instructions that only choose the next rule (45_v29.md R282, R288, R297; 46_v20.md R332, R340, R345, R349). -/

namespace Sys2Proof.Machine

/-- R282: a solid member with its tables read goes on with tokens. -/
theorem exec_v29Init (s : State) : exec .v29Init s = .next { s with
    phase := if s.cfgSolid = true ∧ s.v29.tablesRead = true then .token else .tables } := by
  have choice : (if s.cfgSolid && s.v29.tablesRead then Phase.token else .tables) =
      if s.cfgSolid = true ∧ s.v29.tablesRead = true then .token else .tables := by simp only [Bool.and_eq_true]
  exact congrArg (fun p => Host.Outcome.next (setPhase p s)) choice

/-- R332: a member that is not solid, or without tables, reads tables first. -/
theorem exec_v20Init (s : State) : exec .v20Init s = .next { s with
    phase := if s.cfgSolid = false ∨ s.v20.tablesRead = false then .tables else .token } := by
  have choice : (if !s.cfgSolid || !s.v20.tablesRead then Phase.tables else .token) =
      if s.cfgSolid = false ∨ s.v20.tablesRead = false then .tables else .token := by
    simp only [Bool.or_eq_true, Bool.not_eq_true']
  exact congrArg (fun p => Host.Outcome.next (setPhase p s)) choice

/-- Settles O49: the initial steps choose by the tables kept; the others name the phase they write. -/
theorem phaseMoves : Obligations.PhaseMoves := fun s =>
  ⟨exec_v29Init s, exec_v20Init s, rfl, rfl, rfl, rfl, rfl⟩

end Sys2Proof.Machine
end

section
/-! The copies of v20 (46_v20.md R337, R338, R341 to R343): every one inserts its distance, sets LAST_LEN and is CopyMatch, with
the length and its bonus assembled from slots and extra bits. -/

namespace Sys2Proof.Machine

/-! ### `Copy20` -/

/-- R342: the distance is inserted and LAST_LEN set before the bytes are copied. -/
theorem copy20_copyToken {len : Nat} {s : State} (h : legalWindow s) (hlen : len ≤ windowSize s) (dist : BitVec 64) :
    CopyToken len dist.toNat { s with oldDist := s.oldDist.insert dist, lastLen := BitVec.ofNat 32 len }
      (copy20 len dist s) :=
  copyNew_copyToken (s := cacheInsert dist s) h hlen dist

/-- Settles O40: Copy20 with the LAST_LEN and the distance that are there already. -/
theorem repeatLastV20 : Obligations.RepeatLastV20 := by
  intro s hlegal hlen
  have token := copy20_copyToken hlegal hlen s.oldDist.d0
  rw [BitVec.ofNat_toNat, BitVec.setWidth_eq] at token
  exact ⟨_, rfl, token⟩

/-! ### The bonus and the distance of the tokens with slots -/

/-- The three thresholds of R217 and R343. -/
theorem add_bonusRepeat2 (n dist : Nat) :
    n + bonusRepeat2 dist =
      n + (if 0x101 ≤ dist then 1 else 0) + (if 0x2000 ≤ dist then 1 else 0) + (if 0x40000 ≤ dist then 1 else 0) := by
  simp only [bonusRepeat2, one, decide_eq_true_eq, ge_iff_le, Nat.add_assoc]

/-- R281: the last v20 slot with all its bits set ends at 2 ^ 20. -/
theorem distance2_le {dslot dextra : Nat} (hslot : dslot < 48) (hextra : dextra < 2 ^ distBits dslot) :
    distBase dslot + 1 + dextra ≤ 1048576 := by
  have largest : ∀ n < 48, distBase n + 2 ^ distBits n ≤ 1048576 := by decide
  have := largest dslot hslot
  omega

/-! ### The tokens -/

/-- Settles O42: Copy20 at the entry of the cache, which is read and not rotated. -/
theorem repeatOldV20Inserts : Obligations.RepeatOldV20Inserts := by
  intro i slot extra s hlegal hwf
  have hlen : repeatLength slot extra + bonusRepeat2 (s.oldDist.get i).toNat ≤ 4100 := by
    have := repeatLength_le hwf
    have := bonusRepeat2_le (s.oldDist.get i).toNat
    omega
  dsimp only
  rw [← add_bonusRepeat2]
  exact ⟨_, rfl, copy20_copyToken hlegal (le_windowSize hlegal hlen) _⟩

/-- Settles O46: Copy20 at the distance of the slot, with the two-threshold bonus. -/
theorem matchV20 : Obligations.MatchV20 := by
  intro slot extra dslot dextra s hlegal hwf
  simp only [Instr.wf, Bool.and_eq_true, decide_eq_true_eq] at hwf
  obtain ⟨⟨hlength, hslot⟩, hextra⟩ := hwf
  have hdist := distance2_storable hslot hextra
  have hlen : matchLength slot extra + bonus3 (distBase dslot + 1 + dextra) ≤ 260 :=
    Nat.add_le_add (matchLength_le hlength) (bonus3_le _)
  dsimp only
  rw [← add_bonus3]
  exact ⟨hlen, hdist.1, distance2_le hslot hextra, _, rfl,
    copyNew_cacheInsert_copyToken hlegal (hlen.trans (by decide)) hdist⟩

end Sys2Proof.Machine
end

section
/-! The v20 table description (46_v20.md R333 to R335, R350): the arrays it builds tables from in either sub-mode, read for the
next tokens or in the tail. -/

namespace Sys2Proof.Machine

/-! ### What both sub-modes share -/

/-- A description whose arrays are accepted is read (R333): what `BuildTables2` makes of the `n` lengths in the state `s0` that
the header leaves, and the lengths in place of the old ones they were added to. -/
theorem readTables2_ok {h : V20Header} {s s0 u : State} {n : Nat} {t : List Len} {bd : HuffTable}
    (hstart : startTables2 h s = s0) (hcount : v20LensCount h.audio = n) (hwf : h.wf = true)
    (hbd : buildTable h.pre = .ok bd) (hlens : lengths2 n s0.v20.oldLens [] h.lens = .ok t)
    (hbuild : buildTables2 t { s0 with
      desc := { total := n, old := s0.v20.oldLens, lens := t }, v20.bd := bd, v20.tablesRead := true } = .ok u) :
    readTables2 h s = .ok { u with v20.oldLens := t ++ s0.v20.oldLens.drop n, desc := Desc.closed } := by
  subst hstart hcount
  have hpre := V20Header_wf_pre hwf
  have hall := lensSlice_all (V20Header_wf_length hwf hbd hlens)
  simp only [readTables2_eq hpre.le, lensSlice_all hpre, hbd, hlens, hall, hbuild, bind, Except.bind]

/-- A read that succeeds is followed by tokens, and in the tail by the end of the member (R333, R350). -/
theorem exec_v20_read_of_ok {h : V20Header} {s t : State} (hread : readTables2 h s = .ok t) :
    exec (.v20Tables h) s = .next { t with phase := .token } ∧
    exec (.v20Tail (.reload h)) s =
      .next { t with status := if t.wrAbs.toNat ≤ t.flAbs.toNat then .done else .drain } := by
  refine ⟨congrArg (fun r => outcome s (r >>= fun u => .ok (setPhase .token u))) hread, ?_⟩
  exact exec_of_endMember t (congrArg (fun r => outcome s (r >>= fun u => .ok (endMember u))) hread)

/-! ### The LZ sub-mode -/

theorem startTables2_of_lz {h : V20Header} (haudio : h.audio = none) (s : State) :
    startTables2 h s = { s with
      v20.audio := false, v20.oldLens := if h.keep then s.v20.oldLens else List.replicate 1028 0 } := by
  rw [startTables2, haudio]
  rfl

/-- R335, the three tables of the LZ sub-mode. -/
theorem buildTables2_of_lz {s : State} {t : List Len} {ld dd rd : HuffTable} (hmode : s.v20.audio = false)
    (hlength : t.length = 374) (hld : buildTable (t.take 298) = .ok ld)
    (hdd : buildTable ((t.drop 298).take 48) = .ok dd) (hrd : buildTable (t.drop 346) = .ok rd) :
    buildTables2 t s = .ok { s with v20.ld := ld, v20.dd := dd, v20.rd := rd } := by
  rw [← lensSlice_eq_take (by omega)] at hld
  rw [← lensSlice_eq (by omega)] at hdd
  rw [← lensSlice_eq_drop (n := 28) (by omega)] at hrd
  rw [buildTables2, hmode, hld, hdd, hrd]
  rfl

/-- Settles O54: the three tables are built from the whole array, and the channel registers are not written. -/
theorem v20TableReadLz : Obligations.V20TableReadLz := by
  intro h s t bd ld dd rd hwf haudio old hbd hlens hld hdd hrd
  have hcount : v20LensCount h.audio = 374 := by rw [haudio]; rfl
  have hlength := (V20Header_wf_length hwf hbd (hcount ▸ hlens)).trans hcount
  exact exec_v20_read_of_ok <| readTables2_ok (startTables2_of_lz haudio s) hcount hwf hbd hlens
    (buildTables2_of_lz rfl hlength hld hdd hrd)

/-! ### The audio sub-mode -/

theorem startTables2_of_audio {h : V20Header} {c : BitVec 2} (haudio : h.audio = some c) (s : State) :
    startTables2 h s = { s with
      v20.audio := true
      v20.oldLens := if h.keep then s.v20.oldLens else List.replicate 1028 0
      v20.channels := c.toNat + 1
      v20.curChannel := if c.toNat + 1 ≤ s.v20.curChannel then 0 else s.v20.curChannel } := by
  rw [startTables2, haudio]
  rfl

/-- R335, one table per channel, from its own 257 lengths; the tables past the channel count are kept. -/
theorem buildTables2_of_audio {s : State} {t : List Len} {md : List HuffTable} (hmode : s.v20.audio = true)
    (hlength : t.length = 257 * s.v20.channels) (hsame : s.v20.md.length = md.length)
    (hchannels : s.v20.channels ≤ md.length)
    (hbuilt : ∀ k < s.v20.channels, buildTable ((t.drop (257 * k)).take 257) = .ok (md.getD k (emptyTable 257)))
    (hkept : ∀ k, s.v20.channels ≤ k → md[k]? = s.v20.md[k]?) :
    buildTables2 t s = .ok { s with v20.md := md } := by
  have tables : buildAudioTables t 0 s.v20.channels s.v20.md = .ok md := by
    refine buildAudioTables_eq t _ 0 _ md hsame (by omega) (fun k hk => ?_) fun k hk => hkept k (by omega)
    rw [Nat.zero_add, lensSlice_eq (by omega)]
    exact hbuilt k hk
  rw [buildTables2, if_pos hmode, tables]
  rfl

/-- Settles O55: one table per channel is built from the whole array, after the header has set the channel registers. -/
theorem v20TableReadAudio : Obligations.V20TableReadAudio := by
  intro h c s t bd md hwf haudio n old hbd hlens hold hmd hbuilt hkept
  have hcount : v20LensCount h.audio = 257 * n := by rw [haudio]; rfl
  have hlength := (V20Header_wf_length hwf hbd (hcount ▸ hlens)).trans hcount
  have hchannels : n ≤ md.length := by
    have := c.isLt
    omega
  exact exec_v20_read_of_ok <| readTables2_ok (startTables2_of_audio haudio s) hcount hwf hbd hlens
    (buildTables2_of_audio rfl hlength (hold.trans hmd.symm) hchannels hbuilt hkept)

end Sys2Proof.Machine
end

section
/-! The audio predictor of v20 (46_v20.md R344, R346 to R348): the record after the update of every sample, and the adaptation
of the record after every 32nd one. -/

namespace Sys2Proof.Machine

/-! ### The update of R346, before any adaptation -/

section Update
variable (delta : Byte) (channelDelta : Int) (v : AudRec)

/-- R346, the output value `ch`. -/
def outputValue : Int := predict v (nextDeltas v) channelDelta - delta.toNat

/-- R346, the record of a sample before R347. -/
def updatedRecord : AudRec :=
  { k := v.k
    d := nextDeltas v
    lastDelta := BitVec.ofInt 32 (s8 (outputValue delta channelDelta v - v.lastChar.toInt))
    lastChar := BitVec.ofInt 32 (outputValue delta channelDelta v)
    dif := nextDif v.dif (errorTerms (8 * delta.toInt) (nextDeltas v) channelDelta)
    byteCount := v.byteCount + 1 }

theorem s8_toNat : s8 delta.toNat = delta.toInt := by
  rw [s8, BitVec.ofInt_natCast, BitVec.ofNat_toNat, BitVec.setWidth_eq]

/-- BYTE_COUNT wraps at a multiple of 32 (R8). -/
theorem succ_toNat_mod_32 (n : BitVec 32) : (n + 1).toNat % 32 = (n.toNat + 1) % 32 := by
  rw [BitVec.toNat_add, Nat.mod_mod_of_dvd _ (by decide)]
  rfl

/-- `DecodeAudio` is the update, then the adaptation on every 32nd sample (R346, R347). -/
theorem decodeAudio_eq :
    decodeAudio delta channelDelta v =
      (if (v.byteCount.toNat + 1) % 32 = 0 then adapt (updatedRecord delta channelDelta v)
        else updatedRecord delta channelDelta v, outputValue delta channelDelta v) := by
  rw [← succ_toNat_mod_32, updatedRecord, ← s8_toNat]
  rfl

/-- The output value is stored in LAST_CHAR as it is (R46). -/
theorem updatedRecord_lastChar :
    (updatedRecord delta channelDelta v).lastChar.toInt = outputValue delta channelDelta v := by
  have predicted := predict_bounds v (nextDeltas v) channelDelta
  have fits := delta.isLt
  refine BitVec.toInt_ofInt_eq_self (by decide) ?_ ?_ <;> rw [outputValue] <;> omega

/-- LAST_DELTA holds a signed byte (R46). -/
theorem updatedRecord_lastDelta :
    (updatedRecord delta channelDelta v).lastDelta.toInt =
      s8 (outputValue delta channelDelta v - v.lastChar.toInt) := by
  have bounds := s8_bounds (outputValue delta channelDelta v - v.lastChar.toInt)
  exact BitVec.toInt_ofInt_eq_self (by decide) (by omega) (by omega)

end Update

/-! ### The accumulators -/

theorem getD_nextDif {dif : List (BitVec 32)} {terms : List Nat} {j : Nat} (hdif : j < dif.length)
    (hterms : j < terms.length) :
    (nextDif dif terms).getD j 0 = dif.getD j 0 + BitVec.ofNat 32 (terms.getD j 0) := by
  have hnext : j < (nextDif dif terms).length := by
    rw [nextDif, List.length_zipWith]
    omega
  rw [List.getD_eq_getElem _ _ hnext, List.getD_eq_getElem _ _ hdif, List.getD_eq_getElem _ _ hterms]
  exact List.getElem_zipWith

/-- The operands of R346, of which the error is taken without and with each. -/
def audioOperands (d : List (BitVec 32)) (channelDelta : Int) : List Int :=
  [s32At d 0, s32At d 1, s32At d 2, s32At d 3, channelDelta]

/-- The terms of operand `j`: the error less it, and the error plus it. -/
theorem getD_errorTerms (e : Int) (d : List (BitVec 32)) (channelDelta : Int) {j : Nat} (hj : j < 5) :
    (errorTerms e d channelDelta).getD (2 * j + 1) 0 = (e - (audioOperands d channelDelta).getD j 0).natAbs ∧
      (errorTerms e d channelDelta).getD (2 * j + 2) 0 = (e + (audioOperands d channelDelta).getD j 0).natAbs := by
  interval_cases j <;> exact ⟨rfl, rfl⟩

/-- R346: accumulator 0 takes the error, and each operand adds to two more. -/
theorem getD_nextDif_errorTerms {dif : List (BitVec 32)} (h : dif.length = 11) (e : Int) (d : List (BitVec 32))
    (channelDelta : Int) :
    (nextDif dif (errorTerms e d channelDelta)).getD 0 0 = dif.getD 0 0 + BitVec.ofNat 32 e.natAbs ∧
      ∀ j < 5,
        (nextDif dif (errorTerms e d channelDelta)).getD (2 * j + 1) 0 = dif.getD (2 * j + 1) 0 +
          BitVec.ofNat 32 (e - (audioOperands d channelDelta).getD j 0).natAbs ∧
        (nextDif dif (errorTerms e d channelDelta)).getD (2 * j + 2) 0 = dif.getD (2 * j + 2) 0 +
          BitVec.ofNat 32 (e + (audioOperands d channelDelta).getD j 0).natAbs := by
  have terms : (errorTerms e d channelDelta).length = 11 := rfl
  refine ⟨getD_nextDif (by omega) (by omega), fun j hj => ?_⟩
  obtain ⟨without, withIt⟩ := getD_errorTerms e d channelDelta hj
  rw [← without, ← withIt]
  exact ⟨getD_nextDif (by omega) (by omega), getD_nextDif (by omega) (by omega)⟩

/-! ### The sample -/

/-- What the adaptation leaves, whether it runs or not: all but the coefficients and the accumulators (R347). -/
theorem adapted_fields {p : Prop} [Decidable p] {u w : AudRec} (h : w = if p then adapt u else u) :
    w.d = u.d ∧ w.lastChar = u.lastChar ∧ w.lastDelta = u.lastDelta ∧ w.byteCount = u.byteCount := by
  subst h
  split <;> exact ⟨rfl, rfl, rfl, rfl⟩

/-- R344, R348: the byte is put, the record stored, and the next channel due. -/
theorem audioSample_eq {s : State} {v : AudRec} (h : s.v20.aud[s.v20.curChannel]? = some v) (delta : Byte) :
    audioSample delta s = { putByte (BitVec.ofInt 8 (outputValue delta s.v20.channelDelta.toInt v)) s with
      v20.aud := s.v20.aud.set s.v20.curChannel (decodeAudio delta s.v20.channelDelta.toInt v).1
      v20.channelDelta := (decodeAudio delta s.v20.channelDelta.toInt v).1.lastDelta
      v20.curChannel := (s.v20.curChannel + 1) % s.v20.channels } := by
  have current : s.v20.aud.getD s.v20.curChannel AudRec.zero = v := by
    rw [List.getD_eq_getElem?_getD, h, Option.getD_some]
  rw [audioSample, current]
  rfl

/-! ### The first smallest accumulator -/

/-- Entry `m` is the first smallest of the first `n` of `l`. -/
def FirstMinimum (l : List (BitVec 32)) (n m : Nat) : Prop :=
  m < n ∧ (∀ j < n, (l.getD m 0).toNat ≤ (l.getD j 0).toNat) ∧ ∀ j < m, (l.getD m 0).toNat < (l.getD j 0).toNat

section FirstMinimum
variable {l : List (BitVec 32)} {n m : Nat}

/-- A smaller entry takes the place of the minimum of those before it. -/
theorem FirstMinimum.replace (h : FirstMinimum l n m) (hlt : (l.getD n 0).toNat < (l.getD m 0).toNat) :
    FirstMinimum l (n + 1) n := by
  obtain ⟨-, least, -⟩ := h
  have below (j : Nat) (hj : j < n) : (l.getD n 0).toNat < (l.getD j 0).toNat := hlt.trans_le (least j hj)
  refine ⟨Nat.lt_succ_self n, fun j hj => ?_, below⟩
  obtain hj | rfl := Nat.lt_succ_iff_lt_or_eq.mp hj
  · exact (below j hj).le
  · exact le_rfl

theorem FirstMinimum.keep (h : FirstMinimum l n m) (hle : (l.getD m 0).toNat ≤ (l.getD n 0).toNat) :
    FirstMinimum l (n + 1) m := by
  obtain ⟨hm, least, first⟩ := h
  refine ⟨hm.trans (Nat.lt_succ_self n), fun j hj => ?_, first⟩
  obtain hj | rfl := Nat.lt_succ_iff_lt_or_eq.mp hj
  · exact least j hj
  · exact hle

/-- The search goes on from the minimum of the entries before it. -/
theorem firstMin_spec {xs : List (BitVec 32)} (hxs : l.drop n = xs) (h : FirstMinimum l n m) :
    FirstMinimum l (n + xs.length) (firstMin n m (l.getD m 0).toNat xs) := by
  induction xs generalizing n m with
  | nil => exact h
  | cons x xs ih =>
    have entry : l.getD n 0 = x := by
      rw [List.getD_eq_getElem?_getD, ← List.head?_drop, hxs]
      rfl
    have rest : l.drop (n + 1) = xs := by rw [← List.tail_drop, hxs, List.tail_cons]
    rw [firstMin, List.length_cons, ← Nat.add_assoc, Nat.add_right_comm]
    split
    next hlt =>
      rw [← entry] at hlt ⊢
      exact ih rest (h.replace hlt)
    next hge =>
      rw [← entry] at hge
      exact ih rest (h.keep (Nat.le_of_not_lt hge))

/-- The search of R347 over all accumulators. -/
theorem firstMin_firstMinimum (h : 0 < l.length) :
    FirstMinimum l l.length (firstMin 1 0 (l.getD 0 0).toNat (l.drop 1)) := by
  have start : FirstMinimum l 1 0 := by
    refine ⟨Nat.one_pos, fun j hj => ?_, fun j hj => absurd hj (Nat.not_lt_zero j)⟩
    rw [Nat.lt_one_iff.mp hj]
  have found := firstMin_spec rfl start
  rwa [List.length_drop, Nat.add_sub_cancel' h] at found

end FirstMinimum

/-! ### The coefficient -/

theorem set_getD_self (k : List (BitVec 32)) (c : Nat) : k.set c (k.getD c 0) = k := by
  obtain hc | hc := Nat.lt_or_ge c k.length
  · rw [List.getD_eq_getElem _ _ hc, List.set_getElem_self]
  · exact List.set_eq_of_length_le hc

/-- R347: an odd index moves its coefficient down. -/
theorem nudge_odd (c : Nat) (k : List (BitVec 32)) :
    nudge (2 * c + 1) k = k.set c (if -16 ≤ (k.getD c 0).toInt then k.getD c 0 - 1 else k.getD c 0) := by
  have odd : (2 * c + 1) % 2 = 1 := by omega
  have index : (2 * c + 1 - 1) / 2 = c := by omega
  rw [nudge, index, if_pos odd, apply_ite (k.set c), set_getD_self]
  rfl

/-- R347: an even index, which is not 0, moves its coefficient up. -/
theorem nudge_even (c : Nat) (k : List (BitVec 32)) :
    nudge (2 * c + 2) k = k.set c (if (k.getD c 0).toInt < 16 then k.getD c 0 + 1 else k.getD c 0) := by
  have even : ¬ (2 * c + 2) % 2 = 1 := by omega
  have index : (2 * c + 2 - 1) / 2 = c := by omega
  rw [nudge, index, if_neg even, apply_ite (k.set c), set_getD_self]
  rfl

/-- Settles O57: the record that is adapted is that of R346, and the index found is that of the first smallest accumulator. -/
theorem audioAdaptation : Obligations.AudioAdaptation := by
  refine ⟨fun delta cd v hcount => ?_, fun u hrecord => ?_⟩
  · rw [decodeAudio_eq, if_pos hcount]
    rfl
  · have adapted : recordOk (adapt u) := recordOk_adapt hrecord
    obtain ⟨-, -, hdif, -, -, -⟩ := hrecord
    obtain ⟨-, -, -, bounds, -, -⟩ := adapted
    set m := firstMin 1 0 (u.dif.getD 0 0).toNat (u.dif.drop 1)
    have moved : (adapt u).k = if m = 0 then u.k else nudge m u.k := rfl
    obtain ⟨hlt, least, first⟩ : FirstMinimum u.dif 11 m := hdif ▸ firstMin_firstMinimum (by omega)
    refine ⟨m, hlt, least, first, rfl, fun hzero => ?_, fun c _ => ⟨fun hodd => ?_, fun heven => ?_⟩, bounds⟩
    · rw [moved, if_pos hzero]
    · rw [moved, if_neg (by omega), hodd, nudge_odd]
    · rw [moved, if_neg (by omega), heven, nudge_even]

end Sys2Proof.Machine

namespace Sys2Proof
open Machine

/-- Settles O56: the byte is `ch`; the record is that of R346, adapted on every 32nd sample. It stands outside `Machine`, in which
`audioSample` is the model's sample. -/
theorem audioSample : Obligations.AudioSample := by
  intro delta s v hv hrecord cd k d0 d1 d2 d3 p ch e op
  obtain ⟨-, -, hdif, -, -, -⟩ := hrecord
  set u := updatedRecord delta cd v
  set w := (decodeAudio delta cd v).1
  have hadapted : w = if (v.byteCount.toNat + 1) % 32 = 0 then adapt u else u :=
    congrArg Prod.fst (decodeAudio_eq delta cd v)
  obtain ⟨hd, hchar, hdelta, hcount⟩ := adapted_fields hadapted
  obtain ⟨difZero, difPairs⟩ := getD_nextDif_errorTerms hdif e (nextDeltas v) cd
  have sample := audioSample_eq hv delta
  refine ⟨Machine.audioSample delta s, u, w, rfl, ?byte, ?state, hd, ?char, ?lastDelta, hcount, hadapted, rfl,
    length_nextDif hdif _ _ _, difZero, difPairs⟩
  case byte =>
    rw [sample]
    exact putByte_appended _ s
  case state =>
    rw [sample]
    rfl
  case char =>
    rw [hchar]
    exact updatedRecord_lastChar delta cd v
  case lastDelta =>
    rw [hdelta]
    exact updatedRecord_lastDelta delta cd v

end Sys2Proof
end

section
/-! Every decoding forms a well-formed instruction (30_encoding.md R100 to R107, 60_exceptions.md R400): each field is read in
its width, each list of elements until it fills its array, and every symbol of a table of `BuildTable` has a rule. -/

namespace Sys2Proof.Machine

/-! ### Lists of elements -/

section Elements
variable {α : Type} {read : Nat → α × Nat} {count : α → Nat} {repeats : α → Bool} {n : Nat}

theorem forall_mem_readElements (P : α → Prop) (hread : ∀ q, P (read q).1) (fuel i p : Nat) :
    ∀ c ∈ (readElements read count repeats n fuel i p).1, P c := by
  induction fuel generalizing i p with
  | zero => exact nofun
  | succ fuel ih =>
    unfold readElements
    split_ifs
    · exact nofun
    · exact List.forall_mem_singleton.mpr (hread p)
    · exact List.forall_mem_cons.mpr ⟨hread p, ih _ _⟩

/-- R159: where no repeat stands at position 0, the elements are read until the array is full. -/
theorem fillsFrom_readElements (hcount : ∀ c, 0 < count c) {fuel i p : Nat} (hfuel : n ≤ i + fuel)
    (hfirst : i = 0 → repeats (read p).1 = false) :
    fillsFrom n i ((readElements read count repeats n fuel i p).1.map count) = true := by
  induction fuel generalizing i p with
  | zero => exact decide_eq_true hfuel
  | succ fuel ih =>
    have progress := hcount (read p).1
    have legal : ¬ (decide (i = 0) && repeats (read p).1) = true := by simpa using hfirst
    unfold readElements
    split_ifs with hfull
    · exact decide_eq_true hfull
    · exact Bool.and_eq_true_iff.mpr ⟨decide_eq_true (Nat.lt_of_not_ge hfull), ih (by omega) (by omega)⟩

/-- R159, R160: a repeat at position 0 stands alone, and elements that begin with none fill the array. -/
theorem readElements_complete (hn : 0 < n) (hcount : ∀ c, 0 < count c) {p : Nat} {cs : List α}
    (h : (readElements read count repeats n n 0 p).1 = cs) :
    (∃ c, cs = [c] ∧ repeats c = true) ∨
      (fillsFrom n 0 (cs.map count) = true ∧ ∀ c ∈ cs.head?, repeats c = false) := by
  subst h
  obtain ⟨m, rfl⟩ : ∃ m, n = m + 1 := ⟨n - 1, by omega⟩
  cases hfirst : repeats (read p).1 with
  | true => exact .inl ⟨(read p).1, by simp [readElements, hfirst], hfirst⟩
  | false =>
    exact .inr ⟨fillsFrom_readElements hcount (Nat.le_add_left ..) fun _ => hfirst, by simp [readElements, hfirst]⟩

end Elements

theorem decodePreCode_wf (z : Bits) (p : Nat) : (decodePreCode z p).1.wf = true := by
  have four := peekBits_lt z p 4
  unfold decodePreCode
  split
  · rfl
  next plain =>
    refine bne_iff_ne.mpr fun h => plain ?_
    have value : peekBits z p 4 % 2 ^ 4 = 15 := congrArg BitVec.toNat h
    rwa [Nat.mod_eq_of_lt four] at value

theorem decodePreCodes_wf (z : Bits) (p : Nat) :
    (decodePreCodes z 20 0 p).1.all PreCode.wf = true ∧
      fillsFrom 20 0 ((decodePreCodes z 20 0 p).1.map preCodeCount) = true := by
  rw [decodePreCodes_eq, List.all_eq_true]
  exact ⟨forall_mem_readElements (PreCode.wf · = true) (decodePreCode_wf z) _ _ _,
    fillsFrom_readElements preCodeCount_pos (Nat.le_add_left ..) fun _ => rfl⟩

theorem lens5Wf_of_cases {n : Nat} (hn : 0 < n) {cs : List LenCode5}
    (h : (∃ c, cs = [c] ∧ lenCode5Repeats c = true) ∨
      (fillsFrom n 0 (cs.map lenCode5Count) = true ∧ ∀ c ∈ cs.head?, lenCode5Repeats c = false)) : lens5Wf n cs = true := by
  obtain ⟨c, rfl, hc⟩ | ⟨hfill, hfirst⟩ := h
  · simp [lens5Wf, hc]
  · cases cs with
    | nil => exact absurd (of_decide_eq_true hfill) (Nat.not_le.mpr hn)
    | cons c cs => rwa [lens5Wf, hfirst c rfl]

theorem decodeLens5_wf (bd : HuffTable) (z : Bits) {n : Nat} (hn : 0 < n) (p : Nat) :
    lens5Wf n (decodeLens5 bd z n n 0 p).1 = true :=
  lens5Wf_of_cases hn (readElements_complete hn lenCode5Count_pos (congrArg Prod.fst (decodeLens5_eq bd z n n 0 p).symm))

theorem lens2Wf_of_cases {n : Nat} (hn : 0 < n) {cs : List LenCode2}
    (h : (∃ c, cs = [c] ∧ lenCode2Repeats c = true) ∨
      (fillsFrom n 0 (cs.map lenCode2Count) = true ∧ ∀ c ∈ cs.head?, lenCode2Repeats c = false)) : lens2Wf n cs = true := by
  obtain ⟨c, rfl, hc⟩ | ⟨hfill, hfirst⟩ := h
  · simp [lens2Wf, hc]
  · cases cs with
    | nil => exact absurd (of_decide_eq_true hfill) (Nat.not_le.mpr hn)
    | cons c cs => rwa [lens2Wf, hfirst c rfl]

theorem decodeLens2_wf (bd : HuffTable) (z : Bits) {n : Nat} (hn : 0 < n) (p : Nat) :
    lens2Wf n (decodeLens2 bd z n n 0 p).1 = true :=
  lens2Wf_of_cases hn (readElements_complete hn lenCode2Count_pos (congrArg Prod.fst (decodeLens2_eq bd z n n 0 p).symm))

/-! ### Headers -/

theorem peekLE_lt (z : Bits) (p k : Nat) : peekLE z p k < 2 ^ (8 * k) := by
  induction k generalizing p with
  | zero => exact Nat.one_pos
  | succ k ih =>
    have first := peekBits_lt z p 8
    have rest := ih (p + 8)
    rw [peekLE, two_pow_bytes_succ]
    omega

theorem decodeTableDesc5_wf (z : Bits) {n : Nat} (hn : 0 < n) (p : Nat) : (decodeTableDesc5 z n p).1.wf n = true := by
  obtain ⟨hpre, hfill⟩ := decodePreCodes_wf z p
  unfold decodeTableDesc5
  dsimp only
  split
  next e hbuild => simp [TableDesc5.wf, hpre, hfill, hbuild]
  next bd hbuild => simp [TableDesc5.wf, hpre, hfill, hbuild, decodeLens5_wf bd z hn]

theorem decodeBlockHeader_wf (z : Bits) (p : Nat) : (decodeBlockHeader z p).1.wf = true := by
  unfold decodeBlockHeader
  dsimp only
  generalize BitVec.ofNat 8 (peekBits z (alignByte p) 8) = flags
  generalize BitVec.ofNat 8 (peekBits z (alignByte p + 8) 8) = check
  by_cases reserved : headerByteCount flags = 4
  · simp [reserved, BlockHeader.wf]
  · have count : headerByteCount flags ≤ 3 := by rw [headerByteCount_eq] at reserved ⊢; omega
    have hsize := peekLE_lt z (alignByte p + 16) (headerByteCount flags)
    have wide : 2 ^ (8 * headerByteCount flags) ≤ 2 ^ 24 := Nat.pow_le_pow_right (by decide) (by omega)
    generalize peekLE z (alignByte p + 16) (headerByteCount flags) = size at hsize ⊢
    have stored : (BitVec.ofNat 24 size).toNat = size := by
      rw [BitVec.toNat_ofNat, Nat.mod_eq_of_lt (hsize.trans_le wide)]
    rw [if_neg reserved]
    split_ifs with hsum hbit
    · simp [BlockHeader.wf, reserved, stored, hsize, hsum]
    · simp [BlockHeader.wf, reserved, stored, hsize, not_not.mp hsum, hbit, decodeTableDesc5_wf]
    · have bit : flags[7] = false := by simpa using hbit
      simp [BlockHeader.wf, reserved, stored, hsize, bit]

theorem decodeV20Header_wf (z : Bits) (p : Nat) : (decodeV20Header z p).1.wf = true := by
  unfold decodeV20Header
  dsimp only
  split
  next e hbuild => simp [V20Header.wf, length_decodePlainLens, hbuild]
  next bd hbuild => simp [V20Header.wf, length_decodePlainLens, hbuild, decodeLens2_wf bd z (v20LensCount_pos _)]

/-! ### Fields of tokens -/

section Fields
variable (env : Env) (z : Bits)

theorem decodeFilterData_wf (p : Nat) :
    (decodeFilterData z p).2.1.toNat < 2 ^ (8 * ((decodeFilterData z p).1.toNat + 1)) := by
  unfold decodeFilterData
  dsimp only
  rw [BitVec.toNat_ofNat]
  exact (Nat.mod_le ..).trans_lt (peekLE_lt ..)

theorem decodeFilterFields_wf (p : Nat) : (decodeFilterFields z p).1.wf = true := by
  have start := decodeFilterData_wf z p
  have length := decodeFilterData_wf z (decodeFilterData z p).2.2
  unfold decodeFilterFields
  dsimp only
  rw [FilterFields.wf, decide_eq_true start, decide_eq_true length]
  dsimp only
  split <;> simp_all

theorem length_peekBytes (p k : Nat) : (peekBytes z p k).length = k := by
  induction k generalizing p with
  | zero => rfl
  | succ k ih => exact congrArg (· + 1) (ih (p + 8))

theorem decodeVmCode_wf (p : Nat) : (decodeVmCode z p).1.wf = true :=
  vmCode_wf_bigEndian (length_peekBytes ..) (length_peekBytes ..)

variable {env} (ok : CanonicalEnv env)
include ok

theorem decodeDist5_wf5 (p : Nat) : (decodeDist5 env z p).1.wf5 = true := by
  have slot := huffDecode_lt ok.dd5 (by decide) z p
  unfold decodeDist5
  dsimp only
  split
  next split =>
    have low := huffDecode_lt ok.ldd5 (by decide) z
    simp [DistField.wf5, slot, split, getBits_fst_lt, low]
  next whole => simp [DistField.wf5, slot, whole, getBits_fst_lt]

theorem decodeDist3_wf3 (p : Nat) : (decodeDist3 env z p).1.wf3 = true := by
  have slot := huffDecode_lt ok.dd3 (by decide) z p
  have low := huffDecode_lt ok.ldd3 (by decide) z
  unfold decodeDist3
  dsimp only
  split
  next symbol =>
    obtain ⟨splits, -⟩ := Bool.and_eq_true_iff.mp symbol
    simp [DistField.wf3, slot, getBits_fst_lt, splits, low]
  next => simp [DistField.wf3, slot, getBits_fst_lt]

end Fields

/-- The extra bits of a short-distance symbol (R281), as the decoder numbers its slot. -/
theorem shortExtra_wf {n : Nat} (h : n < 8) (z : Bits) (p : Nat) :
    decide ((getBits z p (shortBits n)).1 < 2 ^ shortBits (Fin.ofNat 8 n).val) = true := by
  have slot : (Fin.ofNat 8 n).val = n := Nat.mod_eq_of_lt h
  rw [slot]
  exact decide_eq_true (getBits_fst_lt ..)

/-! ### The rules -/

/-- The decoding forms an instruction, and a well-formed one. -/
def FormsWf (d : Decoded) : Prop := ∃ i, d.res = .ok i ∧ i.wf = true

theorem FormsWf.instr {env : Env} {i : Instr} {p : Nat} (h : i.wf = true) : FormsWf (.instr env i p) := ⟨i, rfl, h⟩

theorem tail_ignored_wf {s : Nat} (hlt : s < 298) (hne : s ≠ 269) : (Instr.v20Tail (.ignored s)).wf = true := by
  simp [Instr.wf, TailProbe.wf, hlt, hne]

section Rules
variable {env : Env} (ok : CanonicalEnv env) (z : Bits) (p : Nat)
include ok

theorem decodeV50_formsWf : FormsWf (decodeV50 env z p) := by
  have symbol := huffDecode_lt ok.ld5 (by decide) z p
  unfold decodeV50
  dsimp only
  split_ifs
  · exact .instr rfl
  · exact .instr (decodeFilterFields_wf ..)
  · exact .instr rfl
  · exact .instr (length5Wf_getBits (huffDecode_lt ok.rd5 (by decide) ..) ..)
  · refine .instr ?_
    rw [Instr.wf, length5Wf_getBits (by omega), decodeDist5_wf5 z ok]
    rfl

theorem decodeV29_formsWf : FormsWf (decodeV29 env z p) := by
  have symbol := huffDecode_lt ok.ld3 (by decide) z p
  unfold decodeV29
  dsimp only
  split_ifs
  · exact .instr rfl
  · exact .instr rfl
  · exact .instr rfl
  · exact .instr (decodeVmCode_wf ..)
  · exact .instr rfl
  · exact .instr (length3Wf_getBits (huffDecode_lt ok.rd3 (by decide) ..) ..)
  · refine .instr ?_
    rw [Instr.wf, shortExtra_wf (by omega)]
  · refine .instr ?_
    rw [Instr.wf, length3Wf_getBits (by omega), decodeDist3_wf3 z ok]
    rfl

theorem decodeV20_formsWf : FormsWf (decodeV20 env z p) := by
  have symbol := huffDecode_lt ok.ld2 (by decide) z p
  unfold decodeV20
  dsimp only
  split_ifs
  · exact .instr rfl
  · exact .instr rfl
  · exact .instr (length3Wf_getBits (huffDecode_lt ok.rd2 (by decide) ..) ..)
  · refine .instr ?_
    rw [Instr.wf, shortExtra_wf (by omega)]
  · exact .instr rfl
  · refine .instr ?_
    rw [Instr.wf, length3Wf_getBits (by omega), decide_eq_true (huffDecode_lt ok.dd2 (by decide) ..),
      decide_eq_true (getBits_fst_lt ..)]
    rfl

theorem decodeAudioSymbol_formsWf : FormsWf (decodeAudioSymbol env z p) := by
  have symbol := huffDecode_lt ok.md2 (by decide) z p
  unfold decodeAudioSymbol
  dsimp only
  split_ifs
  · exact .instr rfl
  · exact .instr rfl
  · omega

/-- R350: an ignored symbol is a main symbol, and no LZ reload symbol: the audio alphabet ends below it. -/
theorem decodeTail_formsWf : FormsWf (decodeTail env z p) := by
  unfold decodeTail
  cases env.audio with
  | true =>
    have symbol := huffDecode_lt ok.md2 (by decide) z p
    simp only [if_true]
    split
    · exact .instr (decodeV20Header_wf ..)
    · exact .instr (tail_ignored_wf (by omega) (by omega))
  | false =>
    have symbol := huffDecode_lt ok.ld2 (by decide) z p
    simp only [Bool.false_eq_true, if_false]
    split
    · exact .instr (decodeV20Header_wf ..)
    · exact .instr (tail_ignored_wf (by omega) (by omega))

omit ok

theorem decodeV29Tables_formsWf : FormsWf (decodeV29Tables env z p) := by
  unfold decodeV29Tables
  dsimp only
  split
  · exact ⟨_, rfl, rfl⟩
  · exact .instr (decodeTableDesc5_wf z (by decide) _)

end Rules

/-- R107: every rule but that of the PPM tokens forms a well-formed instruction. -/
theorem decodeIn_formsWf {env : Env} (ok : CanonicalEnv env) {ctx : Ctx} (hctx : ctx ≠ .v29Ppm) (z : Bits) (p : Nat) :
    FormsWf (decodeIn ctx env z p) := by
  cases ctx with
  | v50First | v50Next => exact .instr (decodeBlockHeader_wf ..)
  | v50End | v29Init | v20Init | v20SizeDone | v20TailStop => exact .instr rfl
  | v50Token => exact decodeV50_formsWf ok z p
  | v29Tables => exact decodeV29Tables_formsWf z p
  | v29Lz => exact decodeV29_formsWf ok z p
  | v29Ppm => exact absurd rfl hctx
  | v20Tables => exact .instr (decodeV20Header_wf ..)
  | v20Lz => exact decodeV20_formsWf ok z p
  | v20Audio => exact decodeAudioSymbol_formsWf ok z p
  | v20TailRead => exact decodeTail_formsWf ok z p
  | v20TailWait => exact ⟨_, rfl, rfl⟩

/-- Settles O12: a PPM token by the soundness of its decoding (R303), every other rule by `decodeIn_formsWf`. -/
theorem everySymbolHasARule : Obligations.EverySymbolHasARule := by
  intro ctx env z p henv
  by_cases hctx : ctx = .v29Ppm
  · subst hctx
    obtain ⟨htoken, heof⟩ := decodePpm_sound env z p
    cases hres : (decodeIn .v29Ppm env z p).res with
    | ok i =>
      obtain ⟨hwf, -⟩ := htoken i hres
      exact hwf
    | error e =>
      obtain ⟨he, -⟩ := heof e hres
      exact ⟨rfl, he⟩
  · obtain ⟨i, hres, hwf⟩ := decodeIn_formsWf (canonicalEnv_of_envOk henv) hctx z p
    rw [hres]
    exact hwf

end Sys2Proof.Machine
end

section
/-! Errors are precise (60_exceptions.md R402, R403, R407): what an instruction commits keeps the status or ends the member, so
that an instruction which newly ends in ERROR has discarded its writes. -/

namespace Sys2Proof.Machine

/-! ### What an instruction commits -/

/-- Nothing that the computation commits changes the status. -/
def KeepsStatus (s t : State) : Prop := t.status = s.status

theorem Update.keepsStatus {g : Gen} {s t : State} (h : Update g s t) : KeepsStatus s t := by
  rw [KeepsStatus, h.frame]

theorem Effect.keepsStatus {g : Gen} {s t : State} (h : Effect (Update g s) s t) : Effect (KeepsStatus s) s t :=
  h.imp fun _ => Update.keepsStatus

section Status
variable (s : State)

/-- However many pre-lengths a header lists. -/
theorem readPl4_keepsStatus (ls : List Len) : KeepsStatus s (readPl4 ls s) := by
  have fold (t : State) : KeepsStatus t (ls.foldl (fun u l => pl4Len l u) t) := by
    induction ls generalizing t with
    | nil => rfl
    | cons l ls ih => exact ih (pl4Len l t)
  exact fold (openDesc 19 [] s)

theorem readTables2_keepsStatus (h : V20Header) : Yields (KeepsStatus s) (readTables2 h s) := by
  have started : (readPl4 h.pre (startTables2 h s)).status = s.status :=
    (readPl4_keepsStatus _ h.pre).trans (startTables2_update .v20 s h).keepsStatus
  unfold readTables2
  refine .buildTable (by decide) fun bd _ => ?_
  rw [readLens2_eq]
  cases hlens : lengths2 (v20LensCount h.audio) (startTables2 h s).v20.oldLens [] h.lens with
  | error e => rw [lengths2_error hlens]; exact (by simp [Raisable] : Raisable .e2)
  | ok t =>
    refine (buildTables2_yields _ _).bind ?_
    rintro u ⟨r, -, rfl⟩
    exact started

theorem repeatLen_keepsStatus (r : Nat) : Yields (KeepsStatus s) (repeatLen r s) := by
  unfold repeatLen Desc.repeatLast
  cases s.desc.lens.getLast? with
  | none => exact (by simp [Raisable] : Raisable .e2)
  | some l => exact .ok rfl

variable {u : State} (hu : KeepsStatus s u) (len : Nat) (dist : BitVec 64)
include hu

theorem copyMatch_keepsStatus : KeepsStatus s (copyMatch len dist u) := by
  rw [copyMatch_wrote]; exact hu

theorem copyNew_keepsStatus : KeepsStatus s (copyNew len dist u) :=
  copyMatch_keepsStatus s (u := setLastLen len u) hu len dist

theorem copy20_keepsStatus : KeepsStatus s (copy20 len dist u) :=
  copyNew_keepsStatus s (u := cacheInsert dist u) hu len dist

theorem copyLast_keepsStatus : KeepsStatus s (copyLast u) := by
  rw [copyLast_eq]; exact copyMatch_keepsStatus s hu ..

end Status

/-! ### The failing instruction -/

/-- A change of `s` into a state newly in ERROR is an error taken in `s` (R402). -/
def ErrorIsPrecise (s t : State) : Prop := t.status = .error → s.status ≠ .error → ∃ e, t = errorState e s

section Precise
variable {s t : State}

theorem KeepsStatus.errorIsPrecise (h : KeepsStatus s t) : ErrorIsPrecise s t := fun ht hs => absurd (h.symm.trans ht) hs

theorem endMember_status_ne_error (s : State) : (endMember s).status ≠ .error := by
  unfold endMember
  dsimp only
  split <;> nofun

/-- A commit keeps the status, and the end of a member is DONE or DRAIN (R221). -/
theorem Effect.errorIsPrecise (h : Effect (KeepsStatus s) s t) : ErrorIsPrecise s t := by
  cases h with
  | raises _ => exact fun _ _ => ⟨_, rfl⟩
  | commits hu => exact hu.errorIsPrecise
  | ends _ => exact fun ht => absurd ht (endMember_status_ne_error _)

theorem outcome_errorIsPrecise {r : Except ErrCode State} (ht : outcome s r = .next t) (h : Yields (KeepsStatus s) r) :
    ErrorIsPrecise s t :=
  (Effect.of_outcome ht (h.imp fun _ => .commits)).errorIsPrecise

/-- R402, instruction by instruction. -/
theorem exec_errorIsPrecise {i : Instr} (h : exec i s = .next t) : ErrorIsPrecise s t := by
  cases i with
  | v50FirstHeader hd => exact (execV50FirstHeader_effect h).keepsStatus.errorIsPrecise
  | v50NextBlock hd => exact (execV50NextBlock_effect h).keepsStatus.errorIsPrecise
  | v29Tables hd => exact (execV29Tables_effect h).keepsStatus.errorIsPrecise
  | v29Init => exact (execV29Init_effect h).keepsStatus.errorIsPrecise
  | v29Eob e => exact (execV29Eob_effect h).keepsStatus.errorIsPrecise
  | v20Tables hd => exact outcome_errorIsPrecise h <| (readTables2_keepsStatus s hd).bind fun _ hu => .ok hu
  | v20Tail probe =>
    cases probe with
    | stop | ignored _ => cases h; exact fun ht => absurd ht (endMember_status_ne_error s)
    | reload hd =>
      have read : Effect (KeepsStatus s) s t :=
        .of_outcome h <| (readTables2_keepsStatus s hd).bind fun _ hu => .ok (.ends hu)
      exact read.errorIsPrecise
  | v50End | ppmEscEnd => cases h; exact fun ht => absurd ht (endMember_status_ne_error s)
  | v15Stream => cases h; exact nofun
  | v50Filter f => exact outcome_errorIsPrecise h ((emitFilter_yields .v50 _ s).imp fun _ => Update.keepsStatus)
  | v29VmCode v | ppmEscVmCode v =>
    exact outcome_errorIsPrecise h ((emitVmCode_yields .v29 v _ s).imp fun _ => Update.keepsStatus)
  | len5Rep3 | len5Rep7 | len2Rep2 => exact outcome_errorIsPrecise h (repeatLen_keepsStatus s _)
  | v50RepLast | v29RepLast => cases h; exact (copyLast_keepsStatus s rfl).errorIsPrecise
  | v50RepOld j | v29RepOld j =>
    cases h; exact (copyNew_keepsStatus s (u := cacheRotate j s) rfl _ _).errorIsPrecise
  | v50Match | v29Short => cases h; exact (copyNew_keepsStatus s (u := cacheInsert _ s) rfl _ _).errorIsPrecise
  | v29Match slot extra d =>
    cases h
    have low : KeepsStatus s (lowDistance3 d s).2 := (lowDistance3_update .v29 s d).keepsStatus
    exact (copyNew_keepsStatus s (u := cacheInsert _ (lowDistance3 d s).2) low _ _).errorIsPrecise
  | ppmEscLz | ppmEscRle => cases h; exact (copyMatch_keepsStatus s rfl _ _).errorIsPrecise
  | v20RepLast | v20RepOld | v20Short | v20Match => cases h; exact (copy20_keepsStatus s rfl _ _).errorIsPrecise
  | v50Lit | v29Lit | v20Lit | ppmLit | ppmEscLit | v20AudSample | v20Init | v20SizeDone | ppmEscReload | v20Reload
  | v20AudReload | pl4eLen | pl4eEsc | pl4Len | len5Lit | len5Zero3 | len5Zero7 | len2Lit | len2Zero3 | len2Zero7 =>
    cases h; exact KeepsStatus.errorIsPrecise rfl

/-! ### The failing step -/

theorem run_errorIsPrecise {d : Decoded} (h : run d s = .next t) : ErrorIsPrecise s t := by
  obtain ⟨i, -, hexec⟩ | ⟨e, -, rfl⟩ := run_cases h
  · exact exec_errorIsPrecise hexec
  · exact fun _ _ => ⟨e, rfl⟩

theorem exhaust_errorIsPrecise (s : State) : ErrorIsPrecise s (exhaust s) := by
  unfold exhaust
  split
  · exact fun ht => absurd ht (endMember_status_ne_error s)
  · exact fun _ _ => ⟨.e7, rfl⟩

/-- The position advances behind a commit only (R407). -/
theorem ErrorIsPrecise.advance (h : ErrorIsPrecise s t) (d : Decoded) : ErrorIsPrecise s (advance d t) := by
  by_cases ht : t.status = .error
  · rwa [Machine.advance, if_pos ht]
  · rw [Machine.advance, if_neg ht]
    exact fun hadvanced => absurd hadvanced ht

theorem coreMove_errorIsPrecise (h : coreMove s = some (.next t)) : ErrorIsPrecise s t := by
  obtain ⟨-, ⟨-, hfault⟩ | ⟨ctx, -, -, ⟨-, hnext⟩ | ⟨-, -, hend⟩⟩⟩ := coreMove_cases h
  · cases hfault
  · obtain ⟨u, hu, rfl⟩ := advanceOutcome_next hnext.symm
    exact (run_errorIsPrecise hu).advance _
  · cases hend
    exact exhaust_errorIsPrecise s

/-- R52: the draw is a number in 0..PENDING. -/
theorem errorDraw_le_pending (s : State) : errorDraw s ≤ pending s := Nat.le_of_lt_succ (Nat.mod_lt _ (Nat.succ_pos _))

end Precise

/-- Settles O17, by `exec_errorIsPrecise`; a decoder step starts in RUNNING. -/
theorem errorsArePrecise : Obligations.ErrorsArePrecise := by
  refine ⟨fun i s t h => exec_errorIsPrecise h, fun s t h herror => ?_⟩
  obtain ⟨hrun, -⟩ := coreMove_cases h
  obtain ⟨e, he⟩ := coreMove_errorIsPrecise h herror (by rw [hrun]; nofun)
  exact ⟨e, he, errorDraw_le_pending s⟩

end Sys2Proof.Machine
end

section
/-! Outside RUNNING nothing decodes (43_gen_common.md R210, R221; 60_exceptions.md R402, R412): the moves that are left deliver
input, end it, cancel, flush, or set an input of another agent. -/

namespace Sys2Proof.Machine

/-- `t` is `s` but for the input, the output, the status, and the inputs of the other agents. -/
def KeepsDecoder (s t : State) : Prop :=
  t = { s with
    input := t.input, inEnded := t.inEnded, flAbs := t.flAbs, out := t.out, status := t.status
    errFlushLeft := t.errFlushLeft, sinkReady := t.sinkReady, flushLimit := t.flushLimit
    filterAccept := t.filterAccept, events := t.events }

/-- The status stays, or DRAIN ends (R221, R76). -/
def StatusStaysOrDrainEnds (s t : State) : Prop :=
  t.status = s.status ∨ (s.status = .drain ∧ (t.status = .done ∨ t.status = .cancelled))

/-- What a step does while the core stands still. -/
structure CoreStill (s t : State) : Prop where
  decoder : KeepsDecoder s t
  status : StatusStaysOrDrainEnds s t

section Still
variable {s t : State}

theorem CoreStill.refl (s : State) : CoreStill s s := ⟨rfl, .inl rfl⟩

theorem flushMove_coreStill (s : State) : CoreStill s (flushMove s) := by
  by_cases hon : flushEnabled s = true
  · rw [flushMove_enabled hon]
    refine ⟨rfl, ?_⟩
    unfold StatusStaysOrDrainEnds flushByte
    dsimp only
    split_ifs with hlast
    · exact .inr ⟨hlast.1, .inl rfl⟩
    · exact .inl rfl
  · rw [flushMove_disabled hon]
    exact .refl s

theorem deliver_coreStill (b : Byte) (s : State) : CoreStill s (deliver b s) := by
  obtain h | h := deliver_cases b s <;> rw [h]
  · exact ⟨rfl, .inl rfl⟩
  · exact .refl s

theorem endInput_coreStill (s : State) : CoreStill s (endInput s) := by
  obtain h | h := endInput_cases s <;> rw [h]
  · exact ⟨rfl, .inl rfl⟩
  · exact .refl s

/-- Of the active members only those in DRAIN are not running (R76). -/
theorem cancel_coreStill (hs : s.status ≠ .running) : CoreStill s (cancel s) := by
  by_cases hactive : memberActive s = true
  · rw [cancel_enabled hactive]
    have drain : s.status = .drain := (memberActive_iff.mp hactive).resolve_left hs
    exact ⟨rfl, .inr ⟨drain, .inr rfl⟩⟩
  · rw [cancel_disabled hactive]
    exact .refl s

theorem eventMove_coreStill {e : Event} (hs : s.status ≠ .running)
    (hstart : ∀ g solid size log2, e ≠ .memberStart g solid size log2) (h : eventMove e s = .next t) : CoreStill s t := by
  cases e with
  | memberStart g solid size log2 => exact absurd rfl (hstart g solid size log2)
  | deliver b => cases h; exact deliver_coreStill b s
  | endInput => cases h; exact endInput_coreStill s
  | cancel => cases h; exact cancel_coreStill hs
  | core =>
    obtain hcore | rfl := eventMove_core_cases h
    · rw [coreMove_of_not_running hs] at hcore; cases hcore
    · exact .refl t
  | flush => cases h; exact flushMove_coreStill s
  | sinkReady | flushLimit | filterAccept => cases h; exact ⟨rfl, .inl rfl⟩

/-- Taking the oldest event off the queue is no change of the decoder. -/
theorem CoreStill.of_with_events {l : List Event} (h : CoreStill { s with events := l } t) : CoreStill s t :=
  ⟨h.decoder, h.status⟩

theorem step_coreStill (hs : s.status ≠ .running) (h : step s = .next t)
    (hstart : ∀ g solid size log2, s.events.head? ≠ some (.memberStart g solid size log2)) : CoreStill s t := by
  obtain ⟨e, rest, hevents, hmove⟩ | ⟨-, hcore⟩ | ⟨-, -, rfl⟩ := step_cases h
  · refine (eventMove_coreStill (s := { s with events := rest }) hs (fun g solid size log2 he => ?_) hmove).of_with_events
    exact hstart g solid size log2 (by rw [hevents, he]; rfl)
  · rw [coreMove_of_not_running hs] at hcore; cases hcore
  · exact flushMove_coreStill s

end Still

/-- Settles O25: the core stands still, and the other moves keep what it decodes into. -/
theorem onlyRunningMutates : Obligations.OnlyRunningMutates := by
  intro s t hs h hstart
  obtain ⟨decoder, status⟩ := step_coreStill hs h hstart
  have field {α : Type} (f : State → α) := congrArg f decoder
  exact ⟨field (·.win), field (·.winDraw), field (·.wrAbs), field (·.memberBase), field (·.oldDist), field (·.lastLen),
    field (·.v50), field (·.v29), field (·.v20), field (·.posByte), field (·.posBit), field (·.phase), field (·.filt),
    field (·.ppmState), field (·.errCode), status⟩

end Sys2Proof.Machine
end

section
/-! The state of session creation (70_reset_and_hazards.md R443) and the member start (R440 to R444): its checks in their order,
and what an accepted start keeps. -/

namespace Sys2Proof.Machine

/-! ### Session creation -/

/-- Nothing has been written, delivered or decoded, and the registers hold their reset values. -/
theorem Inv.reset : Inv State.reset := by
  have registers : RegistersOk State.reset := ⟨V50Regs.ok_reset, V29Regs.ok_reset, V20Regs.ok_reset⟩
  obtain ⟨htables, harrays, haudio⟩ := registersOk_iff.mp registers
  exact {
    window := ⟨rfl, nofun⟩
    cursors := ⟨le_rfl, le_rfl, Nat.zero_le _⟩
    config := trivial
    phase := nofun
    lastLen := rfl
    tables := htables
    arrays := harrays
    audio := haudio
    code := rfl
    status := ⟨fun _ => .inl rfl, nofun, nofun⟩
    output := rfl
    position := le_rfl
    desc := rfl }

/-- Settles O19: the invariant by its parts; the other clauses are fields of the reset state. -/
theorem resetHasInvariant : Obligations.ResetHasInvariant :=
  ⟨.reset, rfl, rfl, rfl, rfl, rfl, rfl, rfl, rfl, rfl, rfl, rfl, rfl, rfl, rfl⟩

/-! ### Member start -/

section Start
variable {g : Gen} {solid : Bool} {size : BitVec 64} {log2 : Nat} {s : State}

theorem startEnabled_iff :
    startEnabled s = true ↔ s.status = .idle ∨ s.status = .done ∨ s.status = .error ∨ s.status = .refused := by
  simp only [startEnabled, Bool.or_eq_true, beq_iff_eq, or_assoc]

theorem isContinuation_iff : isContinuation solid s = true ↔ solid = true ∧ s.cfgGen ≠ none := by
  rw [isContinuation, Bool.and_eq_true, Option.isSome_iff_ne_none]

/-- The checks of R444 after the generation's. -/
theorem configRefused_iff {cont : Bool} : configRefused g log2 cont s = true ↔
    log2 < 16 ∨ 32 < log2 ∨ (cont = true ∧ s.cfgGen ≠ some g) ∨ (cont = true ∧ s.cfgWindowLog2 ≠ some log2) := by
  simp only [configRefused, Bool.or_eq_true, Bool.and_eq_true, decide_eq_true_eq, bne_iff_ne, gt_iff_lt, or_assoc]

theorem not_configRefused {cont : Bool} (hlow : 16 ≤ log2) (hhigh : log2 ≤ 32)
    (hsame : cont = true → s.cfgGen = some g ∧ s.cfgWindowLog2 = some log2) : ¬ configRefused g log2 cont s = true := by
  rw [configRefused_iff]
  rintro (hsmall | hlarge | ⟨hcont, hother⟩ | ⟨hcont, hother⟩)
  · omega
  · omega
  · exact hother (hsame hcont).1
  · exact hother (hsame hcont).2

theorem memberStart_v15 (hg : g = .v15) : memberStart g solid size log2 s = .next (raiseRefused .e10 s) := if_pos hg

theorem memberStart_refused (hg : g ≠ .v15) (h : configRefused g log2 (isContinuation solid s) s = true) :
    memberStart g solid size log2 s = .next (raiseRefused .e11 s) := (if_neg hg).trans (if_pos h)

theorem memberStart_accepted (hg : g ≠ .v15) (h : ¬ configRefused g log2 (isContinuation solid s) s = true) :
    memberStart g solid size log2 s = .next (acceptMember g (isContinuation solid s) size log2 s) :=
  (if_neg hg).trans (if_neg h)

end Start

/-- Settles O34: the start that is due is dropped, refused by the first check that fails, or accepted. -/
theorem memberStartCases : Obligations.MemberStartCases := by
  intro g solid size log2 s rest hevents u enabled cont fresh
  have enabled_iff : startEnabled u = true ↔ enabled := startEnabled_iff
  have cont_iff : isContinuation solid u = true ↔ cont := isContinuation_iff
  have dropped (h : ¬ enabled) : step s = .next u := by
    rw [step_of_events hevents, eventMove, if_neg (enabled_iff.not.mpr h)]
  have started (h : enabled) : step s = memberStart g solid size log2 u := by
    rw [step_of_events hevents, eventMove, if_pos (enabled_iff.mpr h)]
  refine ⟨dropped, fun h hg => ?_, fun h hg hconfig => ?_, fun h hg hlow hhigh hcont hgen hlog => ?_,
    fun h hg hlow hhigh hcont => ?_⟩ <;> rw [started h]
  · exact memberStart_v15 hg
  · refine memberStart_refused hg (configRefused_iff.mpr ?_)
    rwa [cont_iff]
  · have ok : ¬ configRefused g log2 (isContinuation solid u) u = true :=
      not_configRefused hlow hhigh fun _ => ⟨hgen, hlog⟩
    rw [memberStart_accepted hg ok, cont_iff.mpr hcont]
    rfl
  · have ok : ¬ configRefused g log2 (isContinuation solid u) u = true :=
      not_configRefused hlow hhigh fun hc => absurd (cont_iff.mp hc) hcont
    rw [memberStart_accepted hg ok, Bool.eq_false_iff.mpr (cont_iff.not.mpr hcont)]
    rfl

end Sys2Proof.Machine
end
